-- ==== Sys2Proof/Word.lean ====
section
/-! DEFINITION. The word types of the block (00_scope.md rule R6). -/

namespace Sys2Proof

/-- A command, operand or response word: 32 bits (rules R6, R62, R80). -/
abbrev Word := BitVec 32

/-- A byte of a buffer, of DMEM, or of a bus event (rules R62, R104). -/
abbrev Byte := BitVec 8

/-- The 8-bit name of a record (rule R100): bit 7 set for a pool record. -/
abbrev Handle := BitVec 8

end Sys2Proof
end

