-- ==== Sys2Proof/Syntax.lean ====
section
/-! DEFINITION. The command set: one constructor of Instr per row of spec/opcode_table.json. -/

namespace Sys2Proof

/-- DIR of a transaction (rule R28): 0 = write, 1 = read. -/
inductive Dir where
  | write
  | read
  deriving DecidableEq, Repr

/-- The callback table that bit t selects (rule R91): 0 = fast, 1 = slow. -/
inductive Table where
  | fast
  | slow
  deriving DecidableEq, Repr

/-- The record fields by the numbers of rule R101, in order; `reserved` is number 15. -/
inductive RecField where
  | addr7
  | dir
  | sendStop
  | byteCount
  | bufSel
  | extAddr
  | callback
  | context
  | inlineByte
  | chain
  | status
  | hwCode
  | valid
  | queued
  | alloc
  | reserved
  deriving DecidableEq, Repr

/-- The 13 commands (rules R80 to R94). A constructor's arguments are the fields that the command's layout
leaves free; the reserved fields are checked by the decoder (rule R97). -/
inductive Instr where
  /-- RESERVE n (rules R82, R140). -/
  | reserve (n : BitVec 8)
  /-- FREE h (rules R83, R141). -/
  | free (h : Handle)
  /-- SETUP h, a, d, s, c (rules R84, R120). -/
  | setup (h : Handle) (a : BitVec 7) (d : Dir) (stop : Bool) (c : BitVec 8)
  /-- WRREC h, f, i, V (rules R85, R121). -/
  | wrrec (h : Handle) (f : RecField) (i : BitVec 8) (v : Word)
  /-- RDREC h, f, i (rules R86, R122). -/
  | rdrec (h : Handle) (f : RecField) (i : BitVec 8)
  /-- SUBMIT b, h_0 .. h_(n-1) (rules R87, R162). -/
  | submit (b : Bool) (hs : List Handle)
  /-- CLKINIT epoch_seconds (rules R88, R230). -/
  | clkinit (e : Word)
  /-- NOWMS (rules R89, R232). -/
  | nowms
  /-- NOWUS (rules R90, R234). -/
  | nowus
  /-- CBREG t, cb, v (rules R91, R250). -/
  | cbreg (t : Table) (v : BitVec 16) (cb : BitVec 16)
  /-- CBUNREG t, cb (rules R92, R251). -/
  | cbunreg (t : Table) (cb : BitVec 16)
  /-- STATUS (rules R93, R280). -/
  | status
  /-- RETURN (rules R94, R281). -/
  | ret
  deriving DecidableEq, Repr

end Sys2Proof
end

