-- ==== Sys2Proof/WellFormed.lean ====
section
/-! DEFINITION. Which terms of Instr stand for words of the command stream. -/

namespace Sys2Proof

/-- A command is well formed when it has an encoding. Every argument has the width of its field, so only
SUBMIT's list needs a check: its count n is header[7:0], 0..255 (rules R80, R87). The checks that depend on
the block's parameters or state (handle range, field checks, cb = 0) are the command's own, and answer
ILLEGAL (rules R123, R102, R250). -/
def Instr.wellFormed : Instr → Bool
  | .submit _ hs => decide (hs.length ≤ 255)
  | .reserve _ | .free _ | .setup _ _ _ _ _ | .wrrec _ _ _ _ | .rdrec _ _ _ | .clkinit _ | .nowms | .nowus
  | .cbreg _ _ _ | .cbunreg _ _ | .status | .ret => true

end Sys2Proof
end

