-- ==== Sys2Proof/Decode.lean ====
section
/-! DEFINITION. The decoder (30_encoding.md rules R80 to R97, R107), total on any word list, and the
encoder written from the same layouts. -/

namespace Sys2Proof

/-! ### Field codes -/

/-- Rule R84: header bit d, 0 = write, 1 = read. -/
def Dir.ofBit (b : BitVec 1) : Dir := if b = 1#1 then .read else .write

/-- The DIR bit of a direction (rules R28, R84). -/
def Dir.bit : Dir → BitVec 1
  | .write => 0#1
  | .read => 1#1

/-- Rule R91: header bit t, 0 = fast table, 1 = slow table. -/
def Table.ofBit (b : BitVec 1) : Table := if b = 1#1 then .slow else .fast

/-- The header bit of a table (rule R91). -/
def Table.bit : Table → BitVec 1
  | .fast => 0#1
  | .slow => 1#1

/-- The field a number of rule R101 names. -/
def RecField.ofNum (f : BitVec 4) : RecField :=
  match f.toNat with
  | 0 => .addr7
  | 1 => .dir
  | 2 => .sendStop
  | 3 => .byteCount
  | 4 => .bufSel
  | 5 => .extAddr
  | 6 => .callback
  | 7 => .context
  | 8 => .inlineByte
  | 9 => .chain
  | 10 => .status
  | 11 => .hwCode
  | 12 => .valid
  | 13 => .queued
  | 14 => .alloc
  | _ => .reserved

/-- The field's number (rule R101). -/
def RecField.num : RecField → BitVec 4
  | .addr7 => 0#4
  | .dir => 1#4
  | .sendStop => 2#4
  | .byteCount => 3#4
  | .bufSel => 4#4
  | .extAddr => 5#4
  | .callback => 6#4
  | .context => 7#4
  | .inlineByte => 8#4
  | .chain => 9#4
  | .status => 10#4
  | .hwCode => 11#4
  | .valid => 12#4
  | .queued => 13#4
  | .alloc => 14#4
  | .reserved => 15#4

/-! ### The opcode table and the lengths -/

/-- One row of spec/opcode_table.json: the header words with `w &&& mask = pattern` are the command's. -/
structure OpcodeRow where
  mnemonic : String
  pattern : Word
  mask : Word
  deriving DecidableEq, Repr

/-- spec/opcode_table.json, in its order (opcodes 0x1 to 0xD). -/
def opcodeRows : List OpcodeRow :=
  [ ⟨"RESERVE", 0x10000000, 0xFFFFFF00⟩, ⟨"FREE", 0x20000000, 0xFFFFFF00⟩, ⟨"SETUP", 0x30000000, 0xFE000000⟩,
    ⟨"WRREC", 0x40000000, 0xFFF00000⟩, ⟨"RDREC", 0x50000000, 0xFFF00000⟩, ⟨"SUBMIT", 0x60000000, 0xFFFFFE00⟩,
    ⟨"CLKINIT", 0x70000000, 0xFFFFFFFF⟩, ⟨"NOWMS", 0x80000000, 0xFFFFFFFF⟩, ⟨"NOWUS", 0x90000000, 0xFFFFFFFF⟩,
    ⟨"CBREG", 0xA0000000, 0xFF0000FE⟩, ⟨"CBUNREG", 0xB0000000, 0xFFFFFFFE⟩, ⟨"STATUS", 0xC0000000, 0xFFFFFFFF⟩,
    ⟨"RETURN", 0xD0000000, 0xFFFFFFFF⟩ ]

/-- A header word is of a row when every fixed bit of the row has its value, the reserved ones among them. -/
def OpcodeRow.matches (r : OpcodeRow) (w : Word) : Bool := w &&& r.mask == r.pattern

/-- The mnemonic of a command in spec/opcode_table.json. -/
def mnemonicOf : Instr → String
  | .reserve _ => "RESERVE"
  | .free _ => "FREE"
  | .setup _ _ _ _ _ => "SETUP"
  | .wrrec _ _ _ _ => "WRREC"
  | .rdrec _ _ _ => "RDREC"
  | .submit _ _ => "SUBMIT"
  | .clkinit _ => "CLKINIT"
  | .nowms => "NOWMS"
  | .nowus => "NOWUS"
  | .cbreg _ _ _ => "CBREG"
  | .cbunreg _ _ => "CBUNREG"
  | .status => "STATUS"
  | .ret => "RETURN"

/-- The opcode OPC, header bits 31:28 (rule R81). -/
def opcodeOf (w : Word) : Nat := (w.extractLsb' 28 4).toNat

/-- The number of operand words, fixed by the header alone (rule R80): 0, 1, or n = header[7:0] for SUBMIT. -/
def operandCount (w : Word) : Nat :=
  match opcodeOf w with
  | 0x4 | 0x7 | 0xA | 0xB => 1
  | 0x6 => (w.extractLsb' 0 8).toNat
  | _ => 0

/-! ### The decoder -/

/-- Why a command's words stand for no command: both respond ILLEGAL (rules R96, R97). -/
inductive DecodeError where
  /-- Opcode 0x0, 0xE or 0xF (rule R96). -/
  | reservedOpcode
  /-- A non-zero reserved field in the header or in an operand word (rule R97). -/
  | reservedField
  deriving DecidableEq, Repr

/-- What the front of the command stream holds. -/
inductive Decoded where
  /-- A command, and the words after it. -/
  | instr (i : Instr) (rest : List Word)
  /-- An illegal encoding, all of whose words are consumed (rule R97), and the words after it. -/
  | illegal (why : DecodeError) (rest : List Word)
  /-- Fewer words than the header asks for: the block never sees a partial command (rule R80). -/
  | incomplete
  deriving DecidableEq, Repr

/-- The handle of a SUBMIT operand word, whose bits 31:8 are 0 (rule R87). -/
def operandHandle (w : Word) : Handle := w.extractLsb' 0 8

/-- The callback identifier of a CBREG or CBUNREG operand word, whose bits 31:16 are 0 (rules R91, R92). -/
def operandCb (w : Word) : BitVec 16 := w.extractLsb' 0 16

/-- A header word and its operand words (as many as `operandCount` says) as a command, or the reason why
they are none. The masks are opcode_table.json's; the layouts are rules R82 to R94. -/
def decodeCommand (w : Word) (ops : List Word) : Except DecodeError Instr :=
  match opcodeOf w with
  | 0x1 =>
    if w &&& 0xFFFFFF00#32 = 0x10000000#32 then .ok (.reserve (w.extractLsb' 0 8)) else .error .reservedField
  | 0x2 =>
    if w &&& 0xFFFFFF00#32 = 0x20000000#32 then .ok (.free (w.extractLsb' 0 8)) else .error .reservedField
  | 0x3 =>
    if w &&& 0xFE000000#32 = 0x30000000#32 then
      .ok (.setup (w.extractLsb' 0 8) (w.extractLsb' 8 7) (Dir.ofBit (w.extractLsb' 15 1)) (w.getLsbD 16)
        (w.extractLsb' 17 8))
    else .error .reservedField
  | 0x4 =>
    if w &&& 0xFFF00000#32 = 0x40000000#32 then
      .ok (.wrrec (w.extractLsb' 0 8) (RecField.ofNum (w.extractLsb' 8 4)) (w.extractLsb' 12 8) (ops.headD 0#32))
    else .error .reservedField
  | 0x5 =>
    if w &&& 0xFFF00000#32 = 0x50000000#32 then
      .ok (.rdrec (w.extractLsb' 0 8) (RecField.ofNum (w.extractLsb' 8 4)) (w.extractLsb' 12 8))
    else .error .reservedField
  | 0x6 =>
    if w &&& 0xFFFFFE00#32 = 0x60000000#32 ∧ ops.all (fun o => o &&& 0xFFFFFF00#32 == 0#32) then
      .ok (.submit (w.getLsbD 8) (ops.map operandHandle))
    else .error .reservedField
  | 0x7 => if w = 0x70000000#32 then .ok (.clkinit (ops.headD 0#32)) else .error .reservedField
  | 0x8 => if w = 0x80000000#32 then .ok .nowms else .error .reservedField
  | 0x9 => if w = 0x90000000#32 then .ok .nowus else .error .reservedField
  | 0xA =>
    if w &&& 0xFF0000FE#32 = 0xA0000000#32 ∧ ops.headD 0#32 &&& 0xFFFF0000#32 = 0#32 then
      .ok (.cbreg (Table.ofBit (w.extractLsb' 0 1)) (w.extractLsb' 8 16) (operandCb (ops.headD 0#32)))
    else .error .reservedField
  | 0xB =>
    if w &&& 0xFFFFFFFE#32 = 0xB0000000#32 ∧ ops.headD 0#32 &&& 0xFFFF0000#32 = 0#32 then
      .ok (.cbunreg (Table.ofBit (w.extractLsb' 0 1)) (operandCb (ops.headD 0#32)))
    else .error .reservedField
  | 0xC => if w = 0xC0000000#32 then .ok .status else .error .reservedField
  | 0xD => if w = 0xD0000000#32 then .ok .ret else .error .reservedField
  | _ => .error .reservedOpcode

/-- The decoder of the command stream (rules R80, R107): the command at its front, its length taken from the
header alone, and the words after it. -/
def decode : List Word → Decoded
  | [] => .incomplete
  | w :: more =>
    if more.length < operandCount w then .incomplete
    else
      match decodeCommand w (more.take (operandCount w)) with
      | .ok i => .instr i (more.drop (operandCount w))
      | .error e => .illegal e (more.drop (operandCount w))

/-! ### The encoder -/

/-- The header word of a command: each layout of rules R82 to R94 from bit 31 down to bit 0. -/
def encodeHeader : Instr → Word
  | .reserve n => 0x1#4 ++ 0#20 ++ n
  | .free h => 0x2#4 ++ 0#20 ++ h
  | .setup h a d stop c => 0x3#4 ++ 0#3 ++ c ++ BitVec.ofBool stop ++ d.bit ++ a ++ h
  | .wrrec h f i _ => 0x4#4 ++ 0#8 ++ i ++ f.num ++ h
  | .rdrec h f i => 0x5#4 ++ 0#8 ++ i ++ f.num ++ h
  | .submit b hs => 0x6#4 ++ 0#19 ++ BitVec.ofBool b ++ BitVec.ofNat 8 hs.length
  | .clkinit _ => 0x7#4 ++ 0#28
  | .nowms => 0x8#4 ++ 0#28
  | .nowus => 0x9#4 ++ 0#28
  | .cbreg t v _ => 0xA#4 ++ 0#4 ++ v ++ 0#7 ++ t.bit
  | .cbunreg t _ => 0xB#4 ++ 0#27 ++ t.bit
  | .status => 0xC#4 ++ 0#28
  | .ret => 0xD#4 ++ 0#28

/-- The operand words of a command (rules R80, R85, R87, R88, R91, R92). -/
def encodeOperands : Instr → List Word
  | .wrrec _ _ _ v => [v]
  | .submit _ hs => hs.map fun h => 0#24 ++ h
  | .clkinit e => [e]
  | .cbreg _ _ cb => [0#16 ++ cb]
  | .cbunreg _ cb => [0#16 ++ cb]
  | .reserve _ | .free _ | .setup _ _ _ _ _ | .rdrec _ _ _ | .nowms | .nowus | .status | .ret => []

/-- The words of a well-formed command. -/
def encode (i : Instr) : List Word := encodeHeader i :: encodeOperands i

/-! ### The opcode table's numbering -/

/-- The words of the command whose bits are the number v: bit 0 is the least significant bit of the header,
bits 63:32 are the first operand word, and so on; as many words as the header asks for. -/
def tableWords (v : Nat) : List Word :=
  BitVec.ofNat 32 v ::
    (List.range (operandCount (BitVec.ofNat 32 v))).map fun k => BitVec.ofNat 32 (v >>> (32 * (k + 1)))

/-- The command the decoder reads from the low nbits bits of w, every bit above them 0. -/
def decodeTableWord (nbits w : Nat) : Option Instr :=
  match decode (tableWords (w % 2 ^ nbits)) with
  | .instr i _ => some i
  | .illegal _ _ => none
  | .incomplete => none

end Sys2Proof
end

