-- ==== Sys2Proof/Config.lean ====
section
/-! DEFINITION. The implementation parameters of 00_scope.md rule R5, and the one free value. -/

namespace Sys2Proof

/-- RATCHET_COMPARE (rule R5): the order in which the clock's ratchet compares. -/
inductive RatchetCompare where
  | unsigned
  | halfRange
  deriving DecidableEq, Repr

/-- The parameters of rule R5, which the model takes as arguments. A machine carries its own in the field
`cfg` of its State, and no step changes them (notes/assumptions/1.md). -/
structure Config where
  /-- POOL_CAP, the number of pool records. -/
  poolCap : Nat
  /-- CALLER_CAP, the number of caller-owned record slots. -/
  callerCap : Nat
  /-- QUEUE_CAP, the number of queue slots. -/
  queueCap : Nat
  /-- INLINE_BYTES, the bytes of each record's inline buffer. -/
  inlineBytes : Nat
  /-- CB_FAST_CAP, the entries of the fast callback table. -/
  cbFastCap : Nat
  /-- CB_SLOW_CAP, the entries of the slow callback table. -/
  cbSlowCap : Nat
  /-- DMEM_AW, the width of a data-memory address in bits. -/
  dmemAw : Nat
  /-- FINE_HZ, informative: no rule reads it (rule R370). -/
  fineHz : Nat
  msMul : Nat
  msShift : Nat
  usMul : Nat
  usShift : Nat
  /-- HAS_COARSE: a coarse tick source exists. -/
  hasCoarse : Bool
  /-- RATCHET_COMPARE. -/
  ratchet : RatchetCompare
  codeStart : Byte
  codeRepStart : Byte
  codeSlawAck : Byte
  codeSlarAck : Byte
  codeTxAck : Byte
  codeRxAck : Byte
  codeRxNack : Byte
  deriving DecidableEq, Repr

/-- The legal ranges of rule R5's table (the bus codes and FINE_HZ may be anything). -/
structure Config.Legal (c : Config) : Prop where
  pool : 1 ≤ c.poolCap ∧ c.poolCap ≤ 128
  caller : c.callerCap ≤ 128
  queue : 1 ≤ c.queueCap ∧ c.queueCap ≤ 255
  inlineBytes : 1 ≤ c.inlineBytes ∧ c.inlineBytes ≤ 255
  cbFast : c.cbFastCap ≤ 255
  cbSlow : c.cbSlowCap ≤ 255
  dmemAw : 1 ≤ c.dmemAw ∧ c.dmemAw ≤ 32
  ms : c.msMul < 2 ^ 32 ∧ c.msShift < 64
  us : c.usMul < 2 ^ 32 ∧ c.usShift < 64

/-- The vector values: the last column of rule R5's table, which every vector of 95_test_vectors.md uses.
They are no claim about the original hardware. -/
def Config.vector : Config where
  poolCap := 4
  callerCap := 4
  queueCap := 4
  inlineBytes := 16
  cbFastCap := 4
  cbSlowCap := 4
  dmemAw := 16
  fineHz := 1024
  msMul := 1000
  msShift := 10
  usMul := 1000000
  usShift := 10
  hasCoarse := true
  ratchet := .unsigned
  codeStart := 0x08
  codeRepStart := 0x10
  codeSlawAck := 0x18
  codeSlarAck := 0x40
  codeTxAck := 0x28
  codeRxAck := 0x50
  codeRxNack := 0x58

/-- FREE VALUE (notes/assumptions/4.md): the order in which the due callbacks of one tick are delivered
(rules R252 and R254: "any element", I24 of 93_implementation_defined.md), for the draws that the
environment's list `picks` does not settle. No body: nothing can be proved of its values. -/
opaque Config.freePick : Nat → Nat

end Sys2Proof
end

