-- ==== Sys2Proof/Machine/State.lean ====
section
/-! DEFINITION. The state of the block (10_state.md rules R20 to R36) as plain data, what drives it (the host,
the bus controller, the tick sources), its reset value (70_reset_and_hazards.md rule R350), and the reasons a
step can stop. -/

namespace Sys2Proof.Machine

/-! ### The engine and the bus (rules R21, R25, R103) -/

/-- ST, the engine state register, in the order of rule R21's encodings. -/
inductive EngineState where
  | idle
  | start
  | address
  | addressAck
  | dataCheck
  | dataSend
  | stop
  | error
  deriving DecidableEq, Repr

/-- The kind of the outstanding bus command (rule R25); NONE is `none`. -/
inductive BusOut where
  | start
  | addr
  | tx
  | rx
  deriving DecidableEq, Repr

/-- A bus command that the engine issues (rule R103). -/
inductive BusCmd where
  | start
  | addr (b : Byte)
  | tx (b : Byte)
  | rx (ack : Bool)
  | stop
  deriving DecidableEq, Repr

/-- A bus event (rule R104): the raw controller status and the received byte. -/
structure BusEvent where
  code : Byte
  data : Byte
  deriving DecidableEq, Repr

/-- The phase in which a transaction failed (rule R301). -/
inductive Phase where
  | start
  | address
  | data
  deriving DecidableEq, Repr

/-! ### The record file (rule R28) -/

/-- BUF_SEL: which buffer of a record is active (0 = inline, 1 = external). -/
inductive BufSel where
  | inlineBuffer
  | externalBuffer
  deriving DecidableEq, Repr

/-- One transaction record (rule R28). EXT_ADDR has DMEM_AW bits, at most 32 (rule R5); INLINE has
INLINE_BYTES bytes (DEDUCED, safe: notes/assumptions/13.md). The ALLOC bit of a pool record stands in the pool's bitmap (rule R27). -/
structure Record where
  addr7 : BitVec 7
  dir : Dir
  sendStop : Bool
  byteCount : BitVec 8
  bufSel : BufSel
  extAddr : BitVec 32
  /-- CALLBACK, 0 = none. -/
  callback : BitVec 16
  context : BitVec 32
  /-- INLINE[0..INLINE_BYTES-1]. -/
  inl : List Byte
  chain : Bool
  status : BitVec 16
  hwCode : Byte
  valid : Bool
  queued : Bool
  deriving DecidableEq, Repr

/-! ### The callback tables (rule R30) -/

/-- One entry of a callback table. -/
structure CbEntry where
  cb : BitVec 16
  ctr : BitVec 16
  div : BitVec 16
  deriving DecidableEq, Repr

/-- A callback table: COUNT and all of E[0..CAP-1], of which the entries below COUNT are live. -/
structure CbTable where
  count : Nat
  entries : List CbEntry
  deriving DecidableEq, Repr

/-! ### Notifications, contexts and responses (rules R31, R32, R98, R106, R302) -/

/-- A due periodic callback whose notification is not yet delivered (rule R32). -/
structure DueEntry where
  table : Table
  index : BitVec 8
  callback : BitVec 16
  deriving DecidableEq, Repr

/-- NTF, the notification register (rules R31, R106). -/
inductive Ntf where
  | none
  | txn (handle : Handle) (callback : BitVec 16) (context : BitVec 32) (status : BitVec 16) (hwCode : Byte)
  | tick (table : Table) (index : BitVec 8) (callback : BitVec 16) (arg : BitVec 8)
  deriving DecidableEq, Repr

/-- The two contexts of the host (rules R310, R315): the handler's while a notification is pending. -/
inductive Context where
  | background
  | handler
  deriving DecidableEq, Repr

/-- The result codes (rule R99). -/
inductive ResultCode where
  | ok
  | noSpace
  | full
  | illegal
  deriving DecidableEq, Repr

/-- A delivered response (rule R98): its result code and its data words, and the context that issued the command
(DESIGN CHOICE, safe: notes/assumptions/10.md). -/
structure Response where
  ctx : Context
  code : ResultCode
  data : List Word
  deriving DecidableEq, Repr

/-- The reasons in the FAULT register (rule R302). -/
inductive FaultReason where
  | queuedRecord
  | notAllocated
  | notSetUp
  | duplicateHandle
  | bufferRange
  | tableInDispatch
  deriving DecidableEq, Repr

/-! ### The data memory (rule R35) -/

/-- DMEM: the bytes that differ from what an unlisted address reads as, by strictly rising address. -/
abbrev Memory := List Host.Cell

/-! ### The agents' actions (rules R20, R67) -/

/-- One step of an agent, in the interleaving that the environment chose (rule R314, notes/assumptions/2.md). -/
inductive Action where
  /-- The host issues the command at the front of the command stream (rules R282, R309, R311). -/
  | command
  /-- The bus controller answers the outstanding command (rules R104, R305). -/
  | busEvent (code data : Byte)
  /-- The fine tick source steps (rules R236, R306). -/
  | fineTick
  /-- The coarse tick source steps (rules R237, R307). -/
  | coarseTick
  /-- The hold of a blocking SUBMIT issued in background context is lifted (rule R163). -/
  | liftBackground
  /-- The hold of a blocking SUBMIT issued in handler context is lifted (rule R163). -/
  | liftHandler
  /-- The host writes a byte of DMEM directly (rules R35, R60, R68). -/
  | hostWrite (address : Nat) (value : Byte)
  deriving DecidableEq, Repr

/-! ### Why a step stops -/

/-- A stop of the machine with a reason. -/
inductive Fault where
  /-- Raised by `step` in a state whose FAULT register is set: the block is quiescent and no agent steps
  (rule R303). Safe: the spec says that nothing happens (DEDUCED: notes/assumptions/9.md). -/
  | quiescent (r : FaultReason)
  /-- Raised by the engine's buffer access and by the host's direct access at an address that DMEM, of
  2^DMEM_AW bytes, does not have (rules R35, R63). Safe: the machine stops. The engine never meets it from
  reset, since SUBMIT checks the range (rule R61). DEDUCED: notes/assumptions/11.md. -/
  | noSuchAddress (address : Nat)
  /-- Raised by the engine's buffer access at an inline byte that the record does not have. Safe: never
  met from reset, since SUBMIT checks the range (rules R61, R162). DEDUCED: notes/assumptions/11.md. -/
  | noSuchInlineByte (index : Nat)
  /-- Raised by the engine where it is entered in a state in which the rules give it no arm (a wait state with
  no event, no current transaction, ST = ERROR with no failed check). Safe: never met from reset (rules R38, R180).
  DEDUCED: notes/assumptions/11.md. -/
  | engineInconsistent
  deriving DecidableEq, Repr

/-- No step of the spec exists. -/
inductive Refusal where
  /-- An instruction that has no meaning yet. Safe. No arm of exec answers it. -/
  | notModelled (mnemonic : String)
  /-- Raised by `step`: the action that the environment proposes is not enabled in this state (rules R305 to
  R309), so the spec has no such step; and by `waitStep` for an act of a background context that is in a call of
  PeriodicWait (rule R274, notes/assumptions/15.md). Safe: no behaviour of the spec is dropped, since another action may
  be proposed. DESIGN CHOICE: notes/assumptions/2.md. -/
  | notEnabled (a : Action)
  /-- Raised by `step`: the command stream holds fewer words than the command's length. The block never sees a
  partial command (rule R80). Safe. DEDUCED: notes/assumptions/12.md. -/
  | partialCommand
  deriving DecidableEq, Repr

/-! ### The state -/

/-- The state of the block, rule R20's tuple field by field, then DMEM, and last the model's own fields (the
parameters, the command port's two ends and the environment's choices). -/
structure State where
  /-- The parameters of rule R5: fixed for the machine, changed by no step. -/
  cfg : Config
  /-- ST (rule R21). -/
  st : EngineState
  /-- BUSY (rule R22). -/
  busy : Bool
  /-- CUR (rule R23). -/
  cur : Option Handle
  /-- IDX (rule R24). -/
  idx : BitVec 8
  /-- BUS_OUT (rule R25). -/
  busOut : Option BusOut
  /-- QSLOT[0..QUEUE_CAP-1] (rule R26). -/
  qslot : List Handle
  /-- Q_RD (rule R26). -/
  qRd : Nat
  /-- Q_COUNT (rule R26). -/
  qCount : Nat
  /-- ALLOC[0..POOL_CAP-1] (rule R27). -/
  alloc : List Bool
  /-- The pool records (rule R28). -/
  pool : List Record
  /-- The caller-owned records (rule R28). -/
  caller : List Record
  /-- FINE (rule R29). -/
  fine : BitVec 32
  /-- COARSE_MS (rule R29). -/
  coarseMs : BitVec 32
  /-- LAST_MS (rule R29). -/
  lastMs : BitVec 32
  /-- LAST_US (rule R29). -/
  lastUs : BitVec 64
  /-- FAST (rule R30). -/
  fast : CbTable
  /-- SLOW (rule R30). -/
  slow : CbTable
  /-- NTF (rule R31). -/
  ntf : Ntf
  /-- TICK_DUE (rule R32), each triple once, by rising index (DEDUCED, safe: notes/assumptions/13.md). -/
  tickDue : List DueEntry
  /-- BG_HOLD (rule R33): true = HELD. -/
  bgHold : Bool
  /-- H_HOLD (rule R33): true = HELD. -/
  hHold : Bool
  /-- FAULT (rule R34). -/
  fault : Option FaultReason
  /-- BUSLOG (rule R36), oldest first. -/
  busLog : List BusCmd
  /-- DMEM (rule R35). -/
  dmem : Memory
  /-- The command stream (rule R80): the words the host has issued and the block has not yet taken. -/
  port : List Word
  /-- The responses delivered so far (rules R98, R282), oldest first (notes/assumptions/10.md). -/
  responses : List Response
  /-- The interleaving the environment chose: the agents' next actions, next first (notes/assumptions/2.md). -/
  agenda : List Action
  /-- The environment's choices of the next due callback (rules R252, R254), next first (notes/assumptions/4.md). -/
  picks : List Nat
  /-- How many such choices were free values (notes/assumptions/4.md). -/
  draws : Nat
  deriving DecidableEq, Repr

/-! ### Reset (rule R350) -/

/-- A record at reset: VALID = QUEUED = 0 (rule R350). The other fields are unspecified there; the model names
zero for each (notes/assumptions/5.md, DESIGN CHOICE). -/
def Record.atReset (inlineBytes : Nat) : Record where
  addr7 := 0
  dir := .write
  sendStop := false
  byteCount := 0
  bufSel := .inlineBuffer
  extAddr := 0
  callback := 0
  context := 0
  inl := List.replicate inlineBytes 0
  chain := false
  status := 0
  hwCode := 0
  valid := false
  queued := false

/-- A callback table at reset: COUNT = 0 (rule R350); the entries are unspecified, and the model names zero
(notes/assumptions/5.md, DESIGN CHOICE). -/
def CbTable.atReset (cap : Nat) : CbTable where
  count := 0
  entries := List.replicate cap ⟨0, 0, 0⟩

/-- Power-on reset of a block with the given parameters (rule R350). -/
def State.resetWith (c : Config) : State where
  cfg := c
  st := .idle
  busy := false
  cur := none
  idx := 0
  busOut := none
  qslot := List.replicate c.queueCap 0
  qRd := 0
  qCount := 0
  alloc := List.replicate c.poolCap false
  pool := List.replicate c.poolCap (Record.atReset c.inlineBytes)
  caller := List.replicate c.callerCap (Record.atReset c.inlineBytes)
  fine := 0
  coarseMs := 0
  lastMs := 0
  lastUs := 0
  fast := CbTable.atReset c.cbFastCap
  slow := CbTable.atReset c.cbSlowCap
  ntf := .none
  tickDue := []
  bgHold := false
  hHold := false
  fault := none
  busLog := []
  dmem := []
  port := []
  responses := []
  agenda := []
  picks := []
  draws := 0

/-- Power-on reset of the block with the vector parameters of rule R5 (notes/assumptions/1.md). -/
def State.reset : State := State.resetWith Config.vector

end Sys2Proof.Machine
end

