-- ==== Sys2Proof/Machine/Ops.lean ====
section
/-! DEFINITION. The named operations over memory, records, queue, pool and ports that the meanings share: the
pseudocode primitives of 00_scope.md rule R8, the primitives of rules R61, R142, R160 and R161, and raising a
fault (rule R302) and entering and leaving handler context (rules R310, R312). -/

namespace Sys2Proof.Machine

/-- What a step answers. -/
abbrev Result := Host.Outcome State Fault Refusal

/-- Goes on from the next state; a fault or a refusal ends the step. -/
def andThen (o : Result) (f : State → Result) : Result :=
  match o with
  | .next s => f s
  | .fault r => .fault r
  | .refused r => .refused r

/-! ### DMEM (rules R8, R35, R64) -/

/-- What a byte of DMEM that nothing has written reads as (rule R35: unspecified; notes/assumptions/6.md,
DESIGN CHOICE). -/
def dmemUnwritten : Byte := 0

/-- DMEM[a] of a memory list. -/
def memLookup : Memory → Nat → Byte
  | [], _ => dmemUnwritten
  | (k, v) :: rest, a => if k = a then v else memLookup rest a

/-- DMEM[a] ← v, keeping the canonical form: strictly rising addresses, no entry equal to `dmemUnwritten`. -/
def memStore : Memory → Nat → Byte → Memory
  | [], a, v => if v = dmemUnwritten then [] else [(a, v)]
  | (k, w) :: rest, a, v =>
    if a < k then (if v = dmemUnwritten then (k, w) :: rest else (a, v) :: (k, w) :: rest)
    else if a = k then (if v = dmemUnwritten then rest else (a, v) :: rest)
    else (k, w) :: memStore rest a v

/-- Every address of a memory list is above a. -/
def memAbove (a : Nat) : Memory → Bool
  | [] => true
  | (k, _) :: _ => decide (a < k)

/-- The canonical form: addresses strictly rising, no entry equal to what an unlisted address reads as. -/
def Memory.wf : Memory → Bool
  | [] => true
  | (k, v) :: rest => memAbove k rest && decide (v ≠ dmemUnwritten) && Memory.wf rest

/-- DMEM has 2^DMEM_AW bytes (rule R35). -/
def dmemHas (c : Config) (a : Nat) : Bool := decide (a < 2 ^ c.dmemAw)

/-- MemRead(a, 1) (rule R8); `none` where DMEM has no such byte. -/
def memRead (s : State) (a : Nat) : Option Byte := if dmemHas s.cfg a then some (memLookup s.dmem a) else none

/-- MemWrite(a, 1, v) (rule R8). -/
def memWrite (s : State) (a : Nat) (v : Byte) : Result :=
  if dmemHas s.cfg a then .next { s with dmem := memStore s.dmem a v } else .fault (.noSuchAddress a)

/-! ### Handles and records (rules R8, R28, R100) -/

/-- IsPool(h) = h[7] (rule R100). -/
def isPool (h : Handle) : Bool := h.getLsbD 7

/-- The record index h[6:0] (rule R100). -/
def handleIndex (h : Handle) : Nat := (h.extractLsb' 0 7).toNat

/-- The handle of pool record i, 0x80 + i (rule R100). -/
def poolHandle (i : Nat) : Handle := BitVec.ofNat 8 (0x80 + i)

/-- The handle of caller record j, j (rule R100). -/
def callerHandle (j : Nat) : Handle := BitVec.ofNat 8 j

/-- rec(h), the record that handle h names (rule R8). Every use has h in range (rule R123 at the commands, rule
R38 items 2 and 3 in the engine); a list with no such entry is no record file of rule R28. -/
def recAt (s : State) (h : Handle) : Record :=
  if isPool h then s.pool.getD (handleIndex h) (Record.atReset s.cfg.inlineBytes)
  else s.caller.getD (handleIndex h) (Record.atReset s.cfg.inlineBytes)

/-- rec(h) ← r. -/
def setRec (s : State) (h : Handle) (r : Record) : State :=
  if isPool h then { s with pool := s.pool.set (handleIndex h) r }
  else { s with caller := s.caller.set (handleIndex h) r }

/-- ALLOC[h[6:0]] of a pool handle (rule R27). -/
def allocAt (s : State) (h : Handle) : Bool := s.alloc.getD (handleIndex h) false

/-- ALLOC[h[6:0]] ← b. -/
def setAlloc (s : State) (h : Handle) (b : Bool) : State := { s with alloc := s.alloc.set (handleIndex h) b }

/-- The free pool records, ascending (rule R140). -/
def freeRecords (s : State) : List Nat := (List.range s.cfg.poolCap).filter fun i => !s.alloc.getD i false

/-- pool_free (rule R27). -/
def poolFree (s : State) : Nat := (freeRecords s).length

/-- Release(h), the end of the block's ownership of record h (rule R142). -/
def release (s : State) (h : Handle) : State :=
  if isPool h then setAlloc (setRec s h { recAt s h with queued := false }) h false
  else setRec s h { recAt s h with queued := false }

/-! ### Buffer access by the engine (rule R61) -/

/-- BufRead(r, i) then the rest of the engine's arm. -/
def withBufRead (s : State) (r : Record) (i : Nat) (f : Byte → State) : Result :=
  match r.bufSel with
  | .inlineBuffer =>
    match r.inl[i]? with
    | some b => .next (f b)
    | none => .fault (.noSuchInlineByte i)
  | .externalBuffer =>
    match memRead s (r.extAddr.toNat + i) with
    | some b => .next (f b)
    | none => .fault (.noSuchAddress (r.extAddr.toNat + i))

/-- BufWrite(rec(h), i, v). -/
def bufWrite (s : State) (h : Handle) (i : Nat) (v : Byte) : Result :=
  match (recAt s h).bufSel with
  | .inlineBuffer =>
    if i < (recAt s h).inl.length then .next (setRec s h { recAt s h with inl := (recAt s h).inl.set i v })
    else .fault (.noSuchInlineByte i)
  | .externalBuffer => memWrite s ((recAt s h).extAddr.toNat + i) v

/-! ### The queue (rules R26, R160, R161) -/

/-- The index of entry k, (Q_RD + k) mod QUEUE_CAP (rule R26). -/
def qIndex (s : State) (k : Nat) : Nat := (s.qRd + k) % s.cfg.queueCap

/-- Live entry k, entry 0 the oldest (rule R26). -/
def qEntry (s : State) (k : Nat) : Handle := s.qslot.getD (qIndex s k) 0#8

/-- The live entries, oldest first (rule R26). -/
def liveEntries (s : State) : List Handle := (List.range s.qCount).map (qEntry s)

/-- QPush(h) (rule R160). -/
def qPush (s : State) (h : Handle) : State :=
  { s with qslot := s.qslot.set (qIndex s s.qCount) h, qCount := s.qCount + 1 }

/-- What QPop() returns: the oldest entry, QSLOT[Q_RD] (rule R161). -/
def qOldest (s : State) : Handle := s.qslot.getD s.qRd 0#8

/-- QPop()'s effect (rule R161): the slot it leaves keeps its contents. -/
def qPop (s : State) : State :=
  { s with qRd := (s.qRd + 1) % s.cfg.queueCap, qCount := s.qCount - 1 }

/-! ### The bus port (rules R8, R25, R103) -/

/-- The outstanding command after issuing c: STOP is answered by no event and leaves it (rule R25). -/
def outstandingAfter (old : Option BusOut) : BusCmd → Option BusOut
  | .start => some .start
  | .addr _ => some .addr
  | .tx _ => some .tx
  | .rx _ => some .rx
  | .stop => old

/-- BusCmd(c): issues bus command c and appends it to BUSLOG (rule R8). -/
def busCmd (c : BusCmd) (s : State) : State :=
  { s with busLog := s.busLog ++ [c], busOut := outstandingAfter s.busOut c }

/-! ### Responses, faults, handler context (rules R8, R98, R302, R310) -/

/-- The context in which the host issues a command: the handler's while a notification is pending (rules R310, R315). -/
def contextOf (s : State) : Context :=
  match s.ntf with
  | .none => .background
  | .txn _ _ _ _ _ => .handler
  | .tick _ _ _ _ => .handler

/-- Delivers a response to a context (rule R98). -/
def deliver (ctx : Context) (code : ResultCode) (data : List Word) (s : State) : State :=
  { s with responses := s.responses ++ [⟨ctx, code, data⟩] }

/-- respond(code, w1, ..): ends the command that was issued in context ctx (rule R8). -/
def respond (ctx : Context) (code : ResultCode) (data : List Word) (s : State) : Result :=
  .next (deliver ctx code data s)

/-- respond(ILLEGAL): no other effect (rules R97, R300). -/
def respondIllegal (s : State) : Result := respond (contextOf s) .illegal [] s

/-- raise Fault(reason): sets FAULT and ends the command, which gets no response and has no other effect
(rules R302, R303; notes/assumptions/9.md). -/
def raiseFault (r : FaultReason) (s : State) : Result := .next { s with fault := some r }

/-- Notify(p): NTF ← p, which enters handler context (rules R8, R188, R310). Nothing is saved. -/
def notify (p : Ntf) (s : State) : State := { s with ntf := p }

/-- NTF ← NONE, which leaves handler context (rule R312). Nothing else is restored. -/
def leaveHandler (s : State) : State := { s with ntf := .none }

/-! ### Draws (rules R8, R252, R254) -/

/-- pick: an index below n ≥ 2, the environment's next choice, or a free value where it made none
(notes/assumptions/4.md). -/
def drawIndex (s : State) (n : Nat) : Nat :=
  match s.picks with
  | k :: _ => k % n
  | [] => Config.freePick s.draws % n

/-- The state after that draw. -/
def afterDraw (s : State) : State :=
  match s.picks with
  | _ :: more => { s with picks := more }
  | [] => { s with draws := s.draws + 1 }

end Sys2Proof.Machine
end

