-- ==== Sys2Proof/Machine/Flags.lean ====
section
/-! DEFINITION. Status words and codes: ST and FAULT encodings (rules R21, R302), the result word (rules R98,
R99), a record's STATUS (rule R301), the STATUS command's word (rule R280). The block's one flag is BUSY (rule R37). -/

namespace Sys2Proof.Machine

/-- The encodings of ST (rule R21). -/
def EngineState.code : EngineState → BitVec 3
  | .idle => 0
  | .start => 1
  | .address => 2
  | .addressAck => 3
  | .dataCheck => 4
  | .dataSend => 5
  | .stop => 6
  | .error => 7

/-- The codes of the fault reasons (rule R302). -/
def FaultReason.code : FaultReason → Nat
  | .queuedRecord => 1
  | .notAllocated => 2
  | .notSetUp => 3
  | .duplicateHandle => 4
  | .bufferRange => 5
  | .tableInDispatch => 6

/-- The result codes (rule R99). -/
def ResultCode.num : ResultCode → BitVec 4
  | .ok => 0
  | .noSpace => 1
  | .full => 2
  | .illegal => 3

/-- A response as words: the result word, then the data words (rule R98). -/
def Response.words (r : Response) : List Word := r.code.num.setWidth 32 :: r.data

/-- STATUS[7:0] of a failed transaction (rule R301). -/
def Phase.num : Phase → BitVec 8
  | .start => 1
  | .address => 2
  | .data => 3

/-- The STATUS of a transaction that failed in phase p with IDX bytes done (rules R189, R301). -/
def failureStatus (p : Phase) (idx : BitVec 8) : BitVec 16 :=
  match p with
  | .start => 0#8 ++ Phase.start.num
  | .address => 0#8 ++ Phase.address.num
  | .data => idx ++ Phase.data.num

/-- The notification kind in STATUS bits 5:4 (rule R280). -/
def ntfKind : Ntf → BitVec 2
  | .none => 0
  | .txn _ _ _ _ _ => 1
  | .tick _ _ _ _ => 2

/-- The STATUS command's word, from bit 31 down (rule R280). -/
def statusWord (s : State) : Word :=
  0#8 ++ BitVec.ofNat 8 (poolFree s) ++ BitVec.ofNat 8 s.qCount ++ 0#1 ++ BitVec.ofBool s.busOut.isSome ++
    ntfKind s.ntf ++ BitVec.ofBool s.busy ++ s.st.code

end Sys2Proof.Machine
end

