-- ==== Sys2Proof/Machine/Operands.lean ====
section
/-! DEFINITION. The operand forms of the commands: handle range (rule R123), host-duty check (rule R124), record
fields by number (rules R101, R102, R121, R122) and the table that bit t selects (45_scheduler.md). -/

namespace Sys2Proof.Machine

/-! ### Handles -/

/-- CheckHandle(h): the index is in range for its kind (rules R100, R123). -/
def handleInRange (c : Config) (h : Handle) : Bool :=
  if isPool h then decide (handleIndex h < c.poolCap) else decide (handleIndex h < c.callerCap)

/-- CheckHostWritable(h): the fault it raises, if any (rule R124). -/
def hostWritableFault (s : State) (h : Handle) : Option FaultReason :=
  if isPool h && !allocAt s h then some .notAllocated
  else if (recAt s h).queued then some .queuedRecord
  else none

/-! ### Record fields -/

/-- The width of a field in bits (rule R101); the reserved number has none. -/
def fieldWidth (c : Config) : RecField → Nat
  | .addr7 => 7
  | .dir => 1
  | .sendStop => 1
  | .byteCount => 8
  | .bufSel => 1
  | .extAddr => c.dmemAw
  | .callback => 16
  | .context => 32
  | .inlineByte => 8
  | .chain => 1
  | .status => 16
  | .hwCode => 8
  | .valid => 1
  | .queued => 1
  | .alloc => 1
  | .reserved => 0

/-- The host-writable fields, numbers 0 to 8 (rule R101). -/
def fieldWritable : RecField → Bool
  | .addr7 | .dir | .sendStop | .byteCount | .bufSel | .extAddr | .callback | .context | .inlineByte => true
  | .chain | .status | .hwCode | .valid | .queued | .alloc | .reserved => false

/-- The field checks of WRREC and RDREC, rule R102 items 1 to 3. -/
def fieldReadable (c : Config) (f : RecField) (i : BitVec 8) : Bool :=
  match f with
  | .reserved => false
  | .inlineByte => decide (i.toNat < c.inlineBytes)
  | .addr7 | .dir | .sendStop | .byteCount | .bufSel | .extAddr | .callback | .context | .chain | .status
  | .hwCode | .valid | .queued | .alloc => decide (i = 0#8)

/-- The field checks of WRREC, rule R102 items 1 to 5. -/
def fieldWriteLegal (c : Config) (f : RecField) (i : BitVec 8) (v : Word) : Bool :=
  fieldReadable c f i && fieldWritable f && decide (v.toNat < 2 ^ fieldWidth c f)

/-- The value of a 1-bit field. -/
def bitWord (b : Bool) : Word := (BitVec.ofBool b).setWidth 32

/-- BUF_SEL's bit (rule R28). -/
def bufSelBit : BufSel → Bool
  | .inlineBuffer => false
  | .externalBuffer => true

/-- The BUF_SEL that a bit names (rule R28). -/
def bufSelOfBit (b : Bool) : BufSel := if b then .externalBuffer else .inlineBuffer

/-- The value RDREC reads from field f, index i, of the record that h names (rule R122), zero-extended. -/
def readField (s : State) (h : Handle) (f : RecField) (i : BitVec 8) : Word :=
  match f with
  | .addr7 => (recAt s h).addr7.setWidth 32
  | .dir => (recAt s h).dir.bit.setWidth 32
  | .sendStop => bitWord (recAt s h).sendStop
  | .byteCount => (recAt s h).byteCount.setWidth 32
  | .bufSel => bitWord (bufSelBit (recAt s h).bufSel)
  | .extAddr => (recAt s h).extAddr
  | .callback => (recAt s h).callback.setWidth 32
  | .context => (recAt s h).context
  | .inlineByte => ((recAt s h).inl.getD i.toNat 0#8).setWidth 32
  | .chain => bitWord (recAt s h).chain
  | .status => (recAt s h).status.setWidth 32
  | .hwCode => (recAt s h).hwCode.setWidth 32
  | .valid => bitWord (recAt s h).valid
  | .queued => bitWord (recAt s h).queued
  | .alloc => bitWord (isPool h && allocAt s h)
  | .reserved => 0#32

/-- The record after WRREC of a legal value to a writable field (rule R121); the other fields are never
written by it. -/
def writeField (r : Record) (f : RecField) (i : BitVec 8) (v : Word) : Record :=
  match f with
  | .addr7 => { r with addr7 := v.extractLsb' 0 7 }
  | .dir => { r with dir := Dir.ofBit (v.extractLsb' 0 1) }
  | .sendStop => { r with sendStop := v.getLsbD 0 }
  | .byteCount => { r with byteCount := v.extractLsb' 0 8 }
  | .bufSel => { r with bufSel := bufSelOfBit (v.getLsbD 0) }
  | .extAddr => { r with extAddr := v }
  | .callback => { r with callback := v.extractLsb' 0 16 }
  | .context => { r with context := v }
  | .inlineByte => { r with inl := r.inl.set i.toNat (v.extractLsb' 0 8) }
  | .chain | .status | .hwCode | .valid | .queued | .alloc | .reserved => r

/-! ### Callback tables -/

/-- The table that t selects (45_scheduler.md). -/
def tableOf (s : State) : Table → CbTable
  | .fast => s.fast
  | .slow => s.slow

/-- Writes the table that t selects. -/
def setTable (s : State) (t : Table) (T : CbTable) : State :=
  match t with
  | .fast => { s with fast := T }
  | .slow => { s with slow := T }

/-- CAP of the table that t selects (45_scheduler.md). -/
def tableCap (c : Config) : Table → Nat
  | .fast => c.cbFastCap
  | .slow => c.cbSlowCap

/-- The live entries of a table, E[0..COUNT-1] (rule R30). -/
def liveCbs (T : CbTable) : List CbEntry := T.entries.take T.count

end Sys2Proof.Machine
end

