-- ==== Sys2Proof/Machine/Clock.lean ====
section
/-! DEFINITION. The clock base (44_clock.md): conversions, the ratchet, CLKINIT, NOWMS and NOWUS. -/

namespace Sys2Proof.Machine

/-- MsRaw() (rule R231): the product exact, the sum modulo 2^32. -/
def msRaw (s : State) : BitVec 32 :=
  BitVec.ofNat 32 (s.coarseMs.toNat + (s.fine.toNat * s.cfg.msMul) >>> s.cfg.msShift)

/-- UsRaw() (rule R233): the product exact, the sum modulo 2^64. -/
def usRaw (s : State) : BitVec 64 :=
  BitVec.ofNat 64 (s.coarseMs.toNat * 1000 + (s.fine.toNat * s.cfg.usMul) >>> s.cfg.usShift)

/-- Behind_W(raw, last) (rule R235), the ratchet's test in the order RATCHET_COMPARE selects. -/
def behind {W : Nat} (order : RatchetCompare) (raw last : BitVec W) : Bool :=
  match order with
  | .unsigned => decide (raw.toNat < last.toNat)
  | .halfRange => decide (2 ^ (W - 1) < (raw - last).toNat)

/-- The ratchet: the last value where the raw one is behind it (rules R232, R234). -/
def ratchet {W : Nat} (order : RatchetCompare) (raw last : BitVec W) : BitVec W :=
  if behind order raw last then last else raw

/-- The value NOWMS returns (rule R232). -/
def msNow (s : State) : BitVec 32 := ratchet s.cfg.ratchet (msRaw s) s.lastMs

/-- The value NOWUS returns (rule R234). -/
def usNow (s : State) : BitVec 64 := ratchet s.cfg.ratchet (usRaw s) s.lastUs

/-- NOWMS (rule R232). -/
def execNowms (s : State) : Result := respond (contextOf s) .ok [msNow s] { s with lastMs := msNow s }

/-- NOWUS (rule R234): the low word first (rule R98). -/
def execNowus (s : State) : Result :=
  respond (contextOf s) .ok [(usNow s).extractLsb' 0 32, (usNow s).extractLsb' 32 32] { s with lastUs := usNow s }

/-- CTR ← 0 of every live entry (rule R230). -/
def restartCounters (T : CbTable) : CbTable :=
  { T with entries := (liveCbs T).map (fun e => { e with ctr := 0 }) ++ T.entries.drop T.count }

/-- CLKINIT (rule R230): the ratchets are kept. -/
def execClkinit (e : Word) (s : State) : Result :=
  respond (contextOf s) .ok []
    { s with fine := 0, coarseMs := BitVec.ofNat 32 (e.toNat * 1000), fast := restartCounters s.fast,
             slow := restartCounters s.slow }

end Sys2Proof.Machine
end

