-- ==== Sys2Proof/Machine/Pool.lean ====
section
/-! DEFINITION. The pool commands RESERVE and FREE (41_pool.md rules R140, R141). -/

namespace Sys2Proof.Machine

/-- ALLOC[i] ← 1; rec(0x80 + i).VALID ← 0 (rule R140). -/
def allocate (s : State) (i : Nat) : State :=
  setAlloc (setRec s (poolHandle i) { recAt s (poolHandle i) with valid := false }) (poolHandle i) true

/-- RESERVE (rule R140): the n lowest free records, all or none. -/
def execReserve (n : BitVec 8) (s : State) : Result :=
  if (freeRecords s).length < n.toNat then respond (contextOf s) .noSpace [] s
  else
    respond (contextOf s) .ok (((freeRecords s).take n.toNat).map fun i => (poolHandle i).setWidth 32)
      (((freeRecords s).take n.toNat).foldl allocate s)

/-- FREE (rule R141): a no-op on a caller-owned or an already free record. -/
def execFree (h : Handle) (s : State) : Result :=
  if !handleInRange s.cfg h then respondIllegal s
  else if !isPool h then respond (contextOf s) .ok [] s
  else if !allocAt s h then respond (contextOf s) .ok [] s
  else if (recAt s h).queued then raiseFault .queuedRecord s
  else respond (contextOf s) .ok [] (setAlloc s h false)

end Sys2Proof.Machine
end

