-- ==== Sys2Proof/Machine/Engine.lean ====
section
/-! DEFINITION. The protocol engine (43_engine.md). The loop of rule R180 visits each arm at most once between
two waits (START or a check, then DATA_SEND, STOP or ERROR, then IDLE), so each arm calls the next one and no
loop is left. -/

namespace Sys2Proof.Machine

/-! ### IDLE (rule R180) -/

/-- The IDLE arm: pop the oldest transaction and issue START, or clear BUSY (rule R180). -/
def idleArm (s : State) : State :=
  if s.qCount = 0 then { s with busy := false }
  else { busCmd .start { qPop s with cur := some (qOldest s), idx := 0, busy := true } with st := .start }

/-! ### Finishing (rules R191, R192) -/

/-- FinishSuccess() for the current record h (rule R191). -/
def finishSuccess (h : Handle) (s : State) : State := { release s h with cur := none, st := .idle }

/-- The discard loop of FinishError: `while c = 1 and Q_COUNT > 0`, which pops at most n = Q_COUNT entries (rule R192). -/
def discardChain : Nat → Bool → State → State
  | 0, _, s => s
  | n + 1, c, s =>
    if c && decide (0 < s.qCount) then
      discardChain n (recAt (qPop s) (qOldest s)).chain (release (qPop s) (qOldest s))
    else s

/-- FinishError() for the failing record h (rule R192). -/
def finishError (h : Handle) (s : State) : State :=
  { discardChain s.qCount (recAt s h).chain { release s h with cur := none } with st := .idle }

/-! ### STOP and ERROR (rules R187 to R189) -/

/-- STATUS and HW_CODE of record h (rules R187, R189). -/
def setOutcome (h : Handle) (status : BitVec 16) (code : Byte) (s : State) : State :=
  setRec s h { recAt s h with status := status, hwCode := code }

/-- The completion notification of record h, from its values at completion (rules R106, R188). -/
def completionNtf (s : State) (h : Handle) : Ntf :=
  .txn h (recAt s h).callback (recAt s h).context (recAt s h).status (recAt s h).hwCode

/-- Issues STOP if SEND_STOP is set (rule R187). -/
def stopIfAsked (h : Handle) (s : State) : State := if (recAt s h).sendStop then busCmd .stop s else s

/-- The STOP arm for the current record h, ST = STOP (rule R187). -/
def stopArm (h : Handle) (s : State) : State :=
  if !(recAt s h).chain && decide ((recAt s h).callback ≠ 0) then
    notify (completionNtf (setOutcome h 0 0 (stopIfAsked h s)) h) (setOutcome h 0 0 (stopIfAsked h s))
  else idleArm (finishSuccess h (setOutcome h 0 0 (stopIfAsked h s)))

/-- The ERROR arm for the current record h, ST = ERROR, entered with the failed check's phase and code (rule R189). -/
def errorArm (h : Handle) (p : Phase) (code : Byte) (s : State) : State :=
  if (recAt s h).callback ≠ 0 then
    notify (completionNtf (setOutcome h (failureStatus p s.idx) code s) h)
      (busCmd .stop (setOutcome h (failureStatus p s.idx) code s))
  else idleArm (finishError h (busCmd .stop (setOutcome h (failureStatus p s.idx) code s)))

/-- A failed check: into the ERROR arm (rules R181, R183, R185, R186). -/
def failCheck (h : Handle) (p : Phase) (code : Byte) (s : State) : Result :=
  .next (errorArm h p code { s with st := .error })

/-! ### The transient arms (rules R182, R184) -/

/-- The address byte (ADDR7 << 1) | DIR (rules R95, R103; notes/assumptions/14.md). -/
def addressByte (r : Record) : Byte := r.addr7 ++ r.dir.bit

/-- The ADDRESS arm (rule R182). -/
def addressArm (h : Handle) (s : State) : State :=
  { busCmd (.addr (addressByte (recAt s h))) s with st := .addressAck }

/-- IDX + 1 < BYTE_COUNT: another byte follows the one in progress (rules R184, R186). -/
def moreBytesFollow (s : State) (h : Handle) : Bool := decide (s.idx.toNat + 1 < (recAt s h).byteCount.toNat)

/-- The DATA_SEND arm (rule R184). -/
def dataSendArm (h : Handle) (s : State) : Result :=
  if s.idx.toNat < (recAt s h).byteCount.toNat then
    match (recAt s h).dir with
    | .write => withBufRead s (recAt s h) s.idx.toNat fun b => { busCmd (.tx b) s with st := .dataCheck }
    | .read => .next { busCmd (.rx (moreBytesFollow s h)) s with st := .dataCheck }
  else .next (stopArm h { s with st := .stop })

/-! ### The wait arms (rules R181, R183, R185, R186) -/

/-- The START arm (rule R181). -/
def startArm (h : Handle) (e : BusEvent) (s : State) : Result :=
  if e.code = s.cfg.codeStart ∨ e.code = s.cfg.codeRepStart then .next (addressArm h { s with st := .address })
  else failCheck h .start e.code s

/-- The address acknowledge code that a direction expects (rule R183). -/
def addressAckCode (c : Config) : Dir → Byte
  | .write => c.codeSlawAck
  | .read => c.codeSlarAck

/-- The ADDRESS_ACK arm (rule R183). -/
def addressAckArm (h : Handle) (e : BusEvent) (s : State) : Result :=
  if e.code = addressAckCode s.cfg (recAt s h).dir then dataSendArm h { s with st := .dataSend }
  else failCheck h .address e.code s

/-- A checked byte: IDX ← IDX + 1, then DATA_SEND (rules R185, R186). -/
def byteDone (h : Handle) (s : State) : Result := dataSendArm h { s with idx := s.idx + 1, st := .dataSend }

/-- The code that the byte in progress of a read expects (rule R186). -/
def readCode (s : State) (h : Handle) : Byte := if moreBytesFollow s h then s.cfg.codeRxAck else s.cfg.codeRxNack

/-- The DATA_CHECK arm of a write (rule R185). -/
def writeCheckArm (h : Handle) (e : BusEvent) (s : State) : Result :=
  if e.code = s.cfg.codeTxAck then byteDone h s else failCheck h .data e.code s

/-- The DATA_CHECK arm of a read (rule R186): a byte whose code fails the check is not stored. -/
def readCheckArm (h : Handle) (e : BusEvent) (s : State) : Result :=
  if e.code = readCode s h then andThen (bufWrite s h s.idx.toNat e.data) (byteDone h)
  else failCheck h .data e.code s

/-- The DATA_CHECK arm (rule R180). -/
def dataCheckArm (h : Handle) (e : BusEvent) (s : State) : Result :=
  match (recAt s h).dir with
  | .write => writeCheckArm h e s
  | .read => readCheckArm h e s

/-! ### EngineRun and its callers (rules R180, R193, R194) -/

/-- EngineRun(ev) (rule R180). A wait arm is entered only with an event, ERROR only from a failed check, and every
arm but IDLE with a current record: elsewhere the rules give no arm. -/
def engineRun (ev : Option BusEvent) (s : State) : Result :=
  match s.st, s.cur, ev with
  | .idle, _, _ => .next (idleArm s)
  | .start, some h, some e => startArm h e s
  | .address, some h, _ => .next (addressArm h s)
  | .addressAck, some h, some e => addressAckArm h e s
  | .dataCheck, some h, some e => dataCheckArm h e s
  | .dataSend, some h, _ => dataSendArm h s
  | .stop, some h, _ => .next (stopArm h s)
  | _, _, _ => .fault .engineInconsistent

/-- The bus event step, BusEvent(code, data) (rule R193). -/
def busEventStep (e : BusEvent) (s : State) : Result := engineRun (some e) { s with busOut := none }

/-- EngineResume(), run by RETURN from a TXN (rule R194). -/
def engineResume (s : State) : Result :=
  match s.cur with
  | none => .fault .engineInconsistent
  | some h =>
    if s.st = .stop then engineRun none (finishSuccess h (leaveHandler s))
    else engineRun none (finishError h (leaveHandler s))

end Sys2Proof.Machine
end

