-- ==== Sys2Proof/Machine/Queue.lean ====
section
/-! DEFINITION. SUBMIT and the lifting of its hold (42_queue.md rules R162, R163). -/

namespace Sys2Proof.Machine

/-- The host-duty checks on one submitted handle, in rule R304's order: ALLOC, QUEUED, VALID, buffer range. -/
def submitFault (s : State) (h : Handle) : Option FaultReason :=
  if isPool h && !allocAt s h then some .notAllocated
  else if (recAt s h).queued then some .queuedRecord
  else if !(recAt s h).valid then some .notSetUp
  else
    match (recAt s h).bufSel with
    | .inlineBuffer => if s.cfg.inlineBytes < (recAt s h).byteCount.toNat then some .bufferRange else none
    | .externalBuffer =>
      if 2 ^ s.cfg.dmemAw < (recAt s h).extAddr.toNat + (recAt s h).byteCount.toNat then some .bufferRange else none

/-- The host-duty checks of SUBMIT: the duplicate check, then each handle in submission order (rules R162, R304). -/
def submitFaults (s : State) (hs : List Handle) : Option FaultReason :=
  if !decide hs.Nodup then some .duplicateHandle else hs.findSome? (submitFault s)

/-- One accepted handle: CHAIN, QUEUED, QPush (rule R162). -/
def enqueue (chained : Bool) (h : Handle) (s : State) : State :=
  qPush (setRec s h { recAt s h with chain := chained, queued := true }) h

/-- The push of an accepted SUBMIT: CHAIN = 1 on every handle but the last (rule R162). -/
def enqueueAll : List Handle → State → State
  | [], s => s
  | h :: more, s => enqueueAll more (enqueue (!more.isEmpty) h s)

/-- The kick: EngineRun(NONE) if BUSY = 0 (rule R162). -/
def kick (s : State) : Result := if s.busy then .next s else engineRun none s

/-- HELD for the context that issues the command (rules R33, R162). -/
def holdContext (s : State) : State :=
  match contextOf s with
  | .background => { s with bgHold := true }
  | .handler => { s with hHold := true }

/-- The end of an accepted SUBMIT: hold until BUSY = 0 if it blocks, else OK (rule R162). -/
def finishSubmit (b : Bool) (s : State) : Result :=
  if b && s.busy then .next (holdContext s) else respond (contextOf s) .ok [] s

/-- SUBMIT (rule R162). -/
def execSubmit (b : Bool) (hs : List Handle) (s : State) : Result :=
  if !hs.all (handleInRange s.cfg) then respondIllegal s
  else
    match submitFaults s hs with
    | some r => raiseFault r s
    | none =>
      if s.cfg.queueCap - s.qCount < hs.length then respond (contextOf s) .noSpace [] s
      else andThen (kick (enqueueAll hs s)) (finishSubmit b)

/-- Lifting a background hold: BG_HOLD ← NONE and the response OK (rule R163). -/
def liftBackgroundHold (s : State) : State := deliver .background .ok [] { s with bgHold := false }

/-- Lifting a handler's hold: H_HOLD ← NONE and the response OK (rule R163). -/
def liftHandlerHold (s : State) : State := deliver .handler .ok [] { s with hHold := false }

end Sys2Proof.Machine
end

