-- ==== Sys2Proof/Machine/Records.lean ====
section
/-! DEFINITION. The record commands SETUP, WRREC and RDREC (40_records.md rules R120 to R124). -/

namespace Sys2Proof.Machine

/-- SETUP's effect on a record (rule R120): the INLINE bytes and QUEUED are unchanged. -/
def setupRecord (r : Record) (a : BitVec 7) (d : Dir) (stop : Bool) (c : BitVec 8) : Record :=
  { r with addr7 := a, dir := d, sendStop := stop, byteCount := c, callback := 0, context := 0,
           bufSel := .inlineBuffer, extAddr := 0, chain := false, status := 0, hwCode := 0, valid := true }

/-- SETUP (rule R120). -/
def execSetup (h : Handle) (a : BitVec 7) (d : Dir) (stop : Bool) (c : BitVec 8) (s : State) : Result :=
  if !handleInRange s.cfg h then respondIllegal s
  else
    match hostWritableFault s h with
    | some r => raiseFault r s
    | none => respond (contextOf s) .ok [] (setRec s h (setupRecord (recAt s h) a d stop c))

/-- WRREC (rule R121): the encoding checks come before the host-duty checks (rule R304). -/
def execWrrec (h : Handle) (f : RecField) (i : BitVec 8) (v : Word) (s : State) : Result :=
  if !(handleInRange s.cfg h && fieldWriteLegal s.cfg f i v) then respondIllegal s
  else
    match hostWritableFault s h with
    | some r => raiseFault r s
    | none => respond (contextOf s) .ok [] (setRec s h (writeField (recAt s h) f i v))

/-- RDREC (rule R122): no side effect, and no fault. -/
def execRdrec (h : Handle) (f : RecField) (i : BitVec 8) (s : State) : Result :=
  if !(handleInRange s.cfg h && fieldReadable s.cfg f i) then respondIllegal s
  else respond (contextOf s) .ok [readField s h f i] s

end Sys2Proof.Machine
end

