-- ==== Sys2Proof/Machine/Scheduler.lean ====
section
/-! DEFINITION. The callback scheduler (45_scheduler.md): CBREG, CBUNREG, the dispatch of a tick, and the return
from a TICK notification. -/

namespace Sys2Proof.Machine

/-- NTF is a TICK. -/
def inTickHandler (s : State) : Bool :=
  match s.ntf with
  | .tick _ _ _ _ => true
  | .none => false
  | .txn _ _ _ _ _ => false

/-! ### Registration (rules R250, R251) -/

/-- The table with a new last entry (rule R250). -/
def tableAppend (T : CbTable) (cb v : BitVec 16) : CbTable :=
  { count := T.count + 1, entries := T.entries.set T.count ⟨cb, 0, v⟩ }

/-- CBREG (rule R250). -/
def execCbreg (t : Table) (v : BitVec 16) (cb : BitVec 16) (s : State) : Result :=
  if cb = 0 then respondIllegal s
  else if inTickHandler s then raiseFault .tableInDispatch s
  else if (tableOf s t).count = tableCap s.cfg t then respond (contextOf s) .full [] s
  else
    respond (contextOf s) .ok [BitVec.ofNat 32 (tableOf s t).count] (setTable s t (tableAppend (tableOf s t) cb v))

/-- The lowest live index whose entry has this identifier (rule R251). -/
def findCb (T : CbTable) (cb : BitVec 16) : Option Nat := (liveCbs T).findIdx? fun e => e.cb == cb

/-- E[j] ← E[j+1] for j in k..COUNT-2, COUNT ← COUNT - 1 (rule R251): the slot at the old COUNT - 1 keeps its contents. -/
def tableRemove (T : CbTable) (k : Nat) : CbTable :=
  { count := T.count - 1,
    entries := (liveCbs T).take k ++ (liveCbs T).drop (k + 1) ++ T.entries.drop (T.count - 1) }

/-- CBUNREG (rule R251). -/
def execCbunreg (t : Table) (cb : BitVec 16) (s : State) : Result :=
  if cb = 0 then respondIllegal s
  else if inTickHandler s then raiseFault .tableInDispatch s
  else
    match findCb (tableOf s t) cb with
    | none => respond (contextOf s) .ok [] s
    | some k => respond (contextOf s) .ok [] (setTable s t (tableRemove (tableOf s t) k))

/-! ### Dispatch (rules R252 to R254) -/

/-- The entry is due on this tick: CTR ≥ DIV (rule R252, 90_conflicts.md C4). -/
def entryDue (e : CbEntry) : Bool := decide (e.div.toNat ≤ e.ctr.toNat)

/-- The entry after a tick (rule R252). -/
def entryTick (e : CbEntry) : CbEntry := if entryDue e then { e with ctr := 0 } else { e with ctr := e.ctr + 1 }

/-- The table after a tick: every live counter in the one step (rule R252). -/
def tableTick (T : CbTable) : CbTable :=
  { T with entries := (liveCbs T).map entryTick ++ T.entries.drop T.count }

/-- The due triples among entries, the first of which has index i (rule R252). -/
def dueFrom (t : Table) : Nat → List CbEntry → List DueEntry
  | _, [] => []
  | i, e :: more =>
    if entryDue e then ⟨t, BitVec.ofNat 8 i, e.cb⟩ :: dueFrom t (i + 1) more else dueFrom t (i + 1) more

/-- The due triples of a tick of table t, by rising index (rule R252). -/
def dueOf (t : Table) (T : CbTable) : List DueEntry := dueFrom t 0 (liveCbs T)

/-- NTF ← TICK of a due triple; arg is always 0 (rules R106, R253). -/
def tickNtf (x : DueEntry) : Ntf := .tick x.table x.index x.callback 0

/-- Delivers one element of a due set, any one, and leaves the rest in TICK_DUE (rules R252, R254); the end of
the dispatch where there is none (rule R254). Only a set of two or more leaves a choice. -/
def deliverDue (due : List DueEntry) (s : State) : State :=
  match due with
  | [] => { leaveHandler s with tickDue := [] }
  | [x] => notify (tickNtf x) { s with tickDue := [] }
  | x :: y :: more =>
    notify (tickNtf ((x :: y :: more).getD (drawIndex s (more.length + 2)) x))
      { afterDraw s with tickDue := (x :: y :: more).eraseIdx (drawIndex s (more.length + 2)) }

/-- Dispatch(T) (rule R252): nothing is notified where nothing is due. -/
def dispatch (t : Table) (s : State) : State :=
  if (dueOf t (tableOf s t)).isEmpty then setTable s t (tableTick (tableOf s t))
  else deliverDue (dueOf t (tableOf s t)) (setTable s t (tableTick (tableOf s t)))

/-- FineTick() (rule R236). -/
def fineTickStep (s : State) : State := dispatch .fast { s with fine := s.fine + 1 }

/-- CoarseTick() (rule R237). -/
def coarseTickStep (s : State) : State :=
  dispatch .slow { s with fine := 0, coarseMs := s.coarseMs + 1000 }

/-- TickReturn(), run by RETURN from a TICK (rule R254). -/
def tickReturn (s : State) : State := deliverDue s.tickDue s

end Sys2Proof.Machine
end

