-- ==== Sys2Proof/Machine/System.lean ====
section
/-! DEFINITION. The system commands STATUS and RETURN (47_system.md rules R280, R281). -/

namespace Sys2Proof.Machine

/-- STATUS (rule R280): no side effect. -/
def execStatus (s : State) : Result := respond (contextOf s) .ok [statusWord s] s

/-- RETURN (rule R281): the return from handler context (rule R312). -/
def execRet (s : State) : Result :=
  match s.ntf with
  | .none => respondIllegal s
  | .txn _ _ _ _ _ => andThen (engineResume s) (respond .handler .ok [])
  | .tick _ _ _ _ => respond .handler .ok [] (tickReturn s)

end Sys2Proof.Machine
end

