-- ==== Sys2Proof/Machine/Dispatch.lean ====
section
/-! DEFINITION. One arm per command. -/

namespace Sys2Proof.Machine

def exec (i : Instr) (s : State) : Host.Outcome State Fault Refusal :=
  match i with
  | .reserve n => Sys2Proof.Machine.execReserve n s
  | .free h => Sys2Proof.Machine.execFree h s
  | .setup h a d stop c => Sys2Proof.Machine.execSetup h a d stop c s
  | .wrrec h f k v => Sys2Proof.Machine.execWrrec h f k v s
  | .rdrec h f k => Sys2Proof.Machine.execRdrec h f k s
  | .submit b hs => Sys2Proof.Machine.execSubmit b hs s
  | .clkinit e => Sys2Proof.Machine.execClkinit e s
  | .nowms => Sys2Proof.Machine.execNowms s
  | .nowus => Sys2Proof.Machine.execNowus s
  | .cbreg t v cb => Sys2Proof.Machine.execCbreg t v cb s
  | .cbunreg t cb => Sys2Proof.Machine.execCbunreg t cb s
  | .status => Sys2Proof.Machine.execStatus s
  | .ret => Sys2Proof.Machine.execRet s

end Sys2Proof.Machine
end

