-- ==== Sys2Proof/Machine/Events.lean ====
section
/-! DEFINITION. Which action of an agent is enabled (60_exceptions.md rules R305 to R309, R311; 42_queue.md rule
R163) and what it does. The block is not quiescent here: `step` has checked FAULT. -/

namespace Sys2Proof.Machine

/-- The host's current context may act: the background context while no notification is pending and it is not
held (rule R309), the handler while it is not held (rules R308, R311). -/
def hostMayAct (s : State) : Bool :=
  match contextOf s with
  | .background => !s.bgHold
  | .handler => !s.hHold

/-- The enabling conditions, but for FAULT = NONE (rules R163, R305 to R309). A held context issues nothing, to
DMEM either (notes/assumptions/7.md). -/
def enabled (s : State) : Action → Bool
  | .command => hostMayAct s
  | .busEvent _ _ => s.busOut.isSome && decide (s.ntf = .none)
  | .fineTick => decide (s.ntf = .none)
  | .coarseTick => s.cfg.hasCoarse && decide (s.ntf = .none)
  | .liftBackground => s.bgHold && !s.busy && decide (s.ntf = .none)
  | .liftHandler => s.hHold && !s.busy
  | .hostWrite _ _ => hostMayAct s

/-- The host issues the command at the front of the command stream: it takes the command's words, and an illegal
encoding responds ILLEGAL with no other effect (rules R80, R96, R97, R107; notes/assumptions/12.md). -/
def issueCommand (s : State) : Result :=
  match decode s.port with
  | .instr i rest => exec i { s with port := rest }
  | .illegal _ rest => respondIllegal { s with port := rest }
  | .incomplete => .refused .partialCommand

/-- What an enabled action does, one atomic step (rule R67). -/
def act (a : Action) (s : State) : Result :=
  match a with
  | .command => issueCommand s
  | .busEvent code data => busEventStep ⟨code, data⟩ s
  | .fineTick => .next (fineTickStep s)
  | .coarseTick => .next (coarseTickStep s)
  | .liftBackground => .next (liftBackgroundHold s)
  | .liftHandler => .next (liftHandlerHold s)
  | .hostWrite address value => memWrite s address value

end Sys2Proof.Machine
end

