-- ==== Sys2Proof/Machine/Step.lean ====
section
/-! DEFINITION. One step of the machine: the environment's next action, if the block is not quiescent and the
action is enabled. -/

namespace Sys2Proof.Machine

/-- One step. A block whose FAULT is set is quiescent (rule R303). With no action proposed the block waits (rules
R20, R351). An action that is not enabled is no step of the spec. -/
def step (s : State) : Host.Outcome State Fault Refusal :=
  match s.fault with
  | some r => .fault (.quiescent r)
  | none =>
    match s.agenda with
    | [] => .next s
    | a :: more => if enabled s a then act a { s with agenda := more } else .refused (.notEnabled a)

/-- s with the command whose bits are the low nbits of w at the front of the command stream, and its issue the
environment's next action, so that the next step runs it (notes/assumptions/3.md). -/
def State.withFetchWord (s : State) (nbits w : Nat) : State :=
  { s with port := tableWords (w % 2 ^ nbits) ++ s.port, agenda := .command :: s.agenda }

end Sys2Proof.Machine
end

