-- ==== Sys2Proof/Machine/Observe.lean ====
section
/-! DEFINITION. What the host observes of the block without a clock command (10_state.md rule R39). -/

namespace Sys2Proof.Machine

/-- The observable state (rule R39): record fields (RDREC), the STATUS word, the notification port, DMEM. The
clock is observed through NOWMS and NOWUS, which write the ratchets. The host's reads of the notification port
and of DMEM are no steps (DESIGN CHOICE, safe: notes/assumptions/8.md). -/
structure HostView where
  pool : List Record
  caller : List Record
  alloc : List Bool
  statusWord : Word
  ntf : Ntf
  dmem : Memory
  deriving DecidableEq, Repr

/-- What the host observes in a state. Everything else in rule R39's list is hidden. -/
def hostView (s : State) : HostView where
  pool := s.pool
  caller := s.caller
  alloc := s.alloc
  statusWord := statusWord s
  ntf := s.ntf
  dmem := s.dmem

end Sys2Proof.Machine
end

