-- ==== Sys2Proof/Machine/PeriodicWait.lean ====
section
/-! DEFINITION. PeriodicWait, the host's procedure over NOWMS (46_periodic_wait.md rules R270 to R275), and the steps
of a block whose background context is in it. Its cursor is host storage, so its state stands beside the block's
(DESIGN CHOICE, safe: notes/assumptions/15.md). -/

namespace Sys2Proof.Machine

/-- LaterThan(b, a): b is later than a on the 32-bit circular counter (rule R270). -/
def laterThan (b a : BitVec 32) : Bool := decide (2 ^ 31 < (a - b).toNat)

/-- The catch-up loop (rule R271), over at most n candidates: `none` where none of them is later than now. -/
def catchUpWithin : Nat → BitVec 32 → BitVec 32 → BitVec 32 → Option (BitVec 32)
  | 0, _, _, _ => none
  | n + 1, period, now, next =>
    if laterThan next now then some next else catchUpWithin n period now (next + period)

/-- The catch-up loop (rule R271). 2^32 candidates are all there are, so `none` is a loop that never ends, which a
period of 2^31 or more allows (rule R273). -/
def catchUp (period now next : BitVec 32) : Option (BitVec 32) := catchUpWithin (2 ^ 32) period now next

/-- Where a call of WaitPeriod stands. -/
inductive WaitPhase where
  /-- Before its first NOWMS. -/
  | entry
  /-- In the idle-wait for the boundary `next`. -/
  | polling (next : BitVec 32)
  /-- Returned, with this time. -/
  | returned (now : BitVec 32)
  /-- In a catch-up that never ends (rule R273). -/
  | endless
  deriving DecidableEq, Repr

/-- A call of WaitPeriod(period, cursor): the host's own state. -/
structure Wait where
  period : BitVec 32
  cursor : BitVec 32
  phase : WaitPhase
  deriving DecidableEq, Repr

/-- The cursor after the first-use test (rule R271). -/
def startCursor (cursor now : BitVec 32) : BitVec 32 := if cursor = 0 then now else cursor

/-- WaitPeriod from its first NOWMS, which returned now, to its next poll or its end (rule R271). -/
def waitEntry (w : Wait) (now : BitVec 32) : Wait :=
  if w.period = 0 then { w with phase := .returned now }
  else
    match catchUp w.period now (startCursor w.cursor now + w.period) with
    | some next => { w with cursor := startCursor w.cursor now, phase := .polling next }
    | none => { w with cursor := startCursor w.cursor now, phase := .endless }

/-- WaitPeriod from a NOWMS that returned now to the next one, or to its end (rule R271). -/
def waitAdvance (w : Wait) (now : BitVec 32) : Wait :=
  match w.phase with
  | .entry => waitEntry w now
  | .polling next =>
    if laterThan next now then w else { w with cursor := next, phase := .returned now }
  | .returned _ => w
  | .endless => w

/-- WaitPeriod over the results of its NOWMS commands, in order (rule R275). -/
def waitOver (w : Wait) (nows : List (BitVec 32)) : Wait := nows.foldl waitAdvance w

/-! ### The call and the block together (rule R274) -/

/-- The block, and the background context's call of WaitPeriod. -/
structure WaitingHost where
  wait : Wait
  block : State
  deriving DecidableEq, Repr

/-- The call has not returned: it holds the background context (rule R274). -/
def inCall (w : Wait) : Bool :=
  match w.phase with
  | .entry | .polling _ | .endless => true
  | .returned _ => false

/-- The call's next act is a NOWMS: its first one or a poll (rule R271). An endless catch-up issues none. -/
def pollsNext (w : Wait) : Bool :=
  match w.phase with
  | .entry | .polling _ => true
  | .returned _ | .endless => false

/-- An act of the background context. The lifting of a hold is the block's (rule R163). -/
def isBackgroundAct (s : State) : Action → Bool
  | .command | .hostWrite _ _ => decide (contextOf s = .background)
  | .busEvent _ _ | .fineTick | .coarseTick | .liftBackground | .liftHandler => false

/-- The next state of the block with the call's next state beside it. -/
def besideWait (w : Wait) : Result → Host.Outcome WaitingHost Fault Refusal
  | .next t => .next ⟨w, t⟩
  | .fault r => .fault r
  | .refused r => .refused r

/-- One NOWMS of the call: a step of the block like any other command of the background context (rules R309, R271),
and the procedure goes on with its result. -/
def waitPoll (x : WaitingHost) : Host.Outcome WaitingHost Fault Refusal :=
  besideWait (waitAdvance x.wait (msNow x.block))
    (step { x.block with port := encode .nowms ++ x.block.port })

/-- One step while the background context is in a call of WaitPeriod (rule R274). The proposed command of the
background context is the call's own NOWMS, and no other act of that context is enabled until the call returns. All
else proceeds as it does without the call: bus events, ticks, holds, and whatever a handler does. -/
def waitStep (x : WaitingHost) : Host.Outcome WaitingHost Fault Refusal :=
  match x.block.fault, x.block.agenda with
  | none, a :: _ =>
    if inCall x.wait && isBackgroundAct x.block a then
      if decide (a = .command) && pollsNext x.wait then waitPoll x else .refused (.notEnabled a)
    else besideWait x.wait (step x.block)
  | _, _ => besideWait x.wait (step x.block)

end Sys2Proof.Machine
end

