-- ==== Sys2Proof/Safety.lean ====
section
/-! DEFINITION. The words that claims are stated in: the invariants between steps (10_state.md rule R38, with what
makes them inductive), what a state leaves unchanged of another, and quiescent and stuck states. -/

namespace Sys2Proof.Machine

/-! ### Ownership -/

/-- The records the block owns, in the order in which they run: CUR, then the live entries (rule R38 item 2). -/
def owned (s : State) : List Handle := s.cur.toList ++ liveEntries s

/-- Handle h names a record of this block (rule R100). -/
abbrev InRange (s : State) (h : Handle) : Prop := handleInRange s.cfg h = true

/-- The active buffer of a record holds its BYTE_COUNT bytes (rules R61, R162). -/
def BufferFits (c : Config) (r : Record) : Prop :=
  match r.bufSel with
  | .inlineBuffer => r.byteCount.toNat ≤ c.inlineBytes
  | .externalBuffer => r.extAddr.toNat + r.byteCount.toNat ≤ 2 ^ c.dmemAw

/-! ### The invariants (rule R38) -/

/-- The sizes and widths that the parameters of rule R5 give the state (rules R26 to R30). -/
structure Sized (s : State) : Prop where
  qslot : s.qslot.length = s.cfg.queueCap
  alloc : s.alloc.length = s.cfg.poolCap
  pool : s.pool.length = s.cfg.poolCap
  caller : s.caller.length = s.cfg.callerCap
  fast : s.fast.entries.length = s.cfg.cbFastCap
  slow : s.slow.entries.length = s.cfg.cbSlowCap
  inl : ∀ h, InRange s h → (recAt s h).inl.length = s.cfg.inlineBytes
  extAddr : ∀ h, InRange s h → (recAt s h).extAddr.toNat < 2 ^ s.cfg.dmemAw

/-- A callback table is in order: COUNT is at most CAP, and every live entry has CTR ≤ DIV and an identifier
(rules R30, R38 item 6, R250). -/
structure TableInOrder (cap : Nat) (T : CbTable) : Prop where
  count : T.count ≤ cap
  live : ∀ e ∈ liveCbs T, e.ctr.toNat ≤ e.div.toNat ∧ e.cb ≠ 0

/-- The bus command that ST waits for (rules R25, R38 item 8). -/
def WaitsFor : EngineState → Option BusOut → Prop
  | .start, o => o = some .start
  | .addressAck, o => o = some .addr
  | .dataCheck, o => o = some .tx ∨ o = some .rx
  | .idle, o | .stop, o | .error, o => o = none
  | .address, _ | .dataSend, _ => False

/-- Where the engine stands with its current record h (rules R24, R184, R188). -/
def EngineAt (s : State) (h : Handle) : Prop :=
  match s.st with
  | .start | .addressAck => s.idx = 0
  | .dataCheck => s.idx.toNat < (recAt s h).byteCount.toNat
  | .stop | .error => s.ntf = completionNtf s h ∧ (recAt s h).callback ≠ 0
  | .idle | .address | .dataSend => False

/-- A due triple names a live entry of its table (rule R254). -/
def DueLive (s : State) (x : DueEntry) : Prop :=
  ∃ e, (liveCbs (tableOf s x.table))[x.index.toNat]? = some e ∧ e.cb = x.callback

/-- The invariants between steps: rule R38's items 1 to 8 and what makes them inductive. -/
structure Inv (s : State) : Prop where
  legal : s.cfg.Legal
  sized : Sized s
  /-- R38 item 1. -/
  queue : s.qCount ≤ s.cfg.queueCap ∧ s.qRd < s.cfg.queueCap
  ownedInRange : ∀ h ∈ owned s, InRange s h
  /-- R38 item 2. -/
  ownedOnce : (owned s).Nodup
  /-- R38 item 2. -/
  ownedQueued : ∀ h, InRange s h → ((recAt s h).queued = true ↔ h ∈ owned s)
  /-- R38 item 3. -/
  ownedAllocated : ∀ h ∈ owned s, isPool h = true → allocAt s h = true
  ownedReady : ∀ h ∈ owned s, (recAt s h).valid = true ∧ BufferFits s.cfg (recAt s h)
  /-- R38 item 4. -/
  busy : s.busy = true ↔ (s.cur ≠ none ∨ 0 < s.qCount ∨ s.st ≠ .idle)
  idle : s.cur = none → s.st = .idle ∧ s.qCount = 0
  running : ∀ h, s.cur = some h → EngineAt s h
  /-- R38 item 5: the last owned record ends its chain, so a record with CHAIN = 1 has a next live entry. -/
  chainEnds : ∀ h, (owned s).getLast? = some h → (recAt s h).chain = false
  /-- R38 item 6. -/
  fast : TableInOrder s.cfg.cbFastCap s.fast
  /-- R38 item 6. -/
  slow : TableInOrder s.cfg.cbSlowCap s.slow
  /-- R38 item 7. -/
  txnHeld : ∀ h cb ctx w c, s.ntf = .txn h cb ctx w c → s.cur = some h ∧ (s.st = .stop ∨ s.st = .error)
  /-- R38 item 8. -/
  busOut : WaitsFor s.st s.busOut
  /-- R32: TICK_DUE is non-empty only while NTF is a TICK. -/
  tickDue : s.tickDue ≠ [] → inTickHandler s = true
  dueLive : ∀ x ∈ s.tickDue, DueLive s x
  /-- A held handler is in handler context with a busy engine (rule R362). -/
  handlerHeld : s.hHold = true → s.ntf ≠ .none ∧ s.busy = true
  memory : Memory.wf s.dmem = true ∧ ∀ p ∈ s.dmem, p.1 < 2 ^ s.cfg.dmemAw

/-! ### Frames: what t leaves as it was in s -/

/-- ST, BUSY, CUR, IDX, BUS_OUT and BUSLOG. -/
structure SameEngine (s t : State) : Prop where
  st : t.st = s.st
  busy : t.busy = s.busy
  cur : t.cur = s.cur
  idx : t.idx = s.idx
  busOut : t.busOut = s.busOut
  busLog : t.busLog = s.busLog

/-- QSLOT, Q_RD and Q_COUNT. -/
structure SameQueue (s t : State) : Prop where
  qslot : t.qslot = s.qslot
  qRd : t.qRd = s.qRd
  qCount : t.qCount = s.qCount

/-- The record file and the pool bitmap. -/
structure SameRecords (s t : State) : Prop where
  pool : t.pool = s.pool
  caller : t.caller = s.caller
  alloc : t.alloc = s.alloc

/-- FINE, COARSE_MS, LAST_MS and LAST_US. -/
structure SameClock (s t : State) : Prop where
  fine : t.fine = s.fine
  coarseMs : t.coarseMs = s.coarseMs
  lastMs : t.lastMs = s.lastMs
  lastUs : t.lastUs = s.lastUs

/-- FAST and SLOW. -/
structure SameTables (s t : State) : Prop where
  fast : t.fast = s.fast
  slow : t.slow = s.slow

/-- NTF, TICK_DUE and the two holds. -/
structure SameHandler (s t : State) : Prop where
  ntf : t.ntf = s.ntf
  tickDue : t.tickDue = s.tickDue
  bgHold : t.bgHold = s.bgHold
  hHold : t.hHold = s.hHold

/-- Every byte of DMEM reads as before. -/
def SameDmem (s t : State) : Prop := ∀ a, memRead t a = memRead s a

/-- The parameters, FAULT, the command stream and the environment's choices. -/
structure SameOutside (s t : State) : Prop where
  cfg : t.cfg = s.cfg
  fault : t.fault = s.fault
  port : t.port = s.port
  agenda : t.agenda = s.agenda
  picks : t.picks = s.picks
  draws : t.draws = s.draws

/-- Exactly one response was delivered, in the context that s is in (rules R98, R300). -/
def Answered (s t : State) (code : ResultCode) (data : List Word) : Prop :=
  t.responses = s.responses ++ [⟨contextOf s, code, data⟩]

/-- Everything but the responses is as before. -/
structure SameButResponses (s t : State) : Prop where
  engine : SameEngine s t
  queue : SameQueue s t
  records : SameRecords s t
  clock : SameClock s t
  tables : SameTables s t
  handler : SameHandler s t
  dmem : SameDmem s t
  outside : SameOutside s t

/-- Every record but the one that h names is as before, read by handle. -/
def OtherRecordsSame (s t : State) (h : Handle) : Prop :=
  ∀ k, InRange s k → k ≠ h → recAt t k = recAt s k

/-- Every ALLOC bit is as before. -/
def SameAlloc (s t : State) : Prop := t.alloc = s.alloc

/-! ### Quiescent and stuck states -/

/-- FAULT is set: no agent steps (rule R303). -/
def Quiescent (s : State) : Prop := s.fault ≠ none

/-- No step is enabled and no fault is set (rule R362). -/
def Stuck (s : State) : Prop := s.fault = none ∧ ∀ a, enabled s a = false

end Sys2Proof.Machine
end

