-- ==== Sys2Proof/Certificates/Slice0/Obligations.lean ====
section
/-! DEFINITION. The statements for the provers, and the vocabulary they share. -/

open Sys2Proof Sys2Proof.Machine

namespace Sys2Proof.Machine

/-! ### Vocabulary -/

/-- Everything but the record file and the responses is as before. -/
structure SameButRecords (s t : State) : Prop where
  engine : SameEngine s t
  queue : SameQueue s t
  clock : SameClock s t
  tables : SameTables s t
  handler : SameHandler s t
  dmem : SameDmem s t
  outside : SameOutside s t

/-- Everything but the callback tables and the responses is as before. -/
structure SameButTables (s t : State) : Prop where
  engine : SameEngine s t
  queue : SameQueue s t
  records : SameRecords s t
  clock : SameClock s t
  handler : SameHandler s t
  dmem : SameDmem s t
  outside : SameOutside s t

/-- What no engine step touches: the clock, the tables, the holds, TICK_DUE, FAULT, the parameters, the command
stream, the picks, and the responses. -/
structure SameBesidesEngine (s t : State) : Prop where
  clock : SameClock s t
  tables : SameTables s t
  tickDue : t.tickDue = s.tickDue
  bgHold : t.bgHold = s.bgHold
  hHold : t.hHold = s.hHold
  cfg : t.cfg = s.cfg
  fault : t.fault = s.fault
  port : t.port = s.port
  picks : t.picks = s.picks
  draws : t.draws = s.draws

/-- The operand words of a header with their reserved bits zero (rules R87, R91, R92). -/
def OperandsLegal (w : Word) (ops : List Word) : Prop :=
  match opcodeOf w with
  | 0x6 => ∀ o ∈ ops, o.toNat < 2 ^ 8
  | 0xA | 0xB => ∀ o ∈ ops, o.toNat < 2 ^ 16
  | _ => True

/-- A header word and its operand words that stand for a command (rules R82 to R94): a row of the opcode table
matches the header, and the operand words have no reserved bit set. -/
def EncodesCommand (w : Word) (ops : List Word) : Prop :=
  (∃ row ∈ opcodeRows, row.matches w = true) ∧ OperandsLegal w ops

/-- The index of a handle is out of range for its kind (rule R123). -/
def HandleOutOfRange (c : Config) (h : Handle) : Prop :=
  (128 ≤ h.toNat ∧ c.poolCap ≤ h.toNat - 128) ∨ (h.toNat < 128 ∧ c.callerCap ≤ h.toNat)

/-- The command takes handle h (rules R83 to R87). -/
def TakesHandle (h : Handle) : Instr → Prop
  | .free k => k = h
  | .setup k _ _ _ _ => k = h
  | .wrrec k _ _ _ => k = h
  | .rdrec k _ _ => k = h
  | .submit _ hs => h ∈ hs
  | .reserve _ | .clkinit _ | .nowms | .nowus | .cbreg _ _ _ | .cbunreg _ _ | .status | .ret => False

/-- The value of a field as a number (rules R28, R101). -/
def fieldNumber (s : State) (h : Handle) (i : Nat) : RecField → Nat
  | .addr7 => (recAt s h).addr7.toNat
  | .dir => match (recAt s h).dir with | .write => 0 | .read => 1
  | .sendStop => (recAt s h).sendStop.toNat
  | .byteCount => (recAt s h).byteCount.toNat
  | .bufSel => match (recAt s h).bufSel with | .inlineBuffer => 0 | .externalBuffer => 1
  | .extAddr => (recAt s h).extAddr.toNat
  | .callback => (recAt s h).callback.toNat
  | .context => (recAt s h).context.toNat
  | .inlineByte => match (recAt s h).inl[i]? with | some b => b.toNat | none => 0
  | .chain => (recAt s h).chain.toNat
  | .status => (recAt s h).status.toNat
  | .hwCode => (recAt s h).hwCode.toNat
  | .valid => (recAt s h).valid.toNat
  | .queued => (recAt s h).queued.toNat
  | .alloc => if 128 ≤ h.toNat ∧ s.alloc[h.toNat - 128]? = some true then 1 else 0
  | .reserved => 0

/-- The host duties that SUBMIT checks for one handle (rule R162). -/
structure SubmitReady (s : State) (h : Handle) : Prop where
  allocated : isPool h = true → allocAt s h = true
  free : (recAt s h).queued = false
  valid : (recAt s h).valid = true
  fits : BufferFits s.cfg (recAt s h)

/-- Byte i of the active buffer of record h (rule R61). -/
def bufferByte (s : State) (h : Handle) (i : Nat) : Option Byte :=
  match (recAt s h).bufSel with
  | .inlineBuffer => (recAt s h).inl[i]?
  | .externalBuffer => memRead s ((recAt s h).extAddr.toNat + i)

/-- The engine waits in state st, with current record h, for an event that may come (rules R180, R305). -/
structure Awaiting (s : State) (h : Handle) (st : EngineState) : Prop where
  fault : s.fault = none
  ntf : s.ntf = .none
  busOut : s.busOut ≠ none
  cur : s.cur = some h
  st : s.st = st

/-- The environment's next action is a. -/
def offer (a : Action) (more : List Action) (s : State) : State := { s with agenda := a :: more }

/-- The bus command that requests byte i of record h, and ST waiting for its answer (rule R184). -/
def RequestsByte (s t : State) (h : Handle) (i : Nat) : Prop :=
  t.st = .dataCheck ∧ t.idx.toNat = i ∧
    match (recAt s h).dir with
    | .write => ∃ b, bufferByte s h i = some b ∧ t.busLog = s.busLog ++ [.tx b] ∧ t.busOut = some .tx
    | .read => t.busLog = s.busLog ++ [.rx (decide (i + 1 < (recAt s h).byteCount.toNat))] ∧ t.busOut = some .rx

/-- An event that completes the transaction of record h with success (rules R183 to R186). -/
def FinalEvent (s : State) (h : Handle) (code : Byte) : Prop :=
  (s.st = .addressAck ∧ (recAt s h).byteCount = 0 ∧ code = addressAckCode s.cfg (recAt s h).dir) ∨
  (s.st = .dataCheck ∧ (recAt s h).byteCount.toNat = s.idx.toNat + 1 ∧
    match (recAt s h).dir with
    | .write => code = s.cfg.codeTxAck
    | .read => code = s.cfg.codeRxNack)

/-- What the completing event of record h stored: the last byte of a read, in the active buffer, and nothing else
(rules R61, R186). -/
def LastByteOnly (s t : State) (h : Handle) (data : Byte) : Prop :=
  (s.st = .dataCheck → (recAt s h).dir = .read → bufferByte t h s.idx.toNat = some data) ∧
  (∀ j, ¬ (s.st = .dataCheck ∧ (recAt s h).dir = .read ∧ j = s.idx.toNat) → bufferByte t h j = bufferByte s h j) ∧
  ((recAt s h).bufSel = .externalBuffer → (recAt t h).inl = (recAt s h).inl) ∧
  ∀ a, ¬ (s.st = .dataCheck ∧ (recAt s h).dir = .read ∧ (recAt s h).bufSel = .externalBuffer ∧
    a = (recAt s h).extAddr.toNat + s.idx.toNat) → memRead t a = memRead s a

/-- A code that fails the check of the state the engine waits in, with the phase (rules R181, R183, R185, R186). -/
def FailingEvent (s : State) (h : Handle) (code : Byte) : Phase → Prop
  | .start => s.st = .start ∧ code ≠ s.cfg.codeStart ∧ code ≠ s.cfg.codeRepStart
  | .address => s.st = .addressAck ∧
      match (recAt s h).dir with
      | .write => code ≠ s.cfg.codeSlawAck
      | .read => code ≠ s.cfg.codeSlarAck
  | .data => s.st = .dataCheck ∧
      match (recAt s h).dir with
      | .write => code ≠ s.cfg.codeTxAck
      | .read =>
        (s.idx.toNat + 1 < (recAt s h).byteCount.toNat → code ≠ s.cfg.codeRxAck) ∧
        (¬ s.idx.toNat + 1 < (recAt s h).byteCount.toNat → code ≠ s.cfg.codeRxNack)

/-- The STATUS of a failure as a number (rules R189, R301). -/
def failureNumber (s : State) : Phase → Nat
  | .start => 1
  | .address => 2
  | .data => s.idx.toNat * 256 + 3

/-- After the block let go of its current record, the engine went on with the records in `rest`: idle where there
is none, else the first of them started (rules R180, R194). `idx` is IDX before, which only the start of a record
sets to 0 (rule R24), and `log` is BUSLOG before. -/
def GoesOnWith (t : State) (rest : List Handle) (idx : BitVec 8) (log : List BusCmd) : Prop :=
  owned t = rest ∧
    match rest with
    | [] => t.st = .idle ∧ t.busy = false ∧ t.cur = none ∧ t.idx = idx ∧ t.busOut = none ∧ t.busLog = log
    | k :: _ => t.st = .start ∧ t.busy = true ∧ t.cur = some k ∧ t.idx = 0 ∧ t.busOut = some .start ∧
        t.busLog = log ++ [.start]

/-- The records ks are the rest of h's chain: CHAIN = 1 on h and on each but the last (rules R162, R192). -/
def ChainRest (s : State) : Handle → List Handle → Prop
  | h, [] => (recAt s h).chain = false
  | h, k :: ks => (recAt s h).chain = true ∧ ChainRest s k ks

/-- The block's ownership of record h ended (rule R142). -/
def Released (t : State) (h : Handle) : Prop :=
  (recAt t h).queued = false ∧ (isPool h = true → allocAt t h = false)

/-- Every record but those in ks keeps every field and its ALLOC bit. -/
def UntouchedBut (s t : State) (ks : List Handle) : Prop :=
  ∀ k, InRange s k → k ∉ ks → recAt t k = recAt s k ∧ (isPool k = true → allocAt t k = allocAt s k)

/-- A due triple of table tb in state s (rule R252). -/
def DueIn (s : State) (tb : Table) (x : DueEntry) : Prop :=
  ∃ (i : Nat) (e : CbEntry), (liveCbs (tableOf s tb))[i]? = some e ∧ e.div.toNat ≤ e.ctr.toNat ∧ x = ⟨tb, BitVec.ofNat 8 i, e.cb⟩

/-- The counters and the notification after Dispatch of table tb (rule R252): every live counter moved in the one
step, and where something is due one triple is notified and the others wait in TICK_DUE. -/
def Dispatched (s t : State) (tb : Table) : Prop :=
  (tableOf t tb).count = (tableOf s tb).count ∧
  (∀ (i : Nat) (e : CbEntry), (liveCbs (tableOf s tb))[i]? = some e →
    (liveCbs (tableOf t tb))[i]? =
      some { e with ctr := if e.div.toNat ≤ e.ctr.toNat then 0 else e.ctr + 1 }) ∧
  (((∀ x, ¬ DueIn s tb x) ∧ t.ntf = .none ∧ t.tickDue = s.tickDue) ∨
    ∃ x, DueIn s tb x ∧ t.ntf = .tick x.table x.index x.callback 0 ∧ ∀ y, y ∈ t.tickDue ↔ DueIn s tb y ∧ y ≠ x)

/-- What a tick leaves alone besides the table it dispatches. -/
structure SameBesidesTick (s t : State) : Prop where
  engine : SameEngine s t
  queue : SameQueue s t
  records : SameRecords s t
  lastMs : t.lastMs = s.lastMs
  lastUs : t.lastUs = s.lastUs
  bgHold : t.bgHold = s.bgHold
  hHold : t.hHold = s.hHold
  dmem : SameDmem s t
  cfg : t.cfg = s.cfg
  fault : t.fault = s.fault
  port : t.port = s.port
  responses : t.responses = s.responses

/-- The tick of table tb (rules R236, R237). -/
def tickOf (tb : Table) (s : State) : State :=
  match tb with
  | .fast => fineTickStep s
  | .slow => coarseTickStep s

/-- k ticks of table tb, delivered one at a time, each one's notifications answered before the next (no RETURN from a
TICK changes a table, rule R254). -/
def ticksOf (tb : Table) : Nat → State → State
  | 0, s => s
  | k + 1, s => { tickOf tb (ticksOf tb k s) with ntf := .none, tickDue := [] }

/-- Callback x is notified or waits to be in state t. -/
def Fires (t : State) (x : DueEntry) : Prop := t.ntf = .tick x.table x.index x.callback 0 ∨ x ∈ t.tickDue

/-- The conditions under which the agents may act, but for FAULT = NONE (rules R163, R305 to R309, R311). That a
held context does not write DMEM either is the model's reading (notes/assumptions/7.md). -/
def MayTake (s : State) : Action → Prop
  | .command => (s.ntf = .none ∧ s.bgHold = false) ∨ (s.ntf ≠ .none ∧ s.hHold = false)
  | .busEvent _ _ => s.busOut ≠ none ∧ s.ntf = .none
  | .fineTick => s.ntf = .none
  | .coarseTick => s.cfg.hasCoarse = true ∧ s.ntf = .none
  | .liftBackground => s.bgHold = true ∧ s.busy = false ∧ s.ntf = .none
  | .liftHandler => s.hHold = true ∧ s.busy = false
  | .hostWrite _ _ => (s.ntf = .none ∧ s.bgHold = false) ∨ (s.ntf ≠ .none ∧ s.hHold = false)

/-- The result codes of rule R300's table, the reserved bits' ILLEGAL apart. -/
def CodeAllowed : Instr → ResultCode → Prop
  | .reserve _, c => c = .ok ∨ c = .noSpace
  | .submit _ _, c => c = .ok ∨ c = .noSpace ∨ c = .illegal
  | .cbreg _ _ _, c => c = .ok ∨ c = .full ∨ c = .illegal
  | .free _, c | .setup _ _ _ _ _, c | .wrrec _ _ _ _, c | .rdrec _ _ _, c | .cbunreg _ _, c | .ret, c =>
    c = .ok ∨ c = .illegal
  | .clkinit _, c | .nowms, c | .nowus, c | .status, c => c = .ok

/-- The faults of rule R300's table, by rule R302's codes. -/
def FaultAllowed : Instr → FaultReason → Prop
  | .free _, r => r.code = 1
  | .setup _ _ _ _ _, r | .wrrec _ _ _ _, r => r.code ≤ 2
  | .submit _ _, r => r.code ≤ 5
  | .cbreg _ _ _, r | .cbunreg _ _, r => r.code = 6
  | .reserve _, _ | .rdrec _ _ _, _ | .clkinit _, _ | .nowms, _ | .nowus, _ | .status, _ | .ret, _ => False

/-- The step of s is the host's issue of command i. -/
def Issues (s : State) (i : Instr) : Prop :=
  (∃ more, s.agenda = .command :: more) ∧ ∃ rest, decode s.port = .instr i rest

/-- The step of s is action a. -/
def Takes (s : State) (a : Action) : Prop := ∃ more, s.agenda = a :: more

/-- The bus events that answer a read of the bytes bs, in order: CODE_RX_ACK for each but the last (rule R198). -/
def readAnswers (c : Config) : List Byte → List Action
  | [] => []
  | [b] => [.busEvent c.codeRxNack b]
  | b :: more => .busEvent c.codeRxAck b :: readAnswers c more

/-- The RX commands that request n bytes: with acknowledge for each but the last (rule R198). -/
def readRequests : Nat → List BusCmd
  | 0 => []
  | 1 => [.rx false]
  | n + 2 => .rx true :: readRequests (n + 1)

end Sys2Proof.Machine

/-! ### Encoding (30_encoding.md) -/

/-- Decoding the words of a well-formed command, whatever stands behind them, gives the command and the rest. -/
def Obligations.DecodeEncodeRoundTrip : Prop :=
  ∀ (i : Instr) (rest : List Word), i.wellFormed = true → decode (encode i ++ rest) = .instr i rest

/-- Words that decode to a command are its encoding: every word has one meaning and no bit is dropped. -/
def Obligations.DecodedWordsAreTheEncoding : Prop :=
  ∀ (ws rest : List Word) (i : Instr), decode ws = .instr i rest → i.wellFormed = true ∧ ws = encode i ++ rest

/-- Every header word decodes (rules R80, R96, R97, R107): to its row's command, or as illegal with all its words
consumed. -/
def Obligations.EveryHeaderDecodes : Prop :=
  ∀ (w : Word) (ops : List Word), operandCount w ≤ ops.length →
    ((opcodeOf w = 0x0 ∨ opcodeOf w = 0xE ∨ opcodeOf w = 0xF) ∧ decode (w :: ops) = .illegal .reservedOpcode ops) ∨
    ∃ row ∈ opcodeRows, row.pattern.toNat / 2 ^ 28 = opcodeOf w ∧
      ((row.matches w = true ∧ OperandsLegal w (ops.take (operandCount w)) ∧
          ∃ i, mnemonicOf i = row.mnemonic ∧ decode (w :: ops) = .instr i (ops.drop (operandCount w))) ∨
        (¬ (row.matches w = true ∧ OperandsLegal w (ops.take (operandCount w))) ∧
          decode (w :: ops) = .illegal .reservedField (ops.drop (operandCount w))))

/-- Rules R96 and R97: an illegal encoding responds ILLEGAL, its words are consumed, nothing else happens. -/
def Obligations.IllegalEncodingOnlyResponds : Prop :=
  ∀ (s : State) (w : Word) (ops : List Word) (more : List Action),
    s.fault = none → MayTake s .command → s.port = w :: ops → operandCount w ≤ ops.length →
    ¬ EncodesCommand w (ops.take (operandCount w)) →
    ∃ t, step (offer .command more s) = .next t ∧ Answered s t .illegal [] ∧
      t.port = ops.drop (operandCount w) ∧ t.agenda = more ∧
      SameButResponses s { t with port := s.port, agenda := s.agenda }

/-- Words written out in the spec decode to the commands it gives for them, at least one word list per mnemonic: the
examples of 40_records.md, 41_pool.md, 42_queue.md, 44_clock.md, 45_scheduler.md and 47_system.md, and 95_test_vectors.md for
0x3005E481 (S1 step 5), 0x5000F880 (V-REC-9) and 0xA0000101 0x303 (PROG5 step 3). -/
def Obligations.SpecExampleWordsDecode : Prop :=
  decode [0x10000002#32] = .instr (.reserve 2) [] ∧
  decode [0x20000081#32] = .instr (.free 0x81) [] ∧
  decode [0x30026480#32] = .instr (.setup 0x80 0x64 .write false 1) [] ∧
  decode [0x3005E481#32] = .instr (.setup 0x81 0x64 .read true 2) [] ∧
  decode [0x40000681#32, 0x22#32] = .instr (.wrrec 0x81 .callback 0 0x22) [] ∧
  decode [0x5000F880#32] = .instr (.rdrec 0x80 .inlineByte 15) [] ∧
  decode [0x60000102#32, 0x80#32, 0x81#32] = .instr (.submit true [0x80, 0x81]) [] ∧
  decode [0x70000000#32, 0xA#32] = .instr (.clkinit 10) [] ∧
  decode [0x80000000#32] = .instr .nowms [] ∧
  decode [0x90000000#32] = .instr .nowus [] ∧
  decode [0xA0000101#32, 0x303#32] = .instr (.cbreg .slow 1 0x303) [] ∧
  decode [0xB0000000#32, 0x101#32] = .instr (.cbunreg .fast 0x101) [] ∧
  decode [0xC0000000#32] = .instr .status [] ∧
  decode [0xD0000000#32] = .instr .ret []

/-- A step in which the host issues a command runs the command that the front of the stream decodes to, with its
words taken from the stream. -/
def Obligations.StepRunsTheDecodedCommand : Prop :=
  ∀ (s : State) (i : Instr) (rest : List Word) (more : List Action),
    s.fault = none → MayTake s .command → decode s.port = .instr i rest →
    step (offer .command more s) = exec i { s with port := rest, agenda := more }

/-! ### Reset and the invariants (rules R38, R350) -/

/-- The reset values that rule R350 states, for every choice of the parameters (which the model keeps in the state,
notes/assumptions/1.md). The values that the rule leaves unspecified are not mentioned. -/
def Obligations.ResetStateIsTheTable : Prop :=
  ∀ c : Config,
    let s := State.resetWith c
    s.cfg = c ∧ s.st = .idle ∧ s.busy = false ∧ s.cur = none ∧ s.idx = 0 ∧ s.busOut = none ∧ s.qRd = 0 ∧ s.qCount = 0 ∧
    (∀ i, i < c.poolCap → s.alloc[i]? = some false) ∧
    (∀ r ∈ s.pool ++ s.caller, r.valid = false ∧ r.queued = false) ∧
    s.fine = 0 ∧ s.coarseMs = 0 ∧ s.lastMs = 0 ∧ s.lastUs = 0 ∧ s.fast.count = 0 ∧ s.slow.count = 0 ∧
    s.ntf = .none ∧ s.tickDue = [] ∧ s.bgHold = false ∧ s.hHold = false ∧ s.fault = none ∧ s.busLog = []

/-- Every invariant holds at reset, for every legal choice of the parameters. -/
def Obligations.ResetMeetsTheInvariants : Prop := ∀ c : Config, c.Legal → Inv (State.resetWith c)

/-- Every step of every agent keeps the invariants. -/
def Obligations.EveryStepKeepsTheInvariants : Prop := ∀ s t : State, Inv s → step s = .next t → Inv t

/-- In a state that meets the invariants, every enabled action is taken: no command, event, tick or lifted hold
stops the machine. (A command stream that ends in the middle of a command, and a host write beyond DMEM, are no
actions of the spec. The condition of a host write while held is the model's reading, notes/assumptions/7.md.) -/
def Obligations.EnabledActionsAlwaysComplete : Prop :=
  ∀ (s : State) (a : Action) (more : List Action), Inv s → s.fault = none → MayTake s a →
    (a = .command → decode s.port ≠ .incomplete) →
    (∀ address value, a = .hostWrite address value → address < 2 ^ s.cfg.dmemAw) →
    ∃ t, step (offer a more s) = .next t

/-! ### Who may act, faults, handler context (60_exceptions.md) -/

/-- The enabling conditions: with FAULT set nothing steps, else an action is turned down exactly where its condition
fails. That such an action is a refusal is the model's choice (notes/assumptions/2.md), and so is the condition of a
host write while held (notes/assumptions/7.md). -/
def Obligations.ActionsAreTakenExactlyWhenEnabled : Prop :=
  ∀ (s : State) (a : Action) (more : List Action),
    (∀ r, s.fault = some r → step (offer a more s) = .fault (.quiescent r)) ∧
    (s.fault = none → (step (offer a more s) = .refused (.notEnabled a) ↔ ¬ MayTake s a))

/-- Rule R303: a faulting command sets FAULT and does nothing else, and then no agent steps. -/
def Obligations.FaultingCommandOnlySetsFault : Prop :=
  (∀ (i : Instr) (s t : State), s.fault = none → exec i s = .next t → t.fault ≠ none →
    ∃ r, FaultAllowed i r ∧ t = { s with fault := some r }) ∧
  ∀ (s : State) (r : FaultReason), s.fault = some r → step s = .fault (.quiescent r)

/-- Rule R300, in every state that meets the invariants: a command answers at most once, with a code its row of the table allows; a refused command has no
effect; and a command that answers nothing has faulted with a reason its row allows, or holds. -/
def Obligations.CommandOutcomesAreTheTable : Prop :=
  ∀ (i : Instr) (s t : State), Inv s → exec i s = .next t →
    (∃ code data, Answered s t code data ∧ CodeAllowed i code ∧ (code ≠ .ok → data = [] ∧ SameButResponses s t)) ∨
    (t.responses = s.responses ∧
      ((∃ r, FaultAllowed i r ∧ t = { s with fault := some r }) ∨
        (∃ hs, i = .submit true hs) ∧ t.busy = true ∧ (t.bgHold = true ∨ t.hHold = true)))

/-- Rule R313: NTF changes only in a bus event or a tick taken while no notification is pending, or in a RETURN that
ends one. -/
def Obligations.HandlersNeverNest : Prop :=
  ∀ s t : State, Inv s → step s = .next t → t.ntf ≠ s.ntf →
    (s.ntf = .none ∧ ((∃ code data, Takes s (.busEvent code data)) ∨ Takes s .fineTick ∨ Takes s .coarseTick)) ∨
    (s.ntf ≠ .none ∧ Issues s .ret)

/-- Rule R362: a blocking SUBMIT in handler context that must wait leaves a state in which no step is enabled and no
fault is set. -/
def Obligations.BlockingSubmitInHandlerIsStuck : Prop :=
  ∀ (s t : State) (hs : List Handle), Inv s → s.fault = none → s.ntf ≠ .none →
    exec (.submit true hs) s = .next t → t.fault = none → t.responses = s.responses → Stuck t

/-- Rule R163: a held blocking SUBMIT resumes once BUSY = 0, in a step of its own that delivers OK. -/
def Obligations.LiftedHoldDeliversOk : Prop :=
  ∀ (s : State) (more : List Action), s.fault = none → s.busy = false →
    (s.bgHold = true → s.ntf = .none →
      step (offer .liftBackground more s) =
        .next { s with agenda := more, bgHold := false, responses := s.responses ++ [⟨.background, .ok, []⟩] }) ∧
    (s.hHold = true →
      step (offer .liftHandler more s) =
        .next { s with agenda := more, hHold := false, responses := s.responses ++ [⟨.handler, .ok, []⟩] })

/-- Rule R123: an out-of-range handle makes every command that takes it ILLEGAL, with no other effect. -/
def Obligations.OutOfRangeHandleIsIllegal : Prop :=
  ∀ (s : State) (i : Instr) (h : Handle), TakesHandle h i → HandleOutOfRange s.cfg h →
    ∃ t, exec i s = .next t ∧ Answered s t .illegal [] ∧ SameButResponses s t

/-! ### Record commands (40_records.md) -/

/-- Rules R120, R121, R124, R303: SETUP and an encodable WRREC of a free pool record, or of a record the block owns, only set FAULT. -/
def Obligations.UnwritableRecordFaults : Prop :=
  ∀ (s : State) (i : Instr) (h : Handle), InRange s h →
    ((∃ a d stop c, i = .setup h a d stop c) ∨ ∃ f k v, fieldWriteLegal s.cfg f k v = true ∧ i = .wrrec h f k v) →
    (isPool h = true → allocAt s h = false → exec i s = .next { s with fault := some .notAllocated }) ∧
    ((isPool h = true → allocAt s h = true) → (recAt s h).queued = true →
      exec i s = .next { s with fault := some .queuedRecord })

/-- Rule R120: what SETUP writes, and that it writes nothing else. -/
def Obligations.SetupFillsTheRecord : Prop :=
  ∀ (s : State) (h : Handle) (a : BitVec 7) (d : Dir) (stop : Bool) (c : BitVec 8),
    Sized s → InRange s h → (isPool h = true → allocAt s h = true) → (recAt s h).queued = false →
    ∃ t, exec (.setup h a d stop c) s = .next t ∧ Answered s t .ok [] ∧
      (recAt t h).addr7 = a ∧ (recAt t h).dir = d ∧ (recAt t h).sendStop = stop ∧ (recAt t h).byteCount = c ∧
      (recAt t h).callback = 0 ∧ (recAt t h).context = 0 ∧ (recAt t h).bufSel = .inlineBuffer ∧
      (recAt t h).extAddr = 0 ∧ (recAt t h).chain = false ∧ (recAt t h).status = 0 ∧ (recAt t h).hwCode = 0 ∧
      (recAt t h).valid = true ∧ (recAt t h).queued = false ∧ (recAt t h).inl = (recAt s h).inl ∧
      OtherRecordsSame s t h ∧ SameAlloc s t ∧ SameButRecords s t

/-- Rules R121, R122: a legal WRREC is read back by RDREC, and every other field of every record reads as before. -/
def Obligations.WrrecWritesExactlyOneField : Prop :=
  ∀ (s : State) (h : Handle) (f : RecField) (i : BitVec 8) (v : Word),
    Sized s → InRange s h → fieldWriteLegal s.cfg f i v = true →
    (isPool h = true → allocAt s h = true) → (recAt s h).queued = false →
    ∃ t, exec (.wrrec h f i v) s = .next t ∧ Answered s t .ok [] ∧
      fieldNumber t h i.toNat f = v.toNat ∧
      (∀ k g j, InRange s k → fieldReadable s.cfg g j = true → ¬ (k = h ∧ g = f ∧ j = i) →
        fieldNumber t k j.toNat g = fieldNumber s k j.toNat g) ∧
      SameAlloc s t ∧ SameButRecords s t

/-- Rule R122: RDREC returns the field, zero-extended, and has no side effect. -/
def Obligations.RdrecReturnsTheField : Prop :=
  ∀ (s : State) (h : Handle) (f : RecField) (i : BitVec 8),
    InRange s h → fieldReadable s.cfg f i = true →
    ∃ t v, exec (.rdrec h f i) s = .next t ∧ Answered s t .ok [v] ∧ v.toNat = fieldNumber s h i.toNat f ∧
      SameButResponses s t

/-- Rule R102: the field accesses that are ILLEGAL, by field number. -/
def Obligations.FieldChecksAreIllegal : Prop :=
  ∀ (s : State) (h : Handle) (f : RecField) (i : BitVec 8) (v : Word), InRange s h →
    ((f.num = 15 ∨ (f.num ≠ 8 ∧ i ≠ 0) ∨ (f.num = 8 ∧ s.cfg.inlineBytes ≤ i.toNat)) ↔
      ∃ t, exec (.rdrec h f i) s = .next t ∧ Answered s t .illegal [] ∧ SameButResponses s t) ∧
    ((f.num = 15 ∨ (f.num ≠ 8 ∧ i ≠ 0) ∨ (f.num = 8 ∧ s.cfg.inlineBytes ≤ i.toNat) ∨ 9 ≤ f.num.toNat ∨
        2 ^ fieldWidth s.cfg f ≤ v.toNat) ↔
      ∃ t, exec (.wrrec h f i v) s = .next t ∧ Answered s t .illegal [] ∧ SameButResponses s t)

/-! ### Pool commands (41_pool.md) -/

/-- Rule R140: RESERVE hands out the n lowest free records, ascending, and marks them allocated and not set up; or it
answers NO_SPACE and changes nothing. -/
def Obligations.ReserveTakesTheLowestFreeRecords : Prop :=
  ∀ (s : State) (n : BitVec 8), s.cfg.Legal → Sized s →
    (poolFree s < n.toNat →
      ∃ t, exec (.reserve n) s = .next t ∧ Answered s t .noSpace [] ∧ SameButResponses s t) ∧
    (n.toNat ≤ poolFree s →
      ∃ (t : State) (is : List Nat), exec (.reserve n) s = .next t ∧
        is.length = n.toNat ∧ is.Pairwise (· < ·) ∧
        (∀ i ∈ is, i < s.cfg.poolCap ∧ s.alloc[i]? = some false) ∧
        (∀ i ∈ is, ∀ j, j < i → s.alloc[j]? = some false → j ∈ is) ∧
        Answered s t .ok (is.map fun i => BitVec.ofNat 32 (0x80 + i)) ∧
        (∀ i, i < s.cfg.poolCap → t.alloc[i]? = if i ∈ is then some true else s.alloc[i]?) ∧
        (∀ h, InRange s h →
          recAt t h = if isPool h = true ∧ handleIndex h ∈ is then { recAt s h with valid := false } else recAt s h) ∧
        SameButRecords s t)

/-- Rule R141: FREE frees an allocated, unowned pool record; it changes nothing for a caller-owned or a free record;
and it faults on a pool record that the block owns. -/
def Obligations.FreeReturnsOnlyPoolRecords : Prop :=
  ∀ (s : State) (h : Handle), Sized s → InRange s h →
    ((isPool h = false ∨ allocAt s h = false) →
      ∃ t, exec (.free h) s = .next t ∧ Answered s t .ok [] ∧ SameButResponses s t) ∧
    (isPool h = true → allocAt s h = true → (recAt s h).queued = true →
      exec (.free h) s = .next { s with fault := some .queuedRecord }) ∧
    (isPool h = true → allocAt s h = true → (recAt s h).queued = false →
      ∃ t, exec (.free h) s = .next t ∧ Answered s t .ok [] ∧ allocAt t h = false ∧
        (∀ k, isPool k = true → k ≠ h → allocAt t k = allocAt s k) ∧ t.pool = s.pool ∧ t.caller = s.caller ∧
        SameButRecords s t)

/-- Rule R143: in every state that meets the invariants no queued pool record is free, and a step that takes a pool
record out of the block's hands leaves it free. -/
def Obligations.DequeuedPoolRecordsAreFree : Prop :=
  ∀ s t : State, Inv s → step s = .next t →
    (∀ h, InRange t h → isPool h = true → (recAt t h).queued = true → allocAt t h = true) ∧
    ∀ h ∈ owned s, h ∉ owned t → Released t h

/-! ### The queue (42_queue.md) -/

/-- Rule R162: an accepted SUBMIT. Its handles become owned, in order; CHAIN is positional; an idle engine starts the
first of them in the same step; a blocking SUBMIT holds while BUSY = 1. -/
def Obligations.AcceptedSubmitQueuesTheChain : Prop :=
  ∀ (s : State) (b : Bool) (hs : List Handle), Inv s → (∀ h ∈ hs, InRange s h) → hs.Nodup →
    (∀ h ∈ hs, SubmitReady s h) → hs.length ≤ s.cfg.queueCap - s.qCount →
    ∃ t, exec (.submit b hs) s = .next t ∧ owned t = owned s ++ hs ∧
      (∀ k h, hs[k]? = some h →
        recAt t h = { recAt s h with chain := decide (k + 1 < hs.length), queued := true }) ∧
      (∀ h, InRange s h → h ∉ hs → recAt t h = recAt s h) ∧ SameAlloc s t ∧
      ((s.busy = true ∨ hs = []) → SameEngine s t) ∧
      (s.busy = false → ∀ h more, hs = h :: more →
        t.cur = some h ∧ liveEntries t = more ∧ t.idx = 0 ∧ t.busy = true ∧ t.st = .start ∧ t.busOut = some .start ∧
        t.busLog = s.busLog ++ [.start]) ∧
      ((b = true ∧ t.busy = true) →
        t.responses = s.responses ∧
        (s.ntf = .none → t.bgHold = true ∧ t.hHold = s.hHold) ∧ (s.ntf ≠ .none → t.hHold = true ∧ t.bgHold = s.bgHold)) ∧
      (¬ (b = true ∧ t.busy = true) → Answered s t .ok [] ∧ t.bgHold = s.bgHold ∧ t.hHold = s.hHold) ∧
      t.ntf = s.ntf ∧ t.tickDue = s.tickDue ∧ SameClock s t ∧ SameTables s t ∧ SameDmem s t ∧ SameOutside s t

/-- Rule R165: with too few free slots SUBMIT changes no queue state and no record and answers NO_SPACE; with enough,
every handle is owned afterwards, in submission order. -/
def Obligations.QueueAtomicity : Prop :=
  ∀ (s : State) (b : Bool) (hs : List Handle), Inv s → (∀ h ∈ hs, InRange s h) → hs.Nodup →
    (∀ h ∈ hs, SubmitReady s h) →
    (s.cfg.queueCap - s.qCount < hs.length →
      ∃ t, exec (.submit b hs) s = .next t ∧ Answered s t .noSpace [] ∧ SameQueue s t ∧ SameRecords s t ∧
        SameButResponses s t) ∧
    (hs.length ≤ s.cfg.queueCap - s.qCount → ∃ t, exec (.submit b hs) s = .next t ∧ owned t = owned s ++ hs)

/-- Rules R162, R304: the host duties of SUBMIT are checked before capacity, the duplicate check first, then each
handle in submission order, ALLOC, QUEUED, VALID and buffer range in that order. -/
def Obligations.SubmitFaultsInOrder : Prop :=
  ∀ (s : State) (b : Bool) (hs : List Handle), (∀ h ∈ hs, InRange s h) →
    (¬ hs.Nodup → exec (.submit b hs) s = .next { s with fault := some .duplicateHandle }) ∧
    (hs.Nodup → ∀ (before : List Handle) (h : Handle) (after : List Handle), hs = before ++ h :: after →
      (∀ k ∈ before, SubmitReady s k) →
      (isPool h = true → allocAt s h = false → exec (.submit b hs) s = .next { s with fault := some .notAllocated }) ∧
      ((isPool h = true → allocAt s h = true) → (recAt s h).queued = true →
        exec (.submit b hs) s = .next { s with fault := some .queuedRecord }) ∧
      ((isPool h = true → allocAt s h = true) → (recAt s h).queued = false → (recAt s h).valid = false →
        exec (.submit b hs) s = .next { s with fault := some .notSetUp }) ∧
      ((isPool h = true → allocAt s h = true) → (recAt s h).queued = false → (recAt s h).valid = true →
        ¬ BufferFits s.cfg (recAt s h) → exec (.submit b hs) s = .next { s with fault := some .bufferRange }))

/-- Rule R164: whatever the step, records leave the block's hands from the front, only an accepted SUBMIT adds
records, its own, together, at the back, chained but for the last, and no CHAIN bit of an owned record changes. -/
def Obligations.OwnershipIsFirstInFirstOut : Prop :=
  ∀ s t : State, Inv s → step s = .next t →
    ∃ (k : Nat) (new : List Handle), owned t = (owned s).drop k ++ new ∧
      (new = [] ∨ ∃ b, Issues s (.submit b new)) ∧
      (∀ j h, new[j]? = some h → (recAt t h).chain = decide (j + 1 < new.length)) ∧
      ∀ h ∈ (owned s).drop k, (recAt t h).chain = (recAt s h).chain

/-! ### The engine (43_engine.md) -/

/-- Rules R181, R182: either start code is accepted, and the address byte goes out in the same step. The layout of that
byte, 2 * ADDR7 + DIR, and the repeated start behind the second code are general knowledge in the spec (rule R103, G2
and G3) and the model's choice (PRESUMED: notes/assumptions/14.md). -/
def Obligations.StartCodeIssuesTheAddress : Prop :=
  ∀ (s : State) (h : Handle) (code data : Byte) (more : List Action), Awaiting s h .start →
    (code = s.cfg.codeStart ∨ code = s.cfg.codeRepStart) →
    ∃ t b, step (offer (.busEvent code data) more s) = .next t ∧
      b.toNat = 2 * (recAt s h).addr7.toNat + (match (recAt s h).dir with | .write => 0 | .read => 1) ∧
      t.busLog = s.busLog ++ [.addr b] ∧ t.busOut = some .addr ∧ t.st = .addressAck ∧ t.cur = s.cur ∧ t.idx = s.idx ∧
      t.busy = s.busy ∧ t.ntf = s.ntf ∧ SameQueue s t ∧ SameRecords s t ∧ SameDmem s t ∧ SameBesidesEngine s t ∧
      t.responses = s.responses ∧ t.agenda = more

/-- Rules R183, R184, R185: an acknowledged address requests byte 0, if there is one, and an acknowledged written byte
counts in IDX and requests the next one. -/
def Obligations.AcknowledgeRequestsTheNextByte : Prop :=
  ∀ (s : State) (h : Handle) (code data : Byte) (i : Nat) (more : List Action), Inv s → Awaiting s h s.st →
    ((s.st = .addressAck ∧ code = addressAckCode s.cfg (recAt s h).dir ∧ i = 0) ∨
      (s.st = .dataCheck ∧ (recAt s h).dir = .write ∧ code = s.cfg.codeTxAck ∧ i = s.idx.toNat + 1)) →
    i < (recAt s h).byteCount.toNat →
    ∃ t, step (offer (.busEvent code data) more s) = .next t ∧
      RequestsByte s t h i ∧ t.cur = s.cur ∧ t.busy = s.busy ∧ t.ntf = s.ntf ∧ SameQueue s t ∧ SameRecords s t ∧
      SameDmem s t ∧ SameBesidesEngine s t ∧ t.responses = s.responses ∧ t.agenda = more

/-- Rules R184, R186: a received byte that is not the last is stored at IDX of the active buffer, nothing else is
stored, and the next byte is requested. -/
def Obligations.ReceivedByteIsStored : Prop :=
  ∀ (s : State) (h : Handle) (data : Byte) (more : List Action), Inv s → Awaiting s h .dataCheck →
    (recAt s h).dir = .read → s.idx.toNat + 1 < (recAt s h).byteCount.toNat →
    ∃ t, step (offer (.busEvent s.cfg.codeRxAck data) more s) = .next t ∧
      bufferByte t h s.idx.toNat = some data ∧
      (∀ j, j ≠ s.idx.toNat → bufferByte t h j = bufferByte s h j) ∧
      ((recAt s h).bufSel = .inlineBuffer → SameDmem s t ∧ OtherRecordsSame s t h ∧
        recAt t h = { recAt s h with inl := (recAt t h).inl }) ∧
      ((recAt s h).bufSel = .externalBuffer → SameRecords s t ∧
        ∀ a, a ≠ (recAt s h).extAddr.toNat + s.idx.toNat → memRead t a = memRead s a) ∧
      RequestsByte s t h (s.idx.toNat + 1) ∧ t.cur = s.cur ∧ t.busy = s.busy ∧ t.ntf = s.ntf ∧ SameQueue s t ∧
      SameAlloc s t ∧ SameBesidesEngine s t ∧ t.responses = s.responses ∧ t.agenda = more

/-- Rules R187, R188: the completing event of the last record of a chain with a callback: STATUS and HW_CODE are 0,
STOP goes out if SEND_STOP asks for it, and the engine holds in STOP with the notification. IDX has counted every byte
(rules R24, R185, R186). -/
def Obligations.SuccessNotifiesTheCallback : Prop :=
  ∀ (s : State) (h : Handle) (code data : Byte) (more : List Action), Inv s → Awaiting s h s.st →
    FinalEvent s h code → (recAt s h).chain = false → (recAt s h).callback ≠ 0 →
    ∃ t, step (offer (.busEvent code data) more s) = .next t ∧
      t.ntf = .txn h (recAt s h).callback (recAt s h).context 0 0 ∧
      recAt t h = { recAt s h with status := 0, hwCode := 0, inl := (recAt t h).inl } ∧ LastByteOnly s t h data ∧
      t.st = .stop ∧ t.cur = some h ∧ t.busy = true ∧ t.idx = (recAt s h).byteCount ∧ t.busOut = none ∧
      t.busLog = s.busLog ++ (if (recAt s h).sendStop then [.stop] else []) ∧
      SameQueue s t ∧ SameAlloc s t ∧ OtherRecordsSame s t h ∧ SameBesidesEngine s t ∧ t.responses = s.responses ∧
      t.agenda = more

/-- Rules R187, R191: the completing event of a chained record, or of one with no callback: no notification, the
record is released, and the engine goes on with the next owned record in the same step. -/
def Obligations.SilentSuccessReleasesAndGoesOn : Prop :=
  ∀ (s : State) (h : Handle) (code data : Byte) (more : List Action), Inv s → Awaiting s h s.st →
    FinalEvent s h code → ((recAt s h).chain = true ∨ (recAt s h).callback = 0) →
    ∃ t, step (offer (.busEvent code data) more s) = .next t ∧ t.ntf = .none ∧
      recAt t h = { recAt s h with status := 0, hwCode := 0, queued := false, inl := (recAt t h).inl } ∧
      LastByteOnly s t h data ∧ Released t h ∧ UntouchedBut s t [h] ∧
      GoesOnWith t (liveEntries s) (recAt s h).byteCount (s.busLog ++ if (recAt s h).sendStop then [.stop] else []) ∧
      SameBesidesEngine s t ∧ t.responses = s.responses ∧ t.agenda = more

/-- Rules R181, R183, R185, R186, R189, R301: a code that fails its check. STATUS has the phase and, for the data
phase, the bytes done; HW_CODE has the code; STOP always goes out; nothing is stored; and a record with a callback
is notified, chained or not, with the engine holding in ERROR. -/
def Obligations.FailedCheckNotifiesTheCallback : Prop :=
  ∀ (s : State) (h : Handle) (code data : Byte) (p : Phase) (more : List Action), Inv s → Awaiting s h s.st →
    FailingEvent s h code p → (recAt s h).callback ≠ 0 →
    ∃ t, step (offer (.busEvent code data) more s) = .next t ∧
      (recAt t h).status.toNat = failureNumber s p ∧ (recAt t h).hwCode = code ∧
      t.ntf = .txn h (recAt s h).callback (recAt s h).context (recAt t h).status code ∧
      recAt t h = { recAt s h with status := (recAt t h).status, hwCode := code } ∧
      t.busLog = s.busLog ++ [.stop] ∧ t.busOut = none ∧ t.st = .error ∧ t.cur = some h ∧ t.busy = true ∧
      t.idx = s.idx ∧ SameQueue s t ∧ SameAlloc s t ∧ OtherRecordsSame s t h ∧ SameDmem s t ∧ SameBesidesEngine s t ∧
      t.responses = s.responses ∧ t.agenda = more

/-- Rules R189, R192: a failing record with no callback keeps its error, is released with the rest of its chain, which
gets no bus command, no notification and no STATUS, and the engine goes on with the record after the chain. -/
def Obligations.SilentFailureDiscardsTheChain : Prop :=
  ∀ (s : State) (h : Handle) (code data : Byte) (p : Phase) (more : List Action), Inv s → Awaiting s h s.st →
    FailingEvent s h code p → (recAt s h).callback = 0 →
    ∃ (t : State) (chain rest : List Handle), step (offer (.busEvent code data) more s) = .next t ∧
      liveEntries s = chain ++ rest ∧ ChainRest s h chain ∧ t.ntf = .none ∧
      (recAt t h).status.toNat = failureNumber s p ∧
      recAt t h = { recAt s h with status := (recAt t h).status, hwCode := code, queued := false } ∧ Released t h ∧
      (∀ k ∈ chain, recAt t k = { recAt s k with queued := false } ∧ Released t k) ∧ UntouchedBut s t (h :: chain) ∧
      GoesOnWith t rest s.idx (s.busLog ++ [.stop]) ∧ SameDmem s t ∧ SameBesidesEngine s t ∧ t.responses = s.responses ∧
      t.agenda = more

/-- Rules R191, R194, R281: RETURN from the notification of a success releases the record and goes on. -/
def Obligations.ReturnFromSuccessReleases : Prop :=
  ∀ (s : State) (h : Handle) (cb : BitVec 16) (ctx : BitVec 32) (w : BitVec 16) (c : Byte), Inv s →
    s.ntf = .txn h cb ctx w c → s.st = .stop →
    ∃ t, exec .ret s = .next t ∧ Answered s t .ok [] ∧ t.ntf = .none ∧
      recAt t h = { recAt s h with queued := false } ∧ Released t h ∧ UntouchedBut s t [h] ∧
      GoesOnWith t (liveEntries s) s.idx s.busLog ∧ SameDmem s t ∧ SameBesidesEngine s t ∧ t.agenda = s.agenda

/-- Rules R192, R194, R195, R281: RETURN from the notification of a failure releases the failing record and discards
exactly the rest of its chain: no bus command, no notification, no STATUS for the members that never started. -/
def Obligations.ReturnFromFailureDiscardsTheChain : Prop :=
  ∀ (s : State) (h : Handle) (cb : BitVec 16) (ctx : BitVec 32) (w : BitVec 16) (c : Byte), Inv s →
    s.ntf = .txn h cb ctx w c → s.st = .error →
    ∃ (t : State) (chain rest : List Handle), exec .ret s = .next t ∧ Answered s t .ok [] ∧ t.ntf = .none ∧
      liveEntries s = chain ++ rest ∧ ChainRest s h chain ∧
      (∀ k ∈ h :: chain, recAt t k = { recAt s k with queued := false } ∧ Released t k) ∧ UntouchedBut s t (h :: chain) ∧
      GoesOnWith t rest s.idx s.busLog ∧ SameDmem s t ∧ SameBesidesEngine s t ∧ t.agenda = s.agenda

/-- Rule R198, row 1: a write whose every event is the expected one issues ADDR, TX of each buffer byte in order, and
STOP if SEND_STOP asks for it, and ends with STATUS = 0. That ADDR carries 2 * ADDR7 + 0 is general knowledge in the
spec (rule R103, G2) and the model's choice (PRESUMED: notes/assumptions/14.md). -/
def Obligations.SuccessfulWriteBusSequence : Prop :=
  ∀ (s : State) (h : Handle) (start data : Byte) (more : List Action), Inv s → Awaiting s h .start →
    (start = s.cfg.codeStart ∨ start = s.cfg.codeRepStart) → (recAt s h).dir = .write →
    ∃ (t : State) (bytes : List Byte) (next : List BusCmd),
      core.run ((recAt s h).byteCount.toNat + 2)
        { s with agenda := .busEvent start data :: .busEvent s.cfg.codeSlawAck data ::
                  (List.replicate (recAt s h).byteCount.toNat (.busEvent s.cfg.codeTxAck data) ++ more) } = .next t ∧
      bytes.length = (recAt s h).byteCount.toNat ∧
      (∀ i, i < bytes.length → bytes[i]? = bufferByte s h i) ∧
      t.busLog = s.busLog ++ .addr (BitVec.ofNat 8 (2 * (recAt s h).addr7.toNat)) :: (bytes.map BusCmd.tx ++
        (if (recAt s h).sendStop then [.stop] else []) ++ next) ∧
      (next = [] ∨ next = [.start]) ∧ (recAt t h).status = 0 ∧ (recAt t h).hwCode = 0 ∧ t.agenda = more

/-- Rule R198, row 2: a read of at least one byte whose every event is the expected one issues ADDR, RX with
acknowledge for each byte but the last, RX without for the last, and STOP if SEND_STOP asks for it; the active
buffer then holds the received bytes, and STATUS is 0. That ADDR carries 2 * ADDR7 + 1 is general knowledge in the
spec (rule R103, G2) and the model's choice (PRESUMED: notes/assumptions/14.md). -/
def Obligations.SuccessfulReadBusSequence : Prop :=
  ∀ (s : State) (h : Handle) (start data : Byte) (bytes : List Byte) (more : List Action), Inv s →
    Awaiting s h .start → (start = s.cfg.codeStart ∨ start = s.cfg.codeRepStart) → (recAt s h).dir = .read →
    bytes ≠ [] → bytes.length = (recAt s h).byteCount.toNat →
    ∃ (t : State) (next : List BusCmd),
      core.run (bytes.length + 2)
        { s with agenda := .busEvent start data :: .busEvent s.cfg.codeSlarAck data ::
                  (readAnswers s.cfg bytes ++ more) } = .next t ∧
      (∀ i, i < bytes.length → bufferByte t h i = bytes[i]?) ∧
      t.busLog = s.busLog ++ .addr (BitVec.ofNat 8 (2 * (recAt s h).addr7.toNat + 1)) :: (readRequests bytes.length ++
        (if (recAt s h).sendStop then [.stop] else []) ++ next) ∧
      (next = [] ∨ next = [.start]) ∧ (recAt t h).status = 0 ∧ (recAt t h).hwCode = 0 ∧ t.agenda = more

/-! ### The clock (44_clock.md) -/

/-- Rule R230: CLKINIT sets the epoch and restarts every live counter, and keeps the ratchets. -/
def Obligations.ClkinitRestartsTheClock : Prop :=
  ∀ (s : State) (e : Word),
    ∃ t, exec (.clkinit e) s = .next t ∧ Answered s t .ok [] ∧ t.fine = 0 ∧ t.coarseMs.toNat = e.toNat * 1000 % 2 ^ 32 ∧
      t.lastMs = s.lastMs ∧ t.lastUs = s.lastUs ∧
      (∀ tb, (tableOf t tb).count = (tableOf s tb).count ∧
        (tableOf t tb).entries.length = (tableOf s tb).entries.length ∧
        ∀ (i : Nat) (e : CbEntry), (tableOf s tb).entries[i]? = some e →
          (tableOf t tb).entries[i]? = some (if i < (tableOf s tb).count then { e with ctr := 0 } else e)) ∧
      SameEngine s t ∧ SameQueue s t ∧ SameRecords s t ∧ SameHandler s t ∧ SameDmem s t ∧ SameOutside s t

/-- Rules R231, R232, R235: NOWMS returns the raw millisecond value, or LAST_MS where the raw one is behind it, and
LAST_MS takes the value returned. -/
def Obligations.NowmsReturnsTheRatchetedTime : Prop :=
  ∀ s : State, ∃ (t : State) (v : BitVec 32), exec .nowms s = .next t ∧ Answered s t .ok [v] ∧ t.lastMs = v ∧
    (∀ raw, raw = (s.coarseMs.toNat + s.fine.toNat * s.cfg.msMul / 2 ^ s.cfg.msShift) % 2 ^ 32 →
      (s.cfg.ratchet = .unsigned → v.toNat = max raw s.lastMs.toNat) ∧
      (s.cfg.ratchet = .halfRange →
        v.toNat = if 2 ^ 31 < (raw + 2 ^ 32 - s.lastMs.toNat) % 2 ^ 32 then s.lastMs.toNat else raw)) ∧
    t.fine = s.fine ∧ t.coarseMs = s.coarseMs ∧ t.lastUs = s.lastUs ∧ SameEngine s t ∧ SameQueue s t ∧
    SameRecords s t ∧ SameTables s t ∧ SameHandler s t ∧ SameDmem s t ∧ SameOutside s t

/-- Rules R233, R234, R235: NOWUS returns the raw microsecond value, or LAST_US where the raw one is behind it, low word
first, and LAST_US takes the value returned. -/
def Obligations.NowusReturnsTheRatchetedTime : Prop :=
  ∀ s : State, ∃ (t : State) (lo hi : Word), exec .nowus s = .next t ∧ Answered s t .ok [lo, hi] ∧
    t.lastUs.toNat = lo.toNat + 2 ^ 32 * hi.toNat ∧
    (∀ raw, raw = (s.coarseMs.toNat * 1000 + s.fine.toNat * s.cfg.usMul / 2 ^ s.cfg.usShift) % 2 ^ 64 →
      (s.cfg.ratchet = .unsigned → t.lastUs.toNat = max raw s.lastUs.toNat) ∧
      (s.cfg.ratchet = .halfRange →
        t.lastUs.toNat = if 2 ^ 63 < (raw + 2 ^ 64 - s.lastUs.toNat) % 2 ^ 64 then s.lastUs.toNat else raw)) ∧
    t.fine = s.fine ∧ t.coarseMs = s.coarseMs ∧ t.lastMs = s.lastMs ∧ SameEngine s t ∧ SameQueue s t ∧
    SameRecords s t ∧ SameTables s t ∧ SameHandler s t ∧ SameDmem s t ∧ SameOutside s t

/-- Rule R239: the clock is monotonic. In the unsigned order, of two NOWMS with any run between them the later does not
return less, and the same for NOWUS; in either order no value returned is behind the one before it. -/
def Obligations.ClockIsMonotonic : Prop :=
  (∀ (s t u v : State) (n : Nat) (a b : Word), s.cfg.ratchet = .unsigned →
    exec .nowms s = .next t → Answered s t .ok [a] → core.run n t = .next u →
    exec .nowms u = .next v → Answered u v .ok [b] → a.toNat ≤ b.toNat) ∧
  (∀ (s t u v : State) (n : Nat) (a₀ a₁ b₀ b₁ : Word), s.cfg.ratchet = .unsigned →
    exec .nowus s = .next t → Answered s t .ok [a₀, a₁] → core.run n t = .next u →
    exec .nowus u = .next v → Answered u v .ok [b₀, b₁] →
    a₀.toNat + 2 ^ 32 * a₁.toNat ≤ b₀.toNat + 2 ^ 32 * b₁.toNat) ∧
  ∀ s t : State,
    (exec .nowms s = .next t → Answered s t .ok [t.lastMs] ∧ behind s.cfg.ratchet t.lastMs s.lastMs = false) ∧
    (exec .nowus s = .next t → behind s.cfg.ratchet t.lastUs s.lastUs = false)

/-- Rules R29, R30, R256, over every step: the only writers of the clock registers and of each callback table. The clause
that no step changes the parameters is rule R5 with the model's choice to hold them in the state (DESIGN CHOICE:
notes/assumptions/1.md). -/
def Obligations.ClockAndTablesHaveTheirWriters : Prop :=
  ∀ s t : State, step s = .next t →
    t.cfg = s.cfg ∧ (t.lastMs ≠ s.lastMs → Issues s .nowms) ∧ (t.lastUs ≠ s.lastUs → Issues s .nowus) ∧
    (t.fine ≠ s.fine → Takes s .fineTick ∨ Takes s .coarseTick ∨ ∃ e, Issues s (.clkinit e)) ∧
    (t.coarseMs ≠ s.coarseMs → Takes s .coarseTick ∨ ∃ e, Issues s (.clkinit e)) ∧
    (t.fast ≠ s.fast → Takes s .fineTick ∨ (∃ e, Issues s (.clkinit e)) ∨ (∃ v cb, Issues s (.cbreg .fast v cb)) ∨
      ∃ cb, Issues s (.cbunreg .fast cb)) ∧
    (t.slow ≠ s.slow → Takes s .coarseTick ∨ (∃ e, Issues s (.clkinit e)) ∨ (∃ v cb, Issues s (.cbreg .slow v cb)) ∨
      ∃ cb, Issues s (.cbunreg .slow cb))

/-- Rules R236, R252: a fine tick counts FINE and dispatches the fast table alone. -/
def Obligations.FineTickDispatchesFast : Prop :=
  ∀ (s : State) (more : List Action), Inv s → s.fault = none → s.ntf = .none →
    ∃ t, step (offer .fineTick more s) = .next t ∧ t.fine.toNat = (s.fine.toNat + 1) % 2 ^ 32 ∧
      t.coarseMs = s.coarseMs ∧ Dispatched s t .fast ∧ t.slow = s.slow ∧ SameBesidesTick s t ∧ t.agenda = more

/-- Rules R237, R252: a coarse tick, where the block has one, resets FINE, adds 1000 ms and dispatches the slow table
alone. -/
def Obligations.CoarseTickDispatchesSlow : Prop :=
  ∀ (s : State) (more : List Action), Inv s → s.fault = none → s.ntf = .none → s.cfg.hasCoarse = true →
    ∃ t, step (offer .coarseTick more s) = .next t ∧ t.fine = 0 ∧
      t.coarseMs.toNat = (s.coarseMs.toNat + 1000) % 2 ^ 32 ∧ Dispatched s t .slow ∧ t.fast = s.fast ∧
      SameBesidesTick s t ∧ t.agenda = more

/-! ### The scheduler (45_scheduler.md) -/

/-- Rule R250: CBREG appends a live entry with CTR = 0 and returns its index. -/
def Obligations.CbregAppendsAnEntry : Prop :=
  ∀ (s : State) (tb : Table) (v cb : BitVec 16), cb ≠ 0 → inTickHandler s = false →
    (tableOf s tb).count < tableCap s.cfg tb → (tableOf s tb).entries.length = tableCap s.cfg tb →
    tableCap s.cfg tb ≤ 255 →
    ∃ t id, exec (.cbreg tb v cb) s = .next t ∧ Answered s t .ok [id] ∧ id.toNat = (tableOf s tb).count ∧
      (tableOf t tb).count = (tableOf s tb).count + 1 ∧ liveCbs (tableOf t tb) = liveCbs (tableOf s tb) ++ [⟨cb, 0, v⟩] ∧
      (∀ other, other ≠ tb → tableOf t other = tableOf s other) ∧ SameButTables s t

/-- Rule R251: CBUNREG removes the lowest-indexed live entry with the identifier, the later ones moving down with their
counters; where there is none it changes nothing. -/
def Obligations.CbunregRemovesTheLowestMatch : Prop :=
  ∀ (s : State) (tb : Table) (cb : BitVec 16), cb ≠ 0 → inTickHandler s = false →
    (tableOf s tb).count ≤ (tableOf s tb).entries.length →
    ((∀ e ∈ liveCbs (tableOf s tb), e.cb ≠ cb) →
      ∃ t, exec (.cbunreg tb cb) s = .next t ∧ Answered s t .ok [] ∧ SameButResponses s t) ∧
    (∀ (before after : List CbEntry) (e : CbEntry), liveCbs (tableOf s tb) = before ++ e :: after → e.cb = cb →
      (∀ x ∈ before, x.cb ≠ cb) →
      ∃ t, exec (.cbunreg tb cb) s = .next t ∧ Answered s t .ok [] ∧ liveCbs (tableOf t tb) = before ++ after ∧
        (tableOf t tb).count = (tableOf s tb).count - 1 ∧
        (tableOf t tb).entries.length = (tableOf s tb).entries.length ∧
        (∀ other, other ≠ tb → tableOf t other = tableOf s other) ∧ SameButTables s t)

/-- Rules R250, R251, R304: cb = 0 is ILLEGAL in any context; then a tick handler faults; then a full table answers
FULL. -/
def Obligations.SchedulerCommandsRefuseInOrder : Prop :=
  ∀ (s : State) (tb : Table) (v cb : BitVec 16),
    (cb = 0 → (∃ t, exec (.cbreg tb v cb) s = .next t ∧ Answered s t .illegal [] ∧ SameButResponses s t) ∧
      ∃ t, exec (.cbunreg tb cb) s = .next t ∧ Answered s t .illegal [] ∧ SameButResponses s t) ∧
    (cb ≠ 0 → inTickHandler s = true →
      exec (.cbreg tb v cb) s = .next { s with fault := some .tableInDispatch } ∧
      exec (.cbunreg tb cb) s = .next { s with fault := some .tableInDispatch }) ∧
    (cb ≠ 0 → inTickHandler s = false → (tableOf s tb).count = tableCap s.cfg tb →
      ∃ t, exec (.cbreg tb v cb) s = .next t ∧ Answered s t .full [] ∧ SameButResponses s t)

/-- Rules R254, R281: RETURN from a TICK delivers one of the due callbacks that wait, and keeps the others; the last one
ends the dispatch. RETURN with no notification pending is ILLEGAL and changes nothing. -/
def Obligations.ReturnFromTickDeliversTheRest : Prop :=
  (∀ s : State, s.ntf = .none → ∃ t, exec .ret s = .next t ∧ Answered s t .illegal [] ∧ SameButResponses s t) ∧
  ∀ (s : State) (tb : Table) (index : BitVec 8) (cb : BitVec 16) (arg : BitVec 8), s.ntf = .tick tb index cb arg →
    ∃ t, exec .ret s = .next t ∧ Answered s t .ok [] ∧
      (s.tickDue = [] → t.ntf = .none ∧ t.tickDue = []) ∧
      (s.tickDue ≠ [] → ∃ x, (x :: t.tickDue).Perm s.tickDue ∧ t.ntf = .tick x.table x.index x.callback 0) ∧
      SameEngine s t ∧ SameQueue s t ∧ SameRecords s t ∧ SameClock s t ∧ SameTables s t ∧ SameDmem s t ∧
      t.bgHold = s.bgHold ∧ t.hHold = s.hHold ∧ t.cfg = s.cfg ∧ t.fault = s.fault ∧ t.port = s.port ∧
      t.agenda = s.agenda

/-- Rule R255, of either table: an entry with DIV = d and CTR = 0 has CTR = k mod (d + 1) after k ticks of its table, and
fires on ticks d + 1, 2 (d + 1), and so on, and on no others. -/
def Obligations.CallbacksDivideDown : Prop :=
  ∀ (s : State) (tb : Table) (i : Nat) (e : CbEntry) (k : Nat), TableInOrder (tableCap s.cfg tb) (tableOf s tb) →
    (tableOf s tb).entries.length = tableCap s.cfg tb → tableCap s.cfg tb ≤ 255 → s.ntf = .none → s.tickDue = [] →
    (liveCbs (tableOf s tb))[i]? = some e → e.ctr = 0 →
    (liveCbs (tableOf (ticksOf tb k s) tb))[i]? = some { e with ctr := BitVec.ofNat 16 (k % (e.div.toNat + 1)) } ∧
    (Fires (tickOf tb (ticksOf tb k s)) ⟨tb, BitVec.ofNat 8 i, e.cb⟩ ↔ (e.div.toNat + 1) ∣ (k + 1))

/-! ### System commands, memory, isolation -/

/-- Rules R280, R21: every field of the STATUS word, ST by its encoding, and no side effect. -/
def Obligations.StatusWordFields : Prop :=
  ∀ s : State, s.qCount ≤ 255 → s.cfg.poolCap ≤ 128 →
    ∃ t w, exec .status s = .next t ∧ Answered s t .ok [w] ∧
      (w.extractLsb' 0 3).toNat = (match s.st with
        | .idle => 0 | .start => 1 | .address => 2 | .addressAck => 3
        | .dataCheck => 4 | .dataSend => 5 | .stop => 6 | .error => 7) ∧
      w.getLsbD 3 = s.busy ∧
      (w.extractLsb' 4 2).toNat = (match s.ntf with | .none => 0 | .txn _ _ _ _ _ => 1 | .tick _ _ _ _ => 2) ∧
      w.getLsbD 6 = s.busOut.isSome ∧ w.getLsbD 7 = false ∧ (w.extractLsb' 8 8).toNat = s.qCount ∧
      (w.extractLsb' 16 8).toNat = ((List.range s.cfg.poolCap).countP fun i => s.alloc.getD i false == false) ∧
      w.extractLsb' 24 8 = 0 ∧ SameButResponses s t

/-- Rule R36: BUSLOG only grows, and no rule reads it: what it holds changes nothing but itself. -/
def Obligations.BusLogIsOnlyAnObservation : Prop :=
  ∀ (s t : State) (log : List BusCmd), step s = .next t →
    ∃ more, t.busLog = s.busLog ++ more ∧ step { s with busLog := log } = .next { t with busLog := log ++ more }

/-- Rules R26, R39: queue slots outside the live entries are never read: two states that differ only there go on alike
and still differ only there. -/
def Obligations.DeadQueueSlotsAreNeverRead : Prop :=
  ∀ (s t : State) (slots : List Handle), Inv s → slots.length = s.qslot.length →
    liveEntries { s with qslot := slots } = liveEntries s → step s = .next t →
    ∃ slots', step { s with qslot := slots } = .next { t with qslot := slots' } ∧
      slots'.length = t.qslot.length ∧ liveEntries { t with qslot := slots' } = liveEntries t

/-- Rules R35, R60, R64, R67: DMEM is plain RAM. A step changes a byte of it only where the host writes that byte, or
where the engine stores the received byte of the current read into its external buffer. A host write stores its byte
and changes nothing else. (When a held context may write, notes/assumptions/7.md, and the stop at an address that DMEM
does not have, notes/assumptions/11.md, are the model's reading.) -/
def Obligations.DmemChangesOnlyWhereWritten : Prop :=
  (∀ (s t : State) (a : Nat), Inv s → step s = .next t → memRead t a ≠ memRead s a →
    (∃ v, Takes s (.hostWrite a v) ∧ memRead t a = some v) ∨
    ∃ (h : Handle) (code data : Byte), Takes s (.busEvent code data) ∧ s.cur = some h ∧ (recAt s h).dir = .read ∧
      (recAt s h).bufSel = .externalBuffer ∧ a = (recAt s h).extAddr.toNat + s.idx.toNat ∧ memRead t a = some data) ∧
  ∀ (s : State) (a : Nat) (v : Byte) (more : List Action), Inv s → s.fault = none → MayTake s (.hostWrite a v) →
    (a < 2 ^ s.cfg.dmemAw →
      ∃ t, step (offer (.hostWrite a v) more s) = .next t ∧ memRead t a = some v ∧
        (∀ b, b ≠ a → memRead t b = memRead s b) ∧ t = { s with agenda := more, dmem := t.dmem }) ∧
    (2 ^ s.cfg.dmemAw ≤ a → step (offer (.hostWrite a v) more s) = .fault (.noSuchAddress a))

/-! ### PeriodicWait (46_periodic_wait.md) -/

/-- Rule R270, with its corner cases: nothing is later than itself; at a difference of exactly 2^31 neither is later; otherwise
exactly one of two different values is later. -/
def Obligations.LaterThanIsCircular : Prop :=
  ∀ a b : BitVec 32,
    (laterThan b a = true ↔ 2 ^ 31 < (a.toNat + 2 ^ 32 - b.toNat) % 2 ^ 32) ∧
    laterThan a a = false ∧
    ((a - b).toNat = 2 ^ 31 → laterThan a b = false ∧ laterThan b a = false) ∧
    (a ≠ b → (a - b).toNat ≠ 2 ^ 31 → (laterThan a b = true ↔ laterThan b a = false))

/-- Rule R272: with 1 ≤ period < 2^31 the catch-up ends within the bound, on a boundary of the schedule that is later
than now. -/
def Obligations.CatchUpTerminates : Prop :=
  ∀ period now next : BitVec 32, 1 ≤ period.toNat → period.toNat < 2 ^ 31 →
    ∃ k, k ≤ (now - next).toNat / period.toNat + 1 ∧
      catchUp period now next = some (next + BitVec.ofNat 32 k * period) ∧
      laterThan (next + BitVec.ofNat 32 k * period) now = true

/-- Rules R271, R275: a call of WaitPeriod with period = 0 returns at once and keeps its cursor. With a period below
2^31 its boundary b is the first one of its schedule that is later than the time on entry, found within the bound of
rule R272. It polls while every NOWMS so far has b later than it, returns at the first NOWMS that b is not later than,
with that time and with its cursor at b, and is then over. -/
def Obligations.WaitReturnsAtItsBoundary : Prop :=
  (∀ (cursor first : BitVec 32) (polls : List (BitVec 32)),
    waitOver ⟨0, cursor, .entry⟩ (first :: polls) = ⟨0, cursor, .returned first⟩) ∧
  ∀ period cursor first : BitVec 32, 1 ≤ period.toNat → period.toNat < 2 ^ 31 →
    ∃ (k : Nat) (b : BitVec 32), 1 ≤ k ∧ k ≤ (first - (startCursor cursor first + period)).toNat / period.toNat + 2 ∧
      b = startCursor cursor first + BitVec.ofNat 32 k * period ∧ laterThan b first = true ∧
      (∀ j, 1 ≤ j → j < k → laterThan (startCursor cursor first + BitVec.ofNat 32 j * period) first = false) ∧
      (∀ polls : List (BitVec 32), (∀ p ∈ polls, laterThan b p = true) →
        waitOver ⟨period, cursor, .entry⟩ (first :: polls) = ⟨period, startCursor cursor first, .polling b⟩) ∧
      (∀ (before : List (BitVec 32)) (now : BitVec 32) (after : List (BitVec 32)),
        (∀ p ∈ before, laterThan b p = true) → laterThan b now = false →
        waitOver ⟨period, cursor, .entry⟩ (first :: (before ++ now :: after)) = ⟨period, b, .returned now⟩) ∧
      ∀ (polls : List (BitVec 32)) (now : BitVec 32),
        (waitOver ⟨period, cursor, .entry⟩ (first :: polls)).phase = .returned now →
        (waitOver ⟨period, cursor, .entry⟩ (first :: polls)).cursor = b ∧ laterThan b now = false

/-- Rules R274, R303, R308, R309: a call of WaitPeriod blocks the background context and nothing else. With FAULT set
nothing steps; whatever is not an act of the background context, and every act once the call has returned, is the
block's step with the call left alone; a command that the background context may issue is the call's NOWMS, with whose
result the procedure goes on; and the background context does nothing else. That such a command is the call's NOWMS
whatever stands in the command stream, that an endless catch-up issues none, and that the background context writes no
DMEM byte in any phase of the call are the model's choice (DESIGN CHOICE and DEDUCED: notes/assumptions/15.md), and so
is that such an act is a refusal (notes/assumptions/2.md). -/
def Obligations.WaitBlocksOnlyTheBackground : Prop :=
  ∀ (w : Wait) (s : State) (a : Action) (more : List Action),
    (∀ r, s.fault = some r → waitStep ⟨w, offer a more s⟩ = .fault (.quiescent r)) ∧
    ((∃ now, w.phase = .returned now) ∨ s.ntf ≠ .none ∨ (a ≠ .command ∧ ∀ address value, a ≠ .hostWrite address value) →
      ∀ x, waitStep ⟨w, offer a more s⟩ = .next x ↔ x.wait = w ∧ step (offer a more s) = .next x.block) ∧
    (s.fault = none → s.ntf = .none → s.bgHold = false → (w.phase = .entry ∨ ∃ next, w.phase = .polling next) →
      a = .command →
      ∃ t v, waitStep ⟨w, offer a more s⟩ = .next ⟨waitAdvance w v, t⟩ ∧ Answered s t .ok [v] ∧
        exec .nowms { s with agenda := more } = .next t) ∧
    (s.fault = none → s.ntf = .none → (∀ now, w.phase ≠ .returned now) →
      (a = .command ∧ (s.bgHold = true ∨ w.phase = .endless)) ∨ (∃ address value, a = .hostWrite address value) →
      waitStep ⟨w, offer a more s⟩ = .refused (.notEnabled a))
end

