-- ==== Sys2Proof/Laws/State.lean ====
section
/-! SUPPORT. For each named update of State, one lemma per field it leaves alone, and the values of the fields it writes. -/

namespace Sys2Proof.Machine

/-! ### setRec -/

@[simp] theorem setRec_cfg (s : State) (h : Handle) (r : Record) : (setRec s h r).cfg = s.cfg := by unfold setRec; split <;> rfl
@[simp] theorem setRec_st (s : State) (h : Handle) (r : Record) : (setRec s h r).st = s.st := by unfold setRec; split <;> rfl
@[simp] theorem setRec_busy (s : State) (h : Handle) (r : Record) : (setRec s h r).busy = s.busy := by unfold setRec; split <;> rfl
@[simp] theorem setRec_cur (s : State) (h : Handle) (r : Record) : (setRec s h r).cur = s.cur := by unfold setRec; split <;> rfl
@[simp] theorem setRec_idx (s : State) (h : Handle) (r : Record) : (setRec s h r).idx = s.idx := by unfold setRec; split <;> rfl
@[simp] theorem setRec_busOut (s : State) (h : Handle) (r : Record) : (setRec s h r).busOut = s.busOut := by unfold setRec; split <;> rfl
@[simp] theorem setRec_qslot (s : State) (h : Handle) (r : Record) : (setRec s h r).qslot = s.qslot := by unfold setRec; split <;> rfl
@[simp] theorem setRec_qRd (s : State) (h : Handle) (r : Record) : (setRec s h r).qRd = s.qRd := by unfold setRec; split <;> rfl
@[simp] theorem setRec_qCount (s : State) (h : Handle) (r : Record) : (setRec s h r).qCount = s.qCount := by unfold setRec; split <;> rfl
@[simp] theorem setRec_alloc (s : State) (h : Handle) (r : Record) : (setRec s h r).alloc = s.alloc := by unfold setRec; split <;> rfl
@[simp] theorem setRec_fine (s : State) (h : Handle) (r : Record) : (setRec s h r).fine = s.fine := by unfold setRec; split <;> rfl
@[simp] theorem setRec_coarseMs (s : State) (h : Handle) (r : Record) : (setRec s h r).coarseMs = s.coarseMs := by unfold setRec; split <;> rfl
@[simp] theorem setRec_lastMs (s : State) (h : Handle) (r : Record) : (setRec s h r).lastMs = s.lastMs := by unfold setRec; split <;> rfl
@[simp] theorem setRec_lastUs (s : State) (h : Handle) (r : Record) : (setRec s h r).lastUs = s.lastUs := by unfold setRec; split <;> rfl
@[simp] theorem setRec_fast (s : State) (h : Handle) (r : Record) : (setRec s h r).fast = s.fast := by unfold setRec; split <;> rfl
@[simp] theorem setRec_slow (s : State) (h : Handle) (r : Record) : (setRec s h r).slow = s.slow := by unfold setRec; split <;> rfl
@[simp] theorem setRec_ntf (s : State) (h : Handle) (r : Record) : (setRec s h r).ntf = s.ntf := by unfold setRec; split <;> rfl
@[simp] theorem setRec_tickDue (s : State) (h : Handle) (r : Record) : (setRec s h r).tickDue = s.tickDue := by unfold setRec; split <;> rfl
@[simp] theorem setRec_bgHold (s : State) (h : Handle) (r : Record) : (setRec s h r).bgHold = s.bgHold := by unfold setRec; split <;> rfl
@[simp] theorem setRec_hHold (s : State) (h : Handle) (r : Record) : (setRec s h r).hHold = s.hHold := by unfold setRec; split <;> rfl
@[simp] theorem setRec_fault (s : State) (h : Handle) (r : Record) : (setRec s h r).fault = s.fault := by unfold setRec; split <;> rfl
@[simp] theorem setRec_busLog (s : State) (h : Handle) (r : Record) : (setRec s h r).busLog = s.busLog := by unfold setRec; split <;> rfl
@[simp] theorem setRec_dmem (s : State) (h : Handle) (r : Record) : (setRec s h r).dmem = s.dmem := by unfold setRec; split <;> rfl
@[simp] theorem setRec_port (s : State) (h : Handle) (r : Record) : (setRec s h r).port = s.port := by unfold setRec; split <;> rfl
@[simp] theorem setRec_responses (s : State) (h : Handle) (r : Record) : (setRec s h r).responses = s.responses := by unfold setRec; split <;> rfl
@[simp] theorem setRec_agenda (s : State) (h : Handle) (r : Record) : (setRec s h r).agenda = s.agenda := by unfold setRec; split <;> rfl
@[simp] theorem setRec_picks (s : State) (h : Handle) (r : Record) : (setRec s h r).picks = s.picks := by unfold setRec; split <;> rfl
@[simp] theorem setRec_draws (s : State) (h : Handle) (r : Record) : (setRec s h r).draws = s.draws := by unfold setRec; split <;> rfl

/-! ### setAlloc -/

@[simp] theorem setAlloc_cfg (s : State) (h : Handle) (b : Bool) : (setAlloc s h b).cfg = s.cfg := rfl
@[simp] theorem setAlloc_st (s : State) (h : Handle) (b : Bool) : (setAlloc s h b).st = s.st := rfl
@[simp] theorem setAlloc_busy (s : State) (h : Handle) (b : Bool) : (setAlloc s h b).busy = s.busy := rfl
@[simp] theorem setAlloc_cur (s : State) (h : Handle) (b : Bool) : (setAlloc s h b).cur = s.cur := rfl
@[simp] theorem setAlloc_idx (s : State) (h : Handle) (b : Bool) : (setAlloc s h b).idx = s.idx := rfl
@[simp] theorem setAlloc_busOut (s : State) (h : Handle) (b : Bool) : (setAlloc s h b).busOut = s.busOut := rfl
@[simp] theorem setAlloc_qslot (s : State) (h : Handle) (b : Bool) : (setAlloc s h b).qslot = s.qslot := rfl
@[simp] theorem setAlloc_qRd (s : State) (h : Handle) (b : Bool) : (setAlloc s h b).qRd = s.qRd := rfl
@[simp] theorem setAlloc_qCount (s : State) (h : Handle) (b : Bool) : (setAlloc s h b).qCount = s.qCount := rfl
@[simp] theorem setAlloc_pool (s : State) (h : Handle) (b : Bool) : (setAlloc s h b).pool = s.pool := rfl
@[simp] theorem setAlloc_caller (s : State) (h : Handle) (b : Bool) : (setAlloc s h b).caller = s.caller := rfl
@[simp] theorem setAlloc_fine (s : State) (h : Handle) (b : Bool) : (setAlloc s h b).fine = s.fine := rfl
@[simp] theorem setAlloc_coarseMs (s : State) (h : Handle) (b : Bool) : (setAlloc s h b).coarseMs = s.coarseMs := rfl
@[simp] theorem setAlloc_lastMs (s : State) (h : Handle) (b : Bool) : (setAlloc s h b).lastMs = s.lastMs := rfl
@[simp] theorem setAlloc_lastUs (s : State) (h : Handle) (b : Bool) : (setAlloc s h b).lastUs = s.lastUs := rfl
@[simp] theorem setAlloc_fast (s : State) (h : Handle) (b : Bool) : (setAlloc s h b).fast = s.fast := rfl
@[simp] theorem setAlloc_slow (s : State) (h : Handle) (b : Bool) : (setAlloc s h b).slow = s.slow := rfl
@[simp] theorem setAlloc_ntf (s : State) (h : Handle) (b : Bool) : (setAlloc s h b).ntf = s.ntf := rfl
@[simp] theorem setAlloc_tickDue (s : State) (h : Handle) (b : Bool) : (setAlloc s h b).tickDue = s.tickDue := rfl
@[simp] theorem setAlloc_bgHold (s : State) (h : Handle) (b : Bool) : (setAlloc s h b).bgHold = s.bgHold := rfl
@[simp] theorem setAlloc_hHold (s : State) (h : Handle) (b : Bool) : (setAlloc s h b).hHold = s.hHold := rfl
@[simp] theorem setAlloc_fault (s : State) (h : Handle) (b : Bool) : (setAlloc s h b).fault = s.fault := rfl
@[simp] theorem setAlloc_busLog (s : State) (h : Handle) (b : Bool) : (setAlloc s h b).busLog = s.busLog := rfl
@[simp] theorem setAlloc_dmem (s : State) (h : Handle) (b : Bool) : (setAlloc s h b).dmem = s.dmem := rfl
@[simp] theorem setAlloc_port (s : State) (h : Handle) (b : Bool) : (setAlloc s h b).port = s.port := rfl
@[simp] theorem setAlloc_responses (s : State) (h : Handle) (b : Bool) : (setAlloc s h b).responses = s.responses := rfl
@[simp] theorem setAlloc_agenda (s : State) (h : Handle) (b : Bool) : (setAlloc s h b).agenda = s.agenda := rfl
@[simp] theorem setAlloc_picks (s : State) (h : Handle) (b : Bool) : (setAlloc s h b).picks = s.picks := rfl
@[simp] theorem setAlloc_draws (s : State) (h : Handle) (b : Bool) : (setAlloc s h b).draws = s.draws := rfl

/-! ### release -/

@[simp] theorem release_cfg (s : State) (h : Handle) : (release s h).cfg = s.cfg := by unfold release; split <;> simp
@[simp] theorem release_st (s : State) (h : Handle) : (release s h).st = s.st := by unfold release; split <;> simp
@[simp] theorem release_busy (s : State) (h : Handle) : (release s h).busy = s.busy := by unfold release; split <;> simp
@[simp] theorem release_cur (s : State) (h : Handle) : (release s h).cur = s.cur := by unfold release; split <;> simp
@[simp] theorem release_idx (s : State) (h : Handle) : (release s h).idx = s.idx := by unfold release; split <;> simp
@[simp] theorem release_busOut (s : State) (h : Handle) : (release s h).busOut = s.busOut := by unfold release; split <;> simp
@[simp] theorem release_qslot (s : State) (h : Handle) : (release s h).qslot = s.qslot := by unfold release; split <;> simp
@[simp] theorem release_qRd (s : State) (h : Handle) : (release s h).qRd = s.qRd := by unfold release; split <;> simp
@[simp] theorem release_qCount (s : State) (h : Handle) : (release s h).qCount = s.qCount := by unfold release; split <;> simp
@[simp] theorem release_fine (s : State) (h : Handle) : (release s h).fine = s.fine := by unfold release; split <;> simp
@[simp] theorem release_coarseMs (s : State) (h : Handle) : (release s h).coarseMs = s.coarseMs := by unfold release; split <;> simp
@[simp] theorem release_lastMs (s : State) (h : Handle) : (release s h).lastMs = s.lastMs := by unfold release; split <;> simp
@[simp] theorem release_lastUs (s : State) (h : Handle) : (release s h).lastUs = s.lastUs := by unfold release; split <;> simp
@[simp] theorem release_fast (s : State) (h : Handle) : (release s h).fast = s.fast := by unfold release; split <;> simp
@[simp] theorem release_slow (s : State) (h : Handle) : (release s h).slow = s.slow := by unfold release; split <;> simp
@[simp] theorem release_ntf (s : State) (h : Handle) : (release s h).ntf = s.ntf := by unfold release; split <;> simp
@[simp] theorem release_tickDue (s : State) (h : Handle) : (release s h).tickDue = s.tickDue := by unfold release; split <;> simp
@[simp] theorem release_bgHold (s : State) (h : Handle) : (release s h).bgHold = s.bgHold := by unfold release; split <;> simp
@[simp] theorem release_hHold (s : State) (h : Handle) : (release s h).hHold = s.hHold := by unfold release; split <;> simp
@[simp] theorem release_fault (s : State) (h : Handle) : (release s h).fault = s.fault := by unfold release; split <;> simp
@[simp] theorem release_busLog (s : State) (h : Handle) : (release s h).busLog = s.busLog := by unfold release; split <;> simp
@[simp] theorem release_dmem (s : State) (h : Handle) : (release s h).dmem = s.dmem := by unfold release; split <;> simp
@[simp] theorem release_port (s : State) (h : Handle) : (release s h).port = s.port := by unfold release; split <;> simp
@[simp] theorem release_responses (s : State) (h : Handle) : (release s h).responses = s.responses := by unfold release; split <;> simp
@[simp] theorem release_agenda (s : State) (h : Handle) : (release s h).agenda = s.agenda := by unfold release; split <;> simp
@[simp] theorem release_picks (s : State) (h : Handle) : (release s h).picks = s.picks := by unfold release; split <;> simp
@[simp] theorem release_draws (s : State) (h : Handle) : (release s h).draws = s.draws := by unfold release; split <;> simp

/-! ### qPush -/

@[simp] theorem qPush_cfg (s : State) (h : Handle) : (qPush s h).cfg = s.cfg := rfl
@[simp] theorem qPush_st (s : State) (h : Handle) : (qPush s h).st = s.st := rfl
@[simp] theorem qPush_busy (s : State) (h : Handle) : (qPush s h).busy = s.busy := rfl
@[simp] theorem qPush_cur (s : State) (h : Handle) : (qPush s h).cur = s.cur := rfl
@[simp] theorem qPush_idx (s : State) (h : Handle) : (qPush s h).idx = s.idx := rfl
@[simp] theorem qPush_busOut (s : State) (h : Handle) : (qPush s h).busOut = s.busOut := rfl
@[simp] theorem qPush_qRd (s : State) (h : Handle) : (qPush s h).qRd = s.qRd := rfl
@[simp] theorem qPush_alloc (s : State) (h : Handle) : (qPush s h).alloc = s.alloc := rfl
@[simp] theorem qPush_pool (s : State) (h : Handle) : (qPush s h).pool = s.pool := rfl
@[simp] theorem qPush_caller (s : State) (h : Handle) : (qPush s h).caller = s.caller := rfl
@[simp] theorem qPush_fine (s : State) (h : Handle) : (qPush s h).fine = s.fine := rfl
@[simp] theorem qPush_coarseMs (s : State) (h : Handle) : (qPush s h).coarseMs = s.coarseMs := rfl
@[simp] theorem qPush_lastMs (s : State) (h : Handle) : (qPush s h).lastMs = s.lastMs := rfl
@[simp] theorem qPush_lastUs (s : State) (h : Handle) : (qPush s h).lastUs = s.lastUs := rfl
@[simp] theorem qPush_fast (s : State) (h : Handle) : (qPush s h).fast = s.fast := rfl
@[simp] theorem qPush_slow (s : State) (h : Handle) : (qPush s h).slow = s.slow := rfl
@[simp] theorem qPush_ntf (s : State) (h : Handle) : (qPush s h).ntf = s.ntf := rfl
@[simp] theorem qPush_tickDue (s : State) (h : Handle) : (qPush s h).tickDue = s.tickDue := rfl
@[simp] theorem qPush_bgHold (s : State) (h : Handle) : (qPush s h).bgHold = s.bgHold := rfl
@[simp] theorem qPush_hHold (s : State) (h : Handle) : (qPush s h).hHold = s.hHold := rfl
@[simp] theorem qPush_fault (s : State) (h : Handle) : (qPush s h).fault = s.fault := rfl
@[simp] theorem qPush_busLog (s : State) (h : Handle) : (qPush s h).busLog = s.busLog := rfl
@[simp] theorem qPush_dmem (s : State) (h : Handle) : (qPush s h).dmem = s.dmem := rfl
@[simp] theorem qPush_port (s : State) (h : Handle) : (qPush s h).port = s.port := rfl
@[simp] theorem qPush_responses (s : State) (h : Handle) : (qPush s h).responses = s.responses := rfl
@[simp] theorem qPush_agenda (s : State) (h : Handle) : (qPush s h).agenda = s.agenda := rfl
@[simp] theorem qPush_picks (s : State) (h : Handle) : (qPush s h).picks = s.picks := rfl
@[simp] theorem qPush_draws (s : State) (h : Handle) : (qPush s h).draws = s.draws := rfl

/-! ### qPop -/

@[simp] theorem qPop_cfg (s : State) : (qPop s).cfg = s.cfg := rfl
@[simp] theorem qPop_st (s : State) : (qPop s).st = s.st := rfl
@[simp] theorem qPop_busy (s : State) : (qPop s).busy = s.busy := rfl
@[simp] theorem qPop_cur (s : State) : (qPop s).cur = s.cur := rfl
@[simp] theorem qPop_idx (s : State) : (qPop s).idx = s.idx := rfl
@[simp] theorem qPop_busOut (s : State) : (qPop s).busOut = s.busOut := rfl
@[simp] theorem qPop_qslot (s : State) : (qPop s).qslot = s.qslot := rfl
@[simp] theorem qPop_alloc (s : State) : (qPop s).alloc = s.alloc := rfl
@[simp] theorem qPop_pool (s : State) : (qPop s).pool = s.pool := rfl
@[simp] theorem qPop_caller (s : State) : (qPop s).caller = s.caller := rfl
@[simp] theorem qPop_fine (s : State) : (qPop s).fine = s.fine := rfl
@[simp] theorem qPop_coarseMs (s : State) : (qPop s).coarseMs = s.coarseMs := rfl
@[simp] theorem qPop_lastMs (s : State) : (qPop s).lastMs = s.lastMs := rfl
@[simp] theorem qPop_lastUs (s : State) : (qPop s).lastUs = s.lastUs := rfl
@[simp] theorem qPop_fast (s : State) : (qPop s).fast = s.fast := rfl
@[simp] theorem qPop_slow (s : State) : (qPop s).slow = s.slow := rfl
@[simp] theorem qPop_ntf (s : State) : (qPop s).ntf = s.ntf := rfl
@[simp] theorem qPop_tickDue (s : State) : (qPop s).tickDue = s.tickDue := rfl
@[simp] theorem qPop_bgHold (s : State) : (qPop s).bgHold = s.bgHold := rfl
@[simp] theorem qPop_hHold (s : State) : (qPop s).hHold = s.hHold := rfl
@[simp] theorem qPop_fault (s : State) : (qPop s).fault = s.fault := rfl
@[simp] theorem qPop_busLog (s : State) : (qPop s).busLog = s.busLog := rfl
@[simp] theorem qPop_dmem (s : State) : (qPop s).dmem = s.dmem := rfl
@[simp] theorem qPop_port (s : State) : (qPop s).port = s.port := rfl
@[simp] theorem qPop_responses (s : State) : (qPop s).responses = s.responses := rfl
@[simp] theorem qPop_agenda (s : State) : (qPop s).agenda = s.agenda := rfl
@[simp] theorem qPop_picks (s : State) : (qPop s).picks = s.picks := rfl
@[simp] theorem qPop_draws (s : State) : (qPop s).draws = s.draws := rfl

/-! ### busCmd -/

@[simp] theorem busCmd_cfg (c : BusCmd) (s : State) : (busCmd c s).cfg = s.cfg := rfl
@[simp] theorem busCmd_st (c : BusCmd) (s : State) : (busCmd c s).st = s.st := rfl
@[simp] theorem busCmd_busy (c : BusCmd) (s : State) : (busCmd c s).busy = s.busy := rfl
@[simp] theorem busCmd_cur (c : BusCmd) (s : State) : (busCmd c s).cur = s.cur := rfl
@[simp] theorem busCmd_idx (c : BusCmd) (s : State) : (busCmd c s).idx = s.idx := rfl
@[simp] theorem busCmd_qslot (c : BusCmd) (s : State) : (busCmd c s).qslot = s.qslot := rfl
@[simp] theorem busCmd_qRd (c : BusCmd) (s : State) : (busCmd c s).qRd = s.qRd := rfl
@[simp] theorem busCmd_qCount (c : BusCmd) (s : State) : (busCmd c s).qCount = s.qCount := rfl
@[simp] theorem busCmd_alloc (c : BusCmd) (s : State) : (busCmd c s).alloc = s.alloc := rfl
@[simp] theorem busCmd_pool (c : BusCmd) (s : State) : (busCmd c s).pool = s.pool := rfl
@[simp] theorem busCmd_caller (c : BusCmd) (s : State) : (busCmd c s).caller = s.caller := rfl
@[simp] theorem busCmd_fine (c : BusCmd) (s : State) : (busCmd c s).fine = s.fine := rfl
@[simp] theorem busCmd_coarseMs (c : BusCmd) (s : State) : (busCmd c s).coarseMs = s.coarseMs := rfl
@[simp] theorem busCmd_lastMs (c : BusCmd) (s : State) : (busCmd c s).lastMs = s.lastMs := rfl
@[simp] theorem busCmd_lastUs (c : BusCmd) (s : State) : (busCmd c s).lastUs = s.lastUs := rfl
@[simp] theorem busCmd_fast (c : BusCmd) (s : State) : (busCmd c s).fast = s.fast := rfl
@[simp] theorem busCmd_slow (c : BusCmd) (s : State) : (busCmd c s).slow = s.slow := rfl
@[simp] theorem busCmd_ntf (c : BusCmd) (s : State) : (busCmd c s).ntf = s.ntf := rfl
@[simp] theorem busCmd_tickDue (c : BusCmd) (s : State) : (busCmd c s).tickDue = s.tickDue := rfl
@[simp] theorem busCmd_bgHold (c : BusCmd) (s : State) : (busCmd c s).bgHold = s.bgHold := rfl
@[simp] theorem busCmd_hHold (c : BusCmd) (s : State) : (busCmd c s).hHold = s.hHold := rfl
@[simp] theorem busCmd_fault (c : BusCmd) (s : State) : (busCmd c s).fault = s.fault := rfl
@[simp] theorem busCmd_dmem (c : BusCmd) (s : State) : (busCmd c s).dmem = s.dmem := rfl
@[simp] theorem busCmd_port (c : BusCmd) (s : State) : (busCmd c s).port = s.port := rfl
@[simp] theorem busCmd_responses (c : BusCmd) (s : State) : (busCmd c s).responses = s.responses := rfl
@[simp] theorem busCmd_agenda (c : BusCmd) (s : State) : (busCmd c s).agenda = s.agenda := rfl
@[simp] theorem busCmd_picks (c : BusCmd) (s : State) : (busCmd c s).picks = s.picks := rfl
@[simp] theorem busCmd_draws (c : BusCmd) (s : State) : (busCmd c s).draws = s.draws := rfl

/-! ### deliver -/

@[simp] theorem deliver_cfg (x : Context) (c : ResultCode) (d : List Word) (s : State) : (deliver x c d s).cfg = s.cfg := rfl
@[simp] theorem deliver_st (x : Context) (c : ResultCode) (d : List Word) (s : State) : (deliver x c d s).st = s.st := rfl
@[simp] theorem deliver_busy (x : Context) (c : ResultCode) (d : List Word) (s : State) : (deliver x c d s).busy = s.busy := rfl
@[simp] theorem deliver_cur (x : Context) (c : ResultCode) (d : List Word) (s : State) : (deliver x c d s).cur = s.cur := rfl
@[simp] theorem deliver_idx (x : Context) (c : ResultCode) (d : List Word) (s : State) : (deliver x c d s).idx = s.idx := rfl
@[simp] theorem deliver_busOut (x : Context) (c : ResultCode) (d : List Word) (s : State) : (deliver x c d s).busOut = s.busOut := rfl
@[simp] theorem deliver_qslot (x : Context) (c : ResultCode) (d : List Word) (s : State) : (deliver x c d s).qslot = s.qslot := rfl
@[simp] theorem deliver_qRd (x : Context) (c : ResultCode) (d : List Word) (s : State) : (deliver x c d s).qRd = s.qRd := rfl
@[simp] theorem deliver_qCount (x : Context) (c : ResultCode) (d : List Word) (s : State) : (deliver x c d s).qCount = s.qCount := rfl
@[simp] theorem deliver_alloc (x : Context) (c : ResultCode) (d : List Word) (s : State) : (deliver x c d s).alloc = s.alloc := rfl
@[simp] theorem deliver_pool (x : Context) (c : ResultCode) (d : List Word) (s : State) : (deliver x c d s).pool = s.pool := rfl
@[simp] theorem deliver_caller (x : Context) (c : ResultCode) (d : List Word) (s : State) : (deliver x c d s).caller = s.caller := rfl
@[simp] theorem deliver_fine (x : Context) (c : ResultCode) (d : List Word) (s : State) : (deliver x c d s).fine = s.fine := rfl
@[simp] theorem deliver_coarseMs (x : Context) (c : ResultCode) (d : List Word) (s : State) : (deliver x c d s).coarseMs = s.coarseMs := rfl
@[simp] theorem deliver_lastMs (x : Context) (c : ResultCode) (d : List Word) (s : State) : (deliver x c d s).lastMs = s.lastMs := rfl
@[simp] theorem deliver_lastUs (x : Context) (c : ResultCode) (d : List Word) (s : State) : (deliver x c d s).lastUs = s.lastUs := rfl
@[simp] theorem deliver_fast (x : Context) (c : ResultCode) (d : List Word) (s : State) : (deliver x c d s).fast = s.fast := rfl
@[simp] theorem deliver_slow (x : Context) (c : ResultCode) (d : List Word) (s : State) : (deliver x c d s).slow = s.slow := rfl
@[simp] theorem deliver_ntf (x : Context) (c : ResultCode) (d : List Word) (s : State) : (deliver x c d s).ntf = s.ntf := rfl
@[simp] theorem deliver_tickDue (x : Context) (c : ResultCode) (d : List Word) (s : State) : (deliver x c d s).tickDue = s.tickDue := rfl
@[simp] theorem deliver_bgHold (x : Context) (c : ResultCode) (d : List Word) (s : State) : (deliver x c d s).bgHold = s.bgHold := rfl
@[simp] theorem deliver_hHold (x : Context) (c : ResultCode) (d : List Word) (s : State) : (deliver x c d s).hHold = s.hHold := rfl
@[simp] theorem deliver_fault (x : Context) (c : ResultCode) (d : List Word) (s : State) : (deliver x c d s).fault = s.fault := rfl
@[simp] theorem deliver_busLog (x : Context) (c : ResultCode) (d : List Word) (s : State) : (deliver x c d s).busLog = s.busLog := rfl
@[simp] theorem deliver_dmem (x : Context) (c : ResultCode) (d : List Word) (s : State) : (deliver x c d s).dmem = s.dmem := rfl
@[simp] theorem deliver_port (x : Context) (c : ResultCode) (d : List Word) (s : State) : (deliver x c d s).port = s.port := rfl
@[simp] theorem deliver_agenda (x : Context) (c : ResultCode) (d : List Word) (s : State) : (deliver x c d s).agenda = s.agenda := rfl
@[simp] theorem deliver_picks (x : Context) (c : ResultCode) (d : List Word) (s : State) : (deliver x c d s).picks = s.picks := rfl
@[simp] theorem deliver_draws (x : Context) (c : ResultCode) (d : List Word) (s : State) : (deliver x c d s).draws = s.draws := rfl

/-! ### notify -/

@[simp] theorem notify_cfg (p : Ntf) (s : State) : (notify p s).cfg = s.cfg := rfl
@[simp] theorem notify_st (p : Ntf) (s : State) : (notify p s).st = s.st := rfl
@[simp] theorem notify_busy (p : Ntf) (s : State) : (notify p s).busy = s.busy := rfl
@[simp] theorem notify_cur (p : Ntf) (s : State) : (notify p s).cur = s.cur := rfl
@[simp] theorem notify_idx (p : Ntf) (s : State) : (notify p s).idx = s.idx := rfl
@[simp] theorem notify_busOut (p : Ntf) (s : State) : (notify p s).busOut = s.busOut := rfl
@[simp] theorem notify_qslot (p : Ntf) (s : State) : (notify p s).qslot = s.qslot := rfl
@[simp] theorem notify_qRd (p : Ntf) (s : State) : (notify p s).qRd = s.qRd := rfl
@[simp] theorem notify_qCount (p : Ntf) (s : State) : (notify p s).qCount = s.qCount := rfl
@[simp] theorem notify_alloc (p : Ntf) (s : State) : (notify p s).alloc = s.alloc := rfl
@[simp] theorem notify_pool (p : Ntf) (s : State) : (notify p s).pool = s.pool := rfl
@[simp] theorem notify_caller (p : Ntf) (s : State) : (notify p s).caller = s.caller := rfl
@[simp] theorem notify_fine (p : Ntf) (s : State) : (notify p s).fine = s.fine := rfl
@[simp] theorem notify_coarseMs (p : Ntf) (s : State) : (notify p s).coarseMs = s.coarseMs := rfl
@[simp] theorem notify_lastMs (p : Ntf) (s : State) : (notify p s).lastMs = s.lastMs := rfl
@[simp] theorem notify_lastUs (p : Ntf) (s : State) : (notify p s).lastUs = s.lastUs := rfl
@[simp] theorem notify_fast (p : Ntf) (s : State) : (notify p s).fast = s.fast := rfl
@[simp] theorem notify_slow (p : Ntf) (s : State) : (notify p s).slow = s.slow := rfl
@[simp] theorem notify_tickDue (p : Ntf) (s : State) : (notify p s).tickDue = s.tickDue := rfl
@[simp] theorem notify_bgHold (p : Ntf) (s : State) : (notify p s).bgHold = s.bgHold := rfl
@[simp] theorem notify_hHold (p : Ntf) (s : State) : (notify p s).hHold = s.hHold := rfl
@[simp] theorem notify_fault (p : Ntf) (s : State) : (notify p s).fault = s.fault := rfl
@[simp] theorem notify_busLog (p : Ntf) (s : State) : (notify p s).busLog = s.busLog := rfl
@[simp] theorem notify_dmem (p : Ntf) (s : State) : (notify p s).dmem = s.dmem := rfl
@[simp] theorem notify_port (p : Ntf) (s : State) : (notify p s).port = s.port := rfl
@[simp] theorem notify_responses (p : Ntf) (s : State) : (notify p s).responses = s.responses := rfl
@[simp] theorem notify_agenda (p : Ntf) (s : State) : (notify p s).agenda = s.agenda := rfl
@[simp] theorem notify_picks (p : Ntf) (s : State) : (notify p s).picks = s.picks := rfl
@[simp] theorem notify_draws (p : Ntf) (s : State) : (notify p s).draws = s.draws := rfl

/-! ### leaveHandler -/

@[simp] theorem leaveHandler_cfg (s : State) : (leaveHandler s).cfg = s.cfg := rfl
@[simp] theorem leaveHandler_st (s : State) : (leaveHandler s).st = s.st := rfl
@[simp] theorem leaveHandler_busy (s : State) : (leaveHandler s).busy = s.busy := rfl
@[simp] theorem leaveHandler_cur (s : State) : (leaveHandler s).cur = s.cur := rfl
@[simp] theorem leaveHandler_idx (s : State) : (leaveHandler s).idx = s.idx := rfl
@[simp] theorem leaveHandler_busOut (s : State) : (leaveHandler s).busOut = s.busOut := rfl
@[simp] theorem leaveHandler_qslot (s : State) : (leaveHandler s).qslot = s.qslot := rfl
@[simp] theorem leaveHandler_qRd (s : State) : (leaveHandler s).qRd = s.qRd := rfl
@[simp] theorem leaveHandler_qCount (s : State) : (leaveHandler s).qCount = s.qCount := rfl
@[simp] theorem leaveHandler_alloc (s : State) : (leaveHandler s).alloc = s.alloc := rfl
@[simp] theorem leaveHandler_pool (s : State) : (leaveHandler s).pool = s.pool := rfl
@[simp] theorem leaveHandler_caller (s : State) : (leaveHandler s).caller = s.caller := rfl
@[simp] theorem leaveHandler_fine (s : State) : (leaveHandler s).fine = s.fine := rfl
@[simp] theorem leaveHandler_coarseMs (s : State) : (leaveHandler s).coarseMs = s.coarseMs := rfl
@[simp] theorem leaveHandler_lastMs (s : State) : (leaveHandler s).lastMs = s.lastMs := rfl
@[simp] theorem leaveHandler_lastUs (s : State) : (leaveHandler s).lastUs = s.lastUs := rfl
@[simp] theorem leaveHandler_fast (s : State) : (leaveHandler s).fast = s.fast := rfl
@[simp] theorem leaveHandler_slow (s : State) : (leaveHandler s).slow = s.slow := rfl
@[simp] theorem leaveHandler_tickDue (s : State) : (leaveHandler s).tickDue = s.tickDue := rfl
@[simp] theorem leaveHandler_bgHold (s : State) : (leaveHandler s).bgHold = s.bgHold := rfl
@[simp] theorem leaveHandler_hHold (s : State) : (leaveHandler s).hHold = s.hHold := rfl
@[simp] theorem leaveHandler_fault (s : State) : (leaveHandler s).fault = s.fault := rfl
@[simp] theorem leaveHandler_busLog (s : State) : (leaveHandler s).busLog = s.busLog := rfl
@[simp] theorem leaveHandler_dmem (s : State) : (leaveHandler s).dmem = s.dmem := rfl
@[simp] theorem leaveHandler_port (s : State) : (leaveHandler s).port = s.port := rfl
@[simp] theorem leaveHandler_responses (s : State) : (leaveHandler s).responses = s.responses := rfl
@[simp] theorem leaveHandler_agenda (s : State) : (leaveHandler s).agenda = s.agenda := rfl
@[simp] theorem leaveHandler_picks (s : State) : (leaveHandler s).picks = s.picks := rfl
@[simp] theorem leaveHandler_draws (s : State) : (leaveHandler s).draws = s.draws := rfl

/-! ### afterDraw -/

@[simp] theorem afterDraw_cfg (s : State) : (afterDraw s).cfg = s.cfg := by unfold afterDraw; split <;> rfl
@[simp] theorem afterDraw_st (s : State) : (afterDraw s).st = s.st := by unfold afterDraw; split <;> rfl
@[simp] theorem afterDraw_busy (s : State) : (afterDraw s).busy = s.busy := by unfold afterDraw; split <;> rfl
@[simp] theorem afterDraw_cur (s : State) : (afterDraw s).cur = s.cur := by unfold afterDraw; split <;> rfl
@[simp] theorem afterDraw_idx (s : State) : (afterDraw s).idx = s.idx := by unfold afterDraw; split <;> rfl
@[simp] theorem afterDraw_busOut (s : State) : (afterDraw s).busOut = s.busOut := by unfold afterDraw; split <;> rfl
@[simp] theorem afterDraw_qslot (s : State) : (afterDraw s).qslot = s.qslot := by unfold afterDraw; split <;> rfl
@[simp] theorem afterDraw_qRd (s : State) : (afterDraw s).qRd = s.qRd := by unfold afterDraw; split <;> rfl
@[simp] theorem afterDraw_qCount (s : State) : (afterDraw s).qCount = s.qCount := by unfold afterDraw; split <;> rfl
@[simp] theorem afterDraw_alloc (s : State) : (afterDraw s).alloc = s.alloc := by unfold afterDraw; split <;> rfl
@[simp] theorem afterDraw_pool (s : State) : (afterDraw s).pool = s.pool := by unfold afterDraw; split <;> rfl
@[simp] theorem afterDraw_caller (s : State) : (afterDraw s).caller = s.caller := by unfold afterDraw; split <;> rfl
@[simp] theorem afterDraw_fine (s : State) : (afterDraw s).fine = s.fine := by unfold afterDraw; split <;> rfl
@[simp] theorem afterDraw_coarseMs (s : State) : (afterDraw s).coarseMs = s.coarseMs := by unfold afterDraw; split <;> rfl
@[simp] theorem afterDraw_lastMs (s : State) : (afterDraw s).lastMs = s.lastMs := by unfold afterDraw; split <;> rfl
@[simp] theorem afterDraw_lastUs (s : State) : (afterDraw s).lastUs = s.lastUs := by unfold afterDraw; split <;> rfl
@[simp] theorem afterDraw_fast (s : State) : (afterDraw s).fast = s.fast := by unfold afterDraw; split <;> rfl
@[simp] theorem afterDraw_slow (s : State) : (afterDraw s).slow = s.slow := by unfold afterDraw; split <;> rfl
@[simp] theorem afterDraw_ntf (s : State) : (afterDraw s).ntf = s.ntf := by unfold afterDraw; split <;> rfl
@[simp] theorem afterDraw_tickDue (s : State) : (afterDraw s).tickDue = s.tickDue := by unfold afterDraw; split <;> rfl
@[simp] theorem afterDraw_bgHold (s : State) : (afterDraw s).bgHold = s.bgHold := by unfold afterDraw; split <;> rfl
@[simp] theorem afterDraw_hHold (s : State) : (afterDraw s).hHold = s.hHold := by unfold afterDraw; split <;> rfl
@[simp] theorem afterDraw_fault (s : State) : (afterDraw s).fault = s.fault := by unfold afterDraw; split <;> rfl
@[simp] theorem afterDraw_busLog (s : State) : (afterDraw s).busLog = s.busLog := by unfold afterDraw; split <;> rfl
@[simp] theorem afterDraw_dmem (s : State) : (afterDraw s).dmem = s.dmem := by unfold afterDraw; split <;> rfl
@[simp] theorem afterDraw_port (s : State) : (afterDraw s).port = s.port := by unfold afterDraw; split <;> rfl
@[simp] theorem afterDraw_responses (s : State) : (afterDraw s).responses = s.responses := by unfold afterDraw; split <;> rfl
@[simp] theorem afterDraw_agenda (s : State) : (afterDraw s).agenda = s.agenda := by unfold afterDraw; split <;> rfl

/-! ### setTable -/

@[simp] theorem setTable_cfg (s : State) (t : Table) (T : CbTable) : (setTable s t T).cfg = s.cfg := by unfold setTable; split <;> rfl
@[simp] theorem setTable_st (s : State) (t : Table) (T : CbTable) : (setTable s t T).st = s.st := by unfold setTable; split <;> rfl
@[simp] theorem setTable_busy (s : State) (t : Table) (T : CbTable) : (setTable s t T).busy = s.busy := by unfold setTable; split <;> rfl
@[simp] theorem setTable_cur (s : State) (t : Table) (T : CbTable) : (setTable s t T).cur = s.cur := by unfold setTable; split <;> rfl
@[simp] theorem setTable_idx (s : State) (t : Table) (T : CbTable) : (setTable s t T).idx = s.idx := by unfold setTable; split <;> rfl
@[simp] theorem setTable_busOut (s : State) (t : Table) (T : CbTable) : (setTable s t T).busOut = s.busOut := by unfold setTable; split <;> rfl
@[simp] theorem setTable_qslot (s : State) (t : Table) (T : CbTable) : (setTable s t T).qslot = s.qslot := by unfold setTable; split <;> rfl
@[simp] theorem setTable_qRd (s : State) (t : Table) (T : CbTable) : (setTable s t T).qRd = s.qRd := by unfold setTable; split <;> rfl
@[simp] theorem setTable_qCount (s : State) (t : Table) (T : CbTable) : (setTable s t T).qCount = s.qCount := by unfold setTable; split <;> rfl
@[simp] theorem setTable_alloc (s : State) (t : Table) (T : CbTable) : (setTable s t T).alloc = s.alloc := by unfold setTable; split <;> rfl
@[simp] theorem setTable_pool (s : State) (t : Table) (T : CbTable) : (setTable s t T).pool = s.pool := by unfold setTable; split <;> rfl
@[simp] theorem setTable_caller (s : State) (t : Table) (T : CbTable) : (setTable s t T).caller = s.caller := by unfold setTable; split <;> rfl
@[simp] theorem setTable_fine (s : State) (t : Table) (T : CbTable) : (setTable s t T).fine = s.fine := by unfold setTable; split <;> rfl
@[simp] theorem setTable_coarseMs (s : State) (t : Table) (T : CbTable) : (setTable s t T).coarseMs = s.coarseMs := by unfold setTable; split <;> rfl
@[simp] theorem setTable_lastMs (s : State) (t : Table) (T : CbTable) : (setTable s t T).lastMs = s.lastMs := by unfold setTable; split <;> rfl
@[simp] theorem setTable_lastUs (s : State) (t : Table) (T : CbTable) : (setTable s t T).lastUs = s.lastUs := by unfold setTable; split <;> rfl
@[simp] theorem setTable_ntf (s : State) (t : Table) (T : CbTable) : (setTable s t T).ntf = s.ntf := by unfold setTable; split <;> rfl
@[simp] theorem setTable_tickDue (s : State) (t : Table) (T : CbTable) : (setTable s t T).tickDue = s.tickDue := by unfold setTable; split <;> rfl
@[simp] theorem setTable_bgHold (s : State) (t : Table) (T : CbTable) : (setTable s t T).bgHold = s.bgHold := by unfold setTable; split <;> rfl
@[simp] theorem setTable_hHold (s : State) (t : Table) (T : CbTable) : (setTable s t T).hHold = s.hHold := by unfold setTable; split <;> rfl
@[simp] theorem setTable_fault (s : State) (t : Table) (T : CbTable) : (setTable s t T).fault = s.fault := by unfold setTable; split <;> rfl
@[simp] theorem setTable_busLog (s : State) (t : Table) (T : CbTable) : (setTable s t T).busLog = s.busLog := by unfold setTable; split <;> rfl
@[simp] theorem setTable_dmem (s : State) (t : Table) (T : CbTable) : (setTable s t T).dmem = s.dmem := by unfold setTable; split <;> rfl
@[simp] theorem setTable_port (s : State) (t : Table) (T : CbTable) : (setTable s t T).port = s.port := by unfold setTable; split <;> rfl
@[simp] theorem setTable_responses (s : State) (t : Table) (T : CbTable) : (setTable s t T).responses = s.responses := by unfold setTable; split <;> rfl
@[simp] theorem setTable_agenda (s : State) (t : Table) (T : CbTable) : (setTable s t T).agenda = s.agenda := by unfold setTable; split <;> rfl
@[simp] theorem setTable_picks (s : State) (t : Table) (T : CbTable) : (setTable s t T).picks = s.picks := by unfold setTable; split <;> rfl
@[simp] theorem setTable_draws (s : State) (t : Table) (T : CbTable) : (setTable s t T).draws = s.draws := by unfold setTable; split <;> rfl

/-! ### setOutcome -/

@[simp] theorem setOutcome_cfg (h : Handle) (w : BitVec 16) (c : Byte) (s : State) : (setOutcome h w c s).cfg = s.cfg := by simp [setOutcome]
@[simp] theorem setOutcome_st (h : Handle) (w : BitVec 16) (c : Byte) (s : State) : (setOutcome h w c s).st = s.st := by simp [setOutcome]
@[simp] theorem setOutcome_busy (h : Handle) (w : BitVec 16) (c : Byte) (s : State) : (setOutcome h w c s).busy = s.busy := by simp [setOutcome]
@[simp] theorem setOutcome_cur (h : Handle) (w : BitVec 16) (c : Byte) (s : State) : (setOutcome h w c s).cur = s.cur := by simp [setOutcome]
@[simp] theorem setOutcome_idx (h : Handle) (w : BitVec 16) (c : Byte) (s : State) : (setOutcome h w c s).idx = s.idx := by simp [setOutcome]
@[simp] theorem setOutcome_busOut (h : Handle) (w : BitVec 16) (c : Byte) (s : State) : (setOutcome h w c s).busOut = s.busOut := by simp [setOutcome]
@[simp] theorem setOutcome_qslot (h : Handle) (w : BitVec 16) (c : Byte) (s : State) : (setOutcome h w c s).qslot = s.qslot := by simp [setOutcome]
@[simp] theorem setOutcome_qRd (h : Handle) (w : BitVec 16) (c : Byte) (s : State) : (setOutcome h w c s).qRd = s.qRd := by simp [setOutcome]
@[simp] theorem setOutcome_qCount (h : Handle) (w : BitVec 16) (c : Byte) (s : State) : (setOutcome h w c s).qCount = s.qCount := by simp [setOutcome]
@[simp] theorem setOutcome_alloc (h : Handle) (w : BitVec 16) (c : Byte) (s : State) : (setOutcome h w c s).alloc = s.alloc := by simp [setOutcome]
@[simp] theorem setOutcome_fine (h : Handle) (w : BitVec 16) (c : Byte) (s : State) : (setOutcome h w c s).fine = s.fine := by simp [setOutcome]
@[simp] theorem setOutcome_coarseMs (h : Handle) (w : BitVec 16) (c : Byte) (s : State) : (setOutcome h w c s).coarseMs = s.coarseMs := by simp [setOutcome]
@[simp] theorem setOutcome_lastMs (h : Handle) (w : BitVec 16) (c : Byte) (s : State) : (setOutcome h w c s).lastMs = s.lastMs := by simp [setOutcome]
@[simp] theorem setOutcome_lastUs (h : Handle) (w : BitVec 16) (c : Byte) (s : State) : (setOutcome h w c s).lastUs = s.lastUs := by simp [setOutcome]
@[simp] theorem setOutcome_fast (h : Handle) (w : BitVec 16) (c : Byte) (s : State) : (setOutcome h w c s).fast = s.fast := by simp [setOutcome]
@[simp] theorem setOutcome_slow (h : Handle) (w : BitVec 16) (c : Byte) (s : State) : (setOutcome h w c s).slow = s.slow := by simp [setOutcome]
@[simp] theorem setOutcome_ntf (h : Handle) (w : BitVec 16) (c : Byte) (s : State) : (setOutcome h w c s).ntf = s.ntf := by simp [setOutcome]
@[simp] theorem setOutcome_tickDue (h : Handle) (w : BitVec 16) (c : Byte) (s : State) : (setOutcome h w c s).tickDue = s.tickDue := by simp [setOutcome]
@[simp] theorem setOutcome_bgHold (h : Handle) (w : BitVec 16) (c : Byte) (s : State) : (setOutcome h w c s).bgHold = s.bgHold := by simp [setOutcome]
@[simp] theorem setOutcome_hHold (h : Handle) (w : BitVec 16) (c : Byte) (s : State) : (setOutcome h w c s).hHold = s.hHold := by simp [setOutcome]
@[simp] theorem setOutcome_fault (h : Handle) (w : BitVec 16) (c : Byte) (s : State) : (setOutcome h w c s).fault = s.fault := by simp [setOutcome]
@[simp] theorem setOutcome_busLog (h : Handle) (w : BitVec 16) (c : Byte) (s : State) : (setOutcome h w c s).busLog = s.busLog := by simp [setOutcome]
@[simp] theorem setOutcome_dmem (h : Handle) (w : BitVec 16) (c : Byte) (s : State) : (setOutcome h w c s).dmem = s.dmem := by simp [setOutcome]
@[simp] theorem setOutcome_port (h : Handle) (w : BitVec 16) (c : Byte) (s : State) : (setOutcome h w c s).port = s.port := by simp [setOutcome]
@[simp] theorem setOutcome_responses (h : Handle) (w : BitVec 16) (c : Byte) (s : State) : (setOutcome h w c s).responses = s.responses := by simp [setOutcome]
@[simp] theorem setOutcome_agenda (h : Handle) (w : BitVec 16) (c : Byte) (s : State) : (setOutcome h w c s).agenda = s.agenda := by simp [setOutcome]
@[simp] theorem setOutcome_picks (h : Handle) (w : BitVec 16) (c : Byte) (s : State) : (setOutcome h w c s).picks = s.picks := by simp [setOutcome]
@[simp] theorem setOutcome_draws (h : Handle) (w : BitVec 16) (c : Byte) (s : State) : (setOutcome h w c s).draws = s.draws := by simp [setOutcome]

/-! ### stopIfAsked -/

@[simp] theorem stopIfAsked_cfg (h : Handle) (s : State) : (stopIfAsked h s).cfg = s.cfg := by unfold stopIfAsked; split <;> simp
@[simp] theorem stopIfAsked_st (h : Handle) (s : State) : (stopIfAsked h s).st = s.st := by unfold stopIfAsked; split <;> simp
@[simp] theorem stopIfAsked_busy (h : Handle) (s : State) : (stopIfAsked h s).busy = s.busy := by unfold stopIfAsked; split <;> simp
@[simp] theorem stopIfAsked_cur (h : Handle) (s : State) : (stopIfAsked h s).cur = s.cur := by unfold stopIfAsked; split <;> simp
@[simp] theorem stopIfAsked_idx (h : Handle) (s : State) : (stopIfAsked h s).idx = s.idx := by unfold stopIfAsked; split <;> simp
@[simp] theorem stopIfAsked_qslot (h : Handle) (s : State) : (stopIfAsked h s).qslot = s.qslot := by unfold stopIfAsked; split <;> simp
@[simp] theorem stopIfAsked_qRd (h : Handle) (s : State) : (stopIfAsked h s).qRd = s.qRd := by unfold stopIfAsked; split <;> simp
@[simp] theorem stopIfAsked_qCount (h : Handle) (s : State) : (stopIfAsked h s).qCount = s.qCount := by unfold stopIfAsked; split <;> simp
@[simp] theorem stopIfAsked_alloc (h : Handle) (s : State) : (stopIfAsked h s).alloc = s.alloc := by unfold stopIfAsked; split <;> simp
@[simp] theorem stopIfAsked_pool (h : Handle) (s : State) : (stopIfAsked h s).pool = s.pool := by unfold stopIfAsked; split <;> simp
@[simp] theorem stopIfAsked_caller (h : Handle) (s : State) : (stopIfAsked h s).caller = s.caller := by unfold stopIfAsked; split <;> simp
@[simp] theorem stopIfAsked_fine (h : Handle) (s : State) : (stopIfAsked h s).fine = s.fine := by unfold stopIfAsked; split <;> simp
@[simp] theorem stopIfAsked_coarseMs (h : Handle) (s : State) : (stopIfAsked h s).coarseMs = s.coarseMs := by unfold stopIfAsked; split <;> simp
@[simp] theorem stopIfAsked_lastMs (h : Handle) (s : State) : (stopIfAsked h s).lastMs = s.lastMs := by unfold stopIfAsked; split <;> simp
@[simp] theorem stopIfAsked_lastUs (h : Handle) (s : State) : (stopIfAsked h s).lastUs = s.lastUs := by unfold stopIfAsked; split <;> simp
@[simp] theorem stopIfAsked_fast (h : Handle) (s : State) : (stopIfAsked h s).fast = s.fast := by unfold stopIfAsked; split <;> simp
@[simp] theorem stopIfAsked_slow (h : Handle) (s : State) : (stopIfAsked h s).slow = s.slow := by unfold stopIfAsked; split <;> simp
@[simp] theorem stopIfAsked_ntf (h : Handle) (s : State) : (stopIfAsked h s).ntf = s.ntf := by unfold stopIfAsked; split <;> simp
@[simp] theorem stopIfAsked_tickDue (h : Handle) (s : State) : (stopIfAsked h s).tickDue = s.tickDue := by unfold stopIfAsked; split <;> simp
@[simp] theorem stopIfAsked_bgHold (h : Handle) (s : State) : (stopIfAsked h s).bgHold = s.bgHold := by unfold stopIfAsked; split <;> simp
@[simp] theorem stopIfAsked_hHold (h : Handle) (s : State) : (stopIfAsked h s).hHold = s.hHold := by unfold stopIfAsked; split <;> simp
@[simp] theorem stopIfAsked_fault (h : Handle) (s : State) : (stopIfAsked h s).fault = s.fault := by unfold stopIfAsked; split <;> simp
@[simp] theorem stopIfAsked_dmem (h : Handle) (s : State) : (stopIfAsked h s).dmem = s.dmem := by unfold stopIfAsked; split <;> simp
@[simp] theorem stopIfAsked_port (h : Handle) (s : State) : (stopIfAsked h s).port = s.port := by unfold stopIfAsked; split <;> simp
@[simp] theorem stopIfAsked_responses (h : Handle) (s : State) : (stopIfAsked h s).responses = s.responses := by unfold stopIfAsked; split <;> simp
@[simp] theorem stopIfAsked_agenda (h : Handle) (s : State) : (stopIfAsked h s).agenda = s.agenda := by unfold stopIfAsked; split <;> simp
@[simp] theorem stopIfAsked_picks (h : Handle) (s : State) : (stopIfAsked h s).picks = s.picks := by unfold stopIfAsked; split <;> simp
@[simp] theorem stopIfAsked_draws (h : Handle) (s : State) : (stopIfAsked h s).draws = s.draws := by unfold stopIfAsked; split <;> simp

/-! ### enqueue -/

@[simp] theorem enqueue_cfg (b : Bool) (h : Handle) (s : State) : (enqueue b h s).cfg = s.cfg := by simp [enqueue]
@[simp] theorem enqueue_st (b : Bool) (h : Handle) (s : State) : (enqueue b h s).st = s.st := by simp [enqueue]
@[simp] theorem enqueue_busy (b : Bool) (h : Handle) (s : State) : (enqueue b h s).busy = s.busy := by simp [enqueue]
@[simp] theorem enqueue_cur (b : Bool) (h : Handle) (s : State) : (enqueue b h s).cur = s.cur := by simp [enqueue]
@[simp] theorem enqueue_idx (b : Bool) (h : Handle) (s : State) : (enqueue b h s).idx = s.idx := by simp [enqueue]
@[simp] theorem enqueue_busOut (b : Bool) (h : Handle) (s : State) : (enqueue b h s).busOut = s.busOut := by simp [enqueue]
@[simp] theorem enqueue_qRd (b : Bool) (h : Handle) (s : State) : (enqueue b h s).qRd = s.qRd := by simp [enqueue]
@[simp] theorem enqueue_alloc (b : Bool) (h : Handle) (s : State) : (enqueue b h s).alloc = s.alloc := by simp [enqueue]
@[simp] theorem enqueue_fine (b : Bool) (h : Handle) (s : State) : (enqueue b h s).fine = s.fine := by simp [enqueue]
@[simp] theorem enqueue_coarseMs (b : Bool) (h : Handle) (s : State) : (enqueue b h s).coarseMs = s.coarseMs := by simp [enqueue]
@[simp] theorem enqueue_lastMs (b : Bool) (h : Handle) (s : State) : (enqueue b h s).lastMs = s.lastMs := by simp [enqueue]
@[simp] theorem enqueue_lastUs (b : Bool) (h : Handle) (s : State) : (enqueue b h s).lastUs = s.lastUs := by simp [enqueue]
@[simp] theorem enqueue_fast (b : Bool) (h : Handle) (s : State) : (enqueue b h s).fast = s.fast := by simp [enqueue]
@[simp] theorem enqueue_slow (b : Bool) (h : Handle) (s : State) : (enqueue b h s).slow = s.slow := by simp [enqueue]
@[simp] theorem enqueue_ntf (b : Bool) (h : Handle) (s : State) : (enqueue b h s).ntf = s.ntf := by simp [enqueue]
@[simp] theorem enqueue_tickDue (b : Bool) (h : Handle) (s : State) : (enqueue b h s).tickDue = s.tickDue := by simp [enqueue]
@[simp] theorem enqueue_bgHold (b : Bool) (h : Handle) (s : State) : (enqueue b h s).bgHold = s.bgHold := by simp [enqueue]
@[simp] theorem enqueue_hHold (b : Bool) (h : Handle) (s : State) : (enqueue b h s).hHold = s.hHold := by simp [enqueue]
@[simp] theorem enqueue_fault (b : Bool) (h : Handle) (s : State) : (enqueue b h s).fault = s.fault := by simp [enqueue]
@[simp] theorem enqueue_busLog (b : Bool) (h : Handle) (s : State) : (enqueue b h s).busLog = s.busLog := by simp [enqueue]
@[simp] theorem enqueue_dmem (b : Bool) (h : Handle) (s : State) : (enqueue b h s).dmem = s.dmem := by simp [enqueue]
@[simp] theorem enqueue_port (b : Bool) (h : Handle) (s : State) : (enqueue b h s).port = s.port := by simp [enqueue]
@[simp] theorem enqueue_responses (b : Bool) (h : Handle) (s : State) : (enqueue b h s).responses = s.responses := by simp [enqueue]
@[simp] theorem enqueue_agenda (b : Bool) (h : Handle) (s : State) : (enqueue b h s).agenda = s.agenda := by simp [enqueue]
@[simp] theorem enqueue_picks (b : Bool) (h : Handle) (s : State) : (enqueue b h s).picks = s.picks := by simp [enqueue]
@[simp] theorem enqueue_draws (b : Bool) (h : Handle) (s : State) : (enqueue b h s).draws = s.draws := by simp [enqueue]

/-! ### holdContext -/

@[simp] theorem holdContext_cfg (s : State) : (holdContext s).cfg = s.cfg := by unfold holdContext; split <;> rfl
@[simp] theorem holdContext_st (s : State) : (holdContext s).st = s.st := by unfold holdContext; split <;> rfl
@[simp] theorem holdContext_busy (s : State) : (holdContext s).busy = s.busy := by unfold holdContext; split <;> rfl
@[simp] theorem holdContext_cur (s : State) : (holdContext s).cur = s.cur := by unfold holdContext; split <;> rfl
@[simp] theorem holdContext_idx (s : State) : (holdContext s).idx = s.idx := by unfold holdContext; split <;> rfl
@[simp] theorem holdContext_busOut (s : State) : (holdContext s).busOut = s.busOut := by unfold holdContext; split <;> rfl
@[simp] theorem holdContext_qslot (s : State) : (holdContext s).qslot = s.qslot := by unfold holdContext; split <;> rfl
@[simp] theorem holdContext_qRd (s : State) : (holdContext s).qRd = s.qRd := by unfold holdContext; split <;> rfl
@[simp] theorem holdContext_qCount (s : State) : (holdContext s).qCount = s.qCount := by unfold holdContext; split <;> rfl
@[simp] theorem holdContext_alloc (s : State) : (holdContext s).alloc = s.alloc := by unfold holdContext; split <;> rfl
@[simp] theorem holdContext_pool (s : State) : (holdContext s).pool = s.pool := by unfold holdContext; split <;> rfl
@[simp] theorem holdContext_caller (s : State) : (holdContext s).caller = s.caller := by unfold holdContext; split <;> rfl
@[simp] theorem holdContext_fine (s : State) : (holdContext s).fine = s.fine := by unfold holdContext; split <;> rfl
@[simp] theorem holdContext_coarseMs (s : State) : (holdContext s).coarseMs = s.coarseMs := by unfold holdContext; split <;> rfl
@[simp] theorem holdContext_lastMs (s : State) : (holdContext s).lastMs = s.lastMs := by unfold holdContext; split <;> rfl
@[simp] theorem holdContext_lastUs (s : State) : (holdContext s).lastUs = s.lastUs := by unfold holdContext; split <;> rfl
@[simp] theorem holdContext_fast (s : State) : (holdContext s).fast = s.fast := by unfold holdContext; split <;> rfl
@[simp] theorem holdContext_slow (s : State) : (holdContext s).slow = s.slow := by unfold holdContext; split <;> rfl
@[simp] theorem holdContext_ntf (s : State) : (holdContext s).ntf = s.ntf := by unfold holdContext; split <;> rfl
@[simp] theorem holdContext_tickDue (s : State) : (holdContext s).tickDue = s.tickDue := by unfold holdContext; split <;> rfl
@[simp] theorem holdContext_fault (s : State) : (holdContext s).fault = s.fault := by unfold holdContext; split <;> rfl
@[simp] theorem holdContext_busLog (s : State) : (holdContext s).busLog = s.busLog := by unfold holdContext; split <;> rfl
@[simp] theorem holdContext_dmem (s : State) : (holdContext s).dmem = s.dmem := by unfold holdContext; split <;> rfl
@[simp] theorem holdContext_port (s : State) : (holdContext s).port = s.port := by unfold holdContext; split <;> rfl
@[simp] theorem holdContext_responses (s : State) : (holdContext s).responses = s.responses := by unfold holdContext; split <;> rfl
@[simp] theorem holdContext_agenda (s : State) : (holdContext s).agenda = s.agenda := by unfold holdContext; split <;> rfl
@[simp] theorem holdContext_picks (s : State) : (holdContext s).picks = s.picks := by unfold holdContext; split <;> rfl
@[simp] theorem holdContext_draws (s : State) : (holdContext s).draws = s.draws := by unfold holdContext; split <;> rfl

/-! ### allocate -/

@[simp] theorem allocate_cfg (s : State) (i : Nat) : (allocate s i).cfg = s.cfg := by simp [allocate]
@[simp] theorem allocate_st (s : State) (i : Nat) : (allocate s i).st = s.st := by simp [allocate]
@[simp] theorem allocate_busy (s : State) (i : Nat) : (allocate s i).busy = s.busy := by simp [allocate]
@[simp] theorem allocate_cur (s : State) (i : Nat) : (allocate s i).cur = s.cur := by simp [allocate]
@[simp] theorem allocate_idx (s : State) (i : Nat) : (allocate s i).idx = s.idx := by simp [allocate]
@[simp] theorem allocate_busOut (s : State) (i : Nat) : (allocate s i).busOut = s.busOut := by simp [allocate]
@[simp] theorem allocate_qslot (s : State) (i : Nat) : (allocate s i).qslot = s.qslot := by simp [allocate]
@[simp] theorem allocate_qRd (s : State) (i : Nat) : (allocate s i).qRd = s.qRd := by simp [allocate]
@[simp] theorem allocate_qCount (s : State) (i : Nat) : (allocate s i).qCount = s.qCount := by simp [allocate]
@[simp] theorem allocate_fine (s : State) (i : Nat) : (allocate s i).fine = s.fine := by simp [allocate]
@[simp] theorem allocate_coarseMs (s : State) (i : Nat) : (allocate s i).coarseMs = s.coarseMs := by simp [allocate]
@[simp] theorem allocate_lastMs (s : State) (i : Nat) : (allocate s i).lastMs = s.lastMs := by simp [allocate]
@[simp] theorem allocate_lastUs (s : State) (i : Nat) : (allocate s i).lastUs = s.lastUs := by simp [allocate]
@[simp] theorem allocate_fast (s : State) (i : Nat) : (allocate s i).fast = s.fast := by simp [allocate]
@[simp] theorem allocate_slow (s : State) (i : Nat) : (allocate s i).slow = s.slow := by simp [allocate]
@[simp] theorem allocate_ntf (s : State) (i : Nat) : (allocate s i).ntf = s.ntf := by simp [allocate]
@[simp] theorem allocate_tickDue (s : State) (i : Nat) : (allocate s i).tickDue = s.tickDue := by simp [allocate]
@[simp] theorem allocate_bgHold (s : State) (i : Nat) : (allocate s i).bgHold = s.bgHold := by simp [allocate]
@[simp] theorem allocate_hHold (s : State) (i : Nat) : (allocate s i).hHold = s.hHold := by simp [allocate]
@[simp] theorem allocate_fault (s : State) (i : Nat) : (allocate s i).fault = s.fault := by simp [allocate]
@[simp] theorem allocate_busLog (s : State) (i : Nat) : (allocate s i).busLog = s.busLog := by simp [allocate]
@[simp] theorem allocate_dmem (s : State) (i : Nat) : (allocate s i).dmem = s.dmem := by simp [allocate]
@[simp] theorem allocate_port (s : State) (i : Nat) : (allocate s i).port = s.port := by simp [allocate]
@[simp] theorem allocate_responses (s : State) (i : Nat) : (allocate s i).responses = s.responses := by simp [allocate]
@[simp] theorem allocate_agenda (s : State) (i : Nat) : (allocate s i).agenda = s.agenda := by simp [allocate]
@[simp] theorem allocate_picks (s : State) (i : Nat) : (allocate s i).picks = s.picks := by simp [allocate]
@[simp] theorem allocate_draws (s : State) (i : Nat) : (allocate s i).draws = s.draws := by simp [allocate]

/-! ### idleArm -/

@[simp] theorem idleArm_cfg (s : State) : (idleArm s).cfg = s.cfg := by unfold idleArm; split <;> simp
@[simp] theorem idleArm_qslot (s : State) : (idleArm s).qslot = s.qslot := by unfold idleArm; split <;> simp
@[simp] theorem idleArm_alloc (s : State) : (idleArm s).alloc = s.alloc := by unfold idleArm; split <;> simp
@[simp] theorem idleArm_pool (s : State) : (idleArm s).pool = s.pool := by unfold idleArm; split <;> simp
@[simp] theorem idleArm_caller (s : State) : (idleArm s).caller = s.caller := by unfold idleArm; split <;> simp
@[simp] theorem idleArm_fine (s : State) : (idleArm s).fine = s.fine := by unfold idleArm; split <;> simp
@[simp] theorem idleArm_coarseMs (s : State) : (idleArm s).coarseMs = s.coarseMs := by unfold idleArm; split <;> simp
@[simp] theorem idleArm_lastMs (s : State) : (idleArm s).lastMs = s.lastMs := by unfold idleArm; split <;> simp
@[simp] theorem idleArm_lastUs (s : State) : (idleArm s).lastUs = s.lastUs := by unfold idleArm; split <;> simp
@[simp] theorem idleArm_fast (s : State) : (idleArm s).fast = s.fast := by unfold idleArm; split <;> simp
@[simp] theorem idleArm_slow (s : State) : (idleArm s).slow = s.slow := by unfold idleArm; split <;> simp
@[simp] theorem idleArm_ntf (s : State) : (idleArm s).ntf = s.ntf := by unfold idleArm; split <;> simp
@[simp] theorem idleArm_tickDue (s : State) : (idleArm s).tickDue = s.tickDue := by unfold idleArm; split <;> simp
@[simp] theorem idleArm_bgHold (s : State) : (idleArm s).bgHold = s.bgHold := by unfold idleArm; split <;> simp
@[simp] theorem idleArm_hHold (s : State) : (idleArm s).hHold = s.hHold := by unfold idleArm; split <;> simp
@[simp] theorem idleArm_fault (s : State) : (idleArm s).fault = s.fault := by unfold idleArm; split <;> simp
@[simp] theorem idleArm_dmem (s : State) : (idleArm s).dmem = s.dmem := by unfold idleArm; split <;> simp
@[simp] theorem idleArm_port (s : State) : (idleArm s).port = s.port := by unfold idleArm; split <;> simp
@[simp] theorem idleArm_responses (s : State) : (idleArm s).responses = s.responses := by unfold idleArm; split <;> simp
@[simp] theorem idleArm_agenda (s : State) : (idleArm s).agenda = s.agenda := by unfold idleArm; split <;> simp
@[simp] theorem idleArm_picks (s : State) : (idleArm s).picks = s.picks := by unfold idleArm; split <;> simp
@[simp] theorem idleArm_draws (s : State) : (idleArm s).draws = s.draws := by unfold idleArm; split <;> simp

/-! ### The fields that are written -/

@[simp] theorem setAlloc_alloc (s : State) (h : Handle) (b : Bool) :
    (setAlloc s h b).alloc = s.alloc.set (handleIndex h) b := rfl
@[simp] theorem qPush_qslot (s : State) (h : Handle) :
    (qPush s h).qslot = s.qslot.set (qIndex s s.qCount) h := rfl
@[simp] theorem qPush_qCount (s : State) (h : Handle) : (qPush s h).qCount = s.qCount + 1 := rfl
@[simp] theorem qPop_qRd (s : State) : (qPop s).qRd = (s.qRd + 1) % s.cfg.queueCap := rfl
@[simp] theorem qPop_qCount (s : State) : (qPop s).qCount = s.qCount - 1 := rfl
@[simp] theorem busCmd_busLog (c : BusCmd) (s : State) : (busCmd c s).busLog = s.busLog ++ [c] := rfl
@[simp] theorem busCmd_busOut (c : BusCmd) (s : State) : (busCmd c s).busOut = outstandingAfter s.busOut c := rfl
@[simp] theorem deliver_responses (x : Context) (c : ResultCode) (d : List Word) (s : State) :
    (deliver x c d s).responses = s.responses ++ [⟨x, c, d⟩] := rfl
@[simp] theorem notify_ntf (p : Ntf) (s : State) : (notify p s).ntf = p := rfl
@[simp] theorem leaveHandler_ntf (s : State) : (leaveHandler s).ntf = .none := rfl
@[simp] theorem enqueue_qCount (b : Bool) (h : Handle) (s : State) : (enqueue b h s).qCount = s.qCount + 1 := by
  simp [enqueue]

end Sys2Proof.Machine
end

