-- ==== Sys2Proof/Laws/Memory.lean ====
section
/-! SUPPORT. The laws of DMEM: a read after a write, the canonical form kept, and equal contents as equal lists. -/

namespace Sys2Proof.Machine

theorem memStore_lookup (m : Memory) (a b : Nat) (v : Byte) (hm : Memory.wf m = true) :
    memLookup (memStore m a v) b = if b = a then v else memLookup m b := by
  induction m with
  | nil =>
    by_cases hb : b = a
    · subst hb; by_cases hv : v = dmemUnwritten <;> simp [memStore, memLookup, hv]
    · have hab : a ≠ b := fun h => hb h.symm
      by_cases hv : v = dmemUnwritten <;> simp [memStore, memLookup, hv, hb, hab]
  | cons p rest ih =>
    obtain ⟨k, w⟩ := p
    have hrest : Memory.wf rest = true := by simp_all [Memory.wf]
    have habove : ∀ c, c ≤ k → memLookup rest c = dmemUnwritten := by
      have h1 : memAbove k rest = true := by simp_all [Memory.wf]
      clear ih hm
      intro c hc
      induction rest generalizing k with
      | nil => rfl
      | cons q more ih2 =>
        obtain ⟨j, x⟩ := q
        have hj : k < j := by simpa [memAbove] using h1
        have h2 : memAbove j more = true := by simp_all [Memory.wf]
        have h3 : Memory.wf more = true := by simp_all [Memory.wf]
        have : j ≠ c := by omega
        simp only [memLookup, this, if_false]
        exact ih2 j h3 h2 (by omega)
    simp only [memStore]
    split
    · rename_i hak
      by_cases hv : v = dmemUnwritten
      · by_cases hb : b = a
        · subst hb; simp [hv, memLookup, habove b (by omega), show k ≠ b by omega]
        · simp [hv, hb]
      · by_cases hb : b = a
        · subst hb; simp [hv, memLookup]
        · simp [hv, hb, memLookup, show a ≠ b from fun h => hb h.symm]
    · split
      · rename_i hak
        subst hak
        by_cases hv : v = dmemUnwritten
        · by_cases hb : b = a
          · subst hb; simp [hv, habove b (by omega)]
          · simp [hv, hb, memLookup, show a ≠ b from fun h => hb h.symm]
        · by_cases hb : b = a
          · subst hb; simp [hv, memLookup]
          · simp [hv, hb, memLookup, show a ≠ b from fun h => hb h.symm]
      · rename_i h1 h2
        by_cases hkb : k = b
        · subst hkb; simp [memLookup, show k ≠ a from fun h => h2 h.symm]
        · simp [memLookup, hkb, ih hrest]

/-- A write reads back. -/
theorem memLookup_memStore_same (m : Memory) (a : Nat) (v : Byte) (hm : Memory.wf m = true) :
    memLookup (memStore m a v) a = v := by
  simp [memStore_lookup m a a v hm]

/-- A write leaves every other address alone. -/
theorem memLookup_memStore_other (m : Memory) (a b : Nat) (v : Byte) (hm : Memory.wf m = true) (h : b ≠ a) :
    memLookup (memStore m a v) b = memLookup m b := by
  simp [memStore_lookup m a b v hm, h]

/-- Every address of a written list is one of the list's or the written one. -/
theorem memAbove_memStore (m : Memory) (a k : Nat) (v : Byte) (hk : k < a) (hm : memAbove k m = true)
    (hw : Memory.wf m = true) : memAbove k (memStore m a v) = true := by
  cases m with
  | nil => simp only [memStore]; split <;> simp [memAbove, hk]
  | cons p rest =>
    obtain ⟨j, w⟩ := p
    have hj : k < j := by simpa [memAbove] using hm
    simp only [memStore]
    split
    · split <;> simp [memAbove, hk, hj]
    · split
      · split
        · cases rest with
          | nil => rfl
          | cons q more =>
            have : j < q.1 := by
              have : memAbove j (q :: more) = true := by simp_all [Memory.wf]
              simpa [memAbove] using this
            simp only [memAbove, decide_eq_true_eq]
            omega
        · simp [memAbove, hk]
      · simp [memAbove, hj]

/-- A write keeps the canonical form. -/
theorem memStore_wf (m : Memory) (a : Nat) (v : Byte) (hm : Memory.wf m = true) :
    Memory.wf (memStore m a v) = true := by
  induction m with
  | nil => by_cases hv : v = dmemUnwritten <;> simp [memStore, Memory.wf, memAbove, hv]
  | cons p rest ih =>
    obtain ⟨k, w⟩ := p
    have hrest : Memory.wf rest = true := by simp_all [Memory.wf]
    have habove : memAbove k rest = true := by simp_all [Memory.wf]
    have hw : w ≠ dmemUnwritten := by simp_all [Memory.wf]
    simp only [memStore]
    split
    · split
      · exact hm
      · simp_all [Memory.wf, memAbove]
    · split
      · split
        · exact hrest
        · simp_all [Memory.wf]
      · rename_i h1 h2
        simp [Memory.wf, ih hrest, hw, memAbove_memStore rest a k v (by omega) habove hrest]

/-- Every address in a written list is in bounds if the list's and the written one are. -/
theorem memStore_bound (m : Memory) (a n : Nat) (v : Byte) (hm : ∀ p ∈ m, p.1 < n) (ha : a < n) :
    ∀ p ∈ memStore m a v, p.1 < n := by
  induction m with
  | nil =>
    intro p hp
    simp only [memStore] at hp
    split at hp <;> simp_all
  | cons q rest ih =>
    obtain ⟨k, w⟩ := q
    have ih' := ih (fun p hp => hm p (by simp [hp]))
    have hk : k < n := hm (k, w) (by simp)
    have hr : ∀ p ∈ rest, p.1 < n := fun p hp => hm p (by simp [hp])
    intro p hp
    simp only [memStore] at hp
    split at hp
    · split at hp
      · exact hm p hp
      · rcases List.mem_cons.mp hp with rfl | hp
        · exact ha
        · exact hm p hp
    · split at hp
      · split at hp
        · exact hr p hp
        · rcases List.mem_cons.mp hp with rfl | hp
          · exact ha
          · exact hr p hp
      · rcases List.mem_cons.mp hp with rfl | hp
        · exact hk
        · exact ih' p hp

/-- What memWrite can do. -/
theorem memWrite_next {s t : State} {a : Nat} {v : Byte} (h : memWrite s a v = .next t) :
    a < 2 ^ s.cfg.dmemAw ∧ t = { s with dmem := memStore s.dmem a v } := by
  unfold memWrite dmemHas at h
  split at h
  · rename_i ha
    exact ⟨by simpa using ha, (Host.Outcome.next.inj h).symm⟩
  · cases h

/-- A host or engine write inside DMEM goes on. -/
theorem memWrite_ok (s : State) (a : Nat) (v : Byte) (h : a < 2 ^ s.cfg.dmemAw) :
    memWrite s a v = .next { s with dmem := memStore s.dmem a v } := by
  simp [memWrite, dmemHas, h]

/-- A read inside DMEM gives the byte. -/
theorem memRead_ok (s : State) (a : Nat) (h : a < 2 ^ s.cfg.dmemAw) :
    memRead s a = some (memLookup s.dmem a) := by
  simp [memRead, dmemHas, h]

end Sys2Proof.Machine
end

