-- ==== Sys2Proof/Laws/Ops.lean ====
section
/-! SUPPORT. One lemma per shared operation: what it does to records, ownership, the queue and the ports. -/

namespace Sys2Proof.Machine

/-! ### Outcomes -/

@[simp] theorem andThen_next (s : State) (f : State → Result) : andThen (.next s) f = f s := rfl
@[simp] theorem andThen_fault (r : Fault) (f : State → Result) : andThen (.fault r) f = .fault r := rfl
@[simp] theorem andThen_refused (r : Refusal) (f : State → Result) : andThen (.refused r) f = .refused r := rfl

theorem andThen_eq_next {o : Result} {f : State → Result} {t : State} (h : andThen o f = .next t) :
    ∃ s, o = .next s ∧ f s = .next t := by
  cases o with
  | next s => exact ⟨s, rfl, h⟩
  | fault r => cases h
  | refused r => cases h

theorem respond_next {x : Context} {c : ResultCode} {d : List Word} {s t : State} (h : respond x c d s = .next t) :
    t = deliver x c d s := (Host.Outcome.next.inj h).symm

theorem raiseFault_next {r : FaultReason} {s t : State} (h : raiseFault r s = .next t) :
    t = { s with fault := some r } := (Host.Outcome.next.inj h).symm

/-! ### Handles (rule R100) -/

theorem handleIndex_eq (h : Handle) : handleIndex h = h.toNat % 128 := by
  simp [handleIndex, BitVec.extractLsb'_toNat]

theorem isPool_eq (h : Handle) : isPool h = decide (128 ≤ h.toNat) := by
  unfold isPool
  rw [BitVec.getLsbD, Nat.testBit_eq_decide_div_mod_eq]
  have := h.isLt
  congr 1
  apply propext
  constructor <;> intro h1 <;> omega

/-- A handle is its kind and its index. -/
theorem handle_ext {h k : Handle} (hp : isPool h = isPool k) (hi : handleIndex h = handleIndex k) : h = k := by
  have h1 := h.isLt
  have h2 := k.isLt
  rw [handleIndex_eq, handleIndex_eq] at hi
  rw [isPool_eq, isPool_eq] at hp
  apply BitVec.eq_of_toNat_eq
  have : (128 ≤ h.toNat) ↔ (128 ≤ k.toNat) := by simpa using hp
  omega

theorem isPool_poolHandle {i : Nat} (h : i < 128) : isPool (poolHandle i) = true := by
  rw [isPool_eq]; simp [poolHandle]; omega

theorem handleIndex_poolHandle {i : Nat} (h : i < 128) : handleIndex (poolHandle i) = i := by
  rw [handleIndex_eq]; simp [poolHandle]; omega

theorem poolHandle_of_isPool {h : Handle} (hp : isPool h = true) : h = poolHandle (handleIndex h) := by
  have hi : handleIndex h < 128 := by rw [handleIndex_eq]; omega
  exact handle_ext (by rw [hp, isPool_poolHandle hi]) (handleIndex_poolHandle hi).symm

/-! ### Records -/

/-- Handle h names an entry of the record lists. -/
def HasRecord (s : State) (h : Handle) : Prop :=
  if isPool h then handleIndex h < s.pool.length else handleIndex h < s.caller.length

theorem Sized.hasRecord {s : State} (hs : Sized s) {h : Handle} (hr : InRange s h) : HasRecord s h := by
  unfold InRange handleInRange at hr
  unfold HasRecord
  split <;> simp_all [hs.pool, hs.caller]

theorem recAt_setRec_same (s : State) (h : Handle) (r : Record) (hr : HasRecord s h) : recAt (setRec s h r) h = r := by
  unfold HasRecord at hr
  unfold recAt setRec
  split at hr <;> simp_all [List.getD]

theorem recAt_setRec_other (s : State) (h k : Handle) (r : Record) (hk : k ≠ h) :
    recAt (setRec s h r) k = recAt s k := by
  unfold recAt setRec
  by_cases hp : isPool h = true <;> by_cases hq : isPool k = true <;> simp [hp, hq, List.getD]
  · have : handleIndex h ≠ handleIndex k := fun e => hk (handle_ext (hq.trans hp.symm) e.symm)
    rw [List.getElem?_set_ne this]
  · have : handleIndex h ≠ handleIndex k :=
      fun e => hk (handle_ext (by rw [Bool.eq_false_iff.mpr hq, Bool.eq_false_iff.mpr hp]) e.symm)
    rw [List.getElem?_set_ne this]

theorem recAt_congr {s t : State} (hp : t.pool = s.pool) (hc : t.caller = s.caller) (hcfg : t.cfg = s.cfg) (h : Handle) :
    recAt t h = recAt s h := by
  simp [recAt, hp, hc, hcfg]

theorem allocAt_congr {s t : State} (ha : t.alloc = s.alloc) (h : Handle) : allocAt t h = allocAt s h := by
  simp [allocAt, ha]

@[simp] theorem setRec_pool_length (s : State) (h : Handle) (r : Record) : (setRec s h r).pool.length = s.pool.length := by
  unfold setRec; split <;> simp

@[simp] theorem setRec_caller_length (s : State) (h : Handle) (r : Record) :
    (setRec s h r).caller.length = s.caller.length := by
  unfold setRec; split <;> simp

theorem allocAt_setAlloc_same (s : State) (h : Handle) (b : Bool) (hl : handleIndex h < s.alloc.length) :
    allocAt (setAlloc s h b) h = b := by
  simp [allocAt, List.getD, hl]

theorem allocAt_setAlloc_other (s : State) (h k : Handle) (b : Bool) (hne : handleIndex k ≠ handleIndex h) :
    allocAt (setAlloc s h b) k = allocAt s k := by
  simp [allocAt, List.getD, List.getElem?_set_ne (Ne.symm hne)]

@[simp] theorem recAt_setAlloc (s : State) (h k : Handle) (b : Bool) : recAt (setAlloc s h b) k = recAt s k :=
  recAt_congr rfl rfl rfl k

/-- Release(h) clears QUEUED of its record and nothing else of it (rule R142). -/
theorem recAt_release_same (s : State) (h : Handle) (hr : HasRecord s h) :
    recAt (release s h) h = { recAt s h with queued := false } := by
  unfold release
  split <;> simp [recAt_setRec_same s h _ hr]

theorem recAt_release_other (s : State) (h k : Handle) (hk : k ≠ h) : recAt (release s h) k = recAt s k := by
  unfold release
  split <;> simp [recAt_setRec_other s h k _ hk]

/-- Release(h) frees a pool record (rule R142). -/
theorem allocAt_release_same (s : State) (h : Handle) (hp : isPool h = true) (hl : handleIndex h < s.alloc.length) :
    allocAt (release s h) h = false := by
  simp only [release, hp, if_true]
  exact allocAt_setAlloc_same _ _ _ (by simpa using hl)

theorem allocAt_release_other (s : State) (h k : Handle) (hk : k ≠ h) (hp : isPool k = true) :
    allocAt (release s h) k = allocAt s k := by
  unfold release
  split
  · rename_i hh
    rw [allocAt_setAlloc_other]
    · exact allocAt_congr (by simp) k
    · exact fun e => hk (handle_ext (hp.trans hh.symm) e)
  · exact allocAt_congr (by simp) k

/-! ### The queue (rules R26, R160, R161) -/

theorem liveEntries_congr {s t : State} (hc : t.cfg = s.cfg) (hq : t.qslot = s.qslot) (hr : t.qRd = s.qRd)
    (hn : t.qCount = s.qCount) : liveEntries t = liveEntries s := by
  have : qEntry t = qEntry s := by funext k; simp [qEntry, qIndex, hc, hq, hr]
  simp [liveEntries, hn, this]

@[simp] theorem liveEntries_length (s : State) : (liveEntries s).length = s.qCount := by simp [liveEntries]

/-- A push keeps the older entries and adds one (rule R160). -/
theorem liveEntries_qPush (s : State) (h : Handle) (hl : s.qslot.length = s.cfg.queueCap)
    (hc : s.qCount < s.cfg.queueCap) (hr : s.qRd < s.cfg.queueCap) :
    liveEntries (qPush s h) = liveEntries s ++ [h] := by
  have hcap : 0 < s.cfg.queueCap := by omega
  simp only [liveEntries, qPush_qCount, List.range_succ, List.map_append, List.map_cons, List.map_nil]
  congr 1
  · apply List.map_congr_left
    intro k hk
    have hk : k < s.qCount := by simpa using hk
    have hne : qIndex s s.qCount ≠ qIndex s k := by
      unfold qIndex
      have h1 := Nat.mod_lt (s.qRd + k) hcap
      rcases Nat.lt_or_ge (s.qRd + s.qCount) s.cfg.queueCap with h2 | h2
      · rw [Nat.mod_eq_of_lt h2, Nat.mod_eq_of_lt (by omega)]; omega
      · rw [Nat.mod_eq_sub_mod h2, Nat.mod_eq_of_lt (by omega)]
        rcases Nat.lt_or_ge (s.qRd + k) s.cfg.queueCap with h3 | h3
        · rw [Nat.mod_eq_of_lt h3]; omega
        · rw [Nat.mod_eq_sub_mod h3, Nat.mod_eq_of_lt (by omega)]; omega
    have : qIndex (qPush s h) k = qIndex s k := by simp [qIndex]
    simp [qEntry, this, List.getD, List.getElem?_set_ne hne]
  · have h1 : qIndex (qPush s h) s.qCount = qIndex s s.qCount := by simp [qIndex]
    have h2 : qIndex s s.qCount < s.qslot.length := by rw [hl]; exact Nat.mod_lt _ hcap
    simp [qEntry, h1, List.getD, h2]

/-- A pop removes the oldest entry (rule R161). -/
theorem liveEntries_qPop (s : State) (hc : 0 < s.qCount) (hr : s.qRd < s.cfg.queueCap) :
    liveEntries s = qOldest s :: liveEntries (qPop s) := by
  obtain ⟨n, hn⟩ : ∃ n, s.qCount = n + 1 := ⟨s.qCount - 1, by omega⟩
  simp only [liveEntries, qPop_qCount, hn, Nat.add_sub_cancel, List.range_succ_eq_map, List.map_cons, List.map_map]
  congr 1
  · simp [qEntry, qIndex, qOldest, Nat.mod_eq_of_lt hr]
  · apply List.map_congr_left
    intro k _
    have : qIndex s (k + 1) = qIndex (qPop s) k := by
      simp only [qIndex, qPop_qRd, qPop_cfg, Nat.mod_add_mod]
      congr 1
      omega
    simp [qEntry, this]

end Sys2Proof.Machine
end

