-- ==== Sys2Proof/Laws/Engine.lean ====
section
/-! SUPPORT. What the engine's buffer access, its discard loop and its IDLE arm do, and the chains that SUBMIT pushes. -/

namespace Sys2Proof.Machine

/-! ### Buffer access (rule R61) -/

/-- A buffer that fits has its byte i, so BufRead answers. -/
theorem withBufRead_ok {s : State} {r : Record} {i : Nat} {f : Byte → State} (hf : BufferFits s.cfg r)
    (hl : r.inl.length = s.cfg.inlineBytes) (hi : i < r.byteCount.toNat) : ∃ b, withBufRead s r i f = .next (f b) := by
  unfold withBufRead
  cases hb : r.bufSel with
  | inlineBuffer =>
    have hle : r.byteCount.toNat ≤ s.cfg.inlineBytes := by simpa [BufferFits, hb] using hf
    have : i < r.inl.length := by omega
    exact ⟨r.inl[i], by simp only [List.getElem?_eq_getElem this]⟩
  | externalBuffer =>
    have hle : r.extAddr.toNat + r.byteCount.toNat ≤ 2 ^ s.cfg.dmemAw := by simpa [BufferFits, hb] using hf
    exact ⟨memLookup s.dmem (r.extAddr.toNat + i), by simp only [memRead_ok s (r.extAddr.toNat + i) (by omega)]⟩

/-- All that BufWrite can do: one inline byte of the record, or one byte of DMEM. -/
theorem bufWrite_next {s t : State} {h : Handle} {i : Nat} {v : Byte} (hw : bufWrite s h i v = .next t) :
    ((recAt s h).bufSel = .inlineBuffer ∧ i < (recAt s h).inl.length ∧
      t = setRec s h { recAt s h with inl := (recAt s h).inl.set i v }) ∨
    ((recAt s h).bufSel = .externalBuffer ∧ (recAt s h).extAddr.toNat + i < 2 ^ s.cfg.dmemAw ∧
      t = { s with dmem := memStore s.dmem ((recAt s h).extAddr.toNat + i) v }) := by
  unfold bufWrite at hw
  split at hw
  · rename_i hb
    split at hw
    · rename_i hi
      exact .inl ⟨hb, hi, (Host.Outcome.next.inj hw).symm⟩
    · cases hw
  · rename_i hb
    exact .inr ⟨hb, memWrite_next hw⟩

/-- A buffer that fits takes its byte i, so BufWrite answers. -/
theorem bufWrite_ok {s : State} {h : Handle} {i : Nat} {v : Byte} (hf : BufferFits s.cfg (recAt s h))
    (hl : (recAt s h).inl.length = s.cfg.inlineBytes) (hi : i < (recAt s h).byteCount.toNat) :
    ∃ t, bufWrite s h i v = .next t := by
  unfold bufWrite
  cases hb : (recAt s h).bufSel with
  | inlineBuffer =>
    have hle : (recAt s h).byteCount.toNat ≤ s.cfg.inlineBytes := by simpa [BufferFits, hb] using hf
    have : i < (recAt s h).inl.length := by omega
    exact ⟨_, if_pos this⟩
  | externalBuffer =>
    have hle : (recAt s h).extAddr.toNat + (recAt s h).byteCount.toNat ≤ 2 ^ s.cfg.dmemAw := by
      simpa [BufferFits, hb] using hf
    exact ⟨_, memWrite_ok s _ v (by omega)⟩

/-- BufWrite keeps the canonical form of DMEM. -/
theorem bufWrite_wf {s t : State} {h : Handle} {i : Nat} {v : Byte} (hw : bufWrite s h i v = .next t)
    (hm : Memory.wf s.dmem = true) : Memory.wf t.dmem = true := by
  rcases bufWrite_next hw with ⟨_, _, rfl⟩ | ⟨_, _, rfl⟩
  · simpa using hm
  · exact memStore_wf _ _ _ hm

/-! ### The discard loop (rule R192) -/

/-- A projection that a pop and a release keep is kept by the discard loop. -/
theorem discardChain_keeps {α : Type} (f : State → α) (hp : ∀ s, f (qPop s) = f s)
    (hr : ∀ s h, f (release s h) = f s) : ∀ n c s, f (discardChain n c s) = f s
  | 0, _, _ => rfl
  | n + 1, c, s => by
    unfold discardChain
    split
    · rw [discardChain_keeps f hp hr n, hr, hp]
    · rfl

@[simp] theorem discardChain_cfg (n : Nat) (c : Bool) (s : State) : (discardChain n c s).cfg = s.cfg :=
  discardChain_keeps (·.cfg) (fun _ => rfl) (fun _ _ => by simp) n c s
@[simp] theorem discardChain_st (n : Nat) (c : Bool) (s : State) : (discardChain n c s).st = s.st :=
  discardChain_keeps (·.st) (fun _ => rfl) (fun _ _ => by simp) n c s
@[simp] theorem discardChain_busy (n : Nat) (c : Bool) (s : State) : (discardChain n c s).busy = s.busy :=
  discardChain_keeps (·.busy) (fun _ => rfl) (fun _ _ => by simp) n c s
@[simp] theorem discardChain_cur (n : Nat) (c : Bool) (s : State) : (discardChain n c s).cur = s.cur :=
  discardChain_keeps (·.cur) (fun _ => rfl) (fun _ _ => by simp) n c s
@[simp] theorem discardChain_idx (n : Nat) (c : Bool) (s : State) : (discardChain n c s).idx = s.idx :=
  discardChain_keeps (·.idx) (fun _ => rfl) (fun _ _ => by simp) n c s
@[simp] theorem discardChain_busOut (n : Nat) (c : Bool) (s : State) : (discardChain n c s).busOut = s.busOut :=
  discardChain_keeps (·.busOut) (fun _ => rfl) (fun _ _ => by simp) n c s
@[simp] theorem discardChain_qslot (n : Nat) (c : Bool) (s : State) : (discardChain n c s).qslot = s.qslot :=
  discardChain_keeps (·.qslot) (fun _ => rfl) (fun _ _ => by simp) n c s
@[simp] theorem discardChain_fine (n : Nat) (c : Bool) (s : State) : (discardChain n c s).fine = s.fine :=
  discardChain_keeps (·.fine) (fun _ => rfl) (fun _ _ => by simp) n c s
@[simp] theorem discardChain_coarseMs (n : Nat) (c : Bool) (s : State) : (discardChain n c s).coarseMs = s.coarseMs :=
  discardChain_keeps (·.coarseMs) (fun _ => rfl) (fun _ _ => by simp) n c s
@[simp] theorem discardChain_lastMs (n : Nat) (c : Bool) (s : State) : (discardChain n c s).lastMs = s.lastMs :=
  discardChain_keeps (·.lastMs) (fun _ => rfl) (fun _ _ => by simp) n c s
@[simp] theorem discardChain_lastUs (n : Nat) (c : Bool) (s : State) : (discardChain n c s).lastUs = s.lastUs :=
  discardChain_keeps (·.lastUs) (fun _ => rfl) (fun _ _ => by simp) n c s
@[simp] theorem discardChain_fast (n : Nat) (c : Bool) (s : State) : (discardChain n c s).fast = s.fast :=
  discardChain_keeps (·.fast) (fun _ => rfl) (fun _ _ => by simp) n c s
@[simp] theorem discardChain_slow (n : Nat) (c : Bool) (s : State) : (discardChain n c s).slow = s.slow :=
  discardChain_keeps (·.slow) (fun _ => rfl) (fun _ _ => by simp) n c s
@[simp] theorem discardChain_ntf (n : Nat) (c : Bool) (s : State) : (discardChain n c s).ntf = s.ntf :=
  discardChain_keeps (·.ntf) (fun _ => rfl) (fun _ _ => by simp) n c s
@[simp] theorem discardChain_tickDue (n : Nat) (c : Bool) (s : State) : (discardChain n c s).tickDue = s.tickDue :=
  discardChain_keeps (·.tickDue) (fun _ => rfl) (fun _ _ => by simp) n c s
@[simp] theorem discardChain_bgHold (n : Nat) (c : Bool) (s : State) : (discardChain n c s).bgHold = s.bgHold :=
  discardChain_keeps (·.bgHold) (fun _ => rfl) (fun _ _ => by simp) n c s
@[simp] theorem discardChain_hHold (n : Nat) (c : Bool) (s : State) : (discardChain n c s).hHold = s.hHold :=
  discardChain_keeps (·.hHold) (fun _ => rfl) (fun _ _ => by simp) n c s
@[simp] theorem discardChain_fault (n : Nat) (c : Bool) (s : State) : (discardChain n c s).fault = s.fault :=
  discardChain_keeps (·.fault) (fun _ => rfl) (fun _ _ => by simp) n c s
@[simp] theorem discardChain_busLog (n : Nat) (c : Bool) (s : State) : (discardChain n c s).busLog = s.busLog :=
  discardChain_keeps (·.busLog) (fun _ => rfl) (fun _ _ => by simp) n c s
@[simp] theorem discardChain_dmem (n : Nat) (c : Bool) (s : State) : (discardChain n c s).dmem = s.dmem :=
  discardChain_keeps (·.dmem) (fun _ => rfl) (fun _ _ => by simp) n c s
@[simp] theorem discardChain_port (n : Nat) (c : Bool) (s : State) : (discardChain n c s).port = s.port :=
  discardChain_keeps (·.port) (fun _ => rfl) (fun _ _ => by simp) n c s
@[simp] theorem discardChain_responses (n : Nat) (c : Bool) (s : State) : (discardChain n c s).responses = s.responses :=
  discardChain_keeps (·.responses) (fun _ => rfl) (fun _ _ => by simp) n c s
@[simp] theorem discardChain_agenda (n : Nat) (c : Bool) (s : State) : (discardChain n c s).agenda = s.agenda :=
  discardChain_keeps (·.agenda) (fun _ => rfl) (fun _ _ => by simp) n c s
@[simp] theorem discardChain_picks (n : Nat) (c : Bool) (s : State) : (discardChain n c s).picks = s.picks :=
  discardChain_keeps (·.picks) (fun _ => rfl) (fun _ _ => by simp) n c s
@[simp] theorem discardChain_draws (n : Nat) (c : Bool) (s : State) : (discardChain n c s).draws = s.draws :=
  discardChain_keeps (·.draws) (fun _ => rfl) (fun _ _ => by simp) n c s

theorem hasRecord_congr {s t : State} (hp : t.pool.length = s.pool.length) (hc : t.caller.length = s.caller.length)
    (h : Handle) : HasRecord t h ↔ HasRecord s h := by
  simp [HasRecord, hp, hc]

@[simp] theorem release_pool_length (s : State) (h : Handle) : (release s h).pool.length = s.pool.length := by
  unfold release; split <;> simp

@[simp] theorem release_caller_length (s : State) (h : Handle) : (release s h).caller.length = s.caller.length := by
  unfold release; split <;> simp

@[simp] theorem release_alloc_length (s : State) (h : Handle) : (release s h).alloc.length = s.alloc.length := by
  unfold release; split <;> simp

/-- Release changes no record but in QUEUED (rule R142). -/
theorem recAt_release (s : State) (h k : Handle) (hr : HasRecord s h) :
    recAt (release s h) k = if k = h then { recAt s k with queued := false } else recAt s k := by
  split
  · rename_i e; subst e; exact recAt_release_same s k hr
  · rename_i e; exact recAt_release_other s h k e

/-- Where the discard loop stops: `chain` are the entries it pops, `rest` those it leaves (rule R192). -/
def DiscardSplit (s : State) : Bool → List Handle → List Handle → Prop
  | false, chain, _ => chain = []
  | true, [], rest => rest = []
  | true, k :: chain, rest => DiscardSplit s (recAt s k).chain chain rest

theorem DiscardSplit.congr {s t : State} (h : ∀ k, (recAt t k).chain = (recAt s k).chain) :
    ∀ (c : Bool) (chain rest : List Handle), DiscardSplit t c chain rest → DiscardSplit s c chain rest
  | false, [], _, _ => rfl
  | false, _ :: _, _, hd => by simp [DiscardSplit] at hd
  | true, [], _, hd => hd
  | true, k :: chain, rest, hd => by
    have := DiscardSplit.congr h _ chain rest hd
    rwa [h] at this

/-- All that the discard loop does: it pops the entries of the chain and releases each of them (rule R192). -/
theorem discardChain_spec : ∀ (n : Nat) (c : Bool) (s : State), n = s.qCount → s.qRd < s.cfg.queueCap →
    (∀ k ∈ liveEntries s, HasRecord s k) → (liveEntries s).Nodup →
    ∃ chain rest, liveEntries s = chain ++ rest ∧ liveEntries (discardChain n c s) = rest ∧
      DiscardSplit s c chain rest ∧
      (∀ k, recAt (discardChain n c s) k =
        if k ∈ chain then { recAt s k with queued := false } else recAt s k) ∧
      (discardChain n c s).qRd < s.cfg.queueCap
  | 0, c, s, hn, hr, _, _ => by
    have hl : liveEntries s = [] := List.eq_nil_of_length_eq_zero (by simp [hn])
    refine ⟨[], [], by simp [hl], by simp [discardChain, hl], ?_, fun k => by simp [discardChain], hr⟩
    cases c <;> rfl
  | n + 1, c, s, hn, hr, hrec, hnd => by
    unfold discardChain
    cases c with
    | false => exact ⟨[], liveEntries s, rfl, by simp, rfl, fun k => by simp, by simpa using hr⟩
    | true =>
      have hpos : 0 < s.qCount := by omega
      simp only [Bool.true_and, hpos, decide_true, if_true]
      have hlive := liveEntries_qPop s hpos hr
      have hq : HasRecord s (qOldest s) := hrec _ (by simp [hlive])
      have hq' : HasRecord (qPop s) (qOldest s) := (hasRecord_congr rfl rfl _).mpr hq
      have hl1 : liveEntries (release (qPop s) (qOldest s)) = liveEntries (qPop s) :=
        liveEntries_congr (by simp) (by simp) (by simp) (by simp)
      have hrp : ∀ k, recAt (qPop s) k = recAt s k := recAt_congr rfl rfl rfl
      have hr1 : ∀ k, recAt (release (qPop s) (qOldest s)) k =
          if k = qOldest s then { recAt s k with queued := false } else recAt s k := by
        intro k; rw [recAt_release _ _ _ hq', hrp]
      rw [hlive] at hnd hrec
      have hrd : (release (qPop s) (qOldest s)).qRd < (release (qPop s) (qOldest s)).cfg.queueCap := by
        simpa using Nat.mod_lt _ (by omega)
      obtain ⟨chain, rest, h1, h2, h3, h4, h5⟩ :=
        discardChain_spec n (recAt (qPop s) (qOldest s)).chain (release (qPop s) (qOldest s)) (by simp [← hn])
          hrd
          (fun k hk => (hasRecord_congr (by simp) (by simp) k).mpr (hrec k (by rw [hl1] at hk; simp [hk])))
          (by rw [hl1]; exact (List.nodup_cons.mp hnd).2)
      rw [hl1] at h1
      refine ⟨qOldest s :: chain, rest, by rw [hlive, h1]; rfl, h2, ?_, ?_, by simpa using h5⟩
      · simp only [DiscardSplit]
        rw [← hrp]
        refine DiscardSplit.congr (fun k => ?_) _ _ _ h3
        rw [hr1]; split <;> rfl
      · intro k
        rw [h4, hr1]
        have hnot : qOldest s ∉ chain := by
          have := (List.nodup_cons.mp hnd).1
          rw [h1] at this
          exact fun hm => this (List.mem_append_left _ hm)
        by_cases hk : k = qOldest s
        · simp [hk, hnot]
        · simp [hk]

end Sys2Proof.Machine
end

