-- ==== Sys2Proof/Laws/Arms.lean ====
section
/-! SUPPORT. What each arm of the engine does, case by case (43_engine.md rules R180 to R194). -/

namespace Sys2Proof.Machine

/-! ### Records over the engine's updates -/

theorem recAt_setOutcome_same (h : Handle) (w : BitVec 16) (c : Byte) (s : State) (hr : HasRecord s h) :
    recAt (setOutcome h w c s) h = { recAt s h with status := w, hwCode := c } := recAt_setRec_same s h _ hr

theorem recAt_setOutcome_other (h k : Handle) (w : BitVec 16) (c : Byte) (s : State) (hk : k ≠ h) :
    recAt (setOutcome h w c s) k = recAt s k := recAt_setRec_other s h k _ hk

theorem recAt_stopIfAsked (h k : Handle) (s : State) : recAt (stopIfAsked h s) k = recAt s k :=
  recAt_congr (by simp) (by simp) (by simp) k

/-- STOP goes out if SEND_STOP asks for it (rule R187). -/
theorem stopIfAsked_log (h : Handle) (s : State) :
    (stopIfAsked h s).busLog = s.busLog ++ if (recAt s h).sendStop then [.stop] else [] := by
  unfold stopIfAsked
  split <;> simp

theorem stopIfAsked_busOut (h : Handle) (s : State) : (stopIfAsked h s).busOut = s.busOut := by
  unfold stopIfAsked
  split <;> simp [outstandingAfter]

/-! ### The IDLE arm (rule R180) -/

theorem idleArm_empty {s : State} (h : s.qCount = 0) : idleArm s = { s with busy := false } := by
  unfold idleArm
  rw [if_pos h]

theorem idleArm_pops {s : State} (h : s.qCount ≠ 0) : idleArm s =
    { busCmd .start { qPop s with cur := some (qOldest s), idx := 0, busy := true } with st := .start } := by
  unfold idleArm
  rw [if_neg h]

/-- The IDLE arm changes no record. -/
theorem recAt_idleArm (s : State) (k : Handle) : recAt (idleArm s) k = recAt s k := by
  unfold idleArm
  split <;> exact recAt_congr rfl rfl rfl k

theorem liveEntries_of_qCount_zero {s : State} (h : s.qCount = 0) : liveEntries s = [] :=
  List.eq_nil_of_length_eq_zero (by simp [h])

/-- With no current record, the IDLE arm owns what was queued: the first entry becomes current (rules R161, R180). -/
theorem owned_idleArm {s : State} (hc : s.cur = none) (hr : s.qRd < s.cfg.queueCap) :
    owned (idleArm s) = liveEntries s := by
  by_cases h : s.qCount = 0
  · rw [idleArm_empty h]
    simp only [owned, hc, Option.toList_none, List.nil_append]
    exact liveEntries_congr rfl rfl rfl rfl
  · rw [idleArm_pops h, liveEntries_qPop s (Nat.pos_of_ne_zero h) hr]
    simp only [owned, busCmd_cur, Option.toList_some, List.singleton_append, List.cons.injEq, true_and]
    exact liveEntries_congr rfl rfl rfl rfl

/-! ### The DATA_SEND arm (rule R184) -/

theorem dataSendArm_done {h : Handle} {s : State} (hi : ¬ s.idx.toNat < (recAt s h).byteCount.toNat) :
    dataSendArm h s = .next (stopArm h { s with st := .stop }) := by
  unfold dataSendArm
  rw [if_neg hi]

theorem dataSendArm_read {h : Handle} {s : State} (hi : s.idx.toNat < (recAt s h).byteCount.toNat)
    (hd : (recAt s h).dir = .read) :
    dataSendArm h s = .next { busCmd (.rx (moreBytesFollow s h)) s with st := .dataCheck } := by
  unfold dataSendArm
  rw [if_pos hi, hd]

/-- A write's next byte goes out, from a buffer that fits. -/
theorem dataSendArm_write {h : Handle} {s : State} (hi : s.idx.toNat < (recAt s h).byteCount.toNat)
    (hd : (recAt s h).dir = .write) (hf : BufferFits s.cfg (recAt s h))
    (hl : (recAt s h).inl.length = s.cfg.inlineBytes) :
    ∃ b, withBufRead s (recAt s h) s.idx.toNat (fun b => { busCmd (.tx b) s with st := .dataCheck }) =
        .next { busCmd (.tx b) s with st := .dataCheck } ∧
      dataSendArm h s = .next { busCmd (.tx b) s with st := .dataCheck } := by
  obtain ⟨b, hb⟩ := withBufRead_ok (s := s) (f := fun b => { busCmd (.tx b) s with st := .dataCheck }) hf hl hi
  refine ⟨b, hb, ?_⟩
  unfold dataSendArm
  rw [if_pos hi, hd]
  exact hb

/-! ### The STOP and ERROR arms (rules R187, R189) -/

theorem stopArm_notify {h : Handle} {s : State} (hc : (recAt s h).chain = false) (hb : (recAt s h).callback ≠ 0) :
    stopArm h s = notify (completionNtf (setOutcome h 0 0 (stopIfAsked h s)) h) (setOutcome h 0 0 (stopIfAsked h s)) := by
  unfold stopArm
  rw [if_pos (by simpa [hc] using hb)]

theorem stopArm_silent {h : Handle} {s : State} (hc : (recAt s h).chain = true ∨ (recAt s h).callback = 0) :
    stopArm h s = idleArm (finishSuccess h (setOutcome h 0 0 (stopIfAsked h s))) := by
  unfold stopArm
  rw [if_neg (by rcases hc with hc | hc <;> simp [hc])]

theorem errorArm_notify {h : Handle} {p : Phase} {c : Byte} {s : State} (hb : (recAt s h).callback ≠ 0) :
    errorArm h p c s = notify (completionNtf (setOutcome h (failureStatus p s.idx) c s) h)
      (busCmd .stop (setOutcome h (failureStatus p s.idx) c s)) := by
  unfold errorArm
  rw [if_pos hb]

theorem errorArm_silent {h : Handle} {p : Phase} {c : Byte} {s : State} (hb : (recAt s h).callback = 0) :
    errorArm h p c s = idleArm (finishError h (busCmd .stop (setOutcome h (failureStatus p s.idx) c s))) := by
  unfold errorArm
  rw [if_neg (by simp [hb])]

/-! ### A bus event, by the state it finds (rules R181, R183, R185, R186, R193) -/

theorem busEventStep_start {s : State} {h : Handle} {e : BusEvent} (hs : s.st = .start) (hc : s.cur = some h) :
    busEventStep e s = startArm h e { s with busOut := none } := by
  simp [busEventStep, engineRun, hs, hc]

theorem busEventStep_addressAck {s : State} {h : Handle} {e : BusEvent} (hs : s.st = .addressAck)
    (hc : s.cur = some h) : busEventStep e s = addressAckArm h e { s with busOut := none } := by
  simp [busEventStep, engineRun, hs, hc]

theorem busEventStep_dataCheck {s : State} {h : Handle} {e : BusEvent} (hs : s.st = .dataCheck)
    (hc : s.cur = some h) : busEventStep e s = dataCheckArm h e { s with busOut := none } := by
  simp [busEventStep, engineRun, hs, hc]

end Sys2Proof.Machine
end

