-- ==== Sys2Proof/Laws/Queue.lean ====
section
/-! SUPPORT. What RESERVE's and SUBMIT's shared loops do to records, ALLOC and the queue. -/

namespace Sys2Proof.Machine

/-! ### RESERVE (rule R140) -/

theorem mem_freeRecords {s : State} {i : Nat} :
    i ∈ freeRecords s ↔ i < s.cfg.poolCap ∧ s.alloc.getD i false = false := by
  simp [freeRecords]

/-- The free records are listed in ascending order. -/
theorem freeRecords_ascending (s : State) : (freeRecords s).Pairwise (· < ·) :=
  List.Pairwise.filter _ List.pairwise_lt_range

/-- A projection that an allocation keeps is kept by RESERVE's loop. -/
theorem allocateAll_keeps {α : Type} (f : State → α) (ha : ∀ s i, f (allocate s i) = f s) :
    ∀ (is : List Nat) (s : State), f (is.foldl allocate s) = f s
  | [], _ => rfl
  | i :: is, s => by rw [List.foldl_cons, allocateAll_keeps f ha is, ha]

@[simp] theorem allocate_pool_length (s : State) (i : Nat) : (allocate s i).pool.length = s.pool.length := by
  simp [allocate]

@[simp] theorem allocate_caller_length (s : State) (i : Nat) : (allocate s i).caller.length = s.caller.length := by
  simp [allocate]

/-- ALLOC after one allocation. -/
theorem allocate_alloc (s : State) (i : Nat) (hi : i < 128) : (allocate s i).alloc = s.alloc.set i true := by
  simp [allocate, handleIndex_poolHandle hi]

/-- The records after one allocation. -/
theorem recAt_allocate (s : State) (i : Nat) (h : Handle) (hi : HasRecord s (poolHandle i)) :
    recAt (allocate s i) h = if h = poolHandle i then { recAt s h with valid := false } else recAt s h := by
  unfold allocate
  rw [recAt_setAlloc]
  split
  · rename_i e; subst e; exact recAt_setRec_same _ _ _ hi
  · rename_i e; exact recAt_setRec_other _ _ _ _ e

/-- The records after RESERVE's loop: VALID is 0 on those handed out, nothing else changes. -/
theorem recAt_allocateAll : ∀ (is : List Nat) (s : State) (h : Handle), (∀ i ∈ is, HasRecord s (poolHandle i)) →
    recAt (is.foldl allocate s) h =
      if h ∈ is.map poolHandle then { recAt s h with valid := false } else recAt s h
  | [], _, _, _ => by simp
  | i :: is, s, h, hr => by
    rw [List.foldl_cons, recAt_allocateAll is (allocate s i) h
      (fun j hj => (hasRecord_congr (by simp) (by simp) _).mpr (hr j (by simp [hj]))),
      recAt_allocate s i h (hr i (by simp))]
    by_cases h1 : h = poolHandle i <;> by_cases h2 : h ∈ is.map poolHandle <;> simp [h1, h2]

/-- ALLOC after RESERVE's loop: 1 on the records handed out, else as before. -/
theorem alloc_allocateAll : ∀ (is : List Nat) (s : State) (j : Nat), (∀ i ∈ is, i < 128 ∧ i < s.alloc.length) →
    (is.foldl allocate s).alloc[j]? = if j ∈ is then some true else s.alloc[j]?
  | [], _, _, _ => by simp
  | i :: is, s, j, hr => by
    have hi := hr i (by simp)
    rw [List.foldl_cons, alloc_allocateAll is (allocate s i) j
      (fun k hk => by rw [allocate_alloc s i hi.1, List.length_set]; exact hr k (by simp [hk])),
      allocate_alloc s i hi.1]
    by_cases h2 : j ∈ is
    · simp [h2]
    · by_cases h1 : j = i
      · subst h1; simp [h2, hi.2]
      · simp [h1, h2, List.getElem?_set_ne (Ne.symm h1)]

/-! ### SUBMIT (rule R162) -/

/-- A projection that an enqueue keeps is kept by SUBMIT's loop. -/
theorem enqueueAll_keeps {α : Type} (f : State → α) (he : ∀ c h s, f (enqueue c h s) = f s) :
    ∀ (hs : List Handle) (s : State), f (enqueueAll hs s) = f s
  | [], _ => rfl
  | h :: hs, s => by unfold enqueueAll; rw [enqueueAll_keeps f he hs, he]

@[simp] theorem enqueueAll_cfg (hs : List Handle) (s : State) : (enqueueAll hs s).cfg = s.cfg :=
  enqueueAll_keeps (·.cfg) (fun _ _ _ => by simp) hs s
@[simp] theorem enqueueAll_st (hs : List Handle) (s : State) : (enqueueAll hs s).st = s.st :=
  enqueueAll_keeps (·.st) (fun _ _ _ => by simp) hs s
@[simp] theorem enqueueAll_busy (hs : List Handle) (s : State) : (enqueueAll hs s).busy = s.busy :=
  enqueueAll_keeps (·.busy) (fun _ _ _ => by simp) hs s
@[simp] theorem enqueueAll_cur (hs : List Handle) (s : State) : (enqueueAll hs s).cur = s.cur :=
  enqueueAll_keeps (·.cur) (fun _ _ _ => by simp) hs s
@[simp] theorem enqueueAll_idx (hs : List Handle) (s : State) : (enqueueAll hs s).idx = s.idx :=
  enqueueAll_keeps (·.idx) (fun _ _ _ => by simp) hs s
@[simp] theorem enqueueAll_busOut (hs : List Handle) (s : State) : (enqueueAll hs s).busOut = s.busOut :=
  enqueueAll_keeps (·.busOut) (fun _ _ _ => by simp) hs s
@[simp] theorem enqueueAll_qRd (hs : List Handle) (s : State) : (enqueueAll hs s).qRd = s.qRd :=
  enqueueAll_keeps (·.qRd) (fun _ _ _ => by simp) hs s
@[simp] theorem enqueueAll_alloc (hs : List Handle) (s : State) : (enqueueAll hs s).alloc = s.alloc :=
  enqueueAll_keeps (·.alloc) (fun _ _ _ => by simp) hs s
@[simp] theorem enqueueAll_fine (hs : List Handle) (s : State) : (enqueueAll hs s).fine = s.fine :=
  enqueueAll_keeps (·.fine) (fun _ _ _ => by simp) hs s
@[simp] theorem enqueueAll_coarseMs (hs : List Handle) (s : State) : (enqueueAll hs s).coarseMs = s.coarseMs :=
  enqueueAll_keeps (·.coarseMs) (fun _ _ _ => by simp) hs s
@[simp] theorem enqueueAll_lastMs (hs : List Handle) (s : State) : (enqueueAll hs s).lastMs = s.lastMs :=
  enqueueAll_keeps (·.lastMs) (fun _ _ _ => by simp) hs s
@[simp] theorem enqueueAll_lastUs (hs : List Handle) (s : State) : (enqueueAll hs s).lastUs = s.lastUs :=
  enqueueAll_keeps (·.lastUs) (fun _ _ _ => by simp) hs s
@[simp] theorem enqueueAll_fast (hs : List Handle) (s : State) : (enqueueAll hs s).fast = s.fast :=
  enqueueAll_keeps (·.fast) (fun _ _ _ => by simp) hs s
@[simp] theorem enqueueAll_slow (hs : List Handle) (s : State) : (enqueueAll hs s).slow = s.slow :=
  enqueueAll_keeps (·.slow) (fun _ _ _ => by simp) hs s
@[simp] theorem enqueueAll_ntf (hs : List Handle) (s : State) : (enqueueAll hs s).ntf = s.ntf :=
  enqueueAll_keeps (·.ntf) (fun _ _ _ => by simp) hs s
@[simp] theorem enqueueAll_tickDue (hs : List Handle) (s : State) : (enqueueAll hs s).tickDue = s.tickDue :=
  enqueueAll_keeps (·.tickDue) (fun _ _ _ => by simp) hs s
@[simp] theorem enqueueAll_bgHold (hs : List Handle) (s : State) : (enqueueAll hs s).bgHold = s.bgHold :=
  enqueueAll_keeps (·.bgHold) (fun _ _ _ => by simp) hs s
@[simp] theorem enqueueAll_hHold (hs : List Handle) (s : State) : (enqueueAll hs s).hHold = s.hHold :=
  enqueueAll_keeps (·.hHold) (fun _ _ _ => by simp) hs s
@[simp] theorem enqueueAll_fault (hs : List Handle) (s : State) : (enqueueAll hs s).fault = s.fault :=
  enqueueAll_keeps (·.fault) (fun _ _ _ => by simp) hs s
@[simp] theorem enqueueAll_busLog (hs : List Handle) (s : State) : (enqueueAll hs s).busLog = s.busLog :=
  enqueueAll_keeps (·.busLog) (fun _ _ _ => by simp) hs s
@[simp] theorem enqueueAll_dmem (hs : List Handle) (s : State) : (enqueueAll hs s).dmem = s.dmem :=
  enqueueAll_keeps (·.dmem) (fun _ _ _ => by simp) hs s
@[simp] theorem enqueueAll_port (hs : List Handle) (s : State) : (enqueueAll hs s).port = s.port :=
  enqueueAll_keeps (·.port) (fun _ _ _ => by simp) hs s
@[simp] theorem enqueueAll_responses (hs : List Handle) (s : State) : (enqueueAll hs s).responses = s.responses :=
  enqueueAll_keeps (·.responses) (fun _ _ _ => by simp) hs s
@[simp] theorem enqueueAll_agenda (hs : List Handle) (s : State) : (enqueueAll hs s).agenda = s.agenda :=
  enqueueAll_keeps (·.agenda) (fun _ _ _ => by simp) hs s
@[simp] theorem enqueueAll_picks (hs : List Handle) (s : State) : (enqueueAll hs s).picks = s.picks :=
  enqueueAll_keeps (·.picks) (fun _ _ _ => by simp) hs s
@[simp] theorem enqueueAll_draws (hs : List Handle) (s : State) : (enqueueAll hs s).draws = s.draws :=
  enqueueAll_keeps (·.draws) (fun _ _ _ => by simp) hs s

theorem recAt_enqueue_same (c : Bool) (h : Handle) (s : State) (hr : HasRecord s h) :
    recAt (enqueue c h s) h = { recAt s h with chain := c, queued := true } := by
  exact (recAt_congr rfl rfl rfl _).trans (recAt_setRec_same s h _ hr)

theorem recAt_enqueue_other (c : Bool) (h k : Handle) (s : State) (hk : k ≠ h) :
    recAt (enqueue c h s) k = recAt s k := by
  exact (recAt_congr rfl rfl rfl _).trans (recAt_setRec_other s h k _ hk)

theorem enqueue_hasRecord (c : Bool) (h k : Handle) (s : State) : HasRecord (enqueue c h s) k ↔ HasRecord s k := by
  unfold enqueue
  exact hasRecord_congr (by simp) (by simp) k

theorem liveEntries_enqueue (c : Bool) (h : Handle) (s : State) (hl : s.qslot.length = s.cfg.queueCap)
    (hc : s.qCount < s.cfg.queueCap) (hr : s.qRd < s.cfg.queueCap) :
    liveEntries (enqueue c h s) = liveEntries s ++ [h] := by
  unfold enqueue
  rw [liveEntries_qPush _ _ (by simpa using hl) (by simpa using hc) (by simpa using hr)]
  rw [liveEntries_congr (s := s) (by simp) (by simp) (by simp) (by simp)]

/-- The pushed handles are the newest live entries, in submission order (rule R162). -/
theorem liveEntries_enqueueAll : ∀ (hs : List Handle) (s : State), s.qslot.length = s.cfg.queueCap →
    s.qCount + hs.length ≤ s.cfg.queueCap → s.qRd < s.cfg.queueCap →
    liveEntries (enqueueAll hs s) = liveEntries s ++ hs ∧ (enqueueAll hs s).qCount = s.qCount + hs.length ∧
      (enqueueAll hs s).qslot.length = s.cfg.queueCap
  | [], s, hl, _, _ => by simp [enqueueAll, hl]
  | h :: hs, s, hl, hc, hr => by
    simp only [List.length_cons] at hc
    have hq : (enqueue (!hs.isEmpty) h s).qCount = s.qCount + 1 := by simp [enqueue]
    have hs' : (enqueue (!hs.isEmpty) h s).qslot.length = s.cfg.queueCap := by simp [enqueue, hl]
    obtain ⟨h1, h2, h3⟩ := liveEntries_enqueueAll hs (enqueue (!hs.isEmpty) h s) (by simpa using hs')
      (by simp only [enqueue_cfg, hq]; omega) (by simpa using hr)
    refine ⟨?_, ?_, ?_⟩
    · rw [enqueueAll, h1, liveEntries_enqueue _ _ _ hl (by omega) hr]; simp
    · rw [enqueueAll, h2, hq]; simp only [List.length_cons]; omega
    · rw [enqueueAll, h3, enqueue_cfg]

/-- The records that are not submitted keep every field. -/
theorem recAt_enqueueAll_other : ∀ (hs : List Handle) (s : State) (k : Handle), k ∉ hs →
    recAt (enqueueAll hs s) k = recAt s k
  | [], _, _, _ => rfl
  | h :: hs, s, k, hk => by
    simp only [List.mem_cons, not_or] at hk
    rw [enqueueAll, recAt_enqueueAll_other hs _ k hk.2, recAt_enqueue_other _ _ _ _ hk.1]

/-- The submitted records: CHAIN by position, QUEUED = 1, nothing else (rule R162). -/
theorem recAt_enqueueAll : ∀ (hs : List Handle) (s : State), hs.Nodup → (∀ h ∈ hs, HasRecord s h) →
    ∀ (k : Nat) (h : Handle), hs[k]? = some h →
      recAt (enqueueAll hs s) h = { recAt s h with chain := decide (k + 1 < hs.length), queued := true }
  | [], _, _, _, k, h, hk => by simp at hk
  | g :: hs, s, hnd, hr, k, h, hk => by
    have hn := List.nodup_cons.mp hnd
    cases k with
    | zero =>
      have : g = h := by simpa using hk
      subst this
      rw [enqueueAll, recAt_enqueueAll_other hs _ _ hn.1, recAt_enqueue_same _ _ _ (hr _ (by simp))]
      cases hs <;> simp
    | succ k =>
      have hk' : hs[k]? = some h := by simpa using hk
      have hne : h ≠ g := fun e => hn.1 (e ▸ List.mem_of_getElem? hk')
      rw [enqueueAll, recAt_enqueueAll hs _ hn.2
        (fun x hx => (enqueue_hasRecord _ _ _ _).mpr (hr x (by simp [hx]))) k h hk', recAt_enqueue_other _ _ _ _ hne]
      simp

end Sys2Proof.Machine
end

