-- ==== Sys2Proof/Laws/Scheduler.lean ====
section
/-! SUPPORT. What the shared operations on the callback tables and on the due set do. -/

namespace Sys2Proof.Machine

/-! ### Tables -/

@[simp] theorem tableOf_setTable_same (s : State) (t : Table) (T : CbTable) : tableOf (setTable s t T) t = T := by
  cases t <;> rfl

theorem tableOf_setTable_other (s : State) (t u : Table) (T : CbTable) (h : u ≠ t) :
    tableOf (setTable s t T) u = tableOf s u := by
  cases t <;> cases u <;> first | rfl | exact absurd rfl h

@[simp] theorem liveCbs_length (T : CbTable) (h : T.count ≤ T.entries.length) : (liveCbs T).length = T.count := by
  simp [liveCbs, h]

/-- A table whose live entries are replaced by as many, the others kept. -/
theorem liveCbs_replace (T : CbTable) (f : CbEntry → CbEntry) (h : T.count ≤ T.entries.length) :
    liveCbs { T with entries := (liveCbs T).map f ++ T.entries.drop T.count } = (liveCbs T).map f := by
  rw [liveCbs, List.take_append_of_le_length (by simp [liveCbs, h])]
  simp [liveCbs, List.take_take]

/-- Every live counter moves in the one step (rule R252). -/
theorem liveCbs_tableTick (T : CbTable) (h : T.count ≤ T.entries.length) :
    liveCbs (tableTick T) = (liveCbs T).map entryTick := liveCbs_replace T entryTick h

/-- CLKINIT's counters (rule R230). -/
theorem liveCbs_restartCounters (T : CbTable) (h : T.count ≤ T.entries.length) :
    liveCbs (restartCounters T) = (liveCbs T).map fun e => { e with ctr := 0 } := liveCbs_replace T _ h

theorem tableTick_length (T : CbTable) (h : T.count ≤ T.entries.length) :
    (tableTick T).entries.length = T.entries.length := by
  simp [tableTick, liveCbs, h]

theorem restartCounters_length (T : CbTable) (h : T.count ≤ T.entries.length) :
    (restartCounters T).entries.length = T.entries.length := by
  simp [restartCounters, liveCbs, h]

/-- An entry is in order after a tick (rules R30, R38 item 6). -/
theorem entryTick_inOrder (e : CbEntry) :
    (entryTick e).ctr.toNat ≤ (entryTick e).div.toNat := by
  unfold entryTick entryDue
  split
  · simp
  · rename_i hd
    have hd : ¬ e.div.toNat ≤ e.ctr.toNat := by simpa using hd
    have := e.div.isLt
    have h1 : (1#16).toNat = 1 := rfl
    show (e.ctr + 1#16).toNat ≤ e.div.toNat
    rw [BitVec.toNat_add, h1]
    omega

/-- The appended entry is the last live one (rule R250). -/
theorem liveCbs_tableAppend (T : CbTable) (cb v : BitVec 16) (h : T.count < T.entries.length) :
    liveCbs (tableAppend T cb v) = liveCbs T ++ [⟨cb, 0, v⟩] := by
  simp only [liveCbs, tableAppend]
  rw [List.take_add_one, List.take_set_of_le (Nat.le_refl _)]
  simp [h]

/-- The removed entry is gone and the later ones moved down (rule R251). -/
theorem liveCbs_tableRemove (T : CbTable) (k : Nat) (h : T.count ≤ T.entries.length) (hk : k < T.count) :
    liveCbs (tableRemove T k) = (liveCbs T).take k ++ (liveCbs T).drop (k + 1) := by
  have hl : (liveCbs T).length = T.count := liveCbs_length T h
  have : ((liveCbs T).take k ++ (liveCbs T).drop (k + 1)).length = T.count - 1 := by
    rw [List.length_append, List.length_take, List.length_drop, hl]; omega
  rw [liveCbs, tableRemove]
  simp only
  rw [List.take_append_of_le_length (by omega), List.take_of_length_le (by omega)]

theorem tableRemove_length (T : CbTable) (k : Nat) (h : T.count ≤ T.entries.length) (hk : k < T.count) :
    (tableRemove T k).entries.length = T.entries.length := by
  have hl : (liveCbs T).length = T.count := liveCbs_length T h
  simp only [tableRemove, List.length_append, List.length_take, List.length_drop, hl]
  omega

/-! ### Due sets -/

/-- The due triples among entries (rule R252). -/
theorem mem_dueFrom {t : Table} {x : DueEntry} : ∀ {es : List CbEntry} {i : Nat},
    x ∈ dueFrom t i es ↔
      ∃ k e, es[k]? = some e ∧ entryDue e = true ∧ x = ⟨t, BitVec.ofNat 8 (i + k), e.cb⟩
  | [], i => by simp [dueFrom]
  | e :: es, i => by
    have ih := @mem_dueFrom t x es (i + 1)
    have hshift : (∃ k e', es[k]? = some e' ∧ entryDue e' = true ∧ x = ⟨t, BitVec.ofNat 8 (i + 1 + k), e'.cb⟩) ↔
        ∃ k e', (e :: es)[k + 1]? = some e' ∧ entryDue e' = true ∧ x = ⟨t, BitVec.ofNat 8 (i + (k + 1)), e'.cb⟩ := by
      simp only [List.getElem?_cons_succ, Nat.add_assoc, Nat.add_comm 1]
    unfold dueFrom
    constructor
    · intro hx
      split at hx
      · rename_i hd
        rcases List.mem_cons.mp hx with rfl | hx
        · exact ⟨0, e, rfl, hd, rfl⟩
        · obtain ⟨k, e', h1⟩ := hshift.mp (ih.mp hx); exact ⟨k + 1, e', h1⟩
      · obtain ⟨k, e', h1⟩ := hshift.mp (ih.mp hx); exact ⟨k + 1, e', h1⟩
    · rintro ⟨k, e', h1, h2, h3⟩
      cases k with
      | zero =>
        have : e = e' := by simpa using h1
        subst this
        rw [if_pos h2]
        exact List.mem_cons.mpr (.inl h3)
      | succ k =>
        have := ih.mpr (hshift.mpr ⟨k, e', h1, h2, h3⟩)
        split
        · exact List.mem_cons_of_mem _ this
        · exact this

/-- A draw is in range. -/
theorem drawIndex_lt (s : State) {n : Nat} (h : 0 < n) : drawIndex s n < n := by
  unfold drawIndex
  split <;> exact Nat.mod_lt _ h

/-- All that delivering from a due set does (rules R252, R254): it ends the dispatch, or notifies one element and
leaves the others; nothing else changes but the draws. -/
theorem deliverDue_spec (due : List DueEntry) (s : State) :
    (due = [] ∧ deliverDue due s = { s with ntf := .none, tickDue := [] }) ∨
    ∃ x rest picks draws, (x :: rest).Perm due ∧
      deliverDue due s = { s with ntf := tickNtf x, tickDue := rest, picks := picks, draws := draws } := by
  match due with
  | [] => exact .inl ⟨rfl, rfl⟩
  | [x] => exact .inr ⟨x, [], s.picks, s.draws, .refl _, rfl⟩
  | x :: y :: more =>
    have hlt : drawIndex s (more.length + 2) < (x :: y :: more).length := drawIndex_lt s (by simp)
    refine .inr ⟨(x :: y :: more)[drawIndex s (more.length + 2)], (x :: y :: more).eraseIdx (drawIndex s (more.length + 2)),
      (afterDraw s).picks, (afterDraw s).draws, ?_, ?_⟩
    · exact List.getElem_cons_eraseIdx_perm hlt
    · have hget : (x :: y :: more).getD (drawIndex s (more.length + 2)) x =
          (x :: y :: more)[drawIndex s (more.length + 2)] := by
        rw [List.getD, List.getElem?_eq_getElem hlt, Option.getD_some]
      have h1 : deliverDue (x :: y :: more) s =
          notify (tickNtf ((x :: y :: more).getD (drawIndex s (more.length + 2)) x))
            { afterDraw s with tickDue := (x :: y :: more).eraseIdx (drawIndex s (more.length + 2)) } := rfl
      rw [h1, hget]
      unfold afterDraw
      split <;> rfl

end Sys2Proof.Machine
end

