-- ==== Sys2Proof/Laws/Commands.lean ====
section
/-! SUPPORT. One inversion lemma per command and one for the step: everything that a next state can be. -/

namespace Sys2Proof.Machine

/-! ### The step -/

/-- All that a step can do: wait with nothing proposed, or take the proposed action. -/
theorem step_next {s t : State} (h : step s = .next t) :
    s.fault = none ∧ ((s.agenda = [] ∧ t = s) ∨
      ∃ a more, s.agenda = a :: more ∧ enabled s a = true ∧ act a { s with agenda := more } = .next t) := by
  unfold step at h
  split at h
  · cases h
  · rename_i hf
    refine ⟨hf, ?_⟩
    split at h
    · rename_i ha
      exact .inl ⟨ha, (Host.Outcome.next.inj h).symm⟩
    · rename_i a more ha
      split at h
      · rename_i he
        exact .inr ⟨a, more, ha, he, h⟩
      · cases h

/-- An enabled action is taken. -/
theorem step_eq_act {s : State} {a : Action} {more : List Action} (hf : s.fault = none) (ha : s.agenda = a :: more)
    (he : enabled s a = true) : step s = act a { s with agenda := more } := by
  unfold step
  rw [hf, ha]
  exact if_pos he

/-- An action that is not enabled is refused. -/
theorem step_eq_refused {s : State} {a : Action} {more : List Action} (hf : s.fault = none) (ha : s.agenda = a :: more)
    (he : enabled s a = false) : step s = .refused (.notEnabled a) := by
  unfold step
  rw [hf, ha]
  exact if_neg (by simp [he])

/-- A command's issue: the decoded command runs, or an illegal encoding answers ILLEGAL. -/
theorem issueCommand_next {s t : State} (h : issueCommand s = .next t) :
    (∃ i rest, decode s.port = .instr i rest ∧ exec i { s with port := rest } = .next t) ∨
    (∃ e rest, decode s.port = .illegal e rest ∧
      t = deliver (contextOf s) .illegal [] { s with port := rest }) := by
  unfold issueCommand at h
  split at h
  · rename_i i rest hd
    exact .inl ⟨i, rest, hd, h⟩
  · rename_i e rest hd
    exact .inr ⟨e, rest, hd, respond_next h⟩
  · cases h

/-! ### Record commands -/

theorem execSetup_next {h : Handle} {a : BitVec 7} {d : Dir} {stop : Bool} {c : BitVec 8} {s t : State}
    (hx : execSetup h a d stop c s = .next t) :
    (¬ InRange s h ∧ t = deliver (contextOf s) .illegal [] s) ∨
    (InRange s h ∧ ∃ r, hostWritableFault s h = some r ∧ t = { s with fault := some r }) ∨
    (InRange s h ∧ hostWritableFault s h = none ∧
      t = deliver (contextOf s) .ok [] (setRec s h (setupRecord (recAt s h) a d stop c))) := by
  unfold execSetup at hx
  split at hx
  · rename_i hr
    exact .inl ⟨by simpa using hr, respond_next hx⟩
  · rename_i hr
    have hr : InRange s h := by simpa using hr
    split at hx
    · rename_i r hf
      exact .inr (.inl ⟨hr, r, hf, raiseFault_next hx⟩)
    · rename_i hf
      exact .inr (.inr ⟨hr, hf, respond_next hx⟩)

theorem execWrrec_next {h : Handle} {f : RecField} {i : BitVec 8} {v : Word} {s t : State}
    (hx : execWrrec h f i v s = .next t) :
    (¬ (InRange s h ∧ fieldWriteLegal s.cfg f i v = true) ∧ t = deliver (contextOf s) .illegal [] s) ∨
    (InRange s h ∧ fieldWriteLegal s.cfg f i v = true ∧
      ∃ r, hostWritableFault s h = some r ∧ t = { s with fault := some r }) ∨
    (InRange s h ∧ fieldWriteLegal s.cfg f i v = true ∧ hostWritableFault s h = none ∧
      t = deliver (contextOf s) .ok [] (setRec s h (writeField (recAt s h) f i v))) := by
  unfold execWrrec at hx
  split at hx
  · rename_i hr
    refine .inl ⟨fun hn => ?_, respond_next hx⟩
    simp [hn.1, hn.2] at hr
  · rename_i hr
    have hr : InRange s h ∧ fieldWriteLegal s.cfg f i v = true := by simpa [InRange] using hr
    split at hx
    · rename_i r hf
      exact .inr (.inl ⟨hr.1, hr.2, r, hf, raiseFault_next hx⟩)
    · rename_i hf
      exact .inr (.inr ⟨hr.1, hr.2, hf, respond_next hx⟩)

theorem execRdrec_next {h : Handle} {f : RecField} {i : BitVec 8} {s t : State} (hx : execRdrec h f i s = .next t) :
    (¬ (InRange s h ∧ fieldReadable s.cfg f i = true) ∧ t = deliver (contextOf s) .illegal [] s) ∨
    (InRange s h ∧ fieldReadable s.cfg f i = true ∧ t = deliver (contextOf s) .ok [readField s h f i] s) := by
  unfold execRdrec at hx
  split at hx
  · rename_i hr
    refine .inl ⟨fun hn => ?_, respond_next hx⟩
    simp [hn.1, hn.2] at hr
  · rename_i hr
    have hr : InRange s h ∧ fieldReadable s.cfg f i = true := by simpa [InRange] using hr
    exact .inr ⟨hr.1, hr.2, respond_next hx⟩

/-! ### Pool commands -/

theorem execReserve_next {n : BitVec 8} {s t : State} (hx : execReserve n s = .next t) :
    (poolFree s < n.toNat ∧ t = deliver (contextOf s) .noSpace [] s) ∨
    (n.toNat ≤ poolFree s ∧
      t = deliver (contextOf s) .ok (((freeRecords s).take n.toNat).map fun i => (poolHandle i).setWidth 32)
        (((freeRecords s).take n.toNat).foldl allocate s)) := by
  unfold execReserve at hx
  split at hx
  · rename_i hn
    exact .inl ⟨hn, respond_next hx⟩
  · rename_i hn
    exact .inr ⟨Nat.le_of_not_lt hn, respond_next hx⟩

theorem execFree_next {h : Handle} {s t : State} (hx : execFree h s = .next t) :
    (¬ InRange s h ∧ t = deliver (contextOf s) .illegal [] s) ∨
    (InRange s h ∧ (isPool h = false ∨ allocAt s h = false) ∧ t = deliver (contextOf s) .ok [] s) ∨
    (InRange s h ∧ isPool h = true ∧ allocAt s h = true ∧ (recAt s h).queued = true ∧
      t = { s with fault := some .queuedRecord }) ∨
    (InRange s h ∧ isPool h = true ∧ allocAt s h = true ∧ (recAt s h).queued = false ∧
      t = deliver (contextOf s) .ok [] (setAlloc s h false)) := by
  unfold execFree at hx
  split at hx
  · rename_i hr
    exact .inl ⟨by simpa using hr, respond_next hx⟩
  · rename_i hr
    have hr : InRange s h := by simpa using hr
    split at hx
    · rename_i hp
      exact .inr (.inl ⟨hr, .inl (by simpa using hp), respond_next hx⟩)
    · rename_i hp
      split at hx
      · rename_i ha
        exact .inr (.inl ⟨hr, .inr (by simpa using ha), respond_next hx⟩)
      · rename_i ha
        split at hx
        · rename_i hq
          exact .inr (.inr (.inl ⟨hr, by simpa using hp, by simpa using ha, hq, raiseFault_next hx⟩))
        · rename_i hq
          exact .inr (.inr (.inr ⟨hr, by simpa using hp, by simpa using ha, by simpa using hq, respond_next hx⟩))

/-! ### SUBMIT -/

theorem execSubmit_next {b : Bool} {hs : List Handle} {s t : State} (hx : execSubmit b hs s = .next t) :
    ((∃ h ∈ hs, ¬ InRange s h) ∧ t = deliver (contextOf s) .illegal [] s) ∨
    ((∀ h ∈ hs, InRange s h) ∧ ∃ r, submitFaults s hs = some r ∧ t = { s with fault := some r }) ∨
    ((∀ h ∈ hs, InRange s h) ∧ submitFaults s hs = none ∧ s.cfg.queueCap - s.qCount < hs.length ∧
      t = deliver (contextOf s) .noSpace [] s) ∨
    ((∀ h ∈ hs, InRange s h) ∧ submitFaults s hs = none ∧ hs.length ≤ s.cfg.queueCap - s.qCount ∧
      ∃ u, kick (enqueueAll hs s) = .next u ∧ finishSubmit b u = .next t) := by
  unfold execSubmit at hx
  split at hx
  · rename_i hr
    refine .inl ⟨?_, respond_next hx⟩
    simpa [InRange] using hr
  · rename_i hr
    have hr : ∀ h ∈ hs, InRange s h := by simpa [InRange] using hr
    refine .inr ?_
    split at hx
    · rename_i r hf
      exact .inl ⟨hr, r, hf, raiseFault_next hx⟩
    · rename_i hf
      split at hx
      · rename_i hc
        exact .inr (.inl ⟨hr, hf, hc, respond_next hx⟩)
      · rename_i hc
        exact .inr (.inr ⟨hr, hf, Nat.le_of_not_lt hc, andThen_eq_next hx⟩)

/-- The kick (rule R162): nothing while BUSY = 1, else the IDLE arm. -/
theorem kick_idle {s : State} (h : s.st = .idle) : kick s = .next (if s.busy then s else idleArm s) := by
  unfold kick
  split
  · rfl
  · simp [engineRun, h]

/-- The end of SUBMIT (rule R162): it holds, or it answers OK. -/
theorem finishSubmit_next {b : Bool} {s t : State} (hx : finishSubmit b s = .next t) :
    (b = true ∧ s.busy = true ∧ t = holdContext s) ∨
    (¬ (b = true ∧ s.busy = true) ∧ t = deliver (contextOf s) .ok [] s) := by
  unfold finishSubmit at hx
  split at hx
  · rename_i hb
    have hb : b = true ∧ s.busy = true := by simpa using hb
    exact .inl ⟨hb.1, hb.2, (Host.Outcome.next.inj hx).symm⟩
  · rename_i hb
    exact .inr ⟨by simpa using hb, respond_next hx⟩

/-! ### Scheduler commands -/

theorem execCbreg_next {tb : Table} {v cb : BitVec 16} {s t : State} (hx : execCbreg tb v cb s = .next t) :
    (cb = 0 ∧ t = deliver (contextOf s) .illegal [] s) ∨
    (cb ≠ 0 ∧ inTickHandler s = true ∧ t = { s with fault := some .tableInDispatch }) ∨
    (cb ≠ 0 ∧ inTickHandler s = false ∧ (tableOf s tb).count = tableCap s.cfg tb ∧
      t = deliver (contextOf s) .full [] s) ∨
    (cb ≠ 0 ∧ inTickHandler s = false ∧ (tableOf s tb).count ≠ tableCap s.cfg tb ∧
      t = deliver (contextOf s) .ok [BitVec.ofNat 32 (tableOf s tb).count]
        (setTable s tb (tableAppend (tableOf s tb) cb v))) := by
  unfold execCbreg at hx
  split at hx
  · rename_i h0
    exact .inl ⟨h0, respond_next hx⟩
  · rename_i h0
    split at hx
    · rename_i h1
      exact .inr (.inl ⟨h0, h1, raiseFault_next hx⟩)
    · rename_i h1
      split at hx
      · rename_i h2
        exact .inr (.inr (.inl ⟨h0, by simpa using h1, h2, respond_next hx⟩))
      · rename_i h2
        exact .inr (.inr (.inr ⟨h0, by simpa using h1, h2, respond_next hx⟩))

theorem execCbunreg_next {tb : Table} {cb : BitVec 16} {s t : State} (hx : execCbunreg tb cb s = .next t) :
    (cb = 0 ∧ t = deliver (contextOf s) .illegal [] s) ∨
    (cb ≠ 0 ∧ inTickHandler s = true ∧ t = { s with fault := some .tableInDispatch }) ∨
    (cb ≠ 0 ∧ inTickHandler s = false ∧ findCb (tableOf s tb) cb = none ∧ t = deliver (contextOf s) .ok [] s) ∨
    (cb ≠ 0 ∧ inTickHandler s = false ∧ ∃ k, findCb (tableOf s tb) cb = some k ∧
      t = deliver (contextOf s) .ok [] (setTable s tb (tableRemove (tableOf s tb) k))) := by
  unfold execCbunreg at hx
  split at hx
  · rename_i h0
    exact .inl ⟨h0, respond_next hx⟩
  · rename_i h0
    split at hx
    · rename_i h1
      exact .inr (.inl ⟨h0, h1, raiseFault_next hx⟩)
    · rename_i h1
      split at hx
      · rename_i h2
        exact .inr (.inr (.inl ⟨h0, by simpa using h1, h2, respond_next hx⟩))
      · rename_i k h2
        exact .inr (.inr (.inr ⟨h0, by simpa using h1, k, h2, respond_next hx⟩))

/-! ### RETURN -/

theorem execRet_next {s t : State} (hx : execRet s = .next t) :
    (s.ntf = .none ∧ t = deliver (contextOf s) .illegal [] s) ∨
    (∃ h cb ctx w c u, s.ntf = .txn h cb ctx w c ∧ engineResume s = .next u ∧ t = deliver .handler .ok [] u) ∨
    (∃ tb i cb a, s.ntf = .tick tb i cb a ∧ t = deliver .handler .ok [] (tickReturn s)) := by
  unfold execRet at hx
  split at hx
  · rename_i h0
    exact .inl ⟨h0, respond_next hx⟩
  · rename_i h cb ctx w c h0
    obtain ⟨u, h1, h2⟩ := andThen_eq_next hx
    exact .inr (.inl ⟨h, cb, ctx, w, c, u, h0, h1, respond_next h2⟩)
  · rename_i tb i cb a h0
    exact .inr (.inr ⟨tb, i, cb, a, h0, respond_next hx⟩)

/-- The resume after a completion handler (rule R194), in a state whose ST is STOP or ERROR. -/
theorem engineResume_eq {s : State} {h : Handle} (hc : s.cur = some h) (hs : s.st = .stop ∨ s.st = .error) :
    engineResume s = .next (idleArm
      (if s.st = .stop then finishSuccess h (leaveHandler s) else finishError h (leaveHandler s))) := by
  unfold engineResume
  rcases hs with hs | hs <;> simp [hc, hs, engineRun, finishSuccess, finishError]

end Sys2Proof.Machine
end

