-- ==== Sys2Proof/Laws/InvCheck.lean ====
section
/-! SUPPORT. A Boolean check of the invariants, so that a concrete state is shown to meet them by evaluation. -/

namespace Sys2Proof.Machine

/-- The handles in range (rule R100). -/
def rangeHandles (c : Config) : List Handle :=
  (List.range c.poolCap).map poolHandle ++ (List.range c.callerCap).map callerHandle

theorem mem_rangeHandles {s : State} {h : Handle} (hr : InRange s h) : h ∈ rangeHandles s.cfg := by
  unfold InRange handleInRange at hr
  unfold rangeHandles
  split at hr
  · rename_i hp
    refine List.mem_append_left _ (List.mem_map.mpr ⟨handleIndex h, by simpa using hr, ?_⟩)
    exact (poolHandle_of_isPool hp).symm
  · rename_i hp
    refine List.mem_append_right _ (List.mem_map.mpr ⟨handleIndex h, by simpa using hr, ?_⟩)
    apply BitVec.eq_of_toNat_eq
    have h1 : h.toNat < 128 := by rw [isPool_eq] at hp; simpa using hp
    rw [handleIndex_eq, callerHandle, BitVec.toNat_ofNat]
    omega

def legalCheck (c : Config) : Bool :=
  decide (1 ≤ c.poolCap) && decide (c.poolCap ≤ 128) && decide (c.callerCap ≤ 128) && decide (1 ≤ c.queueCap) &&
    decide (c.queueCap ≤ 255) && decide (1 ≤ c.inlineBytes) && decide (c.inlineBytes ≤ 255) &&
    decide (c.cbFastCap ≤ 255) && decide (c.cbSlowCap ≤ 255) && decide (1 ≤ c.dmemAw) && decide (c.dmemAw ≤ 32) &&
    decide (c.msMul < 2 ^ 32) && decide (c.msShift < 64) && decide (c.usMul < 2 ^ 32) && decide (c.usShift < 64)

theorem legal_of_check {c : Config} (h : legalCheck c = true) : c.Legal := by
  simp only [legalCheck, Bool.and_eq_true, decide_eq_true_eq] at h
  constructor <;> omega

def fitsCheck (c : Config) (r : Record) : Bool :=
  match r.bufSel with
  | .inlineBuffer => decide (r.byteCount.toNat ≤ c.inlineBytes)
  | .externalBuffer => decide (r.extAddr.toNat + r.byteCount.toNat ≤ 2 ^ c.dmemAw)

theorem bufferFits_of_check {c : Config} {r : Record} (h : fitsCheck c r = true) : BufferFits c r := by
  unfold fitsCheck at h
  unfold BufferFits
  split at h <;> simp_all

def sizedCheck (s : State) : Bool :=
  decide (s.qslot.length = s.cfg.queueCap) && decide (s.alloc.length = s.cfg.poolCap) &&
    decide (s.pool.length = s.cfg.poolCap) && decide (s.caller.length = s.cfg.callerCap) &&
    decide (s.fast.entries.length = s.cfg.cbFastCap) && decide (s.slow.entries.length = s.cfg.cbSlowCap) &&
    (rangeHandles s.cfg).all fun h =>
      decide ((recAt s h).inl.length = s.cfg.inlineBytes) && decide ((recAt s h).extAddr.toNat < 2 ^ s.cfg.dmemAw)

theorem sized_of_check {s : State} (h : sizedCheck s = true) : Sized s := by
  simp only [sizedCheck, Bool.and_eq_true, decide_eq_true_eq, List.all_eq_true] at h
  obtain ⟨⟨⟨⟨⟨⟨h1, h2⟩, h3⟩, h4⟩, h5⟩, h6⟩, h7⟩ := h
  exact ⟨h1, h2, h3, h4, h5, h6, fun k hk => (h7 k (mem_rangeHandles hk)).1, fun k hk => (h7 k (mem_rangeHandles hk)).2⟩

def tableCheck (cap : Nat) (T : CbTable) : Bool :=
  decide (T.count ≤ cap) && (liveCbs T).all fun e => decide (e.ctr.toNat ≤ e.div.toNat) && decide (e.cb ≠ 0)

theorem tableInOrder_of_check {cap : Nat} {T : CbTable} (h : tableCheck cap T = true) : TableInOrder cap T := by
  simp only [tableCheck, Bool.and_eq_true, decide_eq_true_eq, List.all_eq_true] at h
  exact ⟨h.1, h.2⟩

def waitsCheck : EngineState → Option BusOut → Bool
  | .start, o => decide (o = some .start)
  | .addressAck, o => decide (o = some .addr)
  | .dataCheck, o => decide (o = some .tx) || decide (o = some .rx)
  | .idle, o | .stop, o | .error, o => decide (o = none)
  | .address, _ | .dataSend, _ => false

theorem waitsFor_of_check {e : EngineState} {o : Option BusOut} (h : waitsCheck e o = true) : WaitsFor e o := by
  cases e <;> simp_all [waitsCheck, WaitsFor]

def engineCheck (s : State) (h : Handle) : Bool :=
  match s.st with
  | .start | .addressAck => decide (s.idx = 0)
  | .dataCheck => decide (s.idx.toNat < (recAt s h).byteCount.toNat)
  | .stop | .error => decide (s.ntf = completionNtf s h) && decide ((recAt s h).callback ≠ 0)
  | .idle | .address | .dataSend => false

theorem engineAt_of_check {s : State} {h : Handle} (hc : engineCheck s h = true) : EngineAt s h := by
  unfold engineCheck at hc
  unfold EngineAt
  cases hs : s.st <;> simp_all

def dueCheck (s : State) (x : DueEntry) : Bool :=
  match (liveCbs (tableOf s x.table))[x.index.toNat]? with
  | some e => decide (e.cb = x.callback)
  | none => false

theorem dueLive_of_check {s : State} {x : DueEntry} (h : dueCheck s x = true) : DueLive s x := by
  unfold dueCheck at h
  split at h
  · rename_i e he
    exact ⟨e, he, by simpa using h⟩
  · cases h

def ntfCheck (s : State) : Bool :=
  match s.ntf with
  | .txn h _ _ _ _ => decide (s.cur = some h) && (decide (s.st = .stop) || decide (s.st = .error))
  | .tick _ _ _ _ => true
  | .none => true

/-- Every conjunct of `Inv`, over the records in range only. -/
def invCheck (s : State) : Bool :=
  legalCheck s.cfg && sizedCheck s && decide (s.qCount ≤ s.cfg.queueCap) && decide (s.qRd < s.cfg.queueCap) &&
    (owned s).all (handleInRange s.cfg) && decide (owned s).Nodup &&
    ((rangeHandles s.cfg).all fun h => (recAt s h).queued == (owned s).contains h) &&
    ((owned s).all fun h => (!isPool h || allocAt s h) && (recAt s h).valid && fitsCheck s.cfg (recAt s h)) &&
    (s.busy == (s.cur.isSome || decide (0 < s.qCount) || decide (s.st ≠ .idle))) &&
    (s.cur.isSome || (decide (s.st = .idle) && decide (s.qCount = 0))) &&
    (s.cur.toList.all (engineCheck s)) && ((owned s).getLast?.toList.all fun h => !(recAt s h).chain) &&
    tableCheck s.cfg.cbFastCap s.fast && tableCheck s.cfg.cbSlowCap s.slow && ntfCheck s && waitsCheck s.st s.busOut &&
    (s.tickDue.isEmpty || inTickHandler s) && s.tickDue.all (dueCheck s) &&
    (!s.hHold || (decide (s.ntf ≠ .none) && s.busy)) && Memory.wf s.dmem &&
    s.dmem.all fun p => decide (p.1 < 2 ^ s.cfg.dmemAw)

/-- A state that passes the check meets the invariants. -/
theorem inv_of_check {s : State} (h : invCheck s = true) : Inv s := by
  simp only [invCheck, Bool.and_eq_true] at h
  obtain ⟨⟨⟨⟨⟨⟨⟨⟨⟨⟨⟨⟨⟨⟨⟨⟨⟨⟨⟨⟨h1, h2⟩, h3⟩, h4⟩, h5⟩, h6⟩, h7⟩, h8⟩, h9⟩, h10⟩, h11⟩, h12⟩, h13⟩, h14⟩, h15⟩, h16⟩, h17⟩,
    h18⟩, h19⟩, h20⟩, h21⟩ := h
  simp only [List.all_eq_true, Bool.and_eq_true] at h5 h7 h8 h11 h12 h18 h21
  exact {
    legal := legal_of_check h1
    sized := sized_of_check h2
    queue := ⟨by simpa using h3, by simpa using h4⟩
    ownedInRange := h5
    ownedOnce := by simpa using h6
    ownedQueued := fun k hk => by
      have := h7 k (mem_rangeHandles hk)
      simp only [beq_iff_eq] at this
      rw [this, List.contains_iff_mem]
    ownedAllocated := fun k hk hp => by
      have := (h8 k hk).1.1
      simpa [hp] using this
    ownedReady := fun k hk => ⟨(h8 k hk).1.2, bufferFits_of_check (h8 k hk).2⟩
    busy := by
      simp only [beq_iff_eq] at h9
      rw [h9]
      cases hc : s.cur <;> simp
    idle := fun hc => by simpa [hc] using h10
    running := fun k hk => engineAt_of_check (h11 k (by simp [hk]))
    chainEnds := fun k hk => by simpa using h12 k (by simp [hk])
    fast := tableInOrder_of_check h13
    slow := tableInOrder_of_check h14
    txnHeld := fun k cb ctx w c hn => by simpa [ntfCheck, hn] using h15
    busOut := waitsFor_of_check h16
    tickDue := fun hne => by simpa [hne] using h17
    dueLive := fun x hx => dueLive_of_check (h18 x hx)
    handlerHeld := fun hh => by simpa [hh] using h19
    memory := ⟨h20, fun p hp => by simpa using h21 p hp⟩ }

end Sys2Proof.Machine
end

