-- ==== Sys2Proof/Laws/PerInstr.lean ====
section
/-! SUPPORT. Statements for all commands, one lemma per constructor of Instr. -/

namespace Sys2Proof.Laws

/-! ### Lengths: the header alone tells how many operand words follow (30_encoding.md rule R80) -/

/-- The high bits of a concatenation are those of its left part. -/
theorem append_toNat_div {k m : Nat} (x : BitVec k) (y : BitVec m) : (x ++ y).toNat / 2 ^ m = x.toNat := by
  rw [BitVec.toNat_append, Nat.shiftLeft_eq, Nat.mul_comm, ← Nat.two_pow_add_eq_or_of_lt y.isLt,
    Nat.mul_add_div (Nat.two_pow_pos m), Nat.div_eq_of_lt y.isLt, Nat.add_zero]

/-- The low bits of a concatenation are those of its right part. -/
theorem append_toNat_mod {k m : Nat} (x : BitVec k) (y : BitVec m) : (x ++ y).toNat % 2 ^ m = y.toNat := by
  rw [BitVec.toNat_append, Nat.shiftLeft_eq, Nat.mul_comm, ← Nat.two_pow_add_eq_or_of_lt y.isLt,
    Nat.mul_add_mod, Nat.mod_eq_of_lt y.isLt]

theorem opcodeOf_eq (w : Word) : opcodeOf w = w.toNat / 2 ^ 28 := by
  have := w.isLt
  simp only [opcodeOf, BitVec.extractLsb'_toNat, Nat.shiftRight_eq_div_pow]
  omega

/-- Peels one low field off a header's opcode. -/
theorem div_peel {k m n : Nat} (x : BitVec k) (y : BitVec m) (hn : m ≤ n) :
    (x ++ y).toNat / 2 ^ n = x.toNat / 2 ^ (n - m) := by
  rw [← append_toNat_div x y, Nat.div_div_eq_div_mul, ← Nat.pow_add]
  congr 2
  omega

/-- The encoder writes as many operand words as the header announces. -/
def Lengths.Statement (i : Instr) : Prop :=
  i.wellFormed = true → operandCount (encodeHeader i) = (encodeOperands i).length

/-- The opcode of each command's header (rule R80). -/
theorem opcodeOf_encodeHeader (i : Instr) : opcodeOf (encodeHeader i) =
    match i with
    | .reserve _ => 1 | .free _ => 2 | .setup _ _ _ _ _ => 3 | .wrrec _ _ _ _ => 4 | .rdrec _ _ _ => 5
    | .submit _ _ => 6 | .clkinit _ => 7 | .nowms => 8 | .nowus => 9 | .cbreg _ _ _ => 10 | .cbunreg _ _ => 11
    | .status => 12 | .ret => 13 := by
  rw [opcodeOf_eq]
  cases i <;> simp (disch := omega) only [encodeHeader, div_peel] <;> decide

theorem Lengths.reserve (n : BitVec 8) : Lengths.Statement (.reserve n) := by
  intro _; simp [operandCount, opcodeOf_encodeHeader, encodeOperands]

theorem Lengths.free (h : Handle) : Lengths.Statement (.free h) := by
  intro _; simp [operandCount, opcodeOf_encodeHeader, encodeOperands]

theorem Lengths.setup (h : Handle) (a : BitVec 7) (d : Dir) (stop : Bool) (c : BitVec 8) : Lengths.Statement (.setup h a d stop c) := by
  intro _; simp [operandCount, opcodeOf_encodeHeader, encodeOperands]

theorem Lengths.wrrec (h : Handle) (f : RecField) (i : BitVec 8) (v : Word) : Lengths.Statement (.wrrec h f i v) := by
  intro _; simp [operandCount, opcodeOf_encodeHeader, encodeOperands]

theorem Lengths.rdrec (h : Handle) (f : RecField) (i : BitVec 8) : Lengths.Statement (.rdrec h f i) := by
  intro _; simp [operandCount, opcodeOf_encodeHeader, encodeOperands]

theorem Lengths.submit (b : Bool) (hs : List Handle) : Lengths.Statement (.submit b hs) := by
  intro hw
  have hl : hs.length ≤ 255 := by simpa [Instr.wellFormed] using hw
  have hlow : ((encodeHeader (.submit b hs)).extractLsb' 0 8).toNat = hs.length := by
    rw [BitVec.extractLsb'_toNat, Nat.shiftRight_zero, encodeHeader, append_toNat_mod, BitVec.toNat_ofNat]
    omega
  simp only [operandCount, opcodeOf_encodeHeader, hlow, encodeOperands, List.length_map]

theorem Lengths.clkinit (e : Word) : Lengths.Statement (.clkinit e) := by
  intro _; simp [operandCount, opcodeOf_encodeHeader, encodeOperands]

theorem Lengths.nowms : Lengths.Statement .nowms := by
  intro _; simp [operandCount, opcodeOf_encodeHeader, encodeOperands]

theorem Lengths.nowus : Lengths.Statement .nowus := by
  intro _; simp [operandCount, opcodeOf_encodeHeader, encodeOperands]

theorem Lengths.cbreg (t : Table) (v : BitVec 16) (cb : BitVec 16) : Lengths.Statement (.cbreg t v cb) := by
  intro _; simp [operandCount, opcodeOf_encodeHeader, encodeOperands]

theorem Lengths.cbunreg (t : Table) (cb : BitVec 16) : Lengths.Statement (.cbunreg t cb) := by
  intro _; simp [operandCount, opcodeOf_encodeHeader, encodeOperands]

theorem Lengths.status : Lengths.Statement .status := by
  intro _; simp [operandCount, opcodeOf_encodeHeader, encodeOperands]

theorem Lengths.ret : Lengths.Statement .ret := by
  intro _; simp [operandCount, opcodeOf_encodeHeader, encodeOperands]

end Sys2Proof.Laws
end

