-- ==== Sys2Proof/Laws/Wait.lean ====
section
/-! SUPPORT. WaitPeriod: what a step can do while the background context is in a call of it, and the catch-up. -/

namespace Sys2Proof.Machine

@[simp] theorem besideWait_eq_next (w : Wait) (o : Result) (x : WaitingHost) :
    besideWait w o = .next x ↔ x.wait = w ∧ o = .next x.block := by
  cases x with
  | mk w' t => cases o <;> simp [besideWait, and_comm, eq_comm]

/-- A call that polls has not returned. -/
theorem inCall_of_pollsNext {w : Wait} (h : pollsNext w = true) : inCall w = true := by
  cases w with
  | mk p c ph => cases ph <;> simp_all [pollsNext, inCall]

/-- The step in which the background context issues the call's NOWMS. -/
theorem waitPoll_eq (w : Wait) (s : State) (more : List Action) (hf : s.fault = none)
    (he : enabled s .command = true) :
    waitPoll ⟨w, { s with agenda := .command :: more }⟩ =
      besideWait (waitAdvance w (msNow s)) (exec .nowms { s with agenda := more }) := by
  have hs := step_eq_act (s := { s with agenda := .command :: more, port := encode .nowms ++ s.port }) hf rfl he
  exact congrArg (besideWait _) hs

/-- All that a step can do while the background context is in a call: it is the call's NOWMS, or a step of the block
that is no act of a background context still in the call. -/
theorem waitStep_next {x z : WaitingHost} (h : waitStep x = .next z) :
    (pollsNext x.wait = true ∧ isBackgroundAct x.block .command = true ∧ (∃ more, x.block.agenda = .command :: more) ∧
      waitPoll x = .next z) ∨
    (z.wait = x.wait ∧ step x.block = .next z.block ∧
      ∀ a more, x.block.agenda = a :: more → inCall x.wait = true → isBackgroundAct x.block a = false) := by
  unfold waitStep at h
  split at h
  · rename_i a more hf ha
    split at h
    · rename_i hb
      split at h
      · rename_i hp
        simp only [Bool.and_eq_true, decide_eq_true_eq] at hb hp
        exact .inl ⟨hp.2, hp.1 ▸ hb.2, ⟨more, hp.1 ▸ ha⟩, h⟩
      · cases h
    · rename_i hb
      obtain ⟨hw, hs⟩ := (besideWait_eq_next _ _ _).mp h
      refine .inr ⟨hw, hs, fun a' more' ha' hc => ?_⟩
      cases ha.symm.trans ha'
      simpa [hc] using hb
  · rename_i hn
    obtain ⟨hw, hs⟩ := (besideWait_eq_next _ _ _).mp h
    exact .inr ⟨hw, hs, fun a more ha _ => absurd ha (hn a more (step_next hs).1)⟩

/-- The catch-up answers the first candidate that is later than now. -/
theorem catchUpWithin_eq_some {n : Nat} {period now next b : BitVec 32} (h : catchUpWithin n period now next = some b) :
    ∃ k, k < n ∧ b = next + BitVec.ofNat 32 k * period ∧ laterThan b now = true ∧
      ∀ j, j < k → laterThan (next + BitVec.ofNat 32 j * period) now = false := by
  induction n generalizing next with
  | zero => cases h
  | succ n ih =>
    rw [catchUpWithin] at h
    split at h
    · rename_i hl
      cases h
      exact ⟨0, Nat.succ_pos n, by simp, hl, fun j hj => absurd hj (Nat.not_lt_zero j)⟩
    · rename_i hl
      have hnext (i : Nat) : next + period + BitVec.ofNat 32 i * period = next + BitVec.ofNat 32 (i + 1) * period := by
        rw [BitVec.ofNat_add, BitVec.add_mul, BitVec.add_assoc, BitVec.add_comm period]
        simp
      obtain ⟨k, hk, rfl, hlater, hfirst⟩ := ih h
      refine ⟨k + 1, Nat.succ_lt_succ hk, hnext k, hlater, fun j hj => ?_⟩
      cases j with
      | zero => simpa using hl
      | succ j => rw [← hnext]; exact hfirst j (Nat.lt_of_succ_lt_succ hj)

end Sys2Proof.Machine
end

