-- ==== Sys2Proof/Machine/Asm.lean ====
section
/-! DEFINITION. The mnemonic syntax (30_encoding.md rule R108) and the pseudo-commands (rule R109). -/

namespace Sys2Proof.Machine

/-- A handle: P<i> for pool record i, C<j> for caller record j (rule R108). -/
def handleText (h : Handle) : String :=
  if h.getLsbD 7 then "P" ++ toString (h.toNat - 128) else "C" ++ toString h.toNat

/-- A field's name (rules R101, R108). Field 15 has none in the spec, and the model writes its number (DESIGN CHOICE,
safe: notes/assumptions/17.md). -/
def fieldName : RecField → String
  | .addr7 => "ADDR7"
  | .dir => "DIR"
  | .sendStop => "SEND_STOP"
  | .byteCount => "BYTE_COUNT"
  | .bufSel => "BUF_SEL"
  | .extAddr => "EXT_ADDR"
  | .callback => "CALLBACK"
  | .context => "CONTEXT"
  | .inlineByte => "INLINE"
  | .chain => "CHAIN"
  | .status => "STATUS"
  | .hwCode => "HW_CODE"
  | .valid => "VALID"
  | .queued => "QUEUED"
  | .alloc => "ALLOC"
  | .reserved => "15"

/-- A field operand, field[i] (rule R108): INLINE with its index always, any other field where the index is not 0. The
spec has no form for the second case, and the model writes it in the first one's way (DESIGN CHOICE, safe:
notes/assumptions/17.md). -/
def fieldText (f : RecField) (i : BitVec 8) : String :=
  fieldName f ++ (if f = .inlineByte ∨ i ≠ 0 then "[" ++ toString i.toNat ++ "]" else "")

/-- DIR as W or R (rule R108). -/
def dirText : Dir → String
  | .write => "W"
  | .read => "R"

/-- A table by name (rule R108). -/
def tableText : Table → String
  | .fast => "FAST"
  | .slow => "SLOW"

/-- One command as a line of rule R108's syntax. -/
def commandText : Instr → String
  | .reserve n => "RESERVE " ++ toString n.toNat
  | .free h => "FREE " ++ handleText h
  | .setup h a d stop c =>
    "SETUP " ++ handleText h ++ ", " ++ toString a.toNat ++ ", " ++ dirText d ++ ", " ++ (if stop then "1" else "0") ++
      ", " ++ toString c.toNat
  | .wrrec h f i v => "WRREC " ++ handleText h ++ ", " ++ fieldText f i ++ ", " ++ toString v.toNat
  | .rdrec h f i => "RDREC " ++ handleText h ++ ", " ++ fieldText f i
  | .submit b hs => (if b then "SUBMIT.B" else "SUBMIT") ++ (if hs.isEmpty then "" else " ") ++ String.intercalate ", " (hs.map handleText)
  | .clkinit e => "CLKINIT " ++ toString e.toNat
  | .nowms => "NOWMS"
  | .nowus => "NOWUS"
  | .cbreg t v cb => "CBREG " ++ tableText t ++ ", " ++ toString cb.toNat ++ ", " ++ toString v.toNat
  | .cbunreg t cb => "CBUNREG " ++ tableText t ++ ", " ++ toString cb.toNat
  | .status => "STATUS"
  | .ret => "RETURN"

/-- The pseudo-commands of rule R109. -/
inductive PseudoCommand where
  | setcb (h : Handle) (cb : Word)
  | setctx (h : Handle) (ctx : Word)
  | setext (h : Handle) (addr : Word)
  | setinl (h : Handle)
  | wrbyte (h : Handle) (i : BitVec 8) (v : Word)
  | rdstat (h : Handle)
  /-- `SUBMIT.B` with no handles: waits until the engine is idle. -/
  | waitIdle
  deriving DecidableEq, Repr

/-- The expansion of a pseudo-command (rule R109). -/
def expandPseudo : PseudoCommand → List Instr
  | .setcb h cb => [.wrrec h .callback 0 cb]
  | .setctx h ctx => [.wrrec h .context 0 ctx]
  | .setext h addr => [.wrrec h .bufSel 0 1, .wrrec h .extAddr 0 addr]
  | .setinl h => [.wrrec h .bufSel 0 0]
  | .wrbyte h i v => [.wrrec h .inlineByte i v]
  | .rdstat h => [.rdrec h .status 0]
  | .waitIdle => [.submit true []]

end Sys2Proof.Machine
end

