-- ==== Sys2Proof/Tests/Slice0.lean ====
section
/-! SUPPORT. The model's own tests, and one witness per obligation that has hypotheses. Expected results are the
spec's: the examples of its rules and the vectors of 95_test_vectors.md, named at each test. -/

open Sys2Proof Sys2Proof.Machine

namespace Sys2Proof.Tests

/-! ### Helpers -/

/-- The next state of a step, if it has one. -/
def next? (o : Result) : Option State :=
  match o with
  | .next t => some t
  | .fault _ => none
  | .refused _ => none

theorem eq_next {o : Result} {t : State} (h : next? o = some t) : o = .next t := by
  cases o with
  | next s => exact congrArg Host.Outcome.next (Option.some.inj h)
  | fault r => cases h
  | refused r => cases h

theorem exists_next {o : Result} (h : (next? o).isSome = true) : ∃ t, o = .next t :=
  (Option.isSome_iff_exists.mp h).imp fun _ ht => eq_next ht

/-- One field of the next state. -/
def field {α : Type} (o : Result) (f : State → α) : Option α := (next? o).map f

/-- A set-up record with two bytes. -/
def demoRecord (d : Dir) (stop : Bool) (cb : BitVec 16) (chain queued : Bool) : Record :=
  { Record.atReset 16 with addr7 := 0x64, dir := d, sendStop := stop, byteCount := 2, callback := cb,
                           inl := [0xA1, 0xA2, 0, 0, 0, 0, 0, 0, 0, 0, 0, 0, 0, 0, 0, 0],
                           chain := chain, valid := true, queued := queued }

/-- Idle; P0 and P1 reserved and set up. -/
def ready : State :=
  { State.reset with
    alloc := [true, true, false, false]
    pool := [demoRecord .write false 0x11 false false, demoRecord .read true 0x22 false false, Record.atReset 16,
      Record.atReset 16] }

/-- P0 current in state st with byte idx in progress, P1 queued behind it; linked if `chain`. -/
def running (st : EngineState) (out : Option BusOut) (idx : BitVec 8) (d : Dir) (cb : BitVec 16) (chain : Bool) : State :=
  { ready with
    pool := [demoRecord d false cb chain true, demoRecord .read true 0x22 false true, Record.atReset 16,
      Record.atReset 16]
    st := st, busy := true, cur := some 0x80, idx := idx, busOut := out, qslot := [0x80, 0x81, 0, 0], qRd := 1, qCount := 1,
    busLog := [.start] }

/-- P0 held at its completion in state st with a status, P1 queued behind it; linked if `chain`. -/
def holding (st : EngineState) (status : BitVec 16) (code : Byte) (chain : Bool) : State :=
  { running st none 0 .write 0x11 chain with
    pool := [{ demoRecord .write false 0x11 chain true with status := status, hwCode := code },
      demoRecord .read true 0x22 false true, Record.atReset 16, Record.atReset 16]
    ntf := .txn 0x80 0x11 0 status code }

/-- Two fast entries, both due on the next tick, and one slow entry. -/
def scheduled : State :=
  { State.reset with
    fast := { count := 2, entries := [⟨0x0101, 2, 2⟩, ⟨0x0202, 0, 0⟩, ⟨0, 0, 0⟩, ⟨0, 0, 0⟩] }
    slow := { count := 1, entries := [⟨0x0303, 0, 1⟩, ⟨0, 0, 0⟩, ⟨0, 0, 0⟩, ⟨0, 0, 0⟩] } }

/-- In the handler of the first fast entry, the second one waiting. -/
def inTick : State := { scheduled with ntf := .tick .fast 0 0x0101 0, tickDue := [⟨.fast, 1, 0x0202⟩] }

/-! ### Well-formedness -/

/-- Rule R87: the header has eight bits for the count. -/
theorem test_wellformed_submit_256 : (Instr.submit false (List.replicate 256 0)).wellFormed = false := by
  rw [Instr.wellFormed, List.length_replicate]; decide

theorem test_wellformed_submit_255 : (Instr.submit true (List.replicate 255 0)).wellFormed = true := by
  rw [Instr.wellFormed, List.length_replicate]; decide

/-! ### Decoding: words written out from the layouts of rules R82 to R94 -/

/-- OPC 0001, bits 27:8 zero, n = 00000010. -/
theorem test_decode_reserve : decode [0b00010000000000000000000000000010#32] = .instr (.reserve 2) [] := by decide
/-- OPC 0010, h = 10000001. -/
theorem test_decode_free : decode [0b00100000000000000000000010000001#32] = .instr (.free 0x81) [] := by decide
/-- OPC 0011, 000, c = 00000010, s = 1, d = 1, a = 1100100, h = 10000001. -/
theorem test_decode_setup : decode [0b00110000000001011110010010000001#32] =
    .instr (.setup 0x81 0x64 .read true 2) [] := by decide
/-- OPC 0100, i = 00001111, f = 1000, h = 10000000, then V. -/
theorem test_decode_wrrec : decode [0b01000000000000001111100010000000#32, 0xFF#32] =
    .instr (.wrrec 0x80 .inlineByte 15 0xFF) [] := by decide
/-- OPC 0101, i = 00000000, f = 1010, h = 10000001. -/
theorem test_decode_rdrec : decode [0b01010000000000000000101010000001#32, 7#32] =
    .instr (.rdrec 0x81 .status 0) [7#32] := by decide
/-- OPC 0110, b = 1, n = 00000010, then the handles. -/
theorem test_decode_submit : decode [0b01100000000000000000000100000010#32, 0x80#32, 0x81#32, 9#32] =
    .instr (.submit true [0x80, 0x81]) [9#32] := by decide
theorem test_decode_clkinit : decode [0b01110000000000000000000000000000#32, 10#32] = .instr (.clkinit 10) [] := by decide
theorem test_decode_nowms : decode [0b10000000000000000000000000000000#32] = .instr .nowms [] := by decide
theorem test_decode_nowus : decode [0b10010000000000000000000000000000#32] = .instr .nowus [] := by decide
/-- OPC 1010, v = 0000000000000001, t = 1, then cb. -/
theorem test_decode_cbreg : decode [0b10100000000000000000000100000001#32, 0x303#32] =
    .instr (.cbreg .slow 1 0x303) [] := by decide
theorem test_decode_cbunreg : decode [0b10110000000000000000000000000000#32, 0x101#32] =
    .instr (.cbunreg .fast 0x101) [] := by decide
theorem test_decode_status : decode [0b11000000000000000000000000000000#32] = .instr .status [] := by decide
theorem test_decode_return : decode [0b11010000000000000000000000000000#32] = .instr .ret [] := by decide

/-- Rule R96: a reserved opcode is one word long. -/
theorem test_decode_reserved_opcode : decode [0xE0000005#32, 1#32] = .illegal .reservedOpcode [1#32] := by decide
/-- V-POOL-10: RESERVE with bit 8 set. -/
theorem test_decode_reserved_bit : decode [0x10000100#32] = .illegal .reservedField [] := by decide
/-- V-Q-7: a SUBMIT operand word with a reserved bit, both words consumed (rule R97). -/
theorem test_decode_reserved_operand : decode [0x60000001#32, 0x100#32, 5#32] = .illegal .reservedField [5#32] := by decide
/-- Rule R80: no partial command. -/
theorem test_decode_partial : decode [0x60000002#32, 0x80#32] = .incomplete := by decide
theorem test_decodeTableWord : decodeTableWord 64 0x0000000A70000000 = some (.clkinit 10) := by decide
/-- Rule R108's syntax: WRREC with INLINE[3]. -/
theorem test_fieldText : (commandText (.wrrec 0x80 .inlineByte 3 255), commandText (.rdrec 0x81 .status 0)) =
    ("WRREC P0, INLINE[3], 255", "RDREC P1, STATUS") := by decide
/-- Rule R108's syntax, rule R120's example. -/
theorem test_commandText : commandText (.setup 0x80 0x64 .write false 1) = "SETUP P0, 100, W, 0, 1" := by decide

/-! ### One command each -/

/-- V-POOL-3. -/
theorem test_reserve : field (exec (.reserve 3) State.reset) (fun t => (t.responses, t.alloc)) =
    some ([⟨.background, .ok, [0x80, 0x81, 0x82]⟩], [true, true, true, false]) := by decide
/-- V-POOL-2. -/
theorem test_reserve_noSpace : field (exec (.reserve 5) State.reset) (fun t => (t.responses, t.alloc)) =
    some ([⟨.background, .noSpace, []⟩], [false, false, false, false]) := by decide
/-- Rule R141's example. -/
theorem test_free : field (exec (.free 0x81) ready) (·.alloc) = some [true, false, false, false] := by decide
/-- V-POOL-11. -/
theorem test_free_queued : field (exec (.free 0x80) (running .start (some .start) 0 .write 0x11 true))
    (fun t => (t.fault, t.responses)) = some (some .queuedRecord, []) := by decide
/-- V-REC-3. -/
theorem test_setup : field (exec (.setup 0x80 0x7F .read true 255) ready) (fun t =>
    ((recAt t 0x80).addr7, (recAt t 0x80).dir, (recAt t 0x80).sendStop, (recAt t 0x80).byteCount, (recAt t 0x80).callback))
    = some (0x7F, .read, true, 255, 0) := by decide
/-- V-REC-1. -/
theorem test_setup_unreserved : field (exec (.setup 0x80 0x64 .write false 1) State.reset) (·.fault) =
    some (some .notAllocated) := by decide
/-- V-REC-9. -/
theorem test_wrrec : field (exec (.wrrec 0x80 .inlineByte 15 0xFF) ready) (fun t => (recAt t 0x80).inl[15]?) =
    some (some 0xFF) := by decide
/-- V-REC-6. -/
theorem test_wrrec_wide : field (exec (.wrrec 0x80 .addr7 0 0x80) ready) (fun t => (t.responses, (recAt t 0x80).addr7)) =
    some ([⟨.background, .illegal, []⟩], 0x64) := by decide
/-- V-REC-5. -/
theorem test_rdrec : field (exec (.rdrec 0x80 .alloc 0) ready) (·.responses) = some [⟨.background, .ok, [1]⟩] := by decide
/-- V-REC-12. -/
theorem test_rdrec_index : field (exec (.rdrec 0x80 .addr7 1) ready) (·.responses) =
    some [⟨.background, .illegal, []⟩] := by decide
/-- Rule R162's example. -/
theorem test_submit : field (exec (.submit true [0x80, 0x81]) ready) (fun t =>
    ([(recAt t 0x80).chain, (recAt t 0x81).chain, t.bgHold], t.cur, t.qCount, t.busLog)) =
    some ([true, false, true], some 0x80, 1, [.start]) := by decide
/-- V-Q-4. -/
theorem test_submit_duplicate : field (exec (.submit false [0x80, 0x80]) ready) (·.fault) =
    some (some .duplicateHandle) := by decide
/-- Rule R230: e = 4294968 wraps to 704. -/
theorem test_clkinit : field (exec (.clkinit 4294968) scheduled) (fun t => (t.coarseMs, (liveCbs t.fast).map (·.ctr))) =
    some (704, [0, 0]) := by decide
/-- Rule R232's example. -/
theorem test_nowms : field (exec .nowms { State.reset with coarseMs := 10000, fine := 512 }) (fun t =>
    (t.responses, t.lastMs)) = some ([⟨.background, .ok, [10500]⟩], 10500) := by decide
/-- Rule R235's example: 5000 is behind 10500. -/
theorem test_nowms_ratchet : field (exec .nowms { State.reset with coarseMs := 5000, lastMs := 10500 }) (·.lastMs) =
    some 10500 := by decide
/-- Rule R234's example. -/
theorem test_nowus : field (exec .nowus { State.reset with coarseMs := 10000, fine := 512 }) (·.responses) =
    some [⟨.background, .ok, [0x00A037A0, 0]⟩] := by decide
/-- Rule R250's example. -/
theorem test_cbreg : field (exec (.cbreg .fast 2 0x0101) State.reset) (fun t => (t.responses, liveCbs t.fast)) =
    some ([⟨.background, .ok, [0]⟩], [⟨0x0101, 0, 2⟩]) := by decide
/-- Rule R251's example. -/
theorem test_cbunreg : field (exec (.cbunreg .fast 0x0101)
    { State.reset with fast := { count := 2, entries := [⟨0x0101, 1, 2⟩, ⟨0x0202, 0, 5⟩, ⟨0, 0, 0⟩, ⟨0, 0, 0⟩] } })
    (fun t => liveCbs t.fast) = some [⟨0x0202, 0, 5⟩] := by decide
/-- Rule R280's example. -/
theorem test_status : field (exec .status State.reset) (·.responses) = some [⟨.background, .ok, [0x00040000]⟩] := by decide
/-- S1, step 7: the status word after the kick. -/
theorem test_status_running : statusWord (running .start (some .start) 0 .write 0x11 true) = 0x00020149 := by decide
/-- Rule R281's example, with P0 as the failing record: released, the rest of its chain discarded, idle. -/
theorem test_return : field (exec .ret (holding .error 0x0002 0x48 true)) (fun t =>
    (t.st, t.busy :: t.alloc, t.busLog, [(recAt t 0x80).status, (recAt t 0x81).status], t.ntf)) =
    some (.idle, [false, false, false, false, false], [.start], [2, 0], .none) := by decide
/-- Rule R281: RETURN in background context. -/
theorem test_return_background : field (exec .ret State.reset) (·.responses) =
    some [⟨.background, .illegal, []⟩] := by decide

/-! ### One event each -/

/-- Rule R182's example. -/
theorem test_event_start : field (step (offer (.busEvent 0x10 0) [] (running .start (some .start) 0 .read 0x11 true)))
    (fun t => (t.st, t.busLog, t.busOut)) = some (.addressAck, [.start, .addr 0xC9], some .addr) := by decide
/-- Rule R185's example: the second byte answered 0x30. -/
theorem test_event_data_nack : field (step (offer (.busEvent 0x30 0) []
    (running .dataCheck (some .tx) 1 .write 0x11 true))) (fun t => ((recAt t 0x80).status, (recAt t 0x80).hwCode, t.ntf)) =
    some (0x0103, 0x30, .txn 0x80 0x11 0 0x0103 0x30) := by decide
/-- Rule R252's example. -/
theorem test_fine_tick : field (step (offer .fineTick [] { State.reset with
      fast := { count := 2, entries := [⟨0x0101, 2, 2⟩, ⟨0x0202, 0, 1⟩, ⟨0, 0, 0⟩, ⟨0, 0, 0⟩] } }))
    (fun t => ((liveCbs t.fast).map (·.ctr), t.ntf, t.fine)) = some ([0, 1], .tick .fast 0 0x0101 0, 1) := by decide
/-- Rule R237's example. -/
theorem test_coarse_tick : field (step (offer .coarseTick [] { State.reset with coarseMs := 10000, fine := 1023 }))
    (fun t => (t.coarseMs, t.fine)) = some (11000, 0) := by decide
/-- Rule R64: DMEM is plain RAM. -/
theorem test_host_write : field (step (offer (.hostWrite 0xFFFF 7) [] State.reset)) (fun t =>
    (memRead t 0xFFFF, memRead t 0xFFFE)) = some (some 7, some 0) := by decide
/-- The step runs the command that the interface places. -/
theorem test_withFetchWord : field (step (State.reset.withFetchWord 32 0xC0000000)) (·.responses) =
    some [⟨.background, .ok, [0x00040000]⟩] := by decide
/-- Rule R275: the second call's boundary is 2000, and it returns at 2000. -/
theorem test_wait_period : waitOver ⟨1000, 1000, .entry⟩ [1700, 2000] = ⟨1000, 2000, .returned 2000⟩ := by decide

/-- The next state of the block and the call, if there is one. -/
def waitField {α : Type} (o : Host.Outcome WaitingHost Fault Refusal) (f : WaitingHost → α) : Option α :=
  match o with
  | .next x => some (f x)
  | .fault _ => none
  | .refused _ => none

/-- Rules R271, R274: the background's command in a call is a poll; here it ends the wait for 10500 (rule R232's
example). -/
theorem test_wait_poll : waitField (waitStep ⟨⟨500, 10000, .polling 10500⟩,
      offer .command [] { State.reset with coarseMs := 10000, fine := 512, port := [0xC0000000] }⟩)
    (fun x => (x.wait, x.block.responses, x.block.port)) =
    some (⟨500, 10500, .returned 10500⟩, [⟨.background, .ok, [10500]⟩], [0xC0000000]) := by decide
/-- Rule R274: a handler's command runs between the polls, and the call stays as it is. -/
theorem test_wait_handler : waitField (waitStep ⟨⟨500, 10000, .polling 10500⟩,
      offer .command [] { inTick with port := [0xD0000000] }⟩) (fun x => (x.wait, x.block.responses)) =
    some (⟨500, 10000, .polling 10500⟩, [⟨.handler, .ok, []⟩]) := by decide

/-! ### Witnesses: concrete states and operands that meet an obligation's hypotheses -/

/-- Chained P0 in START. -/
def inStart : State := running .start (some .start) 0 .write 0x11 true

theorem inv_reset : Inv State.reset := inv_of_check (by decide)
theorem inv_ready : Inv ready := inv_of_check (by decide)
theorem inv_inStart : Inv inStart := inv_of_check (by decide)
theorem inv_scheduled : Inv scheduled := inv_of_check (by decide)
theorem inv_inTick : Inv inTick := inv_of_check (by decide)
theorem inv_holding_error : Inv (holding .error 2 0x48 true) := inv_of_check (by decide)
theorem inv_holding_stop : Inv (holding .stop 0 0 false) := inv_of_check (by decide)

theorem witness_DecodeEncodeRoundTrip : (Instr.submit true [0x80, 0x81]).wellFormed = true := by decide

theorem witness_DecodedWordsAreTheEncoding : decode [0xB0000001#32, 0xFFFF#32, 0#32] = .instr (.cbunreg .slow 0xFFFF) [0#32] := by
  decide

/-- The three outcomes: a reserved opcode, a command, a reserved bit. -/
theorem witness_EveryHeaderDecodes : operandCount 0xF0000000 ≤ [].length (α := Word) ∧
    operandCount 0x60000001 ≤ [0xFF#32].length ∧ operandCount 0x60000001 ≤ [0x100#32].length := by decide

/-- A header's and an operand's reserved bit, and a reserved opcode. -/
theorem witness_IllegalEncodingOnlyResponds : MayTake State.reset .command ∧ State.reset.fault = none ∧
    operandCount 0x10000100 ≤ [].length (α := Word) ∧ ¬ EncodesCommand 0x10000100 [] ∧
    operandCount 0x60000001 ≤ [0x100#32].length ∧ ¬ EncodesCommand 0x60000001 [0x100#32] ∧
    ¬ EncodesCommand 0x00000000 [] := by
  refine ⟨.inl (by decide), rfl, by decide, fun h => absurd h.1 (by decide), by decide, fun h => ?_,
    fun h => absurd h.1 (by decide)⟩
  exact absurd (h.2 0x100#32 (by decide)) (by decide)

theorem witness_StepRunsTheDecodedCommand :
    (State.reset.fault = none ∧ MayTake State.reset .command) ∧ (inTick.fault = none ∧ MayTake inTick .command) ∧
    decode [0xC0000000#32] = .instr .status [] := by
  exact ⟨⟨rfl, .inl (by decide)⟩, ⟨rfl, .inr (by decide)⟩, by decide⟩

theorem witness_ResetMeetsTheInvariants : Config.vector.Legal := legal_of_check (by decide)

/-- A bus event, a tick and a RETURN. -/
theorem witness_EveryStepKeepsTheInvariants :
    (Inv inStart ∧ ∃ t, step (offer (.busEvent 0x08 0) [] inStart) = .next t) ∧
    (Inv scheduled ∧ ∃ t, step (offer .fineTick [] scheduled) = .next t) ∧
    (Inv (holding .error 2 0x48 true) ∧
      ∃ t, step (offer .command [] { holding .error 2 0x48 true with port := [0xD0000000] }) = .next t) := by
  exact ⟨⟨inv_inStart, exists_next (by decide)⟩, ⟨inv_scheduled, exists_next (by decide)⟩, inv_holding_error,
    exists_next (by decide)⟩

/-- Each action is enabled in some state that meets the invariants. -/
theorem witness_EnabledActionsAlwaysComplete :
    (Inv ready ∧ ready.fault = none ∧ MayTake { ready with port := [0xC0000000] } .command ∧
      decode [0xC0000000#32] ≠ .incomplete) ∧
    (Inv inTick ∧ MayTake inTick .command ∧ MayTake inTick (.hostWrite 0xFFFF 1) ∧ 0xFFFF < 2 ^ inTick.cfg.dmemAw) ∧
    (Inv inStart ∧ MayTake inStart (.busEvent 0x08 0) ∧ MayTake inStart .fineTick ∧ MayTake inStart .coarseTick) ∧
    (Inv { ready with bgHold := true } ∧ MayTake { ready with bgHold := true } .liftBackground) := by
  refine ⟨⟨inv_ready, rfl, .inl (by decide), by decide⟩, ⟨inv_inTick, .inr (by decide), .inr (by decide), by decide⟩,
    ⟨inv_inStart, ⟨by decide, by decide⟩, rfl, ⟨rfl, rfl⟩⟩, inv_of_check (by decide), ?_⟩
  exact ⟨by decide, by decide, by decide⟩

/-- A quiescent state, an enabled action and one that is not. -/
theorem witness_ActionsAreTakenExactlyWhenEnabled :
    { ready with fault := some .queuedRecord }.fault = some .queuedRecord ∧ ready.fault = none ∧ MayTake ready .fineTick ∧
    ¬ MayTake inTick .fineTick := by
  exact ⟨rfl, rfl, rfl, fun h => absurd (show inTick.ntf = .none from h) (by decide)⟩

theorem witness_FaultingCommandOnlySetsFault :
    (∃ t, exec (.free 0x80) inStart = .next t ∧ t.fault ≠ none) ∧ inStart.fault = none ∧
    { ready with fault := some .tableInDispatch }.fault = some .tableInDispatch := by
  exact ⟨⟨{ inStart with fault := some .queuedRecord }, eq_next (by decide), by decide⟩, rfl, rfl⟩

/-- A command that answers, one that faults and one that holds. -/
theorem witness_CommandOutcomesAreTheTable :
    (Inv State.reset ∧ ∃ t, exec (.reserve 5) State.reset = .next t) ∧
    (Inv inStart ∧ (∃ t, exec (.submit false [0x80]) inStart = .next t) ∧ ∃ t, exec (.submit true []) inStart = .next t) :=
  ⟨⟨inv_reset, exists_next (by decide)⟩, inv_inStart, exists_next (by decide), exists_next (by decide)⟩

/-- An event enters handler context, and RETURN leaves it. -/
theorem witness_HandlersNeverNest :
    (Inv scheduled ∧ ∃ t, step (offer .fineTick [] scheduled) = .next t ∧ t.ntf ≠ scheduled.ntf) ∧
    (Inv inStart ∧ ∃ t, step (offer (.busEvent 0 0) [] inStart) = .next t ∧ t.ntf ≠ inStart.ntf) ∧
    (Inv inTick ∧ ∃ t, step (offer .command [] { inTick with port := [0xD0000000] }) = .next t ∧ t.ntf ≠ inTick.ntf) := by
  refine ⟨⟨inv_scheduled, ?_⟩, ⟨inv_inStart, ?_⟩, inv_inTick, ?_⟩ <;>
    exact ⟨_, eq_next rfl, by decide⟩

/-- With BUSY = 1 before, and with the kick setting it. -/
theorem witness_BlockingSubmitInHandlerIsStuck :
    (Inv (holding .stop 0 0 false) ∧ ∃ t, exec (.submit true []) (holding .stop 0 0 false) = .next t ∧ t.fault = none ∧
      t.responses = (holding .stop 0 0 false).responses) ∧
    (Inv { ready with ntf := .tick .fast 0 1 0 } ∧
      ∃ t, exec (.submit true [0x80]) { ready with ntf := .tick .fast 0 1 0 } = .next t ∧ t.fault = none ∧
        t.responses = ready.responses) := by
  refine ⟨⟨inv_holding_stop, ?_⟩, inv_of_check (by decide), ?_⟩ <;>
    exact ⟨_, eq_next rfl, by decide, by decide⟩

/-- Both holds. -/
theorem witness_LiftedHoldDeliversOk :
    { ready with bgHold := true }.fault = none ∧ { ready with bgHold := true }.busy = false ∧
    { ready with bgHold := true }.bgHold = true ∧ { ready with bgHold := true }.ntf = .none ∧
    { ready with hHold := true }.hHold = true := by decide

/-- The first index out of range of each kind. -/
theorem witness_OutOfRangeHandleIsIllegal :
    TakesHandle 0x84 (.rdrec 0x84 .valid 0) ∧ HandleOutOfRange Config.vector 0x84 ∧
    TakesHandle 0x04 (.submit true [0x80, 0x04]) ∧ HandleOutOfRange Config.vector 0x04 := by
  exact ⟨rfl, .inl (by decide), List.mem_of_elem_eq_true (by decide), .inr (by decide)⟩

/-- SETUP of a free pool record, and WRREC of a queued one and of a queued caller record. -/
theorem witness_UnwritableRecordFaults :
    (InRange ready 0x83 ∧ isPool 0x83 = true ∧ allocAt ready 0x83 = false) ∧
    (InRange inStart 0x81 ∧ fieldWriteLegal inStart.cfg .context 0 0xFFFFFFFF = true ∧ allocAt inStart 0x81 = true ∧
      (recAt inStart 0x81).queued = true) := by decide

theorem witness_SetupFillsTheRecord :
    (Sized ready ∧ InRange ready 0x81 ∧ allocAt ready 0x81 = true ∧ (recAt ready 0x81).queued = false) ∧
    (Sized ready ∧ InRange ready 0x03 ∧ isPool 0x03 = false ∧ (recAt ready 0x03).queued = false) := by
  exact ⟨⟨inv_ready.sized, by decide⟩, inv_ready.sized, by decide⟩

/-- The last inline byte and the widest EXT_ADDR. -/
theorem witness_WrrecWritesExactlyOneField :
    Sized ready ∧ InRange ready 0x80 ∧ allocAt ready 0x80 = true ∧ (recAt ready 0x80).queued = false ∧
    fieldWriteLegal ready.cfg .inlineByte 15 0xFF = true ∧ fieldWriteLegal ready.cfg .extAddr 0 0xFFFF = true := by
  exact ⟨inv_ready.sized, by decide⟩

theorem witness_RdrecReturnsTheField :
    InRange ready 0x83 ∧ fieldReadable ready.cfg .alloc 0 = true ∧ fieldReadable ready.cfg .inlineByte 15 = true := by decide

/-- Each check's own boundary. -/
theorem witness_FieldChecksAreIllegal :
    InRange ready 0x80 ∧ RecField.reserved.num = 15 ∧ (RecField.dir.num ≠ 8 ∧ (1 : BitVec 8) ≠ 0) ∧
    (RecField.inlineByte.num = 8 ∧ ready.cfg.inlineBytes ≤ (16 : BitVec 8).toNat) ∧ 9 ≤ RecField.chain.num.toNat ∧
    2 ^ fieldWidth ready.cfg .addr7 ≤ (0x80 : Word).toNat := by decide

/-- Exactly as many as are free, and one more. -/
theorem witness_ReserveTakesTheLowestFreeRecords :
    ready.cfg.Legal ∧ Sized ready ∧ (2 : BitVec 8).toNat ≤ poolFree ready ∧ poolFree ready < (3 : BitVec 8).toNat := by
  exact ⟨inv_ready.legal, inv_ready.sized, by decide⟩

/-- A caller record, a free one, a queued one and an allocated one. -/
theorem witness_FreeReturnsOnlyPoolRecords :
    (Sized ready ∧ InRange ready 0x00 ∧ isPool 0x00 = false) ∧ (InRange ready 0x83 ∧ allocAt ready 0x83 = false) ∧
    (Sized inStart ∧ InRange inStart 0x80 ∧ isPool 0x80 = true ∧ allocAt inStart 0x80 = true ∧
      (recAt inStart 0x80).queued = true) ∧
    (isPool 0x81 = true ∧ allocAt ready 0x81 = true ∧ (recAt ready 0x81).queued = false) := by
  exact ⟨⟨inv_ready.sized, by decide⟩, by decide, ⟨inv_inStart.sized, by decide⟩, by decide⟩

/-- RETURN from a failure takes the whole chain out of the block's hands. -/
theorem witness_DequeuedPoolRecordsAreFree :
    Inv (holding .error 2 0x48 true) ∧
    ∃ t, step (offer .command [] { holding .error 2 0x48 true with port := [0xD0000000] }) = .next t ∧
      0x81 ∈ owned (holding .error 2 0x48 true) ∧ 0x81 ∉ owned t :=
  ⟨inv_holding_error, _, eq_next rfl, by decide, by decide⟩

/-- The submitted records are ready. -/
theorem ready_submits : ∀ h ∈ [0x81, 0x80], InRange ready h ∧ SubmitReady ready h := by
  intro h hh
  rcases List.mem_cons.mp hh with rfl | hh
  · exact ⟨by decide, by decide, by decide, by decide, bufferFits_of_check (by decide)⟩
  · rcases List.mem_cons.mp hh with rfl | hh
    · exact ⟨by decide, by decide, by decide, by decide, bufferFits_of_check (by decide)⟩
    · cases hh

/-- A chain on an idle engine, and the empty SUBMIT on a busy one. -/
theorem witness_AcceptedSubmitQueuesTheChain :
    (Inv ready ∧ (∀ h ∈ [0x81, 0x80], InRange ready h) ∧ ([0x81, 0x80] : List Handle).Nodup ∧
      (∀ h ∈ [0x81, 0x80], SubmitReady ready h) ∧ [(0x81 : Handle), 0x80].length ≤ ready.cfg.queueCap - ready.qCount ∧
      ready.busy = false) ∧
    (Inv inStart ∧ inStart.busy = true) := by
  exact ⟨⟨inv_ready, fun h hh => (ready_submits h hh).1, by decide, fun h hh => (ready_submits h hh).2, by decide, rfl⟩,
    inv_inStart, rfl⟩

/-- A caller record set up behind a full queue of one slot, and room for it with two slots. -/
theorem witness_QueueAtomicity :
    (Inv { ready with cfg := { Config.vector with queueCap := 1 }, qslot := [0] } ∧
      (∀ h ∈ [0x81, 0x80], InRange { ready with cfg := { Config.vector with queueCap := 1 }, qslot := [0] } h ∧
        SubmitReady { ready with cfg := { Config.vector with queueCap := 1 }, qslot := [0] } h) ∧
      ([0x81, 0x80] : List Handle).Nodup ∧ 1 - 0 < [(0x81 : Handle), 0x80].length) ∧
    (Inv ready ∧ (∀ h ∈ [0x81, 0x80], InRange ready h ∧ SubmitReady ready h) ∧
      [(0x81 : Handle), 0x80].length ≤ ready.cfg.queueCap - ready.qCount) := by
  refine ⟨⟨inv_of_check (by decide), fun h hh => ?_, by decide, by decide⟩, inv_ready, ready_submits, by decide⟩
  exact ⟨(ready_submits h hh).1, (ready_submits h hh).2.1, (ready_submits h hh).2.2, (ready_submits h hh).2.3,
    (ready_submits h hh).2.4⟩

/-- P1 with another record. -/
def withP1 (r : Record) : State := { ready with pool := ready.pool.set 1 r }

/-- Each duty broken by the second handle, the first being ready. -/
theorem witness_SubmitFaultsInOrder :
    SubmitReady ready 0x80 ∧ ¬ ([0x80, 0x80] : List Handle).Nodup ∧
    (InRange ready 0x82 ∧ isPool 0x82 = true ∧ allocAt ready 0x82 = false) ∧
    (InRange ready 0x00 ∧ (recAt ready 0x00).queued = false ∧ (recAt ready 0x00).valid = false) ∧
    (InRange inStart 0x81 ∧ allocAt inStart 0x81 = true ∧ (recAt inStart 0x81).queued = true) ∧
    (∀ r, SubmitReady (withP1 r) 0x80) ∧
    ¬ BufferFits Config.vector { demoRecord .write true 0 false false with byteCount := 17 } ∧
    ¬ BufferFits Config.vector { demoRecord .write true 0 false false with bufSel := .externalBuffer, extAddr := 0xFFFF } := by
  exact ⟨(ready_submits 0x80 (by simp)).2, by decide, by decide, by decide, by decide,
    fun _ => ⟨fun _ => rfl, rfl, rfl, (ready_submits 0x80 (by simp)).2.fits⟩,
    fun h => absurd (show (17 : BitVec 8).toNat ≤ 16 from h) (by decide),
    fun h => absurd (show (0xFFFF : BitVec 32).toNat + (2 : BitVec 8).toNat ≤ 2 ^ 16 from h) (by decide)⟩

/-- A SUBMIT that adds records, and an event that takes one out. -/
theorem witness_OwnershipIsFirstInFirstOut :
    (Inv ready ∧ ∃ t, step (offer .command [] { ready with port := [0x60000002, 0x80, 0x81] }) = .next t ∧
      owned t = [0x80, 0x81]) ∧
    (Inv (holding .stop 0 0 false) ∧
      ∃ t, step (offer .command [] { holding .stop 0 0 false with port := [0xD0000000] }) = .next t ∧ owned t = [0x81]) :=
  ⟨⟨inv_ready, _, eq_next rfl, by decide⟩, inv_holding_stop, _, eq_next rfl, by decide⟩

/-- Where P0 is current and an event may come. -/
theorem awaiting (st : EngineState) (o : BusOut) (idx : BitVec 8) (d : Dir) (cb : BitVec 16) (chain : Bool) :
    Awaiting (running st (some o) idx d cb chain) 0x80 st := ⟨rfl, rfl, by simp [running], rfl, rfl⟩

theorem witness_StartCodeIssuesTheAddress :
    Awaiting inStart 0x80 .start ∧ (0x10 : Byte) = inStart.cfg.codeRepStart ∧ (0x08 : Byte) = inStart.cfg.codeStart :=
  ⟨awaiting _ _ _ _ _ _, rfl, rfl⟩

/-- Byte 0 after the address acknowledge, and the last byte of a write. -/
theorem witness_AcknowledgeRequestsTheNextByte :
    (Inv (running .addressAck (some .addr) 0 .read 0x11 true) ∧
      Awaiting (running .addressAck (some .addr) 0 .read 0x11 true) 0x80 .addressAck ∧
      0 < (recAt (running .addressAck (some .addr) 0 .read 0x11 true) 0x80).byteCount.toNat) ∧
    (Inv (running .dataCheck (some .tx) 0 .write 0x11 true) ∧
      Awaiting (running .dataCheck (some .tx) 0 .write 0x11 true) 0x80 .dataCheck ∧
      (recAt (running .dataCheck (some .tx) 0 .write 0x11 true) 0x80).dir = .write ∧
      0 + 1 < (recAt (running .dataCheck (some .tx) 0 .write 0x11 true) 0x80).byteCount.toNat) :=
  ⟨⟨inv_of_check (by decide), awaiting _ _ _ _ _ _, by decide⟩, inv_of_check (by decide), awaiting _ _ _ _ _ _, by decide,
    by decide⟩

theorem witness_ReceivedByteIsStored :
    Inv (running .dataCheck (some .rx) 0 .read 0x11 true) ∧
    Awaiting (running .dataCheck (some .rx) 0 .read 0x11 true) 0x80 .dataCheck ∧
    (recAt (running .dataCheck (some .rx) 0 .read 0x11 true) 0x80).dir = .read ∧
    0 + 1 < (recAt (running .dataCheck (some .rx) 0 .read 0x11 true) 0x80).byteCount.toNat :=
  ⟨inv_of_check (by decide), awaiting _ _ _ _ _ _, by decide, by decide⟩

/-- The last byte of a read; P0 stands alone or last. -/
theorem witness_SuccessNotifiesTheCallback :
    Inv (running .dataCheck (some .rx) 1 .read 0x11 false) ∧
    Awaiting (running .dataCheck (some .rx) 1 .read 0x11 false) 0x80 .dataCheck ∧
    FinalEvent (running .dataCheck (some .rx) 1 .read 0x11 false) 0x80 0x58 ∧
    (recAt (running .dataCheck (some .rx) 1 .read 0x11 false) 0x80).chain = false ∧
    (recAt (running .dataCheck (some .rx) 1 .read 0x11 false) 0x80).callback ≠ 0 :=
  ⟨inv_of_check (by decide), awaiting _ _ _ _ _ _, .inr ⟨rfl, by decide, rfl⟩, by decide, by decide⟩

/-- A chained record with a callback, and an unchained one with none. -/
theorem witness_SilentSuccessReleasesAndGoesOn :
    (Inv (running .dataCheck (some .tx) 1 .write 0x11 true) ∧
      Awaiting (running .dataCheck (some .tx) 1 .write 0x11 true) 0x80 .dataCheck ∧
      FinalEvent (running .dataCheck (some .tx) 1 .write 0x11 true) 0x80 0x28 ∧
      (recAt (running .dataCheck (some .tx) 1 .write 0x11 true) 0x80).chain = true) ∧
    (Inv (running .dataCheck (some .tx) 1 .write 0 false) ∧
      FinalEvent (running .dataCheck (some .tx) 1 .write 0 false) 0x80 0x28 ∧
      (recAt (running .dataCheck (some .tx) 1 .write 0 false) 0x80).callback = 0) :=
  ⟨⟨inv_of_check (by decide), awaiting _ _ _ _ _ _, .inr ⟨rfl, by decide, rfl⟩, by decide⟩, inv_of_check (by decide),
    .inr ⟨rfl, by decide, rfl⟩, by decide⟩

/-- Each phase: arbitration lost, the other direction's acknowledge, and an acknowledged last read byte. -/
theorem witness_FailedCheckNotifiesTheCallback :
    (Inv inStart ∧ Awaiting inStart 0x80 .start ∧ FailingEvent inStart 0x80 0x38 .start ∧
      (recAt inStart 0x80).callback ≠ 0) ∧
    (Inv (running .addressAck (some .addr) 0 .write 0x11 true) ∧
      FailingEvent (running .addressAck (some .addr) 0 .write 0x11 true) 0x80 0x40 .address) ∧
    (Inv (running .dataCheck (some .rx) 1 .read 0x11 true) ∧
      FailingEvent (running .dataCheck (some .rx) 1 .read 0x11 true) 0x80 0x50 .data) :=
  ⟨⟨inv_inStart, awaiting _ _ _ _ _ _, ⟨rfl, by decide, by decide⟩, by decide⟩,
    ⟨inv_of_check (by decide), rfl, show (0x40 : Byte) ≠ 0x18 by decide⟩, inv_of_check (by decide), rfl, fun h => absurd h (by decide), by decide⟩

theorem witness_SilentFailureDiscardsTheChain :
    Inv (running .dataCheck (some .tx) 1 .write 0 true) ∧
    Awaiting (running .dataCheck (some .tx) 1 .write 0 true) 0x80 .dataCheck ∧
    FailingEvent (running .dataCheck (some .tx) 1 .write 0 true) 0x80 0x30 .data ∧
    (recAt (running .dataCheck (some .tx) 1 .write 0 true) 0x80).callback = 0 :=
  ⟨inv_of_check (by decide), awaiting _ _ _ _ _ _, ⟨rfl, show (0x30 : Byte) ≠ 0x28 by decide⟩, by decide⟩

theorem witness_ReturnFromSuccessReleases :
    Inv (holding .stop 0 0 false) ∧ (holding .stop 0 0 false).ntf = .txn 0x80 0x11 0 0 0 ∧
    (holding .stop 0 0 false).st = .stop := ⟨inv_holding_stop, rfl, rfl⟩

theorem witness_ReturnFromFailureDiscardsTheChain :
    Inv (holding .error 2 0x48 true) ∧ (holding .error 2 0x48 true).ntf = .txn 0x80 0x11 0 2 0x48 ∧
    (holding .error 2 0x48 true).st = .error := ⟨inv_holding_error, rfl, rfl⟩

theorem witness_SuccessfulWriteBusSequence :
    Inv inStart ∧ Awaiting inStart 0x80 .start ∧ (0x10 : Byte) = inStart.cfg.codeRepStart ∧
    (recAt inStart 0x80).dir = .write := ⟨inv_inStart, awaiting _ _ _ _ _ _, rfl, by decide⟩

theorem witness_SuccessfulReadBusSequence :
    Inv (running .start (some .start) 0 .read 0x11 false) ∧
    Awaiting (running .start (some .start) 0 .read 0x11 false) 0x80 .start ∧
    (recAt (running .start (some .start) 0 .read 0x11 false) 0x80).dir = .read ∧ [(5 : Byte), 6] ≠ [] ∧
    [(5 : Byte), 6].length = (recAt (running .start (some .start) 0 .read 0x11 false) 0x80).byteCount.toNat :=
  ⟨inv_of_check (by decide), awaiting _ _ _ _ _ _, by decide, by decide, by decide⟩

/-- At 10 s, a CLKINIT back to 5 s coming. -/
def backwards : State := { State.reset with coarseMs := 10000, agenda := [.command], port := [0x70000000, 5] }

/-- Two readings with that CLKINIT between them. -/
theorem witness_ClockIsMonotonic :
    State.reset.cfg.ratchet = .unsigned ∧
    (∃ t u v, exec .nowms backwards = .next t ∧ Answered backwards t .ok [10000] ∧ core.run 1 t = .next u ∧
      u.coarseMs = 5000 ∧ exec .nowms u = .next v ∧ Answered u v .ok [10000]) ∧
    (∃ t u v, exec .nowus backwards = .next t ∧ Answered backwards t .ok [10000000, 0] ∧ core.run 1 t = .next u ∧
      exec .nowus u = .next v ∧ Answered u v .ok [10000000, 0]) :=
  ⟨rfl, ⟨_, _, _, eq_next rfl, rfl, eq_next rfl, rfl, eq_next rfl, rfl⟩,
    _, _, _, eq_next rfl, rfl, eq_next rfl, eq_next rfl, rfl⟩

/-- A step that moves the clock and the counters, and one that moves a ratchet. -/
theorem witness_ClockAndTablesHaveTheirWriters :
    (∃ t, step (offer .fineTick [] scheduled) = .next t ∧ t.fine ≠ scheduled.fine ∧ t.fast ≠ scheduled.fast) ∧
    (∃ t, step (offer .coarseTick [] scheduled) = .next t ∧ t.coarseMs ≠ scheduled.coarseMs ∧ t.slow ≠ scheduled.slow) ∧
    (∃ t, step (offer .command [] { scheduled with fine := 512, port := [0x80000000] }) = .next t ∧
      t.lastMs ≠ scheduled.lastMs) := by
  refine ⟨⟨_, eq_next rfl, ?_⟩, ⟨_, eq_next rfl, ?_⟩, _, eq_next rfl, ?_⟩ <;> decide

/-- Nothing due, and two entries due. -/
theorem witness_FineTickDispatchesFast :
    (Inv State.reset ∧ State.reset.fault = none ∧ State.reset.ntf = .none) ∧
    (Inv scheduled ∧ scheduled.fault = none ∧ scheduled.ntf = .none) := ⟨⟨inv_reset, rfl, rfl⟩, inv_scheduled, rfl, rfl⟩

theorem witness_CoarseTickDispatchesSlow :
    Inv scheduled ∧ scheduled.fault = none ∧ scheduled.ntf = .none ∧ scheduled.cfg.hasCoarse = true :=
  ⟨inv_scheduled, rfl, rfl, rfl⟩

theorem witness_CbregAppendsAnEntry :
    (0x0101 : BitVec 16) ≠ 0 ∧ inTickHandler scheduled = false ∧
    (tableOf scheduled .fast).count < tableCap scheduled.cfg .fast ∧
    (tableOf scheduled .fast).entries.length = tableCap scheduled.cfg .fast ∧ tableCap scheduled.cfg .fast ≤ 255 := by decide

/-- An identifier that is not registered, and the second entry's. -/
theorem witness_CbunregRemovesTheLowestMatch :
    inTickHandler scheduled = false ∧ (tableOf scheduled .fast).count ≤ (tableOf scheduled .fast).entries.length ∧
    (∀ e ∈ liveCbs (tableOf scheduled .fast), e.cb ≠ 0x0999) ∧
    liveCbs (tableOf scheduled .fast) = [⟨0x0101, 2, 2⟩] ++ ⟨0x0202, 0, 0⟩ :: [] := by decide

/-- A tick handler, and a full table. -/
theorem witness_SchedulerCommandsRefuseInOrder :
    inTickHandler inTick = true ∧ inTickHandler State.reset = false ∧
    (tableOf { State.reset with fast := { count := 4, entries := List.replicate 4 ⟨1, 0, 1⟩ } } .fast).count =
      tableCap Config.vector .fast := by decide

/-- One callback waiting, and none. -/
theorem witness_ReturnFromTickDeliversTheRest :
    State.reset.ntf = .none ∧ inTick.ntf = .tick .fast 0 0x0101 0 ∧ inTick.tickDue ≠ [] ∧
    { inTick with tickDue := [] }.tickDue = [] := by decide

/-- An entry of each table, with dividers 0 and 1. -/
theorem witness_CallbacksDivideDown :
    (TableInOrder (tableCap scheduled.cfg .fast) (tableOf scheduled .fast) ∧
      (tableOf scheduled .fast).entries.length = tableCap scheduled.cfg .fast ∧ tableCap scheduled.cfg .fast ≤ 255 ∧
      (liveCbs (tableOf scheduled .fast))[1]? = some ⟨0x0202, 0, 0⟩) ∧
    (TableInOrder (tableCap scheduled.cfg .slow) (tableOf scheduled .slow) ∧
      (tableOf scheduled .slow).entries.length = tableCap scheduled.cfg .slow ∧ tableCap scheduled.cfg .slow ≤ 255 ∧
      (liveCbs (tableOf scheduled .slow))[0]? = some ⟨0x0303, 0, 1⟩) ∧
    scheduled.ntf = .none ∧ scheduled.tickDue = [] :=
  ⟨⟨inv_scheduled.fast, by decide⟩, ⟨inv_scheduled.slow, by decide⟩, by decide⟩

theorem witness_StatusWordFields : inStart.qCount ≤ 255 ∧ inStart.cfg.poolCap ≤ 128 := by decide

/-- An event that issues a bus command. -/
theorem witness_BusLogIsOnlyAnObservation :
    ∃ t, step (offer (.busEvent 0x08 0) [] inStart) = .next t ∧ t.busLog ≠ inStart.busLog :=
  ⟨_, eq_next rfl, by decide⟩

/-- The dead slots of a queue with one live entry, and the event that pops it. -/
theorem witness_DeadQueueSlotsAreNeverRead :
    Inv (running .dataCheck (some .tx) 1 .write 0 false) ∧ [(9 : Handle), 0x81, 9, 9].length = 4 ∧
    liveEntries { running .dataCheck (some .tx) 1 .write 0 false with qslot := [9, 0x81, 9, 9] } =
      liveEntries (running .dataCheck (some .tx) 1 .write 0 false) ∧
    ∃ t, step (offer (.busEvent 0x28 0) [] (running .dataCheck (some .tx) 1 .write 0 false)) = .next t :=
  ⟨inv_of_check (by decide), by decide, by decide, exists_next (by decide)⟩

/-- P0 reading its last byte into an external buffer that ends at the top of DMEM. -/
def external : State :=
  { running .dataCheck (some .rx) 1 .read 0x11 false with
    pool := [{ demoRecord .read false 0x11 false true with bufSel := .externalBuffer, extAddr := 0xFFFE },
      demoRecord .read true 0x22 false true, Record.atReset 16, Record.atReset 16] }

/-- The host's write, at the last byte of DMEM and one beyond it, and the engine's. -/
theorem witness_DmemChangesOnlyWhereWritten :
    (Inv ready ∧ ready.fault = none ∧ MayTake ready (.hostWrite 0xFFFF 7) ∧ MayTake ready (.hostWrite 0x10000 7) ∧
      0xFFFF < 2 ^ ready.cfg.dmemAw ∧ 2 ^ ready.cfg.dmemAw ≤ 0x10000) ∧
    (Inv ready ∧ ∃ t, step (offer (.hostWrite 0xFFFF 7) [] ready) = .next t ∧ memRead t 0xFFFF ≠ memRead ready 0xFFFF) ∧
    (Inv external ∧
      ∃ t, step (offer (.busEvent 0x58 7) [] external) = .next t ∧ memRead t 0xFFFF ≠ memRead external 0xFFFF) :=
  ⟨⟨inv_ready, rfl, .inl (by decide), .inl (by decide), by decide⟩, ⟨inv_ready, _, eq_next rfl, by decide⟩,
    inv_of_check (by decide), _, eq_next rfl, by decide⟩

/-- The two corner cases of rule R270, and an ordinary pair. -/
theorem witness_LaterThanIsCircular :
    ((0x80000000 : BitVec 32) - 0).toNat = 2 ^ 31 ∧ (1000 : BitVec 32) ≠ 0 ∧ ((1000 : BitVec 32) - 0).toNat ≠ 2 ^ 31 := by
  decide

theorem witness_CatchUpTerminates : 1 ≤ (1000 : BitVec 32).toNat ∧ (0x7FFFFFFF : BitVec 32).toNat < 2 ^ 31 := by decide

/-- Rule R271's example: cursor 1000, 3500 on entry, so 4000, the third boundary. It polls up to 3999, returns at 4000 on
the first poll or a later one, and nothing comes after that. -/
theorem witness_WaitReturnsAtItsBoundary :
    1 ≤ (1000 : BitVec 32).toNat ∧ (1000 : BitVec 32).toNat < 2 ^ 31 ∧
    (4000 : BitVec 32) = startCursor 1000 3500 + BitVec.ofNat 32 3 * 1000 ∧
    (∀ p ∈ [(3500 : BitVec 32), 3999], laterThan 4000 p = true) ∧ laterThan (4000 : BitVec 32) 4000 = false ∧
    waitOver ⟨1000, 1000, .entry⟩ [3500, 3500, 3999] = ⟨1000, 1000, .polling 4000⟩ ∧
    waitOver ⟨1000, 1000, .entry⟩ [3500, 4000, 9999] = ⟨1000, 4000, .returned 4000⟩ ∧
    waitOver ⟨1000, 1000, .entry⟩ [3500, 3999, 4000] = ⟨1000, 4000, .returned 4000⟩ := by
  exact ⟨by decide, by decide, by decide, List.forall_mem_cons.mpr ⟨by decide, by simp; decide⟩, by decide, by decide,
    by decide, by decide⟩

/-- Quiescent; pre-empted by a handler; returned; a tick; a poll; an endless catch-up; a write while waiting. -/
theorem witness_WaitBlocksOnlyTheBackground :
    { ready with fault := some .queuedRecord }.fault = some .queuedRecord ∧ inTick.ntf ≠ .none ∧
    (⟨1000, 1000, .returned 1000⟩ : Wait).phase = .returned 1000 ∧ Action.fineTick ≠ .command ∧
    (∀ address value, Action.fineTick ≠ .hostWrite address value) ∧
    (ready.fault = none ∧ ready.ntf = .none ∧ ready.bgHold = false ∧
      (⟨1000, 1000, .polling 2000⟩ : Wait).phase = .polling 2000) ∧
    (∀ now, (⟨2147483648, 1, .endless⟩ : Wait).phase ≠ .returned now) ∧ { ready with bgHold := true }.bgHold = true := by
  exact ⟨rfl, by decide, rfl, by decide, nofun, by decide, nofun, rfl⟩

end Sys2Proof.Tests
end

section
namespace Sys2Proof.Machine

/-! ### Parts of the invariants

`Inv` in four parts, each with the state that it reads, so that a step is followed through the parts it touches. -/

/-- The part of `Inv` about the records, the queue and who owns what (rule R38 items 1 to 3 and 5). -/
structure Ledger (s : State) : Prop where
  legal : s.cfg.Legal
  sized : Sized s
  queue : s.qCount ≤ s.cfg.queueCap ∧ s.qRd < s.cfg.queueCap
  inRange : ∀ h ∈ owned s, InRange s h
  once : (owned s).Nodup
  queued : ∀ h, InRange s h → ((recAt s h).queued = true ↔ h ∈ owned s)
  allocated : ∀ h ∈ owned s, isPool h = true → allocAt s h = true
  ready : ∀ h ∈ owned s, (recAt s h).valid = true ∧ BufferFits s.cfg (recAt s h)
  chainEnds : ∀ h, (owned s).getLast? = some h → (recAt s h).chain = false

/-- The part of `Inv` about the engine's registers and who waits for them (rule R38 items 4, 7 and 8). -/
structure EngineInv (s : State) : Prop where
  busy : s.busy = true ↔ (s.cur ≠ none ∨ 0 < s.qCount ∨ s.st ≠ .idle)
  idle : s.cur = none → s.st = .idle ∧ s.qCount = 0
  running : ∀ h, s.cur = some h → EngineAt s h
  txnHeld : ∀ h cb ctx w c, s.ntf = .txn h cb ctx w c → s.cur = some h ∧ (s.st = .stop ∨ s.st = .error)
  busOut : WaitsFor s.st s.busOut
  handlerHeld : s.hHold = true → s.ntf ≠ .none ∧ s.busy = true

/-- The part of `Inv` about the callback tables and the due set (rule R38 item 6, rule R32). -/
structure CallbackInv (s : State) : Prop where
  fast : TableInOrder s.cfg.cbFastCap s.fast
  slow : TableInOrder s.cfg.cbSlowCap s.slow
  tickDue : s.tickDue ≠ [] → inTickHandler s = true
  dueLive : ∀ x ∈ s.tickDue, DueLive s x

/-- The part of `Inv` about DMEM. -/
structure MemoryInv (s : State) : Prop where
  wf : Memory.wf s.dmem = true
  bound : ∀ p ∈ s.dmem, p.1 < 2 ^ s.cfg.dmemAw

theorem Inv.ledger {s : State} (hi : Inv s) : Ledger s :=
  ⟨hi.legal, hi.sized, hi.queue, hi.ownedInRange, hi.ownedOnce, hi.ownedQueued, hi.ownedAllocated, hi.ownedReady,
    hi.chainEnds⟩

theorem Inv.engine {s : State} (hi : Inv s) : EngineInv s :=
  ⟨hi.busy, hi.idle, hi.running, hi.txnHeld, hi.busOut, hi.handlerHeld⟩

theorem Inv.callbacks {s : State} (hi : Inv s) : CallbackInv s := ⟨hi.fast, hi.slow, hi.tickDue, hi.dueLive⟩

theorem Inv.memoryInv {s : State} (hi : Inv s) : MemoryInv s := ⟨hi.memory.1, hi.memory.2⟩

theorem CallbackInv.tickDue_nil {s : State} (hc : CallbackInv s) (hn : inTickHandler s = false) : s.tickDue = [] := by
  by_contra hne
  simp [hc.tickDue hne] at hn

theorem Inv.of_parts {s : State} (hl : Ledger s) (he : EngineInv s) (hc : CallbackInv s) (hm : MemoryInv s) : Inv s where
  legal := hl.legal
  sized := hl.sized
  queue := hl.queue
  ownedInRange := hl.inRange
  ownedOnce := hl.once
  ownedQueued := hl.queued
  ownedAllocated := hl.allocated
  ownedReady := hl.ready
  busy := he.busy
  idle := he.idle
  running := he.running
  chainEnds := hl.chainEnds
  fast := hc.fast
  slow := hc.slow
  txnHeld := he.txnHeld
  busOut := he.busOut
  tickDue := hc.tickDue
  dueLive := hc.dueLive
  handlerHeld := he.handlerHeld
  memory := ⟨hm.wf, hm.bound⟩

/-! ### What each part reads -/

/-- The parameters and the lengths of the sized lists are the same. -/
structure SameShape (s t : State) : Prop where
  cfg : t.cfg = s.cfg
  qslot : t.qslot.length = s.qslot.length
  alloc : t.alloc.length = s.alloc.length
  pool : t.pool.length = s.pool.length
  caller : t.caller.length = s.caller.length
  fast : t.fast.entries.length = s.fast.entries.length
  slow : t.slow.entries.length = s.slow.entries.length

theorem SameShape.inRange {s t : State} (h : SameShape s t) (k : Handle) : InRange t k ↔ InRange s k := by
  simp only [InRange, h.cfg]

/-- The sizes that the parameters give one record (rules R5, R28). -/
structure RecordSized (c : Config) (r : Record) : Prop where
  inl : r.inl.length = c.inlineBytes
  extAddr : r.extAddr.toNat < 2 ^ c.dmemAw

theorem Sized.record {s : State} (hs : Sized s) {h : Handle} (hr : InRange s h) : RecordSized s.cfg (recAt s h) :=
  ⟨hs.inl h hr, hs.extAddr h hr⟩

theorem Sized.of_shape {s t : State} (hs : Sized s) (hsh : SameShape s t)
    (hr : ∀ h, InRange s h → RecordSized s.cfg (recAt t h)) : Sized t where
  qslot := by rw [hsh.qslot, hsh.cfg, hs.qslot]
  alloc := by rw [hsh.alloc, hsh.cfg, hs.alloc]
  pool := by rw [hsh.pool, hsh.cfg, hs.pool]
  caller := by rw [hsh.caller, hsh.cfg, hs.caller]
  fast := by rw [hsh.fast, hsh.cfg, hs.fast]
  slow := by rw [hsh.slow, hsh.cfg, hs.slow]
  inl h hh := by rw [hsh.cfg, (hr h ((hsh.inRange h).mp hh)).inl]
  extAddr h hh := by rw [hsh.cfg]; exact (hr h ((hsh.inRange h).mp hh)).extAddr

/-- An owned record that stays owned is as ready as before (rules R38 items 2, 3 and 5). -/
structure StaysReady (s t : State) (h : Handle) : Prop where
  alloc : isPool h = true → allocAt t h = allocAt s h
  valid : (recAt t h).valid = (recAt s h).valid
  fits : BufferFits s.cfg (recAt s h) → BufferFits s.cfg (recAt t h)
  chain : (recAt t h).chain = (recAt s h).chain

theorem StaysReady.of_same {s t : State} {h : Handle} (hr : recAt t h = recAt s h)
    (ha : isPool h = true → allocAt t h = allocAt s h) : StaysReady s t h :=
  ⟨ha, by rw [hr], by rw [hr]; exact id, by rw [hr]⟩

/-- The ledger is kept by everything that lets go of the first owned records, `gone`, and of no other. -/
theorem Ledger.keep {s t : State} (hs : Ledger s) (gone : List Handle) (hsh : SameShape s t)
    (hq : t.qCount ≤ s.cfg.queueCap ∧ t.qRd < s.cfg.queueCap) (ho : owned s = gone ++ owned t)
    (hsz : ∀ h, InRange s h → RecordSized s.cfg (recAt t h))
    (hqueued : ∀ h, InRange s h → (recAt t h).queued = ((recAt s h).queued && !decide (h ∈ gone)))
    (hready : ∀ h ∈ owned t, StaysReady s t h) : Ledger t := by
  have hsub : ∀ h ∈ owned t, h ∈ owned s := fun h hh => ho ▸ List.mem_append_right gone hh
  have hnd : (gone ++ owned t).Nodup := ho ▸ hs.once
  have hdisj := List.disjoint_of_nodup_append hnd
  refine ⟨hsh.cfg ▸ hs.legal, hs.sized.of_shape hsh hsz, hsh.cfg ▸ hq, ?_, hnd.of_append_right, ?_, ?_, ?_, ?_⟩
  · exact fun h hh => (hsh.inRange h).mpr (hs.inRange h (hsub h hh))
  · intro h hh
    have hh := (hsh.inRange h).mp hh
    rw [hqueued h hh, Bool.and_eq_true, hs.queued h hh, ho, List.mem_append]
    have := @hdisj h
    simp only [Bool.not_eq_true', decide_eq_false_iff_not]
    tauto
  · exact fun h hh hp => ((hready h hh).alloc hp).trans (hs.allocated h (hsub h hh) hp)
  · intro h hh
    obtain ⟨hv, hf⟩ := hs.ready h (hsub h hh)
    exact ⟨(hready h hh).valid.trans hv, hsh.cfg ▸ (hready h hh).fits hf⟩
  · intro h hh
    rw [(hready h (List.mem_of_getLast? hh)).chain]
    exact hs.chainEnds h (by rw [ho, List.getLast?_append, hh]; rfl)

/-- The ledger does not read the engine's registers but CUR, the clock, the handler's state, DMEM or the outside. -/
theorem Ledger.keep_registers {s : State} (hs : Ledger s) (st : EngineState) (busy : Bool) (idx : BitVec 8)
    (busOut : Option BusOut) (ntf : Ntf) (busLog : List BusCmd) (dmem : Memory) :
    Ledger { s with st := st, busy := busy, idx := idx, busOut := busOut, ntf := ntf, busLog := busLog, dmem := dmem } :=
  { hs with sized := { hs.sized with } }

/-- The invariants read neither the clock, the background's hold, FAULT, BUSLOG, the command port nor the
environment's choices. -/
theorem Inv.keep_outside {s : State} (hi : Inv s) (fine coarseMs lastMs : BitVec 32) (lastUs : BitVec 64) (bgHold : Bool)
    (fault : Option FaultReason) (busLog : List BusCmd) (port : List Word) (responses : List Response)
    (agenda : List Action) (picks : List Nat) (draws : Nat) :
    Inv { s with fine := fine, coarseMs := coarseMs, lastMs := lastMs, lastUs := lastUs, bgHold := bgHold,
                 fault := fault, busLog := busLog, port := port, responses := responses, agenda := agenda,
                 picks := picks, draws := draws } :=
  { hi with sized := { hi.sized with } }

theorem Inv.keep_deliver {s : State} (hi : Inv s) (x : Context) (c : ResultCode) (d : List Word) :
    Inv (deliver x c d s) :=
  hi.keep_outside s.fine s.coarseMs s.lastMs s.lastUs s.bgHold s.fault s.busLog s.port _ s.agenda s.picks s.draws

end Sys2Proof.Machine
end

section
namespace Sys2Proof.Machine

/-! ### Steps that change records only (40_records.md, 41_pool.md) -/

/-- Everything but the record file and the pool bitmap. -/
def sansRecords (s : State) : State := { s with pool := [], caller := [], alloc := [] }

@[simp] theorem sansRecords_setRec (s : State) (h : Handle) (r : Record) :
    sansRecords (setRec s h r) = sansRecords s := by
  unfold setRec
  split <;> rfl

@[simp] theorem sansRecords_setAlloc (s : State) (h : Handle) (b : Bool) :
    sansRecords (setAlloc s h b) = sansRecords s := rfl

@[simp] theorem sansRecords_allocate (s : State) (i : Nat) : sansRecords (allocate s i) = sansRecords s := by
  simp [allocate]

theorem eq_of_sansRecords {s t : State} (h : sansRecords t = sansRecords s) :
    t = { s with pool := t.pool, caller := t.caller, alloc := t.alloc } :=
  congrArg (fun u : State => { u with pool := t.pool, caller := t.caller, alloc := t.alloc }) h

/-- The invariants are kept by a change of records that leaves the owned ones, every QUEUED bit and the sizes as they
were. -/
theorem Inv.of_records {s t : State} (hi : Inv s) (he : sansRecords t = sansRecords s) (hsh : SameShape s t)
    (hsz : ∀ h, InRange s h → RecordSized s.cfg (recAt t h))
    (hqueued : ∀ h, InRange s h → (recAt t h).queued = (recAt s h).queued)
    (hown : ∀ h ∈ owned s, recAt t h = recAt s h ∧ (isPool h = true → allocAt t h = allocAt s h)) : Inv t := by
  have ht := eq_of_sansRecords he
  have ho : owned t = owned s := by rw [ht]; rfl
  have hl : Ledger t := by
    refine hi.ledger.keep [] hsh ?_ (by rw [ho]; rfl) hsz (fun h hh => ?_) (fun h hh => ?_)
    · rw [ht]; exact hi.queue
    · simpa using hqueued h hh
    · obtain ⟨hr, ha⟩ := hown h (ho ▸ hh)
      exact .of_same hr ha
  refine .of_parts hl ⟨?_, ?_, ?_, ?_, ?_, ?_⟩ ?_ ?_
  · rw [ht]; exact hi.busy
  · rw [ht]; exact hi.idle
  · intro h hc
    have hcs : s.cur = some h := by rw [ht] at hc; exact hc
    have hr := (hown h (by simp [owned, hcs])).1
    have hat := hi.running h hcs
    unfold EngineAt completionNtf at hat ⊢
    rw [hr]
    rw [ht]
    exact hat
  · rw [ht]; exact hi.txnHeld
  · rw [ht]; exact hi.busOut
  · rw [ht]; exact hi.handlerHeld
  · rw [ht]; exact ⟨hi.fast, hi.slow, hi.tickDue, hi.dueLive⟩
  · rw [ht]; exact ⟨hi.memory.1, hi.memory.2⟩

theorem sameShape_setRec (s : State) (h : Handle) (r : Record) : SameShape s (setRec s h r) := by
  constructor <;> simp

/-- A record that the host may write is not owned (rules R38 item 2, R124). -/
theorem Inv.not_owned_of_writable {s : State} (hi : Inv s) {h : Handle} (hr : InRange s h)
    (hw : hostWritableFault s h = none) : h ∉ owned s ∧ (recAt s h).queued = false := by
  have hq : (recAt s h).queued = false := by
    unfold hostWritableFault at hw
    split at hw
    · cases hw
    · split at hw
      · cases hw
      · rename_i hnq
        simpa using hnq
  exact ⟨fun ho => by simp [(hi.ownedQueued h hr).mpr ho] at hq, hq⟩

/-- The host writes a record that the block does not own, and leaves its QUEUED bit (rules R120, R121). -/
theorem Inv.keep_setRec {s : State} (hi : Inv s) {h : Handle} {r : Record} (hr : InRange s h)
    (hw : hostWritableFault s h = none) (hsz : RecordSized s.cfg r) (hq : r.queued = (recAt s h).queued) :
    Inv (setRec s h r) := by
  obtain ⟨hno, -⟩ := hi.not_owned_of_writable hr hw
  have hsame := recAt_setRec_same s h r (hi.sized.hasRecord hr)
  have hother := fun k => recAt_setRec_other s h k r
  refine hi.of_records (by simp) (sameShape_setRec s h r) (fun k hk => ?_) (fun k hk => ?_) (fun k hk => ?_)
  · by_cases e : k = h
    · rw [e, hsame]; exact hsz
    · rw [hother k e]; exact hi.sized.record hk
  · by_cases e : k = h
    · rw [e, hsame, hq]
    · rw [hother k e]
  · exact ⟨hother k (fun e => hno (e ▸ hk)), fun _ => allocAt_congr (by simp) k⟩

theorem setupRecord_sized {c : Config} {r : Record} (hr : RecordSized c r) (a : BitVec 7) (d : Dir) (stop : Bool)
    (n : BitVec 8) : RecordSized c (setupRecord r a d stop n) :=
  ⟨hr.inl, Nat.two_pow_pos _⟩

theorem writeField_queued (r : Record) (f : RecField) (i : BitVec 8) (v : Word) :
    (writeField r f i v).queued = r.queued := by
  cases f <;> rfl

/-- A legal WRREC writes a value that fits its field (rule R102 item 5). -/
theorem writeField_sized {c : Config} {r : Record} {f : RecField} {i : BitVec 8} {v : Word} (hr : RecordSized c r)
    (hw : fieldWriteLegal c f i v = true) : RecordSized c (writeField r f i v) := by
  have hv : v.toNat < 2 ^ fieldWidth c f := by simp_all [fieldWriteLegal]
  constructor
  · cases f <;> simp [writeField, hr.inl]
  · cases f
    case extAddr => exact hv
    all_goals exact hr.extAddr

theorem Inv.keep_execSetup {s t : State} (hi : Inv s) {h : Handle} {a : BitVec 7} {d : Dir} {stop : Bool} {c : BitVec 8}
    (hx : execSetup h a d stop c s = .next t) : Inv t := by
  obtain ⟨-, rfl⟩ | ⟨-, r, -, rfl⟩ | ⟨hr, hw, rfl⟩ := execSetup_next hx
  · exact hi.keep_deliver _ _ _
  · exact hi.keep_outside ..
  · exact (hi.keep_setRec hr hw (setupRecord_sized (hi.sized.record hr) a d stop c) rfl).keep_deliver _ _ _

theorem Inv.keep_execWrrec {s t : State} (hi : Inv s) {h : Handle} {f : RecField} {i : BitVec 8} {v : Word}
    (hx : execWrrec h f i v s = .next t) : Inv t := by
  obtain ⟨-, rfl⟩ | ⟨-, -, r, -, rfl⟩ | ⟨hr, hl, hw, rfl⟩ := execWrrec_next hx
  · exact hi.keep_deliver _ _ _
  · exact hi.keep_outside ..
  · exact (hi.keep_setRec hr hw (writeField_sized (hi.sized.record hr) hl) (writeField_queued ..)).keep_deliver _ _ _

theorem Inv.keep_execRdrec {s t : State} (hi : Inv s) {h : Handle} {f : RecField} {i : BitVec 8}
    (hx : execRdrec h f i s = .next t) : Inv t := by
  obtain ⟨-, rfl⟩ | ⟨-, -, rfl⟩ := execRdrec_next hx <;> exact hi.keep_deliver _ _ _

/-- FREE of an unowned pool record (rule R141). -/
theorem Inv.keep_setAlloc {s : State} (hi : Inv s) {h : Handle} (b : Bool) (hp : isPool h = true) (hno : h ∉ owned s) :
    Inv (setAlloc s h b) := by
  refine hi.of_records (by simp) (by constructor <;> simp) (fun k hk => ?_) (fun k _ => by simp) (fun k hk => ?_)
  · rw [recAt_setAlloc]; exact hi.sized.record hk
  · refine ⟨by simp, fun hpk => allocAt_setAlloc_other _ _ _ _ fun e => hno ?_⟩
    rwa [← handle_ext (hpk.trans hp.symm) e]

theorem Inv.keep_execFree {s t : State} (hi : Inv s) {h : Handle} (hx : execFree h s = .next t) : Inv t := by
  obtain ⟨-, rfl⟩ | ⟨-, -, rfl⟩ | ⟨-, -, -, -, rfl⟩ | ⟨hr, hp, -, hq, rfl⟩ := execFree_next hx
  · exact hi.keep_deliver _ _ _
  · exact hi.keep_deliver _ _ _
  · exact hi.keep_outside ..
  · have hno : h ∉ owned s := fun ho => by simp [(hi.ownedQueued h hr).mpr ho] at hq
    exact (hi.keep_setAlloc false hp hno).keep_deliver _ _ _

/-- A free record is not owned (rule R38 item 3). -/
theorem Inv.free_not_owned {s : State} (hi : Inv s) {i : Nat} (hf : i ∈ freeRecords s) : poolHandle i ∉ owned s := by
  intro ho
  obtain ⟨hlt, hfree⟩ := mem_freeRecords.mp hf
  have hi128 : i < 128 := Nat.lt_of_lt_of_le hlt hi.legal.pool.2
  have ha := hi.ownedAllocated _ ho (isPool_poolHandle hi128)
  rw [allocAt, handleIndex_poolHandle hi128, hfree] at ha
  cases ha

/-- RESERVE hands out free records (rule R140). -/
theorem Inv.keep_allocateAll {s : State} (hi : Inv s) {is : List Nat} (his : ∀ i ∈ is, i ∈ freeRecords s) :
    Inv (is.foldl allocate s) := by
  have h128 : ∀ i ∈ is, i < 128 ∧ i < s.alloc.length := fun i h => by
    have hlt := (mem_freeRecords.mp (his i h)).1
    exact ⟨Nat.lt_of_lt_of_le hlt hi.legal.pool.2, hi.sized.alloc ▸ hlt⟩
  have hrec : ∀ k, recAt (is.foldl allocate s) k =
      if k ∈ is.map poolHandle then { recAt s k with valid := false } else recAt s k := by
    refine fun k => recAt_allocateAll is s k fun i h => ?_
    simp only [HasRecord, isPool_poolHandle (h128 i h).1, handleIndex_poolHandle (h128 i h).1, if_true, hi.sized.pool,
      ← hi.sized.alloc, (h128 i h).2]
  have hlen : (is.foldl allocate s).alloc.length = s.alloc.length :=
    allocateAll_keeps (·.alloc.length) (fun s i => by simp [allocate]) is s
  have he := allocateAll_keeps sansRecords sansRecords_allocate is s
  have hsh : SameShape s (is.foldl allocate s) := by
    refine ⟨congrArg (·.cfg) he, congrArg (·.qslot.length) he, hlen, ?_, ?_, congrArg (·.fast.entries.length) he,
      congrArg (·.slow.entries.length) he⟩
    · exact allocateAll_keeps (·.pool.length) allocate_pool_length is s
    · exact allocateAll_keeps (·.caller.length) allocate_caller_length is s
  refine hi.of_records he hsh (fun k hk => ?_) (fun k _ => ?_) (fun k hk => ?_)
  · rw [hrec]; split <;> exact ⟨hi.sized.inl k hk, hi.sized.extAddr k hk⟩
  · rw [hrec]; split <;> rfl
  · have hno : k ∉ is.map poolHandle := fun hm => by
      obtain ⟨i, him, rfl⟩ := List.mem_map.mp hm
      exact hi.free_not_owned (his i him) hk
    refine ⟨by rw [hrec, if_neg hno], fun hp => ?_⟩
    have hidx : handleIndex k ∉ is := fun hm => hno (List.mem_map.mpr ⟨_, hm, (poolHandle_of_isPool hp).symm⟩)
    simp only [allocAt, List.getD, alloc_allocateAll is s _ h128, if_neg hidx]

theorem Inv.keep_execReserve {s t : State} (hi : Inv s) {n : BitVec 8} (hx : execReserve n s = .next t) : Inv t := by
  obtain ⟨-, rfl⟩ | ⟨-, rfl⟩ := execReserve_next hx
  · exact hi.keep_deliver _ _ _
  · exact (hi.keep_allocateAll fun _ h => List.mem_of_mem_take h).keep_deliver _ _ _

end Sys2Proof.Machine
end

section
namespace Sys2Proof.Machine

/-! ### Steps that change the callback tables (44_clock.md, 45_scheduler.md) -/

theorem Inv.tableInOrder {s : State} (hi : Inv s) (tb : Table) : TableInOrder (tableCap s.cfg tb) (tableOf s tb) := by
  cases tb
  · exact hi.fast
  · exact hi.slow

theorem Inv.tableLength {s : State} (hi : Inv s) (tb : Table) :
    (tableOf s tb).entries.length = tableCap s.cfg tb := by
  cases tb
  · exact hi.sized.fast
  · exact hi.sized.slow

theorem Inv.tableCount_le {s : State} (hi : Inv s) (tb : Table) : (tableOf s tb).count ≤ (tableOf s tb).entries.length :=
  hi.tableLength tb ▸ (hi.tableInOrder tb).count

theorem tableCap_le_255 {c : Config} (hc : c.Legal) (tb : Table) : tableCap c tb ≤ 255 := by
  cases tb
  · exact hc.cbFast
  · exact hc.cbSlow

/-- A table may be replaced by one in order, of the same size, in which the due triples are still live. -/
theorem Inv.keep_setTable {s : State} (hi : Inv s) (tb : Table) {T : CbTable} (hT : TableInOrder (tableCap s.cfg tb) T)
    (hlen : T.entries.length = (tableOf s tb).entries.length)
    (hdue : ∀ x ∈ s.tickDue, DueLive (setTable s tb T) x) : Inv (setTable s tb T) := by
  have hsh : SameShape s (setTable s tb T) := by
    cases tb
    · exact ⟨rfl, rfl, rfl, rfl, rfl, hlen, rfl⟩
    · exact ⟨rfl, rfl, rfl, rfl, rfl, rfl, hlen⟩
  have hr : ∀ h, recAt (setTable s tb T) h = recAt s h := recAt_congr (by simp) (by simp) (by simp)
  have ho : owned (setTable s tb T) = owned s := by cases tb <;> rfl
  refine .of_parts (hi.ledger.keep [] hsh ?_ (by rw [ho]; rfl) ?_ ?_ ?_) ?_ ⟨?_, ?_, ?_, ?_⟩ ?_
  · simpa using hi.queue
  · exact fun h hh => by rw [hr]; exact hi.sized.record hh
  · exact fun h hh => by simp [hr]
  · exact fun h hh => .of_same (hr h) fun _ => allocAt_congr (by simp) h
  · cases tb <;> exact ⟨hi.busy, hi.idle, hi.running, hi.txnHeld, hi.busOut, hi.handlerHeld⟩
  · cases tb
    · exact hT
    · exact hi.fast
  · cases tb
    · exact hi.slow
    · exact hT
  · cases tb <;> exact hi.tickDue
  · cases tb <;> exact hdue
  · cases tb <;> exact ⟨hi.memory.1, hi.memory.2⟩

/-- A due triple stays live where the entries of its table keep their identifiers. -/
theorem DueLive.map {s t : State} {x : DueEntry} (hx : DueLive s x) (f : CbEntry → CbEntry) (hf : ∀ e, (f e).cb = e.cb)
    (hl : liveCbs (tableOf t x.table) = (liveCbs (tableOf s x.table)).map f) : DueLive t x := by
  obtain ⟨e, he, hcb⟩ := hx
  exact ⟨f e, by rw [hl, List.getElem?_map, he]; rfl, (hf e).trans hcb⟩

/-- CLKINIT's restart of one table (rule R230). -/
theorem Inv.keep_restartTable {s : State} (hi : Inv s) (tb : Table) :
    Inv (setTable s tb (restartCounters (tableOf s tb))) := by
  have hlive := liveCbs_restartCounters _ (hi.tableCount_le tb)
  refine hi.keep_setTable tb ⟨(hi.tableInOrder tb).count, fun e he => ?_⟩ (restartCounters_length _ (hi.tableCount_le tb))
    fun x hx => ?_
  · rw [hlive, List.mem_map] at he
    obtain ⟨e', he', rfl⟩ := he
    exact ⟨Nat.zero_le _, ((hi.tableInOrder tb).live e' he').2⟩
  · by_cases e : x.table = tb
    · exact (hi.dueLive x hx).map (fun e => { e with ctr := 0 }) (fun _ => rfl)
        (by rw [e, tableOf_setTable_same, hlive])
    · exact (hi.dueLive x hx).map id (fun _ => rfl) (by rw [tableOf_setTable_other s tb _ _ e, List.map_id])

theorem Inv.keep_execClkinit {s t : State} (hi : Inv s) {e : Word} (hx : execClkinit e s = .next t) : Inv t := by
  rw [respond_next hx]
  exact (((hi.keep_restartTable .fast).keep_restartTable .slow).keep_outside ..).keep_deliver _ _ _

theorem Inv.keep_execNowms {s t : State} (hi : Inv s) (hx : execNowms s = .next t) : Inv t := by
  rw [respond_next hx]
  exact (hi.keep_outside ..).keep_deliver _ _ _

theorem Inv.keep_execNowus {s t : State} (hi : Inv s) (hx : execNowus s = .next t) : Inv t := by
  rw [respond_next hx]
  exact (hi.keep_outside ..).keep_deliver _ _ _

theorem Inv.keep_execStatus {s t : State} (hi : Inv s) (hx : execStatus s = .next t) : Inv t := by
  rw [respond_next hx]
  exact hi.keep_deliver _ _ _

theorem Inv.keep_execCbreg {s t : State} (hi : Inv s) {tb : Table} {v cb : BitVec 16}
    (hx : execCbreg tb v cb s = .next t) : Inv t := by
  obtain ⟨-, rfl⟩ | ⟨-, -, rfl⟩ | ⟨-, -, -, rfl⟩ | ⟨hcb, hn, hne, rfl⟩ := execCbreg_next hx
  · exact hi.keep_deliver _ _ _
  · exact hi.keep_outside ..
  · exact hi.keep_deliver _ _ _
  · have hin := hi.tableInOrder tb
    have hlt : (tableOf s tb).count < tableCap s.cfg tb := Nat.lt_of_le_of_ne hin.count hne
    have hlive := liveCbs_tableAppend (tableOf s tb) cb v (hi.tableLength tb ▸ hlt)
    refine Inv.keep_deliver (hi.keep_setTable tb ⟨Nat.succ_le_of_lt hlt, fun e he => ?_⟩ (by simp [tableAppend])
      (by simp [hi.callbacks.tickDue_nil hn])) _ _ _
    rw [hlive, List.mem_append, List.mem_singleton] at he
    obtain he | rfl := he
    · exact hin.live e he
    · exact ⟨Nat.zero_le _, hcb⟩

/-- The entry that CBUNREG removes is live (rule R251). -/
theorem lt_count_of_findCb {T : CbTable} {cb : BitVec 16} {k : Nat} (hT : T.count ≤ T.entries.length)
    (h : findCb T cb = some k) : k < T.count := by
  obtain ⟨hk, -⟩ := List.findIdx?_eq_some_iff_getElem.mp h
  exact liveCbs_length T hT ▸ hk

theorem Inv.keep_execCbunreg {s t : State} (hi : Inv s) {tb : Table} {cb : BitVec 16}
    (hx : execCbunreg tb cb s = .next t) : Inv t := by
  obtain ⟨-, rfl⟩ | ⟨-, -, rfl⟩ | ⟨-, -, -, rfl⟩ | ⟨-, hn, k, hk, rfl⟩ := execCbunreg_next hx
  · exact hi.keep_deliver _ _ _
  · exact hi.keep_outside ..
  · exact hi.keep_deliver _ _ _
  · have hin := hi.tableInOrder tb
    have hle := hi.tableCount_le tb
    have hkc := lt_count_of_findCb hle hk
    refine Inv.keep_deliver (hi.keep_setTable tb ⟨(Nat.sub_le _ 1).trans hin.count, fun e he => ?_⟩
      (tableRemove_length _ k hle hkc) (by simp [hi.callbacks.tickDue_nil hn])) _ _ _
    rw [liveCbs_tableRemove _ k hle hkc, List.mem_append] at he
    exact hin.live e (he.elim List.mem_of_mem_take List.mem_of_mem_drop)

/-! ### Ticks and the dispatch (rules R252 to R254) -/

/-- NTF is no completion notification. -/
def NoTxn (s : State) : Prop := ∀ h cb ctx w c, s.ntf ≠ .txn h cb ctx w c

/-- With no completion notification pending the engine stands in no state that waits for one, so NTF and TICK_DUE may
change to those of a dispatch. -/
theorem Inv.keep_notifyTick {s : State} (hi : Inv s) (hn : NoTxn s) (hh : s.hHold = false) (ntf : Ntf)
    (due : List DueEntry) (picks : List Nat) (draws : Nat) (hno : ∀ h cb ctx w c, ntf ≠ .txn h cb ctx w c)
    (htick : due ≠ [] → inTickHandler { s with ntf := ntf } = true) (hdue : ∀ x ∈ due, DueLive s x) :
    Inv { s with ntf := ntf, tickDue := due, picks := picks, draws := draws } :=
  { hi with
    sized := { hi.sized with }
    txnHeld := fun h cb ctx w c he => absurd he (hno h cb ctx w c)
    tickDue := htick
    dueLive := hdue
    handlerHeld := fun h => by simp [hh] at h
    running := fun h hc => by
      have hat := hi.running h hc
      unfold EngineAt at hat ⊢
      cases hst : s.st <;> simp only [hst] at hat ⊢
      case start | addressAck | dataCheck => exact hat
      case stop | error => exact absurd hat.1 (hn _ _ _ _ _) }

theorem Inv.keep_deliverDue {s : State} (hi : Inv s) (hn : NoTxn s) (hh : s.hHold = false) {due : List DueEntry}
    (hdue : ∀ x ∈ due, DueLive s x) : Inv (deliverDue due s) := by
  obtain ⟨-, he⟩ | ⟨x, rest, picks, draws, hperm, he⟩ := deliverDue_spec due s <;> rw [he]
  · exact hi.keep_notifyTick hn hh .none [] s.picks s.draws nofun (absurd rfl) nofun
  · exact hi.keep_notifyTick hn hh (tickNtf x) rest picks draws nofun (fun _ => rfl)
      fun y hy => hdue y (hperm.mem_iff.mp (List.mem_cons_of_mem x hy))

theorem entryTick_cb (e : CbEntry) : (entryTick e).cb = e.cb := by
  unfold entryTick
  split <;> rfl

/-- The counters of a tick keep the table in order (rule R38 item 6). -/
theorem Inv.keep_tickTable {s : State} (hi : Inv s) (tb : Table) (hn : inTickHandler s = false) :
    Inv (setTable s tb (tableTick (tableOf s tb))) := by
  have hle := hi.tableCount_le tb
  refine hi.keep_setTable tb ⟨(hi.tableInOrder tb).count, fun e he => ?_⟩ (tableTick_length _ hle)
    (by simp [hi.callbacks.tickDue_nil hn])
  rw [liveCbs_tableTick _ hle, List.mem_map] at he
  obtain ⟨e', he', rfl⟩ := he
  exact ⟨entryTick_inOrder e', entryTick_cb e' ▸ ((hi.tableInOrder tb).live e' he').2⟩

/-- What is due on a tick is live after it: an index below COUNT fits the 8 bits of a triple (rules R30, R254). -/
theorem Inv.dueLive_of_tick {s : State} (hi : Inv s) (tb : Table) {x : DueEntry} (hx : x ∈ dueOf tb (tableOf s tb)) :
    DueLive (setTable s tb (tableTick (tableOf s tb))) x := by
  have hle := hi.tableCount_le tb
  obtain ⟨k, e, hk, -, rfl⟩ := mem_dueFrom.mp hx
  have hlt : k < (tableOf s tb).count := by
    have := (List.getElem?_eq_some_iff.mp hk).1
    rwa [liveCbs_length _ hle] at this
  have hcap := (hi.tableInOrder tb).count.trans (tableCap_le_255 hi.legal tb)
  have hidx : (BitVec.ofNat 8 (0 + k)).toNat = k := by
    rw [BitVec.toNat_ofNat]
    omega
  refine ⟨entryTick e, ?_, entryTick_cb e⟩
  rw [tableOf_setTable_same, liveCbs_tableTick _ hle, hidx, List.getElem?_map, hk]
  rfl

theorem Inv.hHold_of_ntf_none {s : State} (hi : Inv s) (hn : s.ntf = .none) : s.hHold = false := by
  by_contra hh
  exact (hi.handlerHeld (by simpa using hh)).1 hn

theorem Inv.keep_dispatch {s : State} (hi : Inv s) (tb : Table) (hn : s.ntf = .none) : Inv (dispatch tb s) := by
  have hi' := hi.keep_tickTable tb (by simp [inTickHandler, hn])
  unfold dispatch
  split
  · exact hi'
  · refine hi'.keep_deliverDue (fun h cb ctx w c => ?_) ?_ fun x hx => hi.dueLive_of_tick tb hx
    · simp [hn]
    · simpa using hi.hHold_of_ntf_none hn

theorem Inv.keep_fineTickStep {s : State} (hi : Inv s) (hn : s.ntf = .none) : Inv (fineTickStep s) :=
  Inv.keep_dispatch (s := { s with fine := s.fine + 1 }) (hi.keep_outside ..) .fast hn

theorem Inv.keep_coarseTickStep {s : State} (hi : Inv s) (hn : s.ntf = .none) : Inv (coarseTickStep s) :=
  Inv.keep_dispatch (s := { s with fine := 0, coarseMs := s.coarseMs + 1000 }) (hi.keep_outside ..) .slow hn

theorem Inv.keep_tickReturn {s : State} (hi : Inv s) (hn : NoTxn s) (hh : s.hHold = false) : Inv (tickReturn s) :=
  hi.keep_deliverDue hn hh hi.dueLive

end Sys2Proof.Machine
end

section
namespace Sys2Proof.Machine

/-! ### What the engine leaves alone -/

/-- The state without what the engine writes besides DMEM: its registers, the queue, the records, ALLOC, NTF and
BUSLOG. -/
def sansEngine (s : State) : State :=
  { s with st := .idle, busy := false, cur := none, idx := 0, busOut := none, qslot := [], qRd := 0, qCount := 0,
           alloc := [], pool := [], caller := [], ntf := .none, busLog := [] }

@[simp] theorem sansEngine_setRec (s : State) (h : Handle) (r : Record) :
    sansEngine (setRec s h r) = sansEngine s := by
  unfold setRec
  split <;> rfl

@[simp] theorem sansEngine_release (s : State) (h : Handle) : sansEngine (release s h) = sansEngine s := by
  unfold release
  split
  · exact sansEngine_setRec s h _
  · exact sansEngine_setRec s h _

@[simp] theorem sansEngine_setOutcome (h : Handle) (w : BitVec 16) (c : Byte) (s : State) :
    sansEngine (setOutcome h w c s) = sansEngine s := sansEngine_setRec s h _

@[simp] theorem sansEngine_busCmd (c : BusCmd) (s : State) : sansEngine (busCmd c s) = sansEngine s := rfl

@[simp] theorem sansEngine_stopIfAsked (h : Handle) (s : State) : sansEngine (stopIfAsked h s) = sansEngine s := by
  unfold stopIfAsked
  split <;> rfl

@[simp] theorem sansEngine_qPop (s : State) : sansEngine (qPop s) = sansEngine s := rfl

@[simp] theorem sansEngine_notify (p : Ntf) (s : State) : sansEngine (notify p s) = sansEngine s := rfl

@[simp] theorem sansEngine_leaveHandler (s : State) : sansEngine (leaveHandler s) = sansEngine s := rfl

@[simp] theorem sansEngine_discardChain (n : Nat) (c : Bool) (s : State) :
    sansEngine (discardChain n c s) = sansEngine s :=
  discardChain_keeps sansEngine sansEngine_qPop sansEngine_release n c s

@[simp] theorem sansEngine_idleArm (s : State) : sansEngine (idleArm s) = sansEngine s := by
  unfold idleArm
  split <;> rfl

@[simp] theorem sansEngine_finishSuccess (h : Handle) (s : State) : sansEngine (finishSuccess h s) = sansEngine s :=
  sansEngine_release s h

@[simp] theorem sansEngine_finishError (h : Handle) (s : State) : sansEngine (finishError h s) = sansEngine s :=
  (sansEngine_discardChain _ _ _).trans (sansEngine_release s h)

@[simp] theorem sansEngine_enqueueAll (hs : List Handle) (s : State) : sansEngine (enqueueAll hs s) = sansEngine s :=
  enqueueAll_keeps sansEngine (fun _ h s => sansEngine_setRec s h _) hs s

theorem eq_of_sansEngine {s t : State} (h : sansEngine t = sansEngine s) :
    t = { s with st := t.st, busy := t.busy, cur := t.cur, idx := t.idx, busOut := t.busOut, qslot := t.qslot,
                 qRd := t.qRd, qCount := t.qCount, alloc := t.alloc, pool := t.pool, caller := t.caller, ntf := t.ntf,
                 busLog := t.busLog } :=
  congrArg (fun u : State =>
    { u with st := t.st, busy := t.busy, cur := t.cur, idx := t.idx, busOut := t.busOut, qslot := t.qslot,
             qRd := t.qRd, qCount := t.qCount, alloc := t.alloc, pool := t.pool, caller := t.caller, ntf := t.ntf,
             busLog := t.busLog }) h

/-- The engine's own work touches no table and no due set, but it may take a tick's handler away. -/
theorem CallbackInv.congr {s t : State} (hc : CallbackInv s) (he : sansEngine t = sansEngine s)
    (ht : s.tickDue ≠ [] → inTickHandler t = true) : CallbackInv t := by
  have hd : t.tickDue = s.tickDue := congrArg (·.tickDue) he
  refine ⟨?_, ?_, fun hne => ht (hd ▸ hne), ?_⟩ <;> rw [eq_of_sansEngine he]
  · exact hc.fast
  · exact hc.slow
  · exact hc.dueLive

theorem CallbackInv.congr_ntf {s t : State} (hc : CallbackInv s) (he : sansEngine t = sansEngine s)
    (hn : t.ntf = s.ntf) : CallbackInv t :=
  hc.congr he fun hne => by simpa only [inTickHandler, hn] using hc.tickDue hne

theorem MemoryInv.congr {s t : State} (hm : MemoryInv s) (he : sansEngine t = sansEngine s) : MemoryInv t := by
  constructor <;> rw [eq_of_sansEngine he]
  · exact hm.wf
  · exact hm.bound

/-- The parts of the invariants that the engine's own work does not touch, and no handler that is held. -/
structure BesideEngine (s : State) : Prop where
  callbacks : CallbackInv s
  memory : MemoryInv s
  hHold : s.hHold = false

theorem BesideEngine.congr {s t : State} (hb : BesideEngine s) (he : sansEngine t = sansEngine s)
    (ht : s.tickDue ≠ [] → inTickHandler t = true) : BesideEngine t :=
  ⟨hb.callbacks.congr he ht, hb.memory.congr he, (congrArg (·.hHold) he).trans hb.hHold⟩

theorem BesideEngine.congr_ntf {s t : State} (hb : BesideEngine s) (he : sansEngine t = sansEngine s)
    (hn : t.ntf = s.ntf) : BesideEngine t :=
  ⟨hb.callbacks.congr_ntf he hn, hb.memory.congr he, (congrArg (·.hHold) he).trans hb.hHold⟩

/-! ### The engine between two waits (43_engine.md)

Inside a step the engine stands in states that `Inv` does not describe. Two predicates do: it works on a record
(`Running`), or it has let go of one and has not started the next (`Vacant`). -/

/-- The engine works on its current record h, waits for no event, and no notification is pending. -/
structure Running (h : Handle) (s : State) : Prop where
  ledger : Ledger s
  beside : BesideEngine s
  cur : s.cur = some h
  busy : s.busy = true
  busOut : s.busOut = none
  ntf : s.ntf = .none

/-- The engine has no current record and waits for no event. -/
structure Vacant (s : State) : Prop where
  ledger : Ledger s
  beside : BesideEngine s
  cur : s.cur = none
  busOut : s.busOut = none
  noTxn : NoTxn s

theorem Running.mem_owned {h : Handle} {s : State} (hr : Running h s) : h ∈ owned s := by simp [owned, hr.cur]

theorem Running.inRange {h : Handle} {s : State} (hr : Running h s) : InRange s h := hr.ledger.inRange h hr.mem_owned

theorem Running.hasRecord {h : Handle} {s : State} (hr : Running h s) : HasRecord s h :=
  hr.ledger.sized.hasRecord hr.inRange

theorem Running.bufferFits {h : Handle} {s : State} (hr : Running h s) : BufferFits s.cfg (recAt s h) :=
  (hr.ledger.ready h hr.mem_owned).2

theorem Running.keep_registers {h : Handle} {s : State} (hr : Running h s) (st : EngineState) (idx : BitVec 8)
    (busLog : List BusCmd) : Running h { s with st := st, idx := idx, busLog := busLog } :=
  ⟨hr.ledger.keep_registers st s.busy idx s.busOut s.ntf busLog s.dmem, hr.beside.congr_ntf rfl rfl, hr.cur, hr.busy,
    hr.busOut, hr.ntf⟩

theorem Running.keep_busStop {h : Handle} {s : State} (hr : Running h s) : Running h (busCmd .stop s) :=
  hr.keep_registers s.st s.idx _

theorem Running.keep_stopIfAsked {h : Handle} {s : State} (hr : Running h s) (k : Handle) :
    Running h (stopIfAsked k s) := by
  unfold stopIfAsked
  split
  · exact hr.keep_busStop
  · exact hr

/-! ### The current record is written -/

/-- The ledger is kept where a record is written in fields that it does not tie to the queue. -/
theorem Ledger.keep_setRec {s : State} (hs : Ledger s) {h : Handle} {r : Record} (hr : InRange s h)
    (hsz : RecordSized s.cfg r) (hq : r.queued = (recAt s h).queued) (hv : r.valid = (recAt s h).valid)
    (hf : BufferFits s.cfg (recAt s h) → BufferFits s.cfg r) (hc : r.chain = (recAt s h).chain) :
    Ledger (setRec s h r) := by
  have hsame := recAt_setRec_same s h r (hs.sized.hasRecord hr)
  have hother := fun k => recAt_setRec_other s h k r
  have ho : owned (setRec s h r) = owned s := by
    rw [eq_of_sansRecords (sansRecords_setRec s h r)]
    rfl
  refine hs.keep [] (sameShape_setRec s h r) (by simpa using hs.queue) (by rw [ho]; rfl) ?_ ?_ ?_
  · intro k hk
    by_cases e : k = h
    · rw [e, hsame]; exact hsz
    · rw [hother k e]; exact hs.sized.record hk
  · intro k hk
    by_cases e : k = h
    · simp [e, hsame, hq]
    · simp [hother k e]
  · intro k hk
    have ha : allocAt (setRec s h r) k = allocAt s k := allocAt_congr (by simp) k
    by_cases e : k = h
    · subst e
      exact ⟨fun _ => ha, by rw [hsame, hv], by rw [hsame]; exact hf, by rw [hsame, hc]⟩
    · exact .of_same (hother k e) fun _ => ha

theorem Running.keep_setRec {h : Handle} {s : State} (hr : Running h s) {r : Record} (hl : Ledger (setRec s h r)) :
    Running h (setRec s h r) :=
  ⟨hl, hr.beside.congr_ntf (by simp) (by simp), by simp [hr.cur], by simp [hr.busy], by simp [hr.busOut],
    by simp [hr.ntf]⟩

theorem Running.keep_setOutcome {h : Handle} {s : State} (hr : Running h s) (w : BitVec 16) (c : Byte) :
    Running h (setOutcome h w c s) := by
  have hsz := hr.ledger.sized.record hr.inRange
  exact hr.keep_setRec (hr.ledger.keep_setRec hr.inRange ⟨hsz.inl, hsz.extAddr⟩ rfl rfl id rfl)

/-- BufWrite stores a byte of a read (rules R61, R186). -/
theorem Running.keep_bufWrite {h : Handle} {s u : State} (hr : Running h s) {i : Nat} {v : Byte}
    (hw : bufWrite s h i v = .next u) : Running h u := by
  obtain ⟨-, -, rfl⟩ | ⟨-, ha, rfl⟩ := bufWrite_next hw
  · have hsz := hr.ledger.sized.record hr.inRange
    exact hr.keep_setRec (hr.ledger.keep_setRec hr.inRange ⟨by simpa using hsz.inl, hsz.extAddr⟩ rfl rfl id rfl)
  · obtain ⟨⟨h1, h2, h3, h4⟩, ⟨hwf, hb⟩, hh⟩ := hr.beside
    exact ⟨hr.ledger.keep_registers s.st s.busy s.idx s.busOut s.ntf s.busLog _,
      ⟨⟨h1, h2, h3, h4⟩, ⟨memStore_wf _ _ _ hwf, memStore_bound _ _ _ _ hb ha⟩, hh⟩, hr.cur, hr.busy, hr.busOut, hr.ntf⟩

/-! ### Records are let go of (rules R142, R191, R192) -/

/-- The ledger is kept where the first owned record is released. -/
theorem Ledger.keep_release {s t : State} (hs : Ledger s) {h : Handle} (ho : owned s = h :: owned t)
    (hsh : SameShape (release s h) t) (hq : t.qCount ≤ s.cfg.queueCap ∧ t.qRd < s.cfg.queueCap)
    (hrec : ∀ k, recAt t k = recAt (release s h) k) (ha : t.alloc = (release s h).alloc) : Ledger t := by
  have hrel : ∀ k, recAt t k = if k = h then { recAt s k with queued := false } else recAt s k := fun k =>
    (hrec k).trans (recAt_release s h k (hs.sized.hasRecord (hs.inRange h (ho ▸ List.mem_cons_self))))
  have hshs : SameShape s t := by
    obtain ⟨h1, h2, h3, h4, h5, h6, h7⟩ := hsh
    constructor <;> simp [*]
  refine hs.keep [h] hshs hq ho ?_ ?_ ?_
  · intro k hk
    have hsz := hs.sized.record hk
    rw [hrel]
    split <;> exact ⟨hsz.inl, hsz.extAddr⟩
  · intro k _
    rw [hrel]
    split <;> simp [*]
  · intro k hk
    have hne : k ≠ h := fun e => (List.nodup_cons.mp (ho ▸ hs.once)).1 (e ▸ hk)
    exact .of_same (by rw [hrel, if_neg hne]) fun hp =>
      (allocAt_congr ha k).trans (allocAt_release_other s h k hne hp)

theorem Running.vacant_letGo {h : Handle} {s : State} (hr : Running h s) : Vacant { release s h with cur := none } := by
  have hlive : liveEntries { release s h with cur := none } = liveEntries s :=
    liveEntries_congr (by simp) (by simp) (by simp) (by simp)
  refine ⟨hr.ledger.keep_release (h := h) ?_ ⟨rfl, rfl, rfl, rfl, rfl, rfl, rfl⟩ (by simpa using hr.ledger.queue)
    (fun _ => rfl) rfl, hr.beside.congr_ntf (sansEngine_release s h) (by simp), rfl, by simp [hr.busOut], by simp [NoTxn, hr.ntf]⟩
  simp only [owned, hlive, hr.cur]
  rfl

theorem Vacant.keep_popRelease {s : State} (hv : Vacant s) (hpos : 0 < s.qCount) :
    Vacant (release (qPop s) (qOldest s)) := by
  have hq := hv.ledger.queue
  have hlive : liveEntries (release (qPop s) (qOldest s)) = liveEntries (qPop s) :=
    liveEntries_congr (by simp) (by simp) (by simp) (by simp)
  have he : release (qPop s) (qOldest s) =
      { release s (qOldest s) with qRd := (qPop s).qRd, qCount := (qPop s).qCount } := by
    unfold release setRec
    split <;> rfl
  refine ⟨hv.ledger.keep_release (h := qOldest s) ?_ ?_ ?_ ?_ ?_, hv.beside.congr_ntf (by simp) (by simp),
    by simp [hv.cur], by simp [hv.busOut], by simpa [NoTxn] using hv.noTxn⟩
  · simpa [owned, hv.cur, hlive] using liveEntries_qPop s hpos hq.2
  · rw [he]; exact ⟨rfl, rfl, rfl, rfl, rfl, rfl, rfl⟩
  · simpa using ⟨hq.1.trans (Nat.le_succ _), Nat.mod_lt _ (Nat.zero_lt_of_lt hq.2)⟩
  · rw [he]; exact fun _ => rfl
  · rw [he]

theorem Vacant.keep_discardChain (n : Nat) : ∀ {c : Bool} {s : State}, Vacant s → Vacant (discardChain n c s) := by
  induction n with
  | zero => exact fun hv => hv
  | succ n ih =>
    intro c s hv
    unfold discardChain
    split
    · rename_i hc
      simp only [Bool.and_eq_true, decide_eq_true_eq] at hc
      exact ih (hv.keep_popRelease hc.2)
    · exact hv

theorem Vacant.keep_st {s : State} (hv : Vacant s) (st : EngineState) : Vacant { s with st := st } :=
  ⟨hv.ledger.keep_registers st s.busy s.idx s.busOut s.ntf s.busLog s.dmem, hv.beside.congr_ntf rfl rfl, hv.cur,
    hv.busOut, hv.noTxn⟩

theorem Running.vacant_finishSuccess {h : Handle} {s : State} (hr : Running h s) : Vacant (finishSuccess h s) :=
  hr.vacant_letGo.keep_st .idle

theorem Running.vacant_finishError {h : Handle} {s : State} (hr : Running h s) : Vacant (finishError h s) :=
  (hr.vacant_letGo.keep_discardChain _).keep_st .idle

/-! ### Back to a wait: the invariants hold again -/

/-- The IDLE arm starts the oldest queued record or ends at rest (rule R180). -/
theorem Vacant.inv_idleArm {s : State} (hv : Vacant s) (hst : s.st = .idle) : Inv (idleArm s) := by
  have hq := hv.ledger.queue
  have ho : owned (idleArm s) = owned s := by
    rw [owned_idleArm hv.cur hq.2]
    simp [owned, hv.cur]
  have hbound : (idleArm s).qCount ≤ s.cfg.queueCap ∧ (idleArm s).qRd < s.cfg.queueCap := by
    unfold idleArm
    split
    · exact hq
    · exact ⟨(Nat.sub_le _ _).trans hq.1, Nat.mod_lt _ (Nat.zero_lt_of_lt hq.2)⟩
  have hl : Ledger (idleArm s) := by
    refine hv.ledger.keep [] (by constructor <;> simp) hbound (by rw [ho]; rfl) ?_ ?_ ?_
    · intro h hh; rw [recAt_idleArm]; exact hv.ledger.sized.record hh
    · intro h _; simp [recAt_idleArm]
    · exact fun h _ => .of_same (recAt_idleArm s h) fun _ => allocAt_congr (by simp) h
  have hb : BesideEngine (idleArm s) := hv.beside.congr_ntf (by simp) (by simp)
  refine .of_parts hl ?_ hb.callbacks hb.memory
  have htxn : ∀ h cb ctx w c, (idleArm s).ntf ≠ .txn h cb ctx w c :=
    fun h cb ctx w c => by simpa using hv.noTxn h cb ctx w c
  by_cases hc : s.qCount = 0
  · rw [idleArm_empty hc] at htxn ⊢
    exact ⟨by simp [hv.cur, hst, hc], fun _ => ⟨hst, hc⟩, by simp [hv.cur],
      fun _ _ _ _ _ he => absurd he (htxn _ _ _ _ _), by simp [WaitsFor, hst, hv.busOut], by simp [hv.beside.hHold]⟩
  · rw [idleArm_pops hc] at htxn ⊢
    exact ⟨by simp, by simp, by simp [EngineAt], fun _ _ _ _ _ he => absurd he (htxn _ _ _ _ _),
      by simp [WaitsFor, outstandingAfter], by simp [hv.beside.hHold]⟩

/-- The engine issues a bus command and waits for its answer. -/
theorem Running.inv_wait {h : Handle} {s : State} (hr : Running h s) (c : BusCmd) (st : EngineState)
    (hw : WaitsFor st (outstandingAfter none c)) (hat : EngineAt { busCmd c s with st := st } h) :
    Inv { busCmd c s with st := st } := by
  have hl := hr.ledger.keep_registers st s.busy s.idx (outstandingAfter s.busOut c) s.ntf (s.busLog ++ [c]) s.dmem
  have hb : BesideEngine { busCmd c s with st := st } := hr.beside.congr_ntf rfl rfl
  refine .of_parts hl ⟨?_, ?_, ?_, ?_, ?_, ?_⟩ hb.callbacks hb.memory
  · simp [hr.busy, hr.cur]
  · simp [hr.cur]
  · intro k hk
    rw [busCmd_cur, hr.cur, Option.some.injEq] at hk
    exact hk ▸ hat
  · simp [hr.ntf]
  · simpa [hr.busOut] using hw
  · simp [hr.beside.hHold]

/-- The engine completes its record and waits for the completion handler (rules R188, R189). -/
theorem Running.inv_halt {h : Handle} {s : State} (hr : Running h s) (hst : s.st = .stop ∨ s.st = .error)
    (hcb : (recAt s h).callback ≠ 0) : Inv (notify (completionNtf s h) s) := by
  have hl := hr.ledger.keep_registers s.st s.busy s.idx s.busOut (completionNtf s h) s.busLog s.dmem
  have hdue := hr.beside.callbacks.tickDue_nil (by simp [inTickHandler, hr.ntf])
  have hb : BesideEngine (notify (completionNtf s h) s) := hr.beside.congr rfl (absurd hdue)
  refine .of_parts hl ⟨?_, ?_, ?_, ?_, ?_, ?_⟩ hb.callbacks hb.memory
  · simp [hr.busy, hr.cur]
  · simp [hr.cur]
  · intro k hk
    rw [notify_cur, hr.cur, Option.some.injEq] at hk
    subst hk
    rcases hst with hst | hst <;> simpa [EngineAt, hst] using ⟨rfl, hcb⟩
  · intro k cb ctx w c he
    simp only [notify_ntf, completionNtf, Ntf.txn.injEq] at he
    exact ⟨he.1 ▸ hr.cur, hst⟩
  · rcases hst with hst | hst <;> simp [WaitsFor, hst, hr.busOut]
  · simp [hr.beside.hHold]

end Sys2Proof.Machine
end

section
namespace Sys2Proof.Machine

@[simp] theorem recAt_busCmd (c : BusCmd) (s : State) (k : Handle) : recAt (busCmd c s) k = recAt s k :=
  recAt_congr rfl rfl rfl k

/-! ### The arms end in the invariants (rules R181 to R189) -/

/-- The step answers a next state that meets the invariants. -/
def Completes (o : Result) : Prop := ∃ t, o = .next t ∧ Inv t

theorem completes_next {s : State} (hi : Inv s) : Completes (.next s) := ⟨s, rfl, hi⟩

theorem Completes.inv {o : Result} {t : State} (hc : Completes o) (ho : o = .next t) : Inv t := by
  obtain ⟨u, hu, hi⟩ := hc
  cases hu.symm.trans ho
  exact hi

theorem Running.inv_stopArm {h : Handle} {s : State} (hr : Running h s) (hst : s.st = .stop) : Inv (stopArm h s) := by
  have ho := (hr.keep_stopIfAsked h).keep_setOutcome 0 0
  by_cases hc : (recAt s h).chain = false ∧ (recAt s h).callback ≠ 0
  · rw [stopArm_notify hc.1 hc.2]
    refine ho.inv_halt (.inl (by simpa using hst)) ?_
    rw [recAt_setOutcome_same _ _ _ _ (hr.keep_stopIfAsked h).hasRecord, recAt_stopIfAsked]
    exact hc.2
  · rw [stopArm_silent (by simpa [Decidable.or_iff_not_imp_left] using hc)]
    exact ho.vacant_finishSuccess.inv_idleArm rfl

theorem Running.inv_errorArm {h : Handle} {s : State} (hr : Running h s) (hst : s.st = .error) (p : Phase) (c : Byte) :
    Inv (errorArm h p c s) := by
  have ho := (hr.keep_setOutcome (failureStatus p s.idx) c).keep_busStop
  by_cases hcb : (recAt s h).callback = 0
  · rw [errorArm_silent hcb]
    exact ho.vacant_finishError.inv_idleArm rfl
  · rw [errorArm_notify hcb]
    refine ho.inv_halt (.inr (by simpa using hst)) ?_
    rw [recAt_busCmd, recAt_setOutcome_same _ _ _ _ hr.hasRecord]
    exact hcb

theorem Running.completes_failCheck {h : Handle} {s : State} (hr : Running h s) (p : Phase) (c : Byte) :
    Completes (failCheck h p c s) :=
  completes_next ((hr.keep_registers .error s.idx s.busLog).inv_errorArm rfl p c)

theorem Running.completes_dataSendArm {h : Handle} {s : State} (hr : Running h s) : Completes (dataSendArm h s) := by
  by_cases hi : s.idx.toNat < (recAt s h).byteCount.toNat
  · cases hd : (recAt s h).dir with
    | write =>
      obtain ⟨b, -, hb⟩ := dataSendArm_write hi hd hr.bufferFits (hr.ledger.sized.inl h hr.inRange)
      rw [hb]
      exact completes_next (hr.inv_wait (.tx b) .dataCheck (.inl rfl) hi)
    | read =>
      rw [dataSendArm_read hi hd]
      exact completes_next (hr.inv_wait (.rx _) .dataCheck (.inr rfl) hi)
  · rw [dataSendArm_done hi]
    exact completes_next ((hr.keep_registers .stop s.idx s.busLog).inv_stopArm rfl)

theorem Running.completes_byteDone {h : Handle} {s : State} (hr : Running h s) : Completes (byteDone h s) :=
  (hr.keep_registers .dataSend (s.idx + 1) s.busLog).completes_dataSendArm

theorem Running.completes_startArm {h : Handle} {s : State} (hr : Running h s) (hidx : s.idx = 0) (e : BusEvent) :
    Completes (startArm h e s) := by
  unfold startArm
  split
  · exact completes_next ((hr.keep_registers .address s.idx s.busLog).inv_wait (.addr _) .addressAck rfl hidx)
  · exact hr.completes_failCheck _ _

theorem Running.completes_addressAckArm {h : Handle} {s : State} (hr : Running h s) (e : BusEvent) :
    Completes (addressAckArm h e s) := by
  unfold addressAckArm
  split
  · exact (hr.keep_registers .dataSend s.idx s.busLog).completes_dataSendArm
  · exact hr.completes_failCheck _ _

/-- A byte of the transaction is in progress, so a read stores it in its buffer (rules R61, R186). -/
theorem Running.completes_dataCheckArm {h : Handle} {s : State} (hr : Running h s)
    (hidx : s.idx.toNat < (recAt s h).byteCount.toNat) (e : BusEvent) : Completes (dataCheckArm h e s) := by
  unfold dataCheckArm
  split
  · unfold writeCheckArm
    split
    · exact hr.completes_byteDone
    · exact hr.completes_failCheck _ _
  · unfold readCheckArm
    split
    · obtain ⟨u, hu⟩ := bufWrite_ok (v := e.data) hr.bufferFits (hr.ledger.sized.inl h hr.inRange) hidx
      rw [hu]
      exact (hr.keep_bufWrite hu).completes_byteDone
    · exact hr.completes_failCheck _ _

/-! ### Bus events and RETURN (rules R193, R194) -/

/-- The engine waits for a bus event only with a current record, in one of three states (rule R38 items 4 and 8). -/
theorem Inv.waits {s : State} (hi : Inv s) (ho : s.busOut ≠ none) :
    ∃ h, s.cur = some h ∧ (s.st = .start ∧ s.idx = 0 ∨ s.st = .addressAck ∧ s.idx = 0 ∨
      s.st = .dataCheck ∧ s.idx.toNat < (recAt s h).byteCount.toNat) := by
  have hw := hi.busOut
  cases hc : s.cur with
  | none => simp [(hi.idle hc).1, WaitsFor, ho] at hw
  | some h =>
    have hat := hi.running h hc
    refine ⟨h, rfl, ?_⟩
    cases hst : s.st <;> simp_all [EngineAt, WaitsFor]

theorem Inv.running_of_event {s : State} (hi : Inv s) {h : Handle} (hc : s.cur = some h) (hn : s.ntf = .none) :
    Running h { s with busOut := none } :=
  ⟨hi.ledger.keep_registers s.st s.busy s.idx none s.ntf s.busLog s.dmem,
    (BesideEngine.mk hi.callbacks hi.memoryInv (hi.hHold_of_ntf_none hn)).congr_ntf rfl rfl, hc,
    hi.busy.mpr (.inl (by simp [hc])), rfl, hn⟩

theorem Inv.completes_busEventStep {s : State} (hi : Inv s) (ho : s.busOut ≠ none) (hn : s.ntf = .none) (e : BusEvent) :
    Completes (busEventStep e s) := by
  obtain ⟨h, hc, hst⟩ := hi.waits ho
  have hr := hi.running_of_event hc hn
  obtain ⟨hst, hidx⟩ | ⟨hst, -⟩ | ⟨hst, hidx⟩ := hst
  · rw [busEventStep_start hst hc]
    exact hr.completes_startArm hidx e
  · rw [busEventStep_addressAck hst hc]
    exact hr.completes_addressAckArm e
  · rw [busEventStep_dataCheck hst hc]
    exact hr.completes_dataCheckArm hidx e

/-- After a completion handler the engine lets go of its record and goes on (rule R194). -/
theorem Inv.completes_engineResume {s : State} (hi : Inv s) {h : Handle} {cb w : BitVec 16} {ctx : BitVec 32} {c : Byte}
    (hn : s.ntf = .txn h cb ctx w c) (hh : s.hHold = false) : Completes (engineResume s) := by
  obtain ⟨hc, hst⟩ := hi.txnHeld h cb ctx w c hn
  have ho : s.busOut = none := by
    have := hi.busOut
    rcases hst with hst | hst <;> simpa [hst, WaitsFor] using this
  have hdue := hi.callbacks.tickDue_nil (by simp [inTickHandler, hn])
  have hr : Running h (leaveHandler s) :=
    ⟨hi.ledger.keep_registers s.st s.busy s.idx s.busOut .none s.busLog s.dmem,
      (BesideEngine.mk hi.callbacks hi.memoryInv hh).congr rfl (absurd hdue), hc,
      hi.busy.mpr (.inl (by simp [hc])), ho, rfl⟩
  rw [engineResume_eq hc hst]
  refine completes_next ?_
  split
  · exact hr.vacant_finishSuccess.inv_idleArm rfl
  · exact hr.vacant_finishError.inv_idleArm rfl

theorem Inv.completes_execRet {s : State} (hi : Inv s) (hm : hostMayAct s = true) : Completes (execRet s) := by
  unfold execRet
  cases hn : s.ntf with
  | none => exact completes_next (hi.keep_deliver _ _ _)
  | txn h cb ctx w c =>
    have hh : s.hHold = false := by simpa [hostMayAct, contextOf, hn] using hm
    obtain ⟨u, hu, hiu⟩ := hi.completes_engineResume hn hh
    simp only [hu]
    exact completes_next (hiu.keep_deliver _ _ _)
  | tick tb i cb a =>
    have hh : s.hHold = false := by simpa [hostMayAct, contextOf, hn] using hm
    exact completes_next ((hi.keep_tickReturn (by simp [NoTxn, hn]) hh).keep_deliver _ _ _)

/-! ### SUBMIT (rule R162) -/

/-- A handle that passes SUBMIT's host-duty checks is ready, and not owned (rules R38 item 2, R162). -/
theorem submitReady_of_fault_none {s : State} {h : Handle} (hf : submitFault s h = none) : SubmitReady s h := by
  unfold submitFault at hf
  split at hf
  · cases hf
  · rename_i ha
    split at hf
    · cases hf
    · rename_i hq
      split at hf
      · cases hf
      · rename_i hv
        refine ⟨by simpa using ha, by simpa using hq, by simpa using hv, ?_⟩
        unfold BufferFits
        cases hb : (recAt s h).bufSel <;>
          simpa only [hb, ite_eq_right_iff, reduceCtorEq, imp_false, Nat.not_lt] using hf

theorem submitReady_of_faults_none {s : State} {hs : List Handle} (hf : submitFaults s hs = none) :
    hs.Nodup ∧ ∀ h ∈ hs, SubmitReady s h := by
  unfold submitFaults at hf
  split at hf
  · cases hf
  · rename_i hnd
    exact ⟨by simpa using hnd, fun h hh => submitReady_of_fault_none (List.findSome?_eq_none_iff.mp hf h hh)⟩

end Sys2Proof.Machine
end

section
namespace Sys2Proof.Machine

theorem not_owned_of_submitReady {s : State} (hs : Ledger s) {h : Handle} (hr : InRange s h) (hready : SubmitReady s h) :
    h ∉ owned s := fun ho => by simpa [hready.free] using (hs.queued h hr).mpr ho

theorem enqueue_qslot_length (c : Bool) (h : Handle) (s : State) : (enqueue c h s).qslot.length = s.qslot.length := by
  simp [enqueue]

theorem sameShape_enqueueAll (hs : List Handle) (s : State) : SameShape s (enqueueAll hs s) := by
  constructor
  case qslot => exact enqueueAll_keeps (·.qslot.length) enqueue_qslot_length hs s
  case pool => exact enqueueAll_keeps (·.pool.length) (fun _ _ _ => by simp [enqueue]) hs s
  case caller => exact enqueueAll_keeps (·.caller.length) (fun _ _ _ => by simp [enqueue]) hs s
  all_goals simp

/-- The submitted handles are owned behind the others, in submission order (rule R162). -/
theorem Ledger.owned_enqueueAll {s : State} (hl : Ledger s) {hs : List Handle}
    (hcap : hs.length ≤ s.cfg.queueCap - s.qCount) : owned (enqueueAll hs s) = owned s ++ hs := by
  have hq := hl.queue
  have hlive := (liveEntries_enqueueAll hs s hl.sized.qslot (by omega) hq.2).1
  simp [owned, hlive]

/-- The push of an accepted SUBMIT keeps the ledger: CHAIN = 0 on the last handle (rules R38 item 5, R162). -/
theorem Ledger.keep_enqueueAll {s : State} (hl : Ledger s) {hs : List Handle} (hin : ∀ h ∈ hs, InRange s h)
    (hnd : hs.Nodup) (hready : ∀ h ∈ hs, SubmitReady s h) (hcap : hs.length ≤ s.cfg.queueCap - s.qCount) :
    Ledger (enqueueAll hs s) := by
  have hq := hl.queue
  have ho := hl.owned_enqueueAll hcap
  have hsh := sameShape_enqueueAll hs s
  have hnew := recAt_enqueueAll hs s hnd fun h hh => hl.sized.hasRecord (hin h hh)
  have hnew' : ∀ h ∈ hs, ∃ c, recAt (enqueueAll hs s) h = { recAt s h with chain := c, queued := true } := fun h hh => by
    obtain ⟨k, hk⟩ := List.mem_iff_getElem?.mp hh
    exact ⟨_, hnew k h hk⟩
  have hold := recAt_enqueueAll_other hs s
  have hnot : ∀ h ∈ hs, h ∉ owned s := fun h hh => not_owned_of_submitReady hl (hin h hh) (hready h hh)
  refine ⟨hsh.cfg ▸ hl.legal, hl.sized.of_shape hsh fun h hh => ?_, ?_, fun h hh => (hsh.inRange h).mpr ?_, ?_,
    fun h hh => ?_, fun h hh hp => ?_, fun h hh => ?_, fun h hh => ?_⟩
  · have hsz := hl.sized.record hh
    by_cases hm : h ∈ hs
    · obtain ⟨c, hc⟩ := hnew' h hm
      rw [hc]
      exact ⟨hsz.inl, hsz.extAddr⟩
    · rw [hold h hm]
      exact hsz
  · obtain ⟨-, hcount, -⟩ := liveEntries_enqueueAll hs s hl.sized.qslot (by omega) hq.2
    rw [hcount, hsh.cfg, enqueueAll_qRd]
    exact ⟨by omega, hq.2⟩
  · rw [ho, List.mem_append] at hh
    exact hh.elim (hl.inRange h) (hin h)
  · rw [ho]
    exact hl.once.append hnd fun h h1 h2 => hnot h h2 h1
  · rw [ho, List.mem_append]
    by_cases hm : h ∈ hs
    · obtain ⟨c, hc⟩ := hnew' h hm
      simp [hc, hm]
    · rw [hold h hm, hl.queued h ((hsh.inRange h).mp hh)]
      simp [hm]
  · rw [allocAt_congr (enqueueAll_alloc hs s)]
    rw [ho, List.mem_append] at hh
    exact hh.elim (fun h1 => hl.allocated h h1 hp) (fun h1 => (hready h h1).allocated hp)
  · rw [hsh.cfg]
    by_cases hm : h ∈ hs
    · obtain ⟨c, hc⟩ := hnew' h hm
      rw [hc]
      exact ⟨(hready h hm).valid, (hready h hm).fits⟩
    · rw [ho, List.mem_append] at hh
      rw [hold h hm]
      exact hl.ready h (hh.resolve_right hm)
  · rw [ho, List.getLast?_append] at hh
    cases hlast : hs.getLast? with
    | none =>
      have hnil := List.getLast?_eq_none_iff.mp hlast
      rw [hlast, Option.none_or] at hh
      rw [hold h (by simp [hnil])]
      exact hl.chainEnds h hh
    | some k =>
      rw [hlast, Option.some_or, Option.some.injEq] at hh
      subst hh
      rw [List.getLast?_eq_getElem?] at hlast
      rw [hnew _ _ hlast]
      simp only [decide_eq_false_iff_not]
      omega

/-- A busy engine works on a record (rule R38 item 4). -/
theorem Inv.cur_of_busy {s : State} (hi : Inv s) (hb : s.busy = true) : s.cur ≠ none := fun hc => by
  obtain ⟨hst, hq⟩ := hi.idle hc
  simpa [hc, hst, hq] using hi.busy.mp hb

/-- An idle engine has nothing to do (rule R38 item 4). -/
theorem Inv.at_rest {s : State} (hi : Inv s) (hb : s.busy = false) : s.cur = none ∧ s.st = .idle ∧ s.busOut = none := by
  have hc : s.cur = none := by
    by_contra hne
    simp [hi.busy.mpr (.inl hne)] at hb
  have hst := (hi.idle hc).1
  exact ⟨hc, hst, by simpa [hst, WaitsFor] using hi.busOut⟩

/-- While the engine is busy a push changes nothing for its current record (rule R162). -/
theorem Inv.keep_enqueueAll {s : State} (hi : Inv s) (hb : s.busy = true) {hs : List Handle}
    (hl : Ledger (enqueueAll hs s)) (hnot : ∀ h ∈ hs, h ∉ owned s) : Inv (enqueueAll hs s) := by
  have hne := hi.cur_of_busy hb
  refine .of_parts hl ⟨by simp [hb, hne], by simp [hne], fun h hc => ?_, by simpa using hi.txnHeld,
    by simpa using hi.busOut, by simpa using hi.handlerHeld⟩ (hi.callbacks.congr_ntf (by simp) (by simp)) (hi.memoryInv.congr (by simp))
  have hcs : s.cur = some h := by simpa using hc
  have hr : recAt (enqueueAll hs s) h = recAt s h :=
    recAt_enqueueAll_other hs s h fun hm => hnot h hm (by simp [owned, hcs])
  simpa [EngineAt, completionNtf, hr] using hi.running h hcs

/-- SUBMIT's kick starts an engine at rest and leaves a busy one alone (rule R162). -/
theorem Inv.completes_kick {s : State} (hi : Inv s) {hs : List Handle} (hl : Ledger (enqueueAll hs s))
    (hnot : ∀ h ∈ hs, h ∉ owned s) : Completes (kick (enqueueAll hs s)) := by
  cases hb : s.busy with
  | true =>
    have hk : kick (enqueueAll hs s) = .next (enqueueAll hs s) := by simp [kick, hb]
    rw [hk]
    exact completes_next (hi.keep_enqueueAll hb hl hnot)
  | false =>
    obtain ⟨hc, hst, hout⟩ := hi.at_rest hb
    have hh : s.hHold = false := by
      by_contra hh
      simp [(hi.handlerHeld (by simpa using hh)).2] at hb
    have htxn : NoTxn s := fun h cb ctx w c hn => by simpa [hc] using (hi.txnHeld h cb ctx w c hn).1
    have hv : Vacant (enqueueAll hs s) :=
      ⟨hl, (BesideEngine.mk hi.callbacks hi.memoryInv hh).congr_ntf (by simp) (by simp), by simpa using hc,
        by simpa using hout, by simpa [NoTxn] using htxn⟩
    rw [kick_idle (by simpa using hst), enqueueAll_busy, hb]
    exact completes_next (hv.inv_idleArm (by simpa using hst))

/-- A held handler is in handler context with a busy engine (rule R362). -/
theorem Inv.keep_hHold {s : State} (hi : Inv s) (b : Bool) (hb : b = true → s.ntf ≠ .none ∧ s.busy = true) :
    Inv { s with hHold := b } :=
  { hi with sized := { hi.sized with }, handlerHeld := hb }

theorem Inv.keep_holdContext {s : State} (hi : Inv s) (hb : s.busy = true) : Inv (holdContext s) := by
  unfold holdContext
  split
  · exact hi.keep_outside ..
  · rename_i hx
    exact hi.keep_hHold true fun _ => ⟨fun hn => by simp [contextOf, hn] at hx, hb⟩

theorem Inv.completes_execSubmit {s : State} (hi : Inv s) (b : Bool) (hs : List Handle) :
    Completes (execSubmit b hs s) := by
  unfold execSubmit
  split
  · exact completes_next (hi.keep_deliver _ _ _)
  · rename_i hin
    have hin : ∀ h ∈ hs, InRange s h := by simpa [InRange] using hin
    split
    · exact completes_next (hi.keep_outside ..)
    · rename_i hf
      obtain ⟨hnd, hready⟩ := submitReady_of_faults_none hf
      split
      · exact completes_next (hi.keep_deliver _ _ _)
      · rename_i hcap
        have hl := hi.ledger.keep_enqueueAll hin hnd hready (Nat.le_of_not_lt hcap)
        obtain ⟨u, hu, hiu⟩ := hi.completes_kick hl fun h hh =>
          not_owned_of_submitReady hi.ledger (hin h hh) (hready h hh)
        rw [hu, andThen_next]
        unfold finishSubmit
        split
        · rename_i hb
          exact completes_next (hiu.keep_holdContext (by simp_all))
        · exact completes_next (hiu.keep_deliver _ _ _)

end Sys2Proof.Machine
end

section
namespace Sys2Proof.Machine

/-! ### Every enabled action completes and keeps the invariants -/

/-- Every command but SUBMIT and RETURN, which run the engine, answers in every state. -/
theorem exec_answers (i : Instr) (s : State) (hsubmit : ∀ b hs, i ≠ .submit b hs) (hret : i ≠ .ret) :
    ∃ t, exec i s = .next t := by
  cases i with
  | submit b hs => exact absurd rfl (hsubmit b hs)
  | ret => exact absurd rfl hret
  | clkinit e => exact ⟨_, rfl⟩
  | nowms => exact ⟨_, rfl⟩
  | nowus => exact ⟨_, rfl⟩
  | status => exact ⟨_, rfl⟩
  | reserve n =>
    simp only [exec, execReserve]
    split <;> exact ⟨_, rfl⟩
  | free h =>
    simp only [exec, execFree]
    repeat' split
    all_goals exact ⟨_, rfl⟩
  | setup h a d stop c =>
    simp only [exec, execSetup]
    repeat' split
    all_goals exact ⟨_, rfl⟩
  | wrrec h f k v =>
    simp only [exec, execWrrec]
    repeat' split
    all_goals exact ⟨_, rfl⟩
  | rdrec h f k =>
    simp only [exec, execRdrec]
    split <;> exact ⟨_, rfl⟩
  | cbreg t v cb =>
    simp only [exec, execCbreg]
    repeat' split
    all_goals exact ⟨_, rfl⟩
  | cbunreg t cb =>
    simp only [exec, execCbunreg]
    repeat' split
    all_goals exact ⟨_, rfl⟩

theorem Inv.keep_exec {s t : State} (hi : Inv s) {i : Instr} (hsubmit : ∀ b hs, i ≠ .submit b hs) (hret : i ≠ .ret)
    (hx : exec i s = .next t) : Inv t := by
  cases i with
  | submit b hs => exact absurd rfl (hsubmit b hs)
  | ret => exact absurd rfl hret
  | reserve n => exact hi.keep_execReserve hx
  | free h => exact hi.keep_execFree hx
  | setup h a d stop c => exact hi.keep_execSetup hx
  | wrrec h f k v => exact hi.keep_execWrrec hx
  | rdrec h f k => exact hi.keep_execRdrec hx
  | clkinit e => exact hi.keep_execClkinit hx
  | nowms => exact hi.keep_execNowms hx
  | nowus => exact hi.keep_execNowus hx
  | cbreg t v cb => exact hi.keep_execCbreg hx
  | cbunreg t cb => exact hi.keep_execCbunreg hx
  | status => exact hi.keep_execStatus hx

theorem Inv.completes_exec {s : State} (hi : Inv s) (hm : hostMayAct s = true) (i : Instr) : Completes (exec i s) := by
  by_cases hsubmit : ∃ b hs, i = .submit b hs
  · obtain ⟨b, hs, rfl⟩ := hsubmit
    exact hi.completes_execSubmit b hs
  · by_cases hret : i = .ret
    · rw [hret]
      exact hi.completes_execRet hm
    · have hsubmit : ∀ b hs, i ≠ .submit b hs := fun b hs e => hsubmit ⟨b, hs, e⟩
      obtain ⟨t, ht⟩ := exec_answers i s hsubmit hret
      exact ⟨t, ht, hi.keep_exec hsubmit hret ht⟩

theorem Inv.completes_issueCommand {s : State} (hi : Inv s) (hm : hostMayAct s = true)
    (hd : decode s.port ≠ .incomplete) : Completes (issueCommand s) := by
  unfold issueCommand
  split
  · rename_i i rest _
    have hi' : Inv { s with port := rest } := hi.keep_outside ..
    exact hi'.completes_exec hm i
  · exact completes_next ((hi.keep_outside ..).keep_deliver _ _ _)
  · exact absurd ‹_› hd

theorem Inv.keep_memStore {s : State} (hi : Inv s) {a : Nat} (v : Byte) (ha : a < 2 ^ s.cfg.dmemAw) :
    Inv { s with dmem := memStore s.dmem a v } :=
  { hi with
    sized := { hi.sized with }
    memory := ⟨memStore_wf _ _ _ hi.memory.1, memStore_bound _ _ _ _ hi.memory.2 ha⟩ }

/-- An enabled action goes on to a state that meets the invariants, a partial command and a host write beyond DMEM
apart. -/
theorem Inv.completes_act {s : State} (hi : Inv s) {a : Action} (he : enabled s a = true)
    (hd : a = .command → decode s.port ≠ .incomplete)
    (hw : ∀ address value, a = .hostWrite address value → address < 2 ^ s.cfg.dmemAw) : Completes (act a s) := by
  cases a with
  | command => exact hi.completes_issueCommand he (hd rfl)
  | busEvent code data =>
    simp only [enabled, Bool.and_eq_true, Option.isSome_iff_ne_none, decide_eq_true_eq] at he
    exact hi.completes_busEventStep he.1 he.2 _
  | fineTick => exact completes_next (hi.keep_fineTickStep (by simpa [enabled] using he))
  | coarseTick =>
    simp only [enabled, Bool.and_eq_true, decide_eq_true_eq] at he
    exact completes_next (hi.keep_coarseTickStep he.2)
  | liftBackground => exact completes_next ((hi.keep_outside ..).keep_deliver _ _ _)
  | liftHandler => exact completes_next ((hi.keep_hHold false nofun).keep_deliver _ _ _)
  | hostWrite address value =>
    rw [act, memWrite_ok s address value (hw _ _ rfl)]
    exact completes_next (hi.keep_memStore value (hw _ _ rfl))

/-- What is taken is an action of the spec: a whole command, or a write inside DMEM. -/
theorem act_next {s t : State} {a : Action} (hx : act a s = .next t) :
    (a = .command → decode s.port ≠ .incomplete) ∧
      ∀ address value, a = .hostWrite address value → address < 2 ^ s.cfg.dmemAw := by
  refine ⟨?_, ?_⟩
  · rintro rfl hd
    simp [act, issueCommand, hd] at hx
  · rintro address value rfl
    exact (memWrite_next hx).1

/-- Settles O9: between two waits of the engine `Running` and `Vacant` stand in for `Inv`, and every action ends in a
state that meets it. -/
theorem everyStepKeepsTheInvariants : Obligations.EveryStepKeepsTheInvariants := by
  intro s t hi hx
  obtain ⟨-, ⟨-, rfl⟩ | ⟨a, more, -, he, ha⟩⟩ := step_next hx
  · exact hi
  · have hi' : Inv { s with agenda := more } := hi.keep_outside ..
    obtain ⟨hd, hw⟩ := act_next ha
    exact (hi'.completes_act he hd hw).inv ha

/-! ### The enabling conditions (rules R163, R305 to R309, R311) -/

theorem hostMayAct_iff (s : State) :
    hostMayAct s = true ↔ (s.ntf = .none ∧ s.bgHold = false) ∨ (s.ntf ≠ .none ∧ s.hHold = false) := by
  cases hn : s.ntf <;> simp [hostMayAct, contextOf, hn]

theorem enabled_iff_mayTake (s : State) (a : Action) : enabled s a = true ↔ MayTake s a := by
  cases a with
  | command => exact hostMayAct_iff s
  | hostWrite address value => exact hostMayAct_iff s
  | busEvent code data => simp [enabled, MayTake, Option.isSome_iff_ne_none]
  | fineTick => simp [enabled, MayTake]
  | coarseTick => simp [enabled, MayTake]
  | liftBackground => simp [enabled, MayTake, and_assoc]
  | liftHandler => simp [enabled, MayTake]

/-- An offered action is taken where it may be. -/
theorem step_offer {s : State} {a : Action} (more : List Action) (hf : s.fault = none) (hm : MayTake s a) :
    step (offer a more s) = act a { s with agenda := more } :=
  step_eq_act (s := offer a more s) hf rfl ((enabled_iff_mayTake s a).mpr hm)

/-- Settles O10, by the same lemma about an enabled action as O9. -/
theorem enabledActionsAlwaysComplete : Obligations.EnabledActionsAlwaysComplete := by
  intro s a more hi hf hm hd hw
  have hi' : Inv { s with agenda := more } := hi.keep_outside ..
  obtain ⟨t, ht, -⟩ := hi'.completes_act ((enabled_iff_mayTake s a).mpr hm) hd hw
  exact ⟨t, (step_offer more hf hm).trans ht⟩

/-- Settles O6: the offered issue is taken, and the decoder's answer selects exec's arm of the issue. -/
theorem stepRunsTheDecodedCommand : Obligations.StepRunsTheDecodedCommand := by
  intro s i rest more hf hm hd
  rw [step_offer more hf hm]
  simp only [act, issueCommand, hd]

/-! ### Reset (rule R350) -/

theorem recAt_resetWith (c : Config) (h : Handle) : recAt (State.resetWith c) h = Record.atReset c.inlineBytes := by
  simp only [recAt, State.resetWith, List.getD, List.getElem?_getD_replicate_default_eq, ite_self]

theorem liveCbs_atReset (cap : Nat) : liveCbs (CbTable.atReset cap) = [] := rfl

theorem tableInOrder_atReset (cap : Nat) : TableInOrder cap (CbTable.atReset cap) :=
  ⟨Nat.zero_le _, by simp [liveCbs_atReset]⟩

theorem sized_resetWith (c : Config) : Sized (State.resetWith c) := by
  constructor
  case inl => exact fun h _ => by rw [recAt_resetWith]; simp [Record.atReset, State.resetWith]
  case extAddr => exact fun h _ => by rw [recAt_resetWith]; exact Nat.two_pow_pos _
  all_goals simp [State.resetWith, CbTable.atReset]

/-- Settles O8: nothing is owned, due or live at reset. -/
theorem resetMeetsTheInvariants : Obligations.ResetMeetsTheInvariants := by
  intro c hc
  have ho : owned (State.resetWith c) = [] := rfl
  refine .of_parts ⟨hc, sized_resetWith c, ⟨Nat.zero_le _, hc.queue.1⟩, ?_, ?_, ?_, ?_, ?_, ?_⟩
    ⟨?_, fun _ => ⟨rfl, rfl⟩, nofun, nofun, rfl, nofun⟩
    ⟨tableInOrder_atReset _, tableInOrder_atReset _, absurd rfl, nofun⟩ ⟨rfl, nofun⟩
  · simp [ho]
  · simp [ho]
  · simp [ho, recAt_resetWith, Record.atReset]
  · simp [ho]
  · simp [ho]
  · simp [ho]
  · simp [State.resetWith]

end Sys2Proof.Machine
end

section
namespace Sys2Proof.Machine

/-! ### What a step leaves of the clock, the tables and DMEM (rules R29, R30, R35) -/

/-- What most steps leave alone: the parameters, the clock, the callback tables and DMEM. -/
structure Backdrop where
  cfg : Config
  fine : BitVec 32
  coarseMs : BitVec 32
  lastMs : BitVec 32
  lastUs : BitVec 64
  fast : CbTable
  slow : CbTable
  dmem : Memory

def backdrop (s : State) : Backdrop :=
  ⟨s.cfg, s.fine, s.coarseMs, s.lastMs, s.lastUs, s.fast, s.slow, s.dmem⟩

theorem backdrop_eq_iff {s t : State} : backdrop t = backdrop s ↔ t.cfg = s.cfg ∧ t.fine = s.fine ∧
    t.coarseMs = s.coarseMs ∧ t.lastMs = s.lastMs ∧ t.lastUs = s.lastUs ∧ t.fast = s.fast ∧ t.slow = s.slow ∧
    t.dmem = s.dmem := by
  simp only [backdrop, Backdrop.mk.injEq]

theorem backdrop_of_sansEngine {s t : State} (h : sansEngine t = sansEngine s) : backdrop t = backdrop s := by
  change backdrop (sansEngine t) = backdrop (sansEngine s)
  rw [h]

@[simp] theorem backdrop_setRec (s : State) (h : Handle) (r : Record) : backdrop (setRec s h r) = backdrop s :=
  backdrop_of_sansEngine (sansEngine_setRec s h r)

@[simp] theorem backdrop_allocate (s : State) (i : Nat) : backdrop (allocate s i) = backdrop s :=
  backdrop_setRec s _ _

@[simp] theorem backdrop_deliver (x : Context) (c : ResultCode) (d : List Word) (s : State) :
    backdrop (deliver x c d s) = backdrop s := rfl

@[simp] theorem backdrop_holdContext (s : State) : backdrop (holdContext s) = backdrop s := by
  unfold holdContext
  split <;> rfl

@[simp] theorem backdrop_deliverDue (due : List DueEntry) (s : State) : backdrop (deliverDue due s) = backdrop s := by
  obtain ⟨-, he⟩ | ⟨x, rest, picks, draws, -, he⟩ := deliverDue_spec due s <;> rw [he] <;> rfl

theorem backdrop_dispatch (tb : Table) (s : State) :
    backdrop (dispatch tb s) = backdrop (setTable s tb (tableTick (tableOf s tb))) := by
  unfold dispatch
  split
  · rfl
  · exact backdrop_deliverDue _ _

/-! ### The engine's arms -/

@[simp] theorem sansEngine_stopArm (h : Handle) (s : State) : sansEngine (stopArm h s) = sansEngine s := by
  unfold stopArm
  split <;> simp

@[simp] theorem sansEngine_errorArm (h : Handle) (p : Phase) (c : Byte) (s : State) :
    sansEngine (errorArm h p c s) = sansEngine s := by
  unfold errorArm
  split <;> simp

theorem withBufRead_next {s t : State} {r : Record} {i : Nat} {f : Byte → State} (hx : withBufRead s r i f = .next t) :
    ∃ b, t = f b := by
  unfold withBufRead at hx
  split at hx <;> split at hx
  · exact ⟨_, (Host.Outcome.next.inj hx).symm⟩
  · cases hx
  · exact ⟨_, (Host.Outcome.next.inj hx).symm⟩
  · cases hx

theorem sansEngine_of_dataSendArm {h : Handle} {s t : State} (hx : dataSendArm h s = .next t) :
    sansEngine t = sansEngine s := by
  unfold dataSendArm at hx
  split at hx
  · split at hx
    · obtain ⟨b, rfl⟩ := withBufRead_next hx
      rfl
    · cases hx
      rfl
  · cases hx
    exact sansEngine_stopArm h _

theorem sansEngine_of_failCheck {h : Handle} {p : Phase} {c : Byte} {s t : State} (hx : failCheck h p c s = .next t) :
    sansEngine t = sansEngine s := by
  cases hx
  exact sansEngine_errorArm h p c _

theorem sansEngine_of_byteDone {h : Handle} {s t : State} (hx : byteDone h s = .next t) : sansEngine t = sansEngine s :=
  sansEngine_of_dataSendArm (s := { s with idx := s.idx + 1, st := .dataSend }) hx

/-- The byte that a bus event of a read stores in the external buffer of its record (rules R61, R186). -/
structure StoresByte (s : State) (e : BusEvent) (h : Handle) : Prop where
  st : s.st = .dataCheck
  cur : s.cur = some h
  dir : (recAt s h).dir = .read
  bufSel : (recAt s h).bufSel = .externalBuffer
  bound : (recAt s h).extAddr.toNat + s.idx.toNat < 2 ^ s.cfg.dmemAw

/-- The one arm that writes DMEM (rule R186). -/
theorem sansEngine_of_readCheckArm {h : Handle} {e : BusEvent} {s t : State} (hst : s.st = .dataCheck)
    (hc : s.cur = some h) (hd : (recAt s h).dir = .read) (hx : readCheckArm h e s = .next t) :
    sansEngine t = sansEngine s ∨ StoresByte s e h ∧
      sansEngine t = sansEngine { s with dmem := memStore s.dmem ((recAt s h).extAddr.toNat + s.idx.toNat) e.data } := by
  unfold readCheckArm at hx
  split at hx
  · obtain ⟨u, hu, hx⟩ := andThen_eq_next hx
    rw [sansEngine_of_byteDone hx]
    obtain ⟨-, -, rfl⟩ | ⟨hb, hlt, rfl⟩ := bufWrite_next hu
    · exact .inl (sansEngine_setRec s h _)
    · exact .inr ⟨⟨hst, hc, hd, hb, hlt⟩, rfl⟩
  · exact .inl (sansEngine_of_failCheck hx)

/-- All that a run of the engine does beside its registers, the queue and the records: it may store one byte. -/
theorem engineRun_next {ev : Option BusEvent} {s t : State} (hx : engineRun ev s = .next t) :
    sansEngine t = sansEngine s ∨ ∃ e h, ev = some e ∧ StoresByte s e h ∧
      sansEngine t = sansEngine { s with dmem := memStore s.dmem ((recAt s h).extAddr.toNat + s.idx.toNat) e.data } := by
  unfold engineRun at hx
  split at hx
  · cases hx
    exact .inl (sansEngine_idleArm s)
  · unfold startArm at hx
    split at hx
    · cases hx
      exact .inl rfl
    · exact .inl (sansEngine_of_failCheck hx)
  · cases hx
    exact .inl rfl
  · unfold addressAckArm at hx
    split at hx
    · exact .inl (sansEngine_of_dataSendArm hx)
    · exact .inl (sansEngine_of_failCheck hx)
  · rename_i h e hst hc
    unfold dataCheckArm at hx
    split at hx
    · unfold writeCheckArm at hx
      split at hx
      · exact .inl (sansEngine_of_byteDone hx)
      · exact .inl (sansEngine_of_failCheck hx)
    · rename_i hd
      exact (sansEngine_of_readCheckArm hst hc hd hx).imp_right fun hs => ⟨e, h, rfl, hs⟩
  · exact .inl (sansEngine_of_dataSendArm hx)
  · cases hx
    exact .inl (sansEngine_stopArm _ s)
  · cases hx

theorem sansEngine_of_engineRun_none {s t : State} (hx : engineRun none s = .next t) : sansEngine t = sansEngine s :=
  (engineRun_next hx).resolve_right fun ⟨_, _, he, _⟩ => nomatch he

theorem sansEngine_of_kick {s t : State} (hx : kick s = .next t) : sansEngine t = sansEngine s := by
  unfold kick at hx
  split at hx
  · cases hx
    rfl
  · exact sansEngine_of_engineRun_none hx

theorem sansEngine_of_engineResume {s t : State} (hx : engineResume s = .next t) : sansEngine t = sansEngine s := by
  unfold engineResume at hx
  split at hx
  · cases hx
  · split at hx <;> simpa using sansEngine_of_engineRun_none hx

/-! ### The commands -/

theorem backdrop_of_execSubmit {b : Bool} {hs : List Handle} {s t : State} (hx : execSubmit b hs s = .next t) :
    backdrop t = backdrop s := by
  obtain ⟨-, rfl⟩ | ⟨-, r, -, rfl⟩ | ⟨-, -, -, rfl⟩ | ⟨-, -, -, u, hk, hf⟩ := execSubmit_next hx
  · rfl
  · rfl
  · rfl
  · have hu : backdrop u = backdrop s :=
      backdrop_of_sansEngine ((sansEngine_of_kick hk).trans (sansEngine_enqueueAll hs s))
    obtain ⟨-, -, rfl⟩ | ⟨-, rfl⟩ := finishSubmit_next hf <;> simpa using hu

theorem backdrop_of_execRet {s t : State} (hx : execRet s = .next t) : backdrop t = backdrop s := by
  obtain ⟨-, rfl⟩ | ⟨_, _, _, _, _, u, -, hr, rfl⟩ | ⟨_, _, _, _, -, rfl⟩ := execRet_next hx
  · rfl
  · exact (backdrop_deliver _ _ _ u).trans (backdrop_of_sansEngine (sansEngine_of_engineResume hr))
  · exact backdrop_deliverDue _ _

/-- The commands that write the clock or a callback table (rules R230 to R234, R250, R251). -/
def WritesClockOrTable : Instr → Prop
  | .clkinit _ | .nowms | .nowus | .cbreg _ _ _ | .cbunreg _ _ => True
  | .reserve _ | .free _ | .setup _ _ _ _ _ | .wrrec _ _ _ _ | .rdrec _ _ _ | .submit _ _ | .status | .ret => False

theorem backdrop_of_exec {i : Instr} {s t : State} (hi : ¬ WritesClockOrTable i) (hx : exec i s = .next t) :
    backdrop t = backdrop s := by
  cases i with
  | clkinit e => exact absurd trivial hi
  | nowms => exact absurd trivial hi
  | nowus => exact absurd trivial hi
  | cbreg tb v cb => exact absurd trivial hi
  | cbunreg tb cb => exact absurd trivial hi
  | submit b hs => exact backdrop_of_execSubmit hx
  | ret => exact backdrop_of_execRet hx
  | status =>
    cases hx
    rfl
  | reserve n =>
    obtain ⟨-, rfl⟩ | ⟨-, rfl⟩ := execReserve_next hx
    · rfl
    · exact allocateAll_keeps backdrop backdrop_allocate _ s
  | free h =>
    obtain ⟨-, rfl⟩ | ⟨-, -, rfl⟩ | ⟨-, -, -, -, rfl⟩ | ⟨-, -, -, -, rfl⟩ := execFree_next hx <;> rfl
  | setup h a d stop c =>
    obtain ⟨-, rfl⟩ | ⟨-, r, -, rfl⟩ | ⟨-, -, rfl⟩ := execSetup_next hx
    · rfl
    · rfl
    · exact backdrop_setRec s h _
  | wrrec h f k v =>
    obtain ⟨-, rfl⟩ | ⟨-, -, r, -, rfl⟩ | ⟨-, -, -, rfl⟩ := execWrrec_next hx
    · rfl
    · rfl
    · exact backdrop_setRec s h _
  | rdrec h f k =>
    obtain ⟨-, rfl⟩ | ⟨-, -, rfl⟩ := execRdrec_next hx <;> rfl

end Sys2Proof.Machine
end

section
namespace Sys2Proof.Machine

/-! ### The writers of the clock and of the tables (rules R29, R30, R256) -/

theorem tableOf_of_backdrop {s t : State} (h : backdrop t = backdrop s) (tb : Table) : tableOf t tb = tableOf s tb := by
  obtain ⟨-, -, -, -, -, hfast, hslow, -⟩ := backdrop_eq_iff.mp h
  cases tb
  · exact hfast
  · exact hslow

/-- Only one callback table may differ. -/
def SameButTable (s t : State) (tb : Table) : Prop :=
  ∃ T, backdrop t = backdrop (setTable s tb T)

theorem sameButTable_self (s : State) (tb : Table) : SameButTable s s tb :=
  ⟨tableOf s tb, by cases tb <;> rfl⟩

theorem sameButTable_dispatch (tb : Table) (s : State) : SameButTable s (dispatch tb s) tb := ⟨_, backdrop_dispatch tb s⟩

theorem SameButTable.other {s t : State} {tb u : Table} (h : SameButTable s t tb) (hne : tableOf t u ≠ tableOf s u) :
    u = tb := by
  obtain ⟨T, hb⟩ := h
  by_contra hu
  exact hne ((tableOf_of_backdrop hb u).trans (tableOf_setTable_other s tb u T hu))

theorem SameButTable.same {s t : State} {tb : Table} (h : SameButTable s t tb) : t.cfg = s.cfg ∧ t.fine = s.fine ∧
    t.coarseMs = s.coarseMs ∧ t.lastMs = s.lastMs ∧ t.lastUs = s.lastUs ∧ t.dmem = s.dmem := by
  obtain ⟨T, hb⟩ := h
  obtain ⟨hcfg, hfine, hcoarse, hms, hus, -, -, hdmem⟩ := backdrop_eq_iff.mp hb
  simp_all

theorem sameButTable_of_execCbreg {tb : Table} {v cb : BitVec 16} {s t : State} (hx : execCbreg tb v cb s = .next t) :
    SameButTable s t tb := by
  obtain ⟨-, rfl⟩ | ⟨-, -, rfl⟩ | ⟨-, -, -, rfl⟩ | ⟨-, -, -, rfl⟩ := execCbreg_next hx
  · exact sameButTable_self s tb
  · exact sameButTable_self s tb
  · exact sameButTable_self s tb
  · exact ⟨_, rfl⟩

theorem sameButTable_of_execCbunreg {tb : Table} {cb : BitVec 16} {s t : State} (hx : execCbunreg tb cb s = .next t) :
    SameButTable s t tb := by
  obtain ⟨-, rfl⟩ | ⟨-, -, rfl⟩ | ⟨-, -, -, rfl⟩ | ⟨-, -, k, -, rfl⟩ := execCbunreg_next hx
  · exact sameButTable_self s tb
  · exact sameButTable_self s tb
  · exact sameButTable_self s tb
  · exact ⟨_, rfl⟩

/-- What a command changes of the clock and the tables, by the command (rules R230 to R234, R250, R251). -/
structure WritersOfExec (i : Instr) (s t : State) : Prop where
  cfg : t.cfg = s.cfg
  dmem : t.dmem = s.dmem
  lastMs : t.lastMs ≠ s.lastMs → i = .nowms
  lastUs : t.lastUs ≠ s.lastUs → i = .nowus
  fine : t.fine ≠ s.fine → ∃ e, i = .clkinit e
  coarseMs : t.coarseMs ≠ s.coarseMs → ∃ e, i = .clkinit e
  table : ∀ tb, tableOf t tb ≠ tableOf s tb →
    (∃ e, i = .clkinit e) ∨ (∃ v cb, i = .cbreg tb v cb) ∨ ∃ cb, i = .cbunreg tb cb

theorem writersOfExec_of_sameButTable {i : Instr} {s t : State} {tb : Table} (h : SameButTable s t tb)
    (hi : (∃ v cb, i = .cbreg tb v cb) ∨ ∃ cb, i = .cbunreg tb cb) : WritersOfExec i s t := by
  obtain ⟨hcfg, hfine, hcoarse, hms, hus, hdmem⟩ := h.same
  exact ⟨hcfg, hdmem, absurd hms, absurd hus, absurd hfine, absurd hcoarse, fun u hu => .inr (h.other hu ▸ hi)⟩

theorem writersOfExec {i : Instr} {s t : State} (hx : exec i s = .next t) : WritersOfExec i s t := by
  by_cases hw : WritesClockOrTable i
  · cases i with
    | clkinit e =>
      cases hx
      exact ⟨rfl, rfl, absurd rfl, absurd rfl, fun _ => ⟨e, rfl⟩, fun _ => ⟨e, rfl⟩, fun _ _ => .inl ⟨e, rfl⟩⟩
    | nowms =>
      cases hx
      exact ⟨rfl, rfl, fun _ => rfl, absurd rfl, absurd rfl, absurd rfl, fun tb => by cases tb <;> exact absurd rfl⟩
    | nowus =>
      cases hx
      exact ⟨rfl, rfl, absurd rfl, fun _ => rfl, absurd rfl, absurd rfl, fun tb => by cases tb <;> exact absurd rfl⟩
    | cbreg tb v cb => exact writersOfExec_of_sameButTable (sameButTable_of_execCbreg hx) (.inl ⟨v, cb, rfl⟩)
    | cbunreg tb cb => exact writersOfExec_of_sameButTable (sameButTable_of_execCbunreg hx) (.inr ⟨cb, rfl⟩)
    | _ => exact hw.elim
  · have hb := backdrop_of_exec hw hx
    obtain ⟨hcfg, hfine, hcoarse, hms, hus, -, -, hdmem⟩ := backdrop_eq_iff.mp hb
    exact ⟨hcfg, hdmem, absurd hms, absurd hus, absurd hfine, absurd hcoarse,
      fun tb => absurd (tableOf_of_backdrop hb tb)⟩

/-- Where only DMEM may have changed, no register of the clock and no table has a writer to name. -/
theorem nothing_written {s t : State} {m : Memory} (h : backdrop t = backdrop { s with dmem := m }) {A B C D E F : Prop} :
    t.cfg = s.cfg ∧ (t.lastMs ≠ s.lastMs → A) ∧ (t.lastUs ≠ s.lastUs → B) ∧ (t.fine ≠ s.fine → C) ∧
      (t.coarseMs ≠ s.coarseMs → D) ∧ (t.fast ≠ s.fast → E) ∧ (t.slow ≠ s.slow → F) := by
  obtain ⟨hcfg, hfine, hcoarse, hms, hus, hfast, hslow, -⟩ := backdrop_eq_iff.mp h
  exact ⟨hcfg, absurd hms, absurd hus, absurd hfine, absurd hcoarse, absurd hfast, absurd hslow⟩

/-- Settles O45: a case per agent, and for the host a case per command. -/
theorem clockAndTablesHaveTheirWriters : Obligations.ClockAndTablesHaveTheirWriters := by
  intro s t hx
  obtain ⟨-, ⟨-, rfl⟩ | ⟨a, more, hag, -, ha⟩⟩ := step_next hx
  · exact nothing_written (m := t.dmem) rfl
  have htakes : Takes s a := ⟨more, hag⟩
  cases a with
  | command =>
    obtain ⟨i, rest, hd, hx⟩ | ⟨e, rest, -, rfl⟩ := issueCommand_next ha
    · have hw := writersOfExec hx
      have hissues : ∀ {j}, i = j → Issues s j := fun e => e ▸ ⟨⟨more, hag⟩, rest, hd⟩
      have hclk : (∃ e, i = .clkinit e) → ∃ e, Issues s (.clkinit e) := fun ⟨e, he⟩ => ⟨e, hissues he⟩
      have htable (tb : Table) := fun h => (hw.table tb h).imp hclk
        (Or.imp (fun ⟨v, cb, he⟩ => (⟨v, cb, hissues he⟩ : ∃ v cb, Issues s (.cbreg tb v cb)))
          fun ⟨cb, he⟩ => (⟨cb, hissues he⟩ : ∃ cb, Issues s (.cbunreg tb cb)))
      exact ⟨hw.cfg, fun h => hissues (hw.lastMs h), fun h => hissues (hw.lastUs h),
        fun h => .inr (.inr (hclk (hw.fine h))), fun h => .inr (hclk (hw.coarseMs h)),
        fun h => .inr (htable .fast h), fun h => .inr (htable .slow h)⟩
    · exact nothing_written (m := s.dmem) rfl
  | busEvent code data =>
    obtain hs | ⟨e, h, -, -, hs⟩ := engineRun_next ha <;> exact nothing_written (backdrop_of_sansEngine hs)
  | fineTick =>
    cases ha
    have hs := sameButTable_dispatch .fast { s with agenda := more, fine := s.fine + 1 }
    obtain ⟨hcfg, -, hcoarse, hms, hus, -⟩ := hs.same
    exact ⟨hcfg, absurd hms, absurd hus, fun _ => .inl htakes, absurd hcoarse, fun _ => .inl htakes,
      fun h => (nomatch hs.other (u := .slow) h)⟩
  | coarseTick =>
    cases ha
    have hs := sameButTable_dispatch .slow { s with agenda := more, fine := 0, coarseMs := s.coarseMs + 1000 }
    obtain ⟨hcfg, -, -, hms, hus, -⟩ := hs.same
    exact ⟨hcfg, absurd hms, absurd hus, fun _ => .inr (.inl htakes), fun _ => .inl htakes,
      fun h => (nomatch hs.other (u := .fast) h), fun _ => .inl htakes⟩
  | liftBackground =>
    cases ha
    exact nothing_written (m := s.dmem) rfl
  | liftHandler =>
    cases ha
    exact nothing_written (m := s.dmem) rfl
  | hostWrite address value =>
    obtain ⟨-, rfl⟩ := memWrite_next ha
    exact nothing_written rfl

/-! ### The writers of DMEM (rules R35, R60, R64, R67) -/

theorem memRead_memStore {s : State} (hm : Memory.wf s.dmem = true) {b : Nat} (hb : b < 2 ^ s.cfg.dmemAw) (v : Byte)
    (a : Nat) : memRead { s with dmem := memStore s.dmem b v } a = if a = b then some v else memRead s a := by
  unfold memRead
  by_cases e : a = b
  · subst e
    simp [dmemHas, hb, memLookup_memStore_same _ _ _ hm]
  · simp [e, memLookup_memStore_other _ _ _ _ hm e]

theorem memRead_congr {s t : State} (hc : t.cfg = s.cfg) (hd : t.dmem = s.dmem) (a : Nat) :
    memRead t a = memRead s a := by
  simp only [memRead, hc, hd]

theorem dmem_of_issueCommand {s t : State} (hx : issueCommand s = .next t) : t.cfg = s.cfg ∧ t.dmem = s.dmem := by
  obtain ⟨i, rest, -, hx⟩ | ⟨e, rest, -, rfl⟩ := issueCommand_next hx
  · exact ⟨(writersOfExec hx).cfg, (writersOfExec hx).dmem⟩
  · exact ⟨rfl, rfl⟩

/-- A tick keeps the parameters and DMEM. -/
theorem dmem_of_tick {s t : State} {a : Action} (ha : a = .fineTick ∨ a = .coarseTick) (hx : act a s = .next t) :
    t.cfg = s.cfg ∧ t.dmem = s.dmem := by
  rcases ha with rfl | rfl <;> cases hx
  · obtain ⟨hc, -, -, -, -, hd⟩ := (sameButTable_dispatch .fast { s with fine := s.fine + 1 }).same
    exact ⟨hc, hd⟩
  · obtain ⟨hc, -, -, -, -, hd⟩ :=
      (sameButTable_dispatch .slow { s with fine := 0, coarseMs := s.coarseMs + 1000 }).same
    exact ⟨hc, hd⟩

/-- A byte of DMEM that a store changed is the stored one. -/
theorem stored_of_changed {s t : State} {a b : Nat} {v : Byte} (hi : Inv s) (hb : b < 2 ^ s.cfg.dmemAw)
    (hc : t.cfg = s.cfg) (hd : t.dmem = memStore s.dmem b v) (hne : memRead t a ≠ memRead s a) :
    a = b ∧ memRead t a = some v := by
  have hread := (memRead_congr (s := { s with dmem := memStore s.dmem b v }) hc hd a).trans
    (memRead_memStore hi.memory.1 hb v a)
  by_cases e : a = b
  · exact ⟨e, by rw [hread, if_pos e]⟩
  · rw [hread, if_neg e] at hne
    exact absurd rfl hne

/-- Only a bus event that stores a byte, and a host write, change DMEM (rules R35, R64, R67). -/
theorem dmem_writer_of_act {s t : State} {x : Action} {a : Nat} (hi : Inv s) (hx : act x s = .next t)
    (hne : memRead t a ≠ memRead s a) :
    (∃ v, x = .hostWrite a v ∧ memRead t a = some v) ∨
    ∃ (h : Handle) (code data : Byte), x = .busEvent code data ∧ s.cur = some h ∧ (recAt s h).dir = .read ∧
      (recAt s h).bufSel = .externalBuffer ∧ a = (recAt s h).extAddr.toNat + s.idx.toNat ∧ memRead t a = some data := by
  have hsame (h : t.cfg = s.cfg ∧ t.dmem = s.dmem) : False := hne (memRead_congr h.1 h.2 a)
  cases x with
  | command => exact (hsame (dmem_of_issueCommand hx)).elim
  | fineTick => exact (hsame (dmem_of_tick (.inl rfl) hx)).elim
  | coarseTick => exact (hsame (dmem_of_tick (.inr rfl) hx)).elim
  | liftBackground =>
    cases hx
    exact absurd rfl hne
  | liftHandler =>
    cases hx
    exact absurd rfl hne
  | hostWrite address value =>
    obtain ⟨hb, ht⟩ := memWrite_next hx
    obtain ⟨rfl, hv⟩ := stored_of_changed hi hb (congrArg (·.cfg) ht) (congrArg (·.dmem) ht) hne
    exact .inl ⟨value, rfl, hv⟩
  | busEvent code data =>
    obtain hs | ⟨e, h, he, hst, hs⟩ := engineRun_next hx
    · exact (hsame ⟨congrArg (·.cfg) hs, congrArg (·.dmem) hs⟩).elim
    · cases he
      obtain ⟨ha, hv⟩ := stored_of_changed hi hst.bound (congrArg (·.cfg) hs) (congrArg (·.dmem) hs) hne
      exact .inr ⟨h, code, data, rfl, hst.cur, hst.dir, hst.bufSel, ha, hv⟩

/-- Settles O56: the only writer is named by `dmem_writer_of_act`, and a host write inside DMEM is the store of
`memStore`. -/
theorem dmemChangesOnlyWhereWritten : Obligations.DmemChangesOnlyWhereWritten := by
  refine ⟨fun s t a hi hx hne => ?_, fun s a v more hi hf hm => ⟨fun ha => ?_, fun ha => ?_⟩⟩
  · obtain ⟨-, ⟨-, rfl⟩ | ⟨x, more, hag, -, ha⟩⟩ := step_next hx
    · exact absurd rfl hne
    · have hi' : Inv { s with agenda := more } := hi.keep_outside ..
      obtain ⟨v, rfl, hv⟩ | ⟨h, code, data, rfl, hrest⟩ := dmem_writer_of_act hi' ha hne
      · exact .inl ⟨v, ⟨more, hag⟩, hv⟩
      · exact .inr ⟨h, code, data, ⟨more, hag⟩, hrest⟩
  · have hread := memRead_memStore hi.memory.1 ha v
    refine ⟨_, (step_offer more hf hm).trans (memWrite_ok { s with agenda := more } a v ha), ?_, fun b hb => ?_, rfl⟩
    · exact (hread a).trans (if_pos rfl)
    · exact (hread b).trans (if_neg hb)
  · rw [step_offer more hf hm]
    simp [act, memWrite, dmemHas, Nat.not_lt.mpr ha]

end Sys2Proof.Machine
end

section
namespace Sys2Proof.Machine

/-! ### What the block cannot see (rules R26, R36, R39)

BUSLOG and the dead queue slots are not read. Both facts are about a relation between two states that differ in BUSLOG
and in the slots only; the block's operations keep every such relation that a bus command, a pop and a push keep. -/

/-- s with another BUSLOG and other queue slots. -/
def mask (l : List BusCmd) (q : List Handle) (s : State) : State := { s with busLog := l, qslot := q }

section
variable (l : List BusCmd) (q : List Handle) (s : State)

@[simp] theorem mask_st : (mask l q s).st = s.st := rfl
@[simp] theorem mask_cur : (mask l q s).cur = s.cur := rfl
@[simp] theorem mask_ntf : (mask l q s).ntf = s.ntf := rfl
@[simp] theorem mask_fault : (mask l q s).fault = s.fault := rfl
@[simp] theorem mask_agenda : (mask l q s).agenda = s.agenda := rfl

@[simp] theorem recAt_mask (h : Handle) : recAt (mask l q s) h = recAt s h := rfl
@[simp] theorem contextOf_mask : contextOf (mask l q s) = contextOf s := rfl
@[simp] theorem hostWritableFault_mask (h : Handle) : hostWritableFault (mask l q s) h = hostWritableFault s h := rfl
@[simp] theorem submitFaults_mask (hs : List Handle) : submitFaults (mask l q s) hs = submitFaults s hs := rfl
@[simp] theorem readField_mask (h : Handle) (f : RecField) (i : BitVec 8) :
    readField (mask l q s) h f i = readField s h f i := by
  cases f <;> rfl
@[simp] theorem tableOf_mask (tb : Table) : tableOf (mask l q s) tb = tableOf s tb := by cases tb <;> rfl
@[simp] theorem memRead_mask (a : Nat) : memRead (mask l q s) a = memRead s a := rfl
@[simp] theorem enabled_mask (a : Action) : enabled (mask l q s) a = enabled s a := by cases a <;> rfl

theorem setRec_mask (h : Handle) (r : Record) : setRec (mask l q s) h r = mask l q (setRec s h r) := by
  unfold setRec
  split <;> rfl

theorem setTable_mask (tb : Table) (T : CbTable) : setTable (mask l q s) tb T = mask l q (setTable s tb T) := by
  cases tb <;> rfl

theorem afterDraw_mask : afterDraw (mask l q s) = mask l q (afterDraw s) := by
  cases hp : s.picks <;> simp [afterDraw, mask, hp]

theorem holdContext_mask : holdContext (mask l q s) = mask l q (holdContext s) := by
  unfold holdContext
  rw [contextOf_mask]
  split <;> rfl

end

/-- A relation between states that the block cannot see. -/
structure Unseen (R : State → State → Prop) : Prop where
  agree : ∀ {s s'}, R s s' → ∃ l q, s' = mask l q s
  update : ∀ {s l q} (u : State), R s (mask l q s) → u.cfg = s.cfg → u.busLog = s.busLog → u.qslot = s.qslot →
    u.qRd = s.qRd → u.qCount = s.qCount → R u (mask l q u)
  busCmd : ∀ {s s'} (c : BusCmd), R s s' → R (busCmd c s) (busCmd c s')
  oldest : ∀ {s s'}, R s s' → 0 < s.qCount → qOldest s' = qOldest s
  pop : ∀ {s s'}, R s s' → 0 < s.qCount → R (qPop s) (qPop s')
  push : ∀ {s s'} (h : Handle), R s s' → s.qCount < s.cfg.queueCap → R (qPush s h) (qPush s' h)

/-- The same outcome, with related next states. -/
def Alike (R : State → State → Prop) : Result → Result → Prop
  | .next s, .next s' => R s s'
  | .fault r, .fault r' => r = r'
  | .refused r, .refused r' => r = r'
  | _, _ => False

theorem Alike.next {R : State → State → Prop} {t : State} {o o' : Result} (h : Alike R o o') (ho : o = .next t) :
    ∃ t', o' = .next t' ∧ R t t' := by
  subst ho
  cases o' with
  | next t' => exact ⟨t', rfl, h⟩
  | fault r => exact h.elim
  | refused r => exact h.elim

theorem alike_ite {R : State → State → Prop} {c : Prop} [Decidable c] {a a' b b' : Result} (ha : c → Alike R a a')
    (hb : ¬ c → Alike R b b') : Alike R (if c then a else b) (if c then a' else b') := by
  split
  · exact ha ‹_›
  · exact hb ‹_›

theorem alike_andThen {R : State → State → Prop} {o o' : Result} {f : State → Result} (h : Alike R o o')
    (hf : ∀ s s', R s s' → Alike R (f s) (f s')) : Alike R (andThen o f) (andThen o' f) := by
  cases o with
  | next s =>
    obtain ⟨s', rfl, hs⟩ := h.next rfl
    exact hf s s' hs
  | fault r => cases o' with
    | fault r' => exact h
    | next _ | refused _ => exact h.elim
  | refused r => cases o' with
    | refused r' => exact h
    | next _ | fault _ => exact h.elim

namespace Unseen
variable {R : State → State → Prop} (hR : Unseen R) {s s' : State}
include hR

/-! #### Updates -/

/-- An operation that neither reads nor writes BUSLOG and the slots, and keeps the queue's counts, keeps R. -/
theorem map (f : State → State) (hf : ∀ l q u, f (mask l q u) = mask l q (f u))
    (hk : ∀ u, (f u).cfg = u.cfg ∧ (f u).qRd = u.qRd ∧ (f u).qCount = u.qCount) (h : R s s') : R (f s) (f s') := by
  obtain ⟨l, q, rfl⟩ := hR.agree h
  obtain ⟨hc, hr, hn⟩ := hk s
  have hself : f s = mask s.busLog s.qslot (f s) := hf s.busLog s.qslot s
  rw [hf]
  exact hR.update (f s) h hc (congrArg (·.busLog) hself) (congrArg (·.qslot) hself) hr hn

theorem recAt_eq (h : R s s') (k : Handle) : recAt s' k = recAt s k := by
  obtain ⟨l, q, rfl⟩ := hR.agree h
  rfl

theorem rel_setRec (h : R s s') (k : Handle) (r : Record) : R (setRec s k r) (setRec s' k r) :=
  hR.map (setRec · k r) (fun l q u => setRec_mask l q u k r) (fun _ => by simp) h

theorem rel_setAlloc (h : R s s') (k : Handle) (b : Bool) : R (setAlloc s k b) (setAlloc s' k b) :=
  hR.map (setAlloc · k b) (fun _ _ _ => rfl) (fun _ => by simp) h

theorem rel_setTable (h : R s s') (tb : Table) (T : CbTable) : R (setTable s tb T) (setTable s' tb T) :=
  hR.map (setTable · tb T) (fun l q u => setTable_mask l q u tb T) (fun _ => by simp) h

theorem rel_notify (h : R s s') (p : Ntf) : R (notify p s) (notify p s') :=
  hR.map (notify p) (fun _ _ _ => rfl) (fun _ => by simp) h

theorem rel_leaveHandler (h : R s s') : R (leaveHandler s) (leaveHandler s') :=
  hR.map leaveHandler (fun _ _ _ => rfl) (fun _ => by simp) h

theorem rel_afterDraw (h : R s s') : R (afterDraw s) (afterDraw s') :=
  hR.map afterDraw (fun l q u => afterDraw_mask l q u) (fun _ => by simp) h

theorem rel_holdContext (h : R s s') : R (holdContext s) (holdContext s') :=
  hR.map holdContext (fun l q u => holdContext_mask l q u) (fun _ => by simp) h

theorem rel_deliver (h : R s s') (x : Context) (c : ResultCode) (d : List Word) :
    R (deliver x c d s) (deliver x c d s') :=
  hR.map (deliver x c d) (fun _ _ _ => rfl) (fun _ => by simp) h

theorem rel_withSt (h : R s s') (st : EngineState) : R { s with st := st } { s' with st := st } :=
  hR.map (fun u => { u with st := st }) (fun _ _ _ => rfl) (fun _ => ⟨rfl, rfl, rfl⟩) h

theorem rel_respond (h : R s s') (x : Context) (c : ResultCode) (d : List Word) :
    Alike R (respond x c d s) (respond x c d s') := hR.rel_deliver h x c d

theorem rel_respondIllegal (h : R s s') : Alike R (respondIllegal s) (respondIllegal s') := by
  obtain ⟨l, q, rfl⟩ := hR.agree h
  exact hR.rel_respond h _ _ _

theorem rel_raiseFault (h : R s s') (r : FaultReason) : Alike R (raiseFault r s) (raiseFault r s') :=
  hR.map (fun u => { u with fault := some r }) (fun _ _ _ => rfl) (fun _ => ⟨rfl, rfl, rfl⟩) h

theorem rel_release (h : R s s') (k : Handle) : R (release s k) (release s' k) := by
  unfold release
  rw [hR.recAt_eq h]
  split
  · exact hR.rel_setAlloc (hR.rel_setRec h _ _) _ _
  · exact hR.rel_setRec h _ _

theorem rel_setOutcome (h : R s s') (k : Handle) (w : BitVec 16) (c : Byte) :
    R (setOutcome k w c s) (setOutcome k w c s') := by
  unfold setOutcome
  rw [hR.recAt_eq h]
  exact hR.rel_setRec h _ _

theorem rel_stopIfAsked (h : R s s') (k : Handle) : R (stopIfAsked k s) (stopIfAsked k s') := by
  unfold stopIfAsked
  rw [hR.recAt_eq h]
  split
  · exact hR.busCmd _ h
  · exact h

/-! #### The engine -/

theorem rel_idleArm (h : R s s') : R (idleArm s) (idleArm s') := by
  obtain ⟨l, q, he⟩ := hR.agree h
  have hn : s'.qCount = s.qCount := by rw [he]; rfl
  by_cases hq : s.qCount = 0
  · rw [idleArm_empty hq, idleArm_empty (hn.trans hq)]
    exact hR.map (fun u => { u with busy := false }) (fun _ _ _ => rfl) (fun _ => ⟨rfl, rfl, rfl⟩) h
  · rw [idleArm_pops hq, idleArm_pops (hn ▸ hq), hR.oldest h (Nat.pos_of_ne_zero hq)]
    have hp := hR.map (fun u => { u with cur := some (qOldest s), idx := 0, busy := true }) (fun _ _ _ => rfl)
      (fun _ => ⟨rfl, rfl, rfl⟩) (hR.pop h (Nat.pos_of_ne_zero hq))
    exact hR.rel_withSt (hR.busCmd .start hp) .start

theorem rel_discardChain (n : Nat) : ∀ {c : Bool} {s s' : State}, R s s' →
    R (discardChain n c s) (discardChain n c s') := by
  induction n with
  | zero => exact fun h => h
  | succ n ih =>
    intro c s s' h
    obtain ⟨l, q, he⟩ := hR.agree h
    have hn : s'.qCount = s.qCount := by rw [he]; rfl
    unfold discardChain
    rw [hn]
    split
    · rename_i hc
      simp only [Bool.and_eq_true, decide_eq_true_eq] at hc
      rw [hR.oldest h hc.2, hR.recAt_eq (hR.pop h hc.2)]
      exact ih (hR.rel_release (hR.pop h hc.2) _)
    · exact h

theorem rel_letGo (h : R s s') (k : Handle) : R { release s k with cur := none } { release s' k with cur := none } :=
  hR.map (fun u => { u with cur := none }) (fun _ _ _ => rfl) (fun _ => ⟨rfl, rfl, rfl⟩) (hR.rel_release h k)

theorem rel_finishSuccess (h : R s s') (k : Handle) : R (finishSuccess k s) (finishSuccess k s') :=
  hR.rel_withSt (hR.rel_letGo h k) .idle

theorem rel_finishError (h : R s s') (k : Handle) : R (finishError k s) (finishError k s') := by
  obtain ⟨l, q, rfl⟩ := hR.agree h
  exact hR.rel_withSt (hR.rel_discardChain _ (hR.rel_letGo h k)) .idle

theorem rel_stopArm (h : R s s') (k : Handle) : R (stopArm k s) (stopArm k s') := by
  have ho := hR.rel_setOutcome (hR.rel_stopIfAsked h k) k 0 0
  have hp : completionNtf (setOutcome k 0 0 (stopIfAsked k s')) k =
      completionNtf (setOutcome k 0 0 (stopIfAsked k s)) k := by
    simp only [completionNtf, hR.recAt_eq ho]
  unfold stopArm
  rw [hp, hR.recAt_eq h]
  split
  · exact hR.rel_notify ho _
  · exact hR.rel_idleArm (hR.rel_finishSuccess ho k)

theorem rel_errorArm (h : R s s') (k : Handle) (p : Phase) (c : Byte) : R (errorArm k p c s) (errorArm k p c s') := by
  have hidx : s'.idx = s.idx := by
    obtain ⟨l, q, he⟩ := hR.agree h
    rw [he]
    rfl
  have ho := hR.rel_setOutcome h k (failureStatus p s.idx) c
  have hp : completionNtf (setOutcome k (failureStatus p s.idx) c s') k =
      completionNtf (setOutcome k (failureStatus p s.idx) c s) k := by
    simp only [completionNtf, hR.recAt_eq ho]
  unfold errorArm
  rw [hidx, hp, hR.recAt_eq h]
  split
  · exact hR.rel_notify (hR.busCmd .stop ho) _
  · exact hR.rel_idleArm (hR.rel_finishError (hR.busCmd .stop ho) k)

end Unseen

end Sys2Proof.Machine
end

section
namespace Sys2Proof.Machine
namespace Unseen
variable {R : State → State → Prop} (hR : Unseen R) {s s' : State}
include hR

/-! #### The engine's steps -/

theorem alike_failCheck (h : R s s') (k : Handle) (p : Phase) (c : Byte) :
    Alike R (failCheck k p c s) (failCheck k p c s') := hR.rel_errorArm (hR.rel_withSt h .error) k p c

theorem rel_addressArm (h : R s s') (k : Handle) : R (addressArm k s) (addressArm k s') := by
  unfold addressArm
  rw [hR.recAt_eq h]
  exact hR.rel_withSt (hR.busCmd _ h) _

theorem alike_withBufRead (h : R s s') (r : Record) (i : Nat) {f f' : Byte → State} (hf : ∀ b, R (f b) (f' b)) :
    Alike R (withBufRead s r i f) (withBufRead s' r i f') := by
  obtain ⟨l, q, rfl⟩ := hR.agree h
  unfold withBufRead
  cases r.bufSel with
  | inlineBuffer => cases r.inl[i]? with
    | some b => exact hf b
    | none => exact rfl
  | externalBuffer =>
    simp only [memRead_mask]
    cases memRead s (r.extAddr.toNat + i) with
    | some b => exact hf b
    | none => exact rfl

theorem alike_dataSendArm (h : R s s') (k : Handle) : Alike R (dataSendArm k s) (dataSendArm k s') := by
  have hwait (c : BusCmd) :
      R { Machine.busCmd c s with st := .dataCheck } { Machine.busCmd c s' with st := .dataCheck } :=
    hR.rel_withSt (hR.busCmd c h) .dataCheck
  have hstop := hR.rel_stopArm (hR.rel_withSt h .stop) k
  obtain ⟨l, q, rfl⟩ := hR.agree h
  refine alike_ite (fun _ => ?_) fun _ => hstop
  simp only [recAt_mask]
  cases (recAt s k).dir with
  | write => exact hR.alike_withBufRead h _ _ fun b => hwait (.tx b)
  | read => exact hwait _

theorem alike_byteDone (h : R s s') (k : Handle) : Alike R (byteDone k s) (byteDone k s') :=
  hR.alike_dataSendArm (hR.map (fun u => { u with idx := u.idx + 1, st := .dataSend }) (fun _ _ _ => rfl)
    (fun _ => ⟨rfl, rfl, rfl⟩) h) k

theorem alike_memWrite (h : R s s') (a : Nat) (v : Byte) : Alike R (memWrite s a v) (memWrite s' a v) := by
  have hd := hR.map (fun u => { u with dmem := memStore u.dmem a v }) (fun _ _ _ => rfl) (fun _ => ⟨rfl, rfl, rfl⟩) h
  obtain ⟨l, q, rfl⟩ := hR.agree h
  exact alike_ite (fun _ => hd) fun _ => rfl

theorem alike_bufWrite (h : R s s') (k : Handle) (i : Nat) (v : Byte) :
    Alike R (bufWrite s k i v) (bufWrite s' k i v) := by
  unfold bufWrite
  rw [hR.recAt_eq h]
  cases (recAt s k).bufSel with
  | inlineBuffer => exact alike_ite (fun _ => hR.rel_setRec h _ _) fun _ => rfl
  | externalBuffer => exact hR.alike_memWrite h _ _

theorem alike_startArm (h : R s s') (k : Handle) (e : BusEvent) : Alike R (startArm k e s) (startArm k e s') := by
  have hok := hR.rel_addressArm (hR.rel_withSt h .address) k
  have hfail := hR.alike_failCheck h k .start e.code
  obtain ⟨l, q, rfl⟩ := hR.agree h
  exact alike_ite (fun _ => hok) fun _ => hfail

theorem alike_addressAckArm (h : R s s') (k : Handle) (e : BusEvent) :
    Alike R (addressAckArm k e s) (addressAckArm k e s') := by
  have hok := hR.alike_dataSendArm (hR.rel_withSt h .dataSend) k
  have hfail := hR.alike_failCheck h k .address e.code
  obtain ⟨l, q, rfl⟩ := hR.agree h
  exact alike_ite (fun _ => hok) fun _ => hfail

theorem alike_dataCheckArm (h : R s s') (k : Handle) (e : BusEvent) :
    Alike R (dataCheckArm k e s) (dataCheckArm k e s') := by
  have hdone := hR.alike_byteDone h k
  have hstore := alike_andThen (hR.alike_bufWrite h k s.idx.toNat e.data) fun _ _ hu => hR.alike_byteDone hu k
  have hfail := hR.alike_failCheck h k .data e.code
  obtain ⟨l, q, rfl⟩ := hR.agree h
  unfold dataCheckArm
  simp only [recAt_mask]
  cases (recAt s k).dir with
  | write => exact alike_ite (fun _ => hdone) fun _ => hfail
  | read => exact alike_ite (fun _ => hstore) fun _ => hfail

theorem alike_engineRun (h : R s s') (ev : Option BusEvent) : Alike R (engineRun ev s) (engineRun ev s') := by
  have hst : s'.st = s.st ∧ s'.cur = s.cur := by
    obtain ⟨l, q, rfl⟩ := hR.agree h
    exact ⟨rfl, rfl⟩
  unfold engineRun
  rw [hst.1, hst.2]
  split
  · exact hR.rel_idleArm h
  · exact hR.alike_startArm h _ _
  · exact hR.rel_addressArm h _
  · exact hR.alike_addressAckArm h _ _
  · exact hR.alike_dataCheckArm h _ _
  · exact hR.alike_dataSendArm h _
  · exact hR.rel_stopArm h _
  · exact rfl

theorem alike_busEventStep (h : R s s') (e : BusEvent) : Alike R (busEventStep e s) (busEventStep e s') :=
  hR.alike_engineRun (hR.map (fun u => { u with busOut := none }) (fun _ _ _ => rfl) (fun _ => ⟨rfl, rfl, rfl⟩) h) _

theorem alike_engineResume (h : R s s') : Alike R (engineResume s) (engineResume s') := by
  have hok (k : Handle) := hR.alike_engineRun (hR.rel_finishSuccess (hR.rel_leaveHandler h) k) none
  have hfail (k : Handle) := hR.alike_engineRun (hR.rel_finishError (hR.rel_leaveHandler h) k) none
  obtain ⟨l, q, rfl⟩ := hR.agree h
  unfold engineResume
  simp only [mask_cur, mask_st]
  split
  · exact rfl
  · exact alike_ite (fun _ => hok _) fun _ => hfail _

/-! #### SUBMIT (rule R162) -/

theorem rel_enqueue (h : R s s') (c : Bool) (k : Handle) (hc : s.qCount < s.cfg.queueCap) :
    R (enqueue c k s) (enqueue c k s') := by
  unfold enqueue
  rw [hR.recAt_eq h]
  exact hR.push k (hR.rel_setRec h _ _) (by simpa using hc)

theorem rel_enqueueAll : ∀ (hs : List Handle) {s s' : State}, R s s' → hs.length ≤ s.cfg.queueCap - s.qCount →
    R (enqueueAll hs s) (enqueueAll hs s')
  | [], _, _, h, _ => h
  | k :: hs, s, s', h, hc => by
    simp only [List.length_cons] at hc
    refine rel_enqueueAll hs (hR.rel_enqueue h _ k (by omega)) ?_
    simp only [enqueue_cfg, enqueue_qCount]
    omega

theorem alike_kick (h : R s s') : Alike R (kick s) (kick s') := by
  have hrun := hR.alike_engineRun h none
  obtain ⟨l, q, rfl⟩ := hR.agree h
  exact alike_ite (fun _ => h) fun _ => hrun

theorem alike_finishSubmit (b : Bool) (h : R s s') : Alike R (finishSubmit b s) (finishSubmit b s') := by
  have hhold := hR.rel_holdContext h
  have hok := hR.rel_respond h (contextOf s) .ok []
  obtain ⟨l, q, rfl⟩ := hR.agree h
  exact alike_ite (fun _ => hhold) fun _ => hok

theorem alike_execSubmit (h : R s s') (b : Bool) (hs : List Handle) :
    Alike R (execSubmit b hs s) (execSubmit b hs s') := by
  have hillegal := hR.rel_respondIllegal h
  have hfault := hR.rel_raiseFault h
  have hfull := hR.rel_respond h (contextOf s) .noSpace []
  have hpush (hc : hs.length ≤ s.cfg.queueCap - s.qCount) :=
    alike_andThen (hR.alike_kick (hR.rel_enqueueAll hs h hc)) fun _ _ hu => hR.alike_finishSubmit b hu
  obtain ⟨l, q, rfl⟩ := hR.agree h
  refine alike_ite (fun _ => hillegal) fun _ => ?_
  simp only [submitFaults_mask]
  cases submitFaults s hs with
  | some r => exact hfault r
  | none => exact alike_ite (fun _ => hfull) fun hc => hpush (Nat.le_of_not_lt hc)

/-! #### The other commands, the ticks and the step -/

theorem alike_execReserve (h : R s s') (n : BitVec 8) : Alike R (execReserve n s) (execReserve n s') := by
  have hres := hR.rel_respond h (contextOf s) .noSpace []
  have hall : ∀ (is : List Nat) {s s' : State}, R s s' → R (is.foldl allocate s) (is.foldl allocate s') := by
    intro is
    induction is with
    | nil => exact fun h => h
    | cons i is ih =>
      intro s s' h
      refine ih ?_
      unfold allocate
      rw [hR.recAt_eq h]
      exact hR.rel_setAlloc (hR.rel_setRec h _ _) _ _
  have hok := hR.rel_respond (hall ((freeRecords s).take n.toNat) h) (contextOf s) .ok
    (((freeRecords s).take n.toNat).map fun i => (poolHandle i).setWidth 32)
  obtain ⟨l, q, rfl⟩ := hR.agree h
  exact alike_ite (fun _ => hres) fun _ => hok

theorem alike_execFree (h : R s s') (k : Handle) : Alike R (execFree k s) (execFree k s') := by
  have hillegal := hR.rel_respondIllegal h
  have hfault := hR.rel_raiseFault h
  have hok := hR.rel_respond h (contextOf s) .ok []
  have hfree := hR.rel_respond (hR.rel_setAlloc h k false) (contextOf s) .ok []
  obtain ⟨l, q, rfl⟩ := hR.agree h
  exact alike_ite (fun _ => hillegal) fun _ => alike_ite (fun _ => hok) fun _ => alike_ite (fun _ => hok) fun _ =>
    alike_ite (fun _ => hfault _) fun _ => hfree

theorem alike_execSetup (h : R s s') (k : Handle) (a : BitVec 7) (d : Dir) (stop : Bool) (c : BitVec 8) :
    Alike R (execSetup k a d stop c s) (execSetup k a d stop c s') := by
  have hillegal := hR.rel_respondIllegal h
  have hfault := hR.rel_raiseFault h
  have hok := hR.rel_respond (hR.rel_setRec h k (setupRecord (recAt s k) a d stop c)) (contextOf s) .ok []
  obtain ⟨l, q, rfl⟩ := hR.agree h
  refine alike_ite (fun _ => hillegal) fun _ => ?_
  simp only [hostWritableFault_mask]
  cases hostWritableFault s k with
  | some r => exact hfault r
  | none => exact hok

theorem alike_execWrrec (h : R s s') (k : Handle) (f : RecField) (i : BitVec 8) (v : Word) :
    Alike R (execWrrec k f i v s) (execWrrec k f i v s') := by
  have hillegal := hR.rel_respondIllegal h
  have hfault := hR.rel_raiseFault h
  have hok := hR.rel_respond (hR.rel_setRec h k (writeField (recAt s k) f i v)) (contextOf s) .ok []
  obtain ⟨l, q, rfl⟩ := hR.agree h
  refine alike_ite (fun _ => hillegal) fun _ => ?_
  simp only [hostWritableFault_mask]
  cases hostWritableFault s k with
  | some r => exact hfault r
  | none => exact hok

theorem alike_execRdrec (h : R s s') (k : Handle) (f : RecField) (i : BitVec 8) :
    Alike R (execRdrec k f i s) (execRdrec k f i s') := by
  have hillegal := hR.rel_respondIllegal h
  have hok := hR.rel_respond h (contextOf s) .ok [readField s k f i]
  obtain ⟨l, q, rfl⟩ := hR.agree h
  refine alike_ite (fun _ => hillegal) fun _ => ?_
  rw [readField_mask]
  exact hok

theorem alike_execCbreg (h : R s s') (tb : Table) (v cb : BitVec 16) :
    Alike R (execCbreg tb v cb s) (execCbreg tb v cb s') := by
  have hillegal := hR.rel_respondIllegal h
  have hfault := hR.rel_raiseFault h
  have hfull := hR.rel_respond h (contextOf s) .full []
  have hok := hR.rel_respond (hR.rel_setTable h tb (tableAppend (tableOf s tb) cb v)) (contextOf s) .ok
    [BitVec.ofNat 32 (tableOf s tb).count]
  obtain ⟨l, q, rfl⟩ := hR.agree h
  unfold execCbreg
  rw [tableOf_mask]
  exact alike_ite (fun _ => hillegal) fun _ => alike_ite (fun _ => hfault _) fun _ =>
    alike_ite (fun _ => hfull) fun _ => hok

theorem alike_execCbunreg (h : R s s') (tb : Table) (cb : BitVec 16) :
    Alike R (execCbunreg tb cb s) (execCbunreg tb cb s') := by
  have hillegal := hR.rel_respondIllegal h
  have hfault := hR.rel_raiseFault h
  have hnone := hR.rel_respond h (contextOf s) .ok []
  have hok (k : Nat) := hR.rel_respond (hR.rel_setTable h tb (tableRemove (tableOf s tb) k)) (contextOf s) .ok []
  obtain ⟨l, q, rfl⟩ := hR.agree h
  unfold execCbunreg
  rw [tableOf_mask]
  refine alike_ite (fun _ => hillegal) fun _ => alike_ite (fun _ => hfault _) fun _ => ?_
  cases findCb (tableOf s tb) cb with
  | none => exact hnone
  | some k => exact hok k

theorem rel_deliverDue (h : R s s') (due : List DueEntry) : R (deliverDue due s) (deliverDue due s') := by
  have hdue {u u' : State} (hu : R u u') (d : List DueEntry) : R { u with tickDue := d } { u' with tickDue := d } :=
    hR.map (fun u => { u with tickDue := d }) (fun _ _ _ => rfl) (fun _ => ⟨rfl, rfl, rfl⟩) hu
  match due with
  | [] => exact hdue (hR.rel_leaveHandler h) []
  | [x] => exact hR.rel_notify (hdue h []) _
  | x :: y :: more =>
    have hpick : drawIndex s' (more.length + 2) = drawIndex s (more.length + 2) := by
      obtain ⟨l, q, rfl⟩ := hR.agree h
      rfl
    simp only [deliverDue, hpick]
    exact hR.rel_notify (hdue (hR.rel_afterDraw h) _) _

theorem rel_dispatch (h : R s s') (tb : Table) : R (dispatch tb s) (dispatch tb s') := by
  have ht : tableOf s' tb = tableOf s tb := by
    obtain ⟨l, q, rfl⟩ := hR.agree h
    exact tableOf_mask l q s tb
  have hset := hR.rel_setTable h tb (tableTick (tableOf s tb))
  unfold dispatch
  rw [ht]
  split
  · exact hset
  · exact hR.rel_deliverDue hset _

theorem alike_execRet (h : R s s') : Alike R (execRet s) (execRet s') := by
  have hillegal := hR.rel_respondIllegal h
  have htxn := alike_andThen (hR.alike_engineResume h) fun _ _ hu => hR.rel_respond hu .handler .ok []
  have htick := hR.rel_respond (hR.rel_deliverDue h s.tickDue) .handler .ok []
  obtain ⟨l, q, rfl⟩ := hR.agree h
  unfold execRet
  simp only [mask_ntf]
  split
  · exact hillegal
  · exact htxn
  · exact htick

theorem alike_exec (h : R s s') (i : Instr) : Alike R (exec i s) (exec i s') := by
  cases i with
  | reserve n => exact hR.alike_execReserve h n
  | free k => exact hR.alike_execFree h k
  | setup k a d stop c => exact hR.alike_execSetup h k a d stop c
  | wrrec k f i v => exact hR.alike_execWrrec h k f i v
  | rdrec k f i => exact hR.alike_execRdrec h k f i
  | submit b hs => exact hR.alike_execSubmit h b hs
  | cbreg tb v cb => exact hR.alike_execCbreg h tb v cb
  | cbunreg tb cb => exact hR.alike_execCbunreg h tb cb
  | ret => exact hR.alike_execRet h
  | clkinit e =>
    exact hR.map (fun u => Machine.deliver (contextOf u) .ok []
      { u with fine := 0, coarseMs := BitVec.ofNat 32 (e.toNat * 1000), fast := restartCounters u.fast,
               slow := restartCounters u.slow }) (fun _ _ _ => rfl) (fun _ => ⟨rfl, rfl, rfl⟩) h
  | nowms =>
    exact hR.map (fun u => Machine.deliver (contextOf u) .ok [msNow u] { u with lastMs := msNow u }) (fun _ _ _ => rfl)
      (fun _ => ⟨rfl, rfl, rfl⟩) h
  | nowus =>
    exact hR.map (fun u => Machine.deliver (contextOf u) .ok
        [(usNow u).extractLsb' 0 32, (usNow u).extractLsb' 32 32] { u with lastUs := usNow u }) (fun _ _ _ => rfl)
      (fun _ => ⟨rfl, rfl, rfl⟩) h
  | status =>
    exact hR.map (fun u => Machine.deliver (contextOf u) .ok [statusWord u] u) (fun _ _ _ => rfl)
      (fun _ => ⟨rfl, rfl, rfl⟩) h

theorem alike_issueCommand (h : R s s') : Alike R (issueCommand s) (issueCommand s') := by
  have hport (rest : List Word) : R { s with port := rest } { s' with port := rest } :=
    hR.map (fun u => { u with port := rest }) (fun _ _ _ => rfl) (fun _ => ⟨rfl, rfl, rfl⟩) h
  have hp : s'.port = s.port := by
    obtain ⟨l, q, rfl⟩ := hR.agree h
    rfl
  unfold issueCommand
  rw [hp]
  split
  · exact hR.alike_exec (hport _) _
  · exact hR.rel_respondIllegal (hport _)
  · exact rfl

theorem alike_act (h : R s s') (a : Action) : Alike R (act a s) (act a s') := by
  cases a with
  | command => exact hR.alike_issueCommand h
  | busEvent code data => exact hR.alike_busEventStep h _
  | fineTick =>
    exact hR.rel_dispatch (hR.map (fun u => { u with fine := u.fine + 1 }) (fun _ _ _ => rfl)
      (fun _ => ⟨rfl, rfl, rfl⟩) h) .fast
  | coarseTick =>
    exact hR.rel_dispatch (hR.map (fun u => { u with fine := 0, coarseMs := u.coarseMs + 1000 }) (fun _ _ _ => rfl)
      (fun _ => ⟨rfl, rfl, rfl⟩) h) .slow
  | liftBackground => exact hR.map liftBackgroundHold (fun _ _ _ => rfl) (fun _ => ⟨rfl, rfl, rfl⟩) h
  | liftHandler => exact hR.map liftHandlerHold (fun _ _ _ => rfl) (fun _ => ⟨rfl, rfl, rfl⟩) h
  | hostWrite address value => exact hR.alike_memWrite h address value

/-- Related states make the same step to related states. -/
theorem alike_step (h : R s s') : Alike R (step s) (step s') := by
  have hagenda (more : List Action) : R { s with agenda := more } { s' with agenda := more } :=
    hR.map (fun u => { u with agenda := more }) (fun _ _ _ => rfl) (fun _ => ⟨rfl, rfl, rfl⟩) h
  have hact (a : Action) (more : List Action) := hR.alike_act (hagenda more) a
  obtain ⟨l, q, rfl⟩ := hR.agree h
  unfold step
  simp only [mask_fault, mask_agenda, enabled_mask]
  split
  · exact rfl
  · split
    · exact h
    · exact alike_ite (fun _ => hact _ _) fun _ => rfl

end Unseen

/-! ### BUSLOG (rule R36) -/

/-- The same state but for what BUSLOG held before `base` grew. -/
def LogGrown (base base' : List BusCmd) (s s' : State) : Prop :=
  ∃ more, s.busLog = base ++ more ∧ s' = mask (base' ++ more) s.qslot s

theorem unseen_logGrown (base base' : List BusCmd) : Unseen (LogGrown base base') where
  agree := fun ⟨more, _, h⟩ => ⟨_, _, h⟩
  update := by
    rintro s l q u ⟨more, hlog, h⟩ - hb hq - -
    obtain rfl : l = base' ++ more := congrArg (·.busLog) h
    obtain rfl : q = s.qslot := congrArg (·.qslot) h
    exact ⟨more, hb.trans hlog, by rw [hq]⟩
  busCmd := by
    rintro s _ c ⟨more, hlog, rfl⟩
    refine ⟨more ++ [c], by simp [hlog], ?_⟩
    rw [← List.append_assoc]
    rfl
  oldest := by
    rintro s _ ⟨more, -, rfl⟩ -
    rfl
  pop := by
    rintro s _ ⟨more, hlog, rfl⟩ -
    exact ⟨more, hlog, rfl⟩
  push := by
    rintro s _ h ⟨more, hlog, rfl⟩ -
    exact ⟨more, hlog, rfl⟩

/-- Settles O54: the relation `LogGrown` is unseen, so a step keeps it. -/
theorem busLogIsOnlyAnObservation : Obligations.BusLogIsOnlyAnObservation := by
  intro s t log hx
  have hrel : LogGrown s.busLog log s { s with busLog := log } :=
    ⟨[], (List.append_nil _).symm, by rw [List.append_nil]; rfl⟩
  obtain ⟨t', ht', more, hlog, rfl⟩ := ((unseen_logGrown s.busLog log).alike_step hrel).next hx
  exact ⟨more, hlog, ht'⟩

/-! ### Dead queue slots (rules R26, R161) -/

/-- The same state but for queue slots outside the live entries. -/
structure DeadSlotsDiffer (s s' : State) : Prop where
  same : s' = mask s.busLog s'.qslot s
  length : s.qslot.length = s.cfg.queueCap
  length' : s'.qslot.length = s.cfg.queueCap
  qRd : s.qRd < s.cfg.queueCap
  live : liveEntries s' = liveEntries s

/-- A pop reads the same handle and leaves the same live entries (rule R161). -/
theorem DeadSlotsDiffer.popped {s s' : State} (h : DeadSlotsDiffer s s') (hpos : 0 < s.qCount) :
    qOldest s' = qOldest s ∧ liveEntries (qPop s') = liveEntries (qPop s) := by
  obtain ⟨he, -, -, hr, hlive⟩ := h
  rw [he] at hlive ⊢
  have hcons := (liveEntries_qPop (mask s.busLog s'.qslot s) hpos hr).symm.trans
    (hlive.trans (liveEntries_qPop s hpos hr))
  exact List.cons.inj hcons

theorem unseen_deadSlotsDiffer : Unseen DeadSlotsDiffer where
  agree h := ⟨_, _, h.same⟩
  update := by
    rintro s l q u ⟨h, hl, hl', hr, hlive⟩ hc hb hq hrd hn
    obtain rfl : l = s.busLog := congrArg (·.busLog) h
    refine ⟨by rw [hb]; rfl, by rw [hq, hl, hc], by rw [hc]; exact hl', by rw [hrd, hc]; exact hr, ?_⟩
    rw [← liveEntries_congr (t := u) hc hq hrd hn] at hlive
    rw [← hlive]
    exact liveEntries_congr hc rfl hrd hn
  busCmd := by
    rintro s s' c ⟨h, hl, hl', hr, hlive⟩
    refine ⟨by rw [h]; rfl, hl, hl', hr, ?_⟩
    exact (liveEntries_congr rfl rfl rfl rfl).trans (hlive.trans (liveEntries_congr rfl rfl rfl rfl).symm)
  oldest h hpos := (h.popped hpos).1
  pop := by
    intro s s' h hpos
    have hlive := (h.popped hpos).2
    obtain ⟨he, hl, hl', hr, -⟩ := h
    exact ⟨by rw [he]; rfl, hl, hl', Nat.mod_lt _ (Nat.zero_lt_of_lt hr), hlive⟩
  push := by
    rintro s s' k ⟨h, hl, hl', hr, hlive⟩ hc
    rw [h] at hlive hl' ⊢
    refine ⟨rfl, by simpa using hl, by simpa using hl', hr, ?_⟩
    rw [liveEntries_qPush s k hl hc hr, liveEntries_qPush _ k hl' hc hr, hlive]

/-- Settles O55: the relation `DeadSlotsDiffer` is unseen, so a step keeps it. -/
theorem deadQueueSlotsAreNeverRead : Obligations.DeadQueueSlotsAreNeverRead := by
  intro s t slots hi hlen hlive hx
  have hrel : DeadSlotsDiffer s { s with qslot := slots } :=
    ⟨rfl, hi.sized.qslot, hlen.trans hi.sized.qslot, hi.queue.2, hlive⟩
  obtain ⟨t', ht', h, hl, hl', -, hlive'⟩ := (unseen_deadSlotsDiffer.alike_step hrel).next hx
  have he : t' = { t with qslot := t'.qslot } := h
  refine ⟨t'.qslot, he ▸ ht', hl'.trans hl.symm, ?_⟩
  rw [← he]
  exact hlive'

end Sys2Proof.Machine
end

section
namespace Sys2Proof

/-! ### Field codes and their numbers (rules R84, R91, R101) -/

@[simp] theorem Dir.ofBit_bit (d : Dir) : Dir.ofBit d.bit = d := by cases d <;> rfl

@[simp] theorem Dir.bit_ofBit (b : BitVec 1) : (Dir.ofBit b).bit = b := by
  revert b; decide

@[simp] theorem Table.ofBit_bit (t : Table) : Table.ofBit t.bit = t := by cases t <;> rfl

@[simp] theorem Table.bit_ofBit (b : BitVec 1) : (Table.ofBit b).bit = b := by
  revert b; decide

@[simp] theorem RecField.ofNum_num (f : RecField) : RecField.ofNum f.num = f := by cases f <;> rfl

@[simp] theorem RecField.num_ofNum (n : BitVec 4) : (RecField.ofNum n).num = n := by
  revert n; decide

/-! ### Words as concatenations of fields -/

theorem bits_append_inj {n k : Nat} {x x' : BitVec n} {y y' : BitVec k} :
    x ++ y = x' ++ y' ↔ x = x' ∧ y = y' := by
  constructor
  · intro h
    constructor
    · simpa only [BitVec.extractLsb'_append_eq_left] using congrArg (BitVec.extractLsb' k n) h
    · simpa only [BitVec.extractLsb'_append_eq_right] using congrArg (BitVec.extractLsb' 0 k) h
  · rintro ⟨rfl, rfl⟩
    rfl

/-- A bit of a word as the field of width 1 at its place. -/
theorem ofBool_getLsbD {n : Nat} (w : BitVec n) (i : Nat) : BitVec.ofBool (w.getLsbD i) = w.extractLsb' i 1 := by
  apply BitVec.eq_of_getLsbD_eq
  intro j hj
  obtain rfl : j = 0 := by omega
  simp

theorem append_eq_extractLsb'_iff {m s n k : Nat} (w : BitVec m) (x : BitVec n) (y : BitVec k) :
    x ++ y = w.extractLsb' s (n + k) ↔ x = w.extractLsb' (s + k) n ∧ y = w.extractLsb' s k := by
  rw [← BitVec.extractLsb'_append_extractLsb'_eq_extractLsb' rfl, bits_append_inj]

/-- Peels the lowest field off a comparison with a word. -/
theorem append_extractLsb'_eq_iff {m s n k : Nat} (w : BitVec m) (x : BitVec n) :
    x ++ w.extractLsb' s k = w.extractLsb' s (n + k) ↔ x = w.extractLsb' (s + k) n :=
  (append_eq_extractLsb'_iff w x _).trans (and_iff_left rfl)

/-- A mask that keeps the high n of n + k bits tells what these bits are. -/
theorem and_high_mask_iff {n k : Nat} (w : BitVec (n + k)) (x : BitVec n) :
    w &&& (BitVec.allOnes n ++ 0#k) = x ++ 0#k ↔ x = w.extractLsb' k n := by
  conv_lhs => rw [← BitVec.extractLsb'_append_extractLsb' (x := w), BitVec.and_append, bits_append_inj]
  simp [eq_comm]

theorem eq_word_iff {w x : Word} : x = w ↔ x = w.extractLsb' 0 32 := by rw [BitVec.extractLsb'_eq_self]

/-! ### The header masks (rules R82 to R91) -/

theorem encodeHeader_reserve_eq_iff (w : Word) :
    encodeHeader (.reserve (w.extractLsb' 0 8)) = w ↔ w &&& 0xFFFFFF00#32 = 0x10000000#32 := by
  refine .trans ?_ (and_high_mask_iff (n := 24) (k := 8) w (0x1#4 ++ 0#20)).symm
  rw [eq_word_iff, encodeHeader, append_extractLsb'_eq_iff]

theorem encodeHeader_free_eq_iff (w : Word) :
    encodeHeader (.free (w.extractLsb' 0 8)) = w ↔ w &&& 0xFFFFFF00#32 = 0x20000000#32 := by
  refine .trans ?_ (and_high_mask_iff (n := 24) (k := 8) w (0x2#4 ++ 0#20)).symm
  rw [eq_word_iff, encodeHeader, append_extractLsb'_eq_iff]

theorem encodeHeader_setup_eq_iff (w : Word) :
    encodeHeader (.setup (w.extractLsb' 0 8) (w.extractLsb' 8 7) (Dir.ofBit (w.extractLsb' 15 1)) (w.getLsbD 16)
        (w.extractLsb' 17 8)) = w ↔ w &&& 0xFE000000#32 = 0x30000000#32 := by
  refine .trans ?_ (and_high_mask_iff (n := 7) (k := 25) w (0x3#4 ++ 0#3)).symm
  rw [eq_word_iff, encodeHeader, Dir.bit_ofBit, ofBool_getLsbD]
  iterate 5 rw [append_extractLsb'_eq_iff]

theorem encodeHeader_wrrec_eq_iff (w v : Word) :
    encodeHeader (.wrrec (w.extractLsb' 0 8) (RecField.ofNum (w.extractLsb' 8 4)) (w.extractLsb' 12 8) v) = w ↔
      w &&& 0xFFF00000#32 = 0x40000000#32 := by
  refine .trans ?_ (and_high_mask_iff (n := 12) (k := 20) w (0x4#4 ++ 0#8)).symm
  rw [eq_word_iff, encodeHeader, RecField.num_ofNum]
  iterate 3 rw [append_extractLsb'_eq_iff]

theorem encodeHeader_rdrec_eq_iff (w : Word) :
    encodeHeader (.rdrec (w.extractLsb' 0 8) (RecField.ofNum (w.extractLsb' 8 4)) (w.extractLsb' 12 8)) = w ↔
      w &&& 0xFFF00000#32 = 0x50000000#32 := by
  refine .trans ?_ (and_high_mask_iff (n := 12) (k := 20) w (0x5#4 ++ 0#8)).symm
  rw [eq_word_iff, encodeHeader, RecField.num_ofNum]
  iterate 3 rw [append_extractLsb'_eq_iff]

theorem encodeHeader_submit_eq_iff {w : Word} {hs : List Handle} (hl : hs.length = (w.extractLsb' 0 8).toNat) :
    encodeHeader (.submit (w.getLsbD 8) hs) = w ↔ w &&& 0xFFFFFE00#32 = 0x60000000#32 := by
  refine .trans ?_ (and_high_mask_iff (n := 23) (k := 9) w (0x6#4 ++ 0#19)).symm
  rw [eq_word_iff, encodeHeader, ofBool_getLsbD, hl, BitVec.ofNat_toNat, BitVec.setWidth_eq]
  iterate 2 rw [append_extractLsb'_eq_iff]

theorem encodeHeader_cbreg_eq_iff (w : Word) (cb : BitVec 16) :
    encodeHeader (.cbreg (Table.ofBit (w.extractLsb' 0 1)) (w.extractLsb' 8 16) cb) = w ↔
      w &&& 0xFF0000FE#32 = 0xA0000000#32 := by
  have hw : w.extractLsb' 24 8 ++ w.extractLsb' 8 16 ++ w.extractLsb' 1 7 ++ w.extractLsb' 0 1 = w := by
    rw [eq_word_iff]
    iterate 3 rw [append_extractLsb'_eq_iff]
  have hmask : w &&& (BitVec.allOnes 8 ++ 0#16 ++ BitVec.allOnes 7 ++ 0#1) = 0xA#4 ++ 0#4 ++ 0#16 ++ 0#7 ++ 0#1 ↔
      0xA#4 ++ 0#4 = w.extractLsb' 24 8 ∧ 0#7 = w.extractLsb' 1 7 := by
    conv_lhs => rw [← hw]
    iterate 3 rw [BitVec.and_append, bits_append_inj]
    simp only [BitVec.and_allOnes, BitVec.and_zero, and_true]
    exact and_congr eq_comm eq_comm
  refine .trans ?_ hmask.symm
  rw [eq_word_iff, encodeHeader, Table.bit_ofBit, append_extractLsb'_eq_iff, append_eq_extractLsb'_iff,
    append_extractLsb'_eq_iff]

theorem encodeHeader_cbunreg_eq_iff (w : Word) (cb : BitVec 16) :
    encodeHeader (.cbunreg (Table.ofBit (w.extractLsb' 0 1)) cb) = w ↔ w &&& 0xFFFFFFFE#32 = 0xB0000000#32 := by
  refine .trans ?_ (and_high_mask_iff (n := 31) (k := 1) w (0xB#4 ++ 0#27)).symm
  rw [eq_word_iff, encodeHeader, Table.bit_ofBit, append_extractLsb'_eq_iff]

/-! ### The operand masks (rules R87, R91, R92) -/

theorem handleOperand_eq_iff (o : Word) : 0#24 ++ operandHandle o = o ↔ o &&& 0xFFFFFF00#32 = 0#32 := by
  refine .trans ?_ (and_high_mask_iff (n := 24) (k := 8) o 0#24).symm
  rw [eq_word_iff, operandHandle, append_extractLsb'_eq_iff]

theorem handleOperands_eq_iff (ops : List Word) :
    ((ops.map operandHandle).map fun h => 0#24 ++ h) = ops ↔ (ops.all fun o => o &&& 0xFFFFFF00#32 == 0#32) = true := by
  have hid := List.map_inj_left (l := ops) (f := fun o => 0#24 ++ operandHandle o) (g := id)
  simpa [Function.comp_def, ← handleOperand_eq_iff] using hid

theorem cbOperands_eq_iff (o : Word) : [0#16 ++ operandCb o] = [o] ↔ o &&& 0xFFFF0000#32 = 0#32 := by
  refine .trans ?_ (and_high_mask_iff (n := 16) (k := 16) o 0#16).symm
  rw [List.singleton_inj, eq_word_iff, operandCb, append_extractLsb'_eq_iff]

theorem and_handleMask_iff (o : Word) : o &&& 0xFFFFFF00#32 = 0#32 ↔ o.toNat < 2 ^ 8 := by
  refine (and_high_mask_iff (n := 24) (k := 8) o 0#24).trans ?_
  rw [← BitVec.toNat_inj, BitVec.extractLsb'_toNat, Nat.shiftRight_eq_div_pow]
  simp only [BitVec.toNat_ofNat]
  omega

theorem and_cbMask_iff (o : Word) : o &&& 0xFFFF0000#32 = 0#32 ↔ o.toNat < 2 ^ 16 := by
  refine (and_high_mask_iff (n := 16) (k := 16) o 0#16).trans ?_
  rw [← BitVec.toNat_inj, BitVec.extractLsb'_toNat, Nat.shiftRight_eq_div_pow]
  simp only [BitVec.toNat_ofNat]
  omega

theorem and_wordMask (w : Word) : w &&& 0xFFFFFFFF#32 = w := BitVec.and_allOnes

/-! ### The fields of an encoded header -/

/-- The flag written as the field of width 1 at place i. -/
theorem getLsbD_of_field {n : Nat} {w : BitVec n} {i : Nat} {b : Bool} (h : w.extractLsb' i 1 = BitVec.ofBool b) :
    w.getLsbD i = b := by
  rw [← ofBool_getLsbD] at h
  simpa using congrArg (BitVec.getLsbD · 0) h

theorem encodeHeader_setup_fields (h : Handle) (a : BitVec 7) (d : Dir) (stop : Bool) (c : BitVec 8) :
    let w := encodeHeader (.setup h a d stop c)
    w.extractLsb' 0 8 = h ∧ w.extractLsb' 8 7 = a ∧ w.extractLsb' 15 1 = d.bit ∧ w.getLsbD 16 = stop ∧
      w.extractLsb' 17 8 = c := by
  refine ⟨?_, ?_, ?_, getLsbD_of_field ?_, ?_⟩ <;>
    simp (disch := omega) only [encodeHeader, BitVec.extractLsb'_append_eq_of_le,
      BitVec.extractLsb'_append_eq_of_add_le] <;>
    exact BitVec.extractLsb'_eq_self

theorem fieldAccess_fields (opc : BitVec 4) (h : Handle) (n : BitVec 4) (i : BitVec 8) :
    let w : Word := opc ++ 0#8 ++ i ++ n ++ h
    w.extractLsb' 0 8 = h ∧ w.extractLsb' 8 4 = n ∧ w.extractLsb' 12 8 = i := by
  refine ⟨?_, ?_, ?_⟩ <;>
    simp (disch := omega) only [BitVec.extractLsb'_append_eq_of_le, BitVec.extractLsb'_append_eq_of_add_le] <;>
    exact BitVec.extractLsb'_eq_self

theorem encodeHeader_submit_blocking (b : Bool) (hs : List Handle) : (encodeHeader (.submit b hs)).getLsbD 8 = b := by
  apply getLsbD_of_field
  simp (disch := omega) only [encodeHeader, BitVec.extractLsb'_append_eq_of_le,
    BitVec.extractLsb'_append_eq_of_add_le]
  exact BitVec.extractLsb'_eq_self

theorem encodeHeader_cbreg_fields (t : Table) (v cb : BitVec 16) :
    let w := encodeHeader (.cbreg t v cb)
    w.extractLsb' 0 1 = t.bit ∧ w.extractLsb' 8 16 = v := by
  refine ⟨?_, ?_⟩ <;>
    simp (disch := omega) only [encodeHeader, BitVec.extractLsb'_append_eq_of_le,
      BitVec.extractLsb'_append_eq_of_add_le] <;>
    exact BitVec.extractLsb'_eq_self

/-! ### What a header and its operand words stand for -/

/-- The command of a header's opcode, its arguments read from their fields whatever the reserved bits hold. -/
def fieldsOf (w : Word) (ops : List Word) : Option Instr :=
  match opcodeOf w with
  | 0x1 => some (.reserve (w.extractLsb' 0 8))
  | 0x2 => some (.free (w.extractLsb' 0 8))
  | 0x3 => some (.setup (w.extractLsb' 0 8) (w.extractLsb' 8 7) (Dir.ofBit (w.extractLsb' 15 1)) (w.getLsbD 16)
      (w.extractLsb' 17 8))
  | 0x4 => some (.wrrec (w.extractLsb' 0 8) (RecField.ofNum (w.extractLsb' 8 4)) (w.extractLsb' 12 8) (ops.headD 0#32))
  | 0x5 => some (.rdrec (w.extractLsb' 0 8) (RecField.ofNum (w.extractLsb' 8 4)) (w.extractLsb' 12 8))
  | 0x6 => some (.submit (w.getLsbD 8) (ops.map operandHandle))
  | 0x7 => some (.clkinit (ops.headD 0#32))
  | 0x8 => some .nowms
  | 0x9 => some .nowus
  | 0xA => some (.cbreg (Table.ofBit (w.extractLsb' 0 1)) (w.extractLsb' 8 16) (operandCb (ops.headD 0#32)))
  | 0xB => some (.cbunreg (Table.ofBit (w.extractLsb' 0 1)) (operandCb (ops.headD 0#32)))
  | 0xC => some .status
  | 0xD => some .ret
  | _ => none

/-- Row `row` and command i are the only ones that a header and its operand words can stand for: the decoder reads i
where the row's fixed bits and the operands' reserved bits have their values, which is where i re-encodes to the words. -/
structure RowReads (row : OpcodeRow) (w : Word) (ops : List Word) (i : Instr) : Prop where
  mnemonic : mnemonicOf i = row.mnemonic
  fields : fieldsOf w ops = some i
  legal : row.matches w = true ∧ Machine.OperandsLegal w ops ↔ encodeHeader i = w ∧ encodeOperands i = ops
  accepts : encodeHeader i = w ∧ encodeOperands i = ops → decodeCommand w ops = .ok i
  rejects : ¬ (encodeHeader i = w ∧ encodeOperands i = ops) → decodeCommand w ops = .error .reservedField

theorem RowReads.of_ite {row : OpcodeRow} {w : Word} {ops : List Word} {i : Instr} {c : Prop} [Decidable c]
    (encodes : encodeHeader i = w ∧ encodeOperands i = ops ↔ c) (mnemonic : mnemonicOf i = row.mnemonic)
    (fields : fieldsOf w ops = some i) (decodes : decodeCommand w ops = if c then .ok i else .error .reservedField)
    (legal : row.matches w = true ∧ Machine.OperandsLegal w ops ↔ c) : RowReads row w ops i where
  mnemonic := mnemonic
  fields := fields
  legal := legal.trans encodes.symm
  accepts h := by rw [decodes, if_pos (encodes.mp h)]
  rejects h := by rw [decodes, if_neg (mt encodes.mpr h)]

open Machine (OperandsLegal) in
/-- The opcode table read row by row: the row's mask and the operand masks pass exactly what re-encodes. -/
theorem rowReads_of_opcode {w : Word} {ops : List Word} (hlen : ops.length = operandCount w) :
    ∀ row ∈ opcodeRows, opcodeOf w = row.pattern.toNat / 2 ^ 28 → ∃ i, RowReads row w ops i := by
  simp only [opcodeRows, List.forall_mem_cons, List.not_mem_nil, IsEmpty.forall_iff, implies_true, and_true]
  refine ⟨fun hop => ?reserve, fun hop => ?free, fun hop => ?setup, fun hop => ?wrrec, fun hop => ?rdrec,
    fun hop => ?submit, fun hop => ?clkinit, fun hop => ?nowms, fun hop => ?nowus, fun hop => ?cbreg,
    fun hop => ?cbunreg, fun hop => ?status, fun hop => ?ret⟩
  case' reserve =>
    obtain rfl : ops = [] := by simpa [operandCount, hop] using hlen
    refine ⟨_, .of_ite ((and_iff_left rfl).trans (encodeHeader_reserve_eq_iff w)) rfl ?_ ?_ ?_⟩
  case' free =>
    obtain rfl : ops = [] := by simpa [operandCount, hop] using hlen
    refine ⟨_, .of_ite ((and_iff_left rfl).trans (encodeHeader_free_eq_iff w)) rfl ?_ ?_ ?_⟩
  case' setup =>
    obtain rfl : ops = [] := by simpa [operandCount, hop] using hlen
    refine ⟨_, .of_ite ((and_iff_left rfl).trans (encodeHeader_setup_eq_iff w)) rfl ?_ ?_ ?_⟩
  case' wrrec =>
    obtain ⟨o, rfl⟩ : ∃ o, ops = [o] := by simpa [operandCount, hop, List.length_eq_one_iff] using hlen
    refine ⟨_, .of_ite ((and_iff_left rfl).trans (encodeHeader_wrrec_eq_iff w o)) rfl ?_ ?_ ?_⟩
  case' rdrec =>
    obtain rfl : ops = [] := by simpa [operandCount, hop] using hlen
    refine ⟨_, .of_ite ((and_iff_left rfl).trans (encodeHeader_rdrec_eq_iff w)) rfl ?_ ?_ ?_⟩
  case' submit =>
    have hn : (ops.map operandHandle).length = (w.extractLsb' 0 8).toNat := by simpa [operandCount, hop] using hlen
    refine ⟨_, .of_ite (and_congr (encodeHeader_submit_eq_iff hn) (handleOperands_eq_iff ops)) rfl ?_ ?_ ?_⟩
  case' clkinit =>
    obtain ⟨o, rfl⟩ : ∃ o, ops = [o] := by simpa [operandCount, hop, List.length_eq_one_iff] using hlen
    refine ⟨_, .of_ite (i := .clkinit o) (c := w = 0x70000000#32) ((and_iff_left rfl).trans eq_comm) rfl ?_ ?_ ?_⟩
  case' nowms =>
    obtain rfl : ops = [] := by simpa [operandCount, hop] using hlen
    refine ⟨_, .of_ite (i := .nowms) (c := w = 0x80000000#32) ((and_iff_left rfl).trans eq_comm) rfl ?_ ?_ ?_⟩
  case' nowus =>
    obtain rfl : ops = [] := by simpa [operandCount, hop] using hlen
    refine ⟨_, .of_ite (i := .nowus) (c := w = 0x90000000#32) ((and_iff_left rfl).trans eq_comm) rfl ?_ ?_ ?_⟩
  case' cbreg =>
    obtain ⟨o, rfl⟩ : ∃ o, ops = [o] := by simpa [operandCount, hop, List.length_eq_one_iff] using hlen
    refine ⟨_, .of_ite (and_congr (encodeHeader_cbreg_eq_iff w (operandCb o)) (cbOperands_eq_iff o)) rfl ?_ ?_ ?_⟩
  case' cbunreg =>
    obtain ⟨o, rfl⟩ : ∃ o, ops = [o] := by simpa [operandCount, hop, List.length_eq_one_iff] using hlen
    refine ⟨_, .of_ite (and_congr (encodeHeader_cbunreg_eq_iff w (operandCb o)) (cbOperands_eq_iff o)) rfl ?_ ?_ ?_⟩
  case' status =>
    obtain rfl : ops = [] := by simpa [operandCount, hop] using hlen
    refine ⟨_, .of_ite (i := .status) (c := w = 0xC0000000#32) ((and_iff_left rfl).trans eq_comm) rfl ?_ ?_ ?_⟩
  case' ret =>
    obtain rfl : ops = [] := by simpa [operandCount, hop] using hlen
    refine ⟨_, .of_ite (i := .ret) (c := w = 0xD0000000#32) ((and_iff_left rfl).trans eq_comm) rfl ?_ ?_ ?_⟩
  all_goals simp [OpcodeRow.matches, OperandsLegal, hop, decodeCommand, fieldsOf, and_wordMask, and_handleMask_iff,
    and_cbMask_iff]

/-- Reading the fields undoes their encoding. -/
theorem fieldsOf_encode (i : Instr) : fieldsOf (encodeHeader i) (encodeOperands i) = some i := by
  have hop := Laws.opcodeOf_encodeHeader i
  cases i <;> rw [fieldsOf, hop]
  case reserve n => simp only [encodeHeader, BitVec.extractLsb'_append_eq_right]
  case free h => simp only [encodeHeader, BitVec.extractLsb'_append_eq_right]
  case setup h a d stop c =>
    obtain ⟨hh, ha, hd, hs, hc⟩ := encodeHeader_setup_fields h a d stop c
    simp only [hh, ha, hd, hs, hc, Dir.ofBit_bit]
  case wrrec h f i v =>
    obtain ⟨hh, hf, hi⟩ := fieldAccess_fields 0x4#4 h f.num i
    simp only [encodeHeader, encodeOperands, hh, hf, hi, RecField.ofNum_num, List.headD]
  case rdrec h f i =>
    obtain ⟨hh, hf, hi⟩ := fieldAccess_fields 0x5#4 h f.num i
    simp only [encodeHeader, hh, hf, hi, RecField.ofNum_num]
  case submit b hs =>
    have hh (h : Handle) : operandHandle (0#24 ++ h) = h := BitVec.extractLsb'_append_eq_right
    simp only [encodeOperands, encodeHeader_submit_blocking b hs, List.map_map, Function.comp_def, hh, List.map_id']
  case clkinit e => rfl
  case nowms => rfl
  case nowus => rfl
  case cbreg t v cb =>
    obtain ⟨ht, hv⟩ := encodeHeader_cbreg_fields t v cb
    have hcb : operandCb (0#16 ++ cb) = cb := BitVec.extractLsb'_append_eq_right
    simp only [encodeOperands, ht, hv, List.headD, hcb, Table.ofBit_bit]
  case cbunreg t cb =>
    have hcb : operandCb (0#16 ++ cb) = cb := BitVec.extractLsb'_append_eq_right
    simp only [encodeHeader, BitVec.extractLsb'_append_eq_right, encodeOperands, List.headD, hcb, Table.ofBit_bit]
  case status => rfl
  case ret => rfl

/-! ### Lengths and reserved opcodes (rules R80, R96) -/

theorem operandCount_encodeHeader {i : Instr} (hwf : i.wellFormed = true) :
    operandCount (encodeHeader i) = (encodeOperands i).length := by
  cases i with
  | reserve n => exact Laws.Lengths.reserve n hwf
  | free h => exact Laws.Lengths.free h hwf
  | setup h a d stop c => exact Laws.Lengths.setup h a d stop c hwf
  | wrrec h f i v => exact Laws.Lengths.wrrec h f i v hwf
  | rdrec h f i => exact Laws.Lengths.rdrec h f i hwf
  | submit b hs => exact Laws.Lengths.submit b hs hwf
  | clkinit e => exact Laws.Lengths.clkinit e hwf
  | nowms => exact Laws.Lengths.nowms hwf
  | nowus => exact Laws.Lengths.nowus hwf
  | cbreg t v cb => exact Laws.Lengths.cbreg t v cb hwf
  | cbunreg t cb => exact Laws.Lengths.cbunreg t cb hwf
  | status => exact Laws.Lengths.status hwf
  | ret => exact Laws.Lengths.ret hwf

theorem operandCount_le (w : Word) : operandCount w ≤ 255 := by
  have hn : (w.extractLsb' 0 8).toNat < 2 ^ 8 := (w.extractLsb' 0 8).isLt
  unfold operandCount
  split <;> omega

theorem wellFormed_of_length_le {i : Instr} (h : (encodeOperands i).length ≤ 255) : i.wellFormed = true := by
  cases i
  case submit b hs => simpa [Instr.wellFormed, encodeOperands] using h
  all_goals rfl

/-- The opcodes that no row has (rule R96). -/
def ReservedOpcode (w : Word) : Prop := opcodeOf w = 0x0 ∨ opcodeOf w = 0xE ∨ opcodeOf w = 0xF

theorem reservedOpcode_or_row (w : Word) :
    ReservedOpcode w ∨ ∃ row ∈ opcodeRows, opcodeOf w = row.pattern.toNat / 2 ^ 28 := by
  have hrows : ∀ k < 16, (k = 0x0 ∨ k = 0xE ∨ k = 0xF) ∨ ∃ row ∈ opcodeRows, k = row.pattern.toNat / 2 ^ 28 := by
    decide
  exact hrows (opcodeOf w) (w.extractLsb' 28 4).isLt

theorem ReservedOpcode.operandCount_eq {w : Word} (h : ReservedOpcode w) : operandCount w = 0 := by
  obtain h | h | h := h <;> simp [operandCount, h]

theorem ReservedOpcode.fieldsOf_eq {w : Word} (h : ReservedOpcode w) (ops : List Word) : fieldsOf w ops = none := by
  obtain h | h | h := h <;> simp [fieldsOf, h]

theorem ReservedOpcode.decodeCommand_eq {w : Word} (h : ReservedOpcode w) (ops : List Word) :
    decodeCommand w ops = .error .reservedOpcode := by
  obtain h | h | h := h <;> simp [decodeCommand, h]

/-! ### The decoder (rules R80, R97, R107) -/

/-- The decoder accepts exactly the words that its command re-encodes to. -/
theorem decodeCommand_eq_ok {w : Word} {ops : List Word} (hlen : ops.length = operandCount w) {i : Instr} :
    decodeCommand w ops = .ok i ↔ encodeHeader i = w ∧ encodeOperands i = ops := by
  obtain hres | ⟨row, hrow, hop⟩ := reservedOpcode_or_row w
  · rw [hres.decodeCommand_eq]
    refine iff_of_false nofun fun ⟨hw, ho⟩ => ?_
    simpa [hw, ho, hres.fieldsOf_eq] using fieldsOf_encode i
  · obtain ⟨j, hj⟩ := rowReads_of_opcode hlen row hrow hop
    constructor
    · intro hi
      by_cases hc : encodeHeader j = w ∧ encodeOperands j = ops
      · cases (hj.accepts hc).symm.trans hi
        exact hc
      · cases (hj.rejects hc).symm.trans hi
    · rintro ⟨rfl, rfl⟩
      cases hj.fields.symm.trans (fieldsOf_encode i)
      exact hj.accepts ⟨rfl, rfl⟩

theorem length_take_operandCount {w : Word} {ops : List Word} (hle : operandCount w ≤ ops.length) :
    (ops.take (operandCount w)).length = operandCount w := by simpa using hle

theorem decode_of_ok {w : Word} {ops : List Word} {i : Instr} (hle : operandCount w ≤ ops.length)
    (hd : decodeCommand w (ops.take (operandCount w)) = .ok i) :
    decode (w :: ops) = .instr i (ops.drop (operandCount w)) := by
  rw [decode, if_neg (Nat.not_lt.mpr hle), hd]

theorem decode_of_error {w : Word} {ops : List Word} {e : DecodeError} (hle : operandCount w ≤ ops.length)
    (hd : decodeCommand w (ops.take (operandCount w)) = .error e) :
    decode (w :: ops) = .illegal e (ops.drop (operandCount w)) := by
  rw [decode, if_neg (Nat.not_lt.mpr hle), hd]

theorem decode_eq_instr {ws rest : List Word} {i : Instr} (h : decode ws = .instr i rest) :
    ∃ w ops, ws = w :: ops ∧ operandCount w ≤ ops.length ∧ decodeCommand w (ops.take (operandCount w)) = .ok i ∧
      rest = ops.drop (operandCount w) := by
  cases ws with
  | nil => cases h
  | cons w ops =>
    rw [decode] at h
    split at h
    · cases h
    · rename_i hle
      split at h
      · rename_i hd
        cases h
        exact ⟨w, ops, rfl, Nat.not_lt.mp hle, hd, rfl⟩
      · cases h

/-- Settles O1: the encoded words have the announced length, and the decoder accepts what re-encodes. -/
theorem decodeEncodeRoundTrip : Obligations.DecodeEncodeRoundTrip := by
  intro i rest hwf
  have hlen := operandCount_encodeHeader hwf
  have hd : decodeCommand (encodeHeader i) ((encodeOperands i ++ rest).take (operandCount (encodeHeader i))) = .ok i := by
    rw [hlen, List.take_left]
    exact (decodeCommand_eq_ok hlen.symm).mpr ⟨rfl, rfl⟩
  rw [encode, List.cons_append, decode_of_ok (by simp [hlen]) hd, hlen, List.drop_left]

/-- Settles O2: what the decoder accepts re-encodes, and a header announces at most 255 operand words. -/
theorem decodedWordsAreTheEncoding : Obligations.DecodedWordsAreTheEncoding := by
  intro ws rest i h
  obtain ⟨w, ops, rfl, hle, hd, rfl⟩ := decode_eq_instr h
  have hlen := length_take_operandCount hle
  obtain ⟨hw, ho⟩ := (decodeCommand_eq_ok hlen).mp hd
  refine ⟨wellFormed_of_length_le (by rw [ho, hlen]; exact operandCount_le w), ?_⟩
  rw [encode, hw, ho, List.cons_append, List.take_append_drop]

/-- Settles O3: a reserved opcode has no operand words, and a row accepts or rejects the words it announces. -/
theorem everyHeaderDecodes : Obligations.EveryHeaderDecodes := by
  intro w ops hle
  obtain hres | ⟨row, hrow, hop⟩ := reservedOpcode_or_row w
  · have hd := decode_of_error hle (hres.decodeCommand_eq _)
    rw [hres.operandCount_eq, List.drop_zero] at hd
    exact .inl ⟨hres, hd⟩
  · obtain ⟨i, hi⟩ := rowReads_of_opcode (length_take_operandCount hle) row hrow hop
    refine .inr ⟨row, hrow, hop.symm, ?_⟩
    by_cases hl : row.matches w = true ∧ Machine.OperandsLegal w (ops.take (operandCount w))
    · exact .inl ⟨hl.1, hl.2, i, hi.mnemonic, decode_of_ok hle (hi.accepts (hi.legal.mp hl))⟩
    · exact .inr ⟨hl, decode_of_error hle (hi.rejects (mt hi.legal.mpr hl))⟩

end Sys2Proof
end

section
namespace Sys2Proof.Machine

/-! ### Illegal encodings (rules R96, R97) -/

theorem decode_of_not_encodesCommand {w : Word} {ops : List Word} (hle : operandCount w ≤ ops.length)
    (hn : ¬ EncodesCommand w (ops.take (operandCount w))) :
    ∃ e, decode (w :: ops) = .illegal e (ops.drop (operandCount w)) := by
  obtain hres | ⟨row, hrow, hop⟩ := reservedOpcode_or_row w
  · exact ⟨_, decode_of_error hle (hres.decodeCommand_eq _)⟩
  · obtain ⟨i, hi⟩ := rowReads_of_opcode (length_take_operandCount hle) row hrow hop
    refine ⟨_, decode_of_error hle (hi.rejects fun hc => hn ?_)⟩
    obtain ⟨hm, ho⟩ := hi.legal.mpr hc
    exact ⟨⟨row, hrow, hm⟩, ho⟩

theorem sameButResponses_deliver (s : State) (x : Context) (c : ResultCode) (d : List Word) :
    SameButResponses s (deliver x c d s) := by
  refine ⟨?engine, ?queue, ?records, ?clock, ?tables, ?handler, fun _ => rfl, ?outside⟩ <;> constructor <;> rfl

/-- Settles O4: the decoder answers `illegal` with the words behind, and the issue only delivers ILLEGAL. -/
theorem illegalEncodingOnlyResponds : Obligations.IllegalEncodingOnlyResponds := by
  intro s w ops more hf hm hport hle hn
  obtain ⟨e, hd⟩ := decode_of_not_encodesCommand hle hn
  refine ⟨deliver (contextOf s) .illegal [] { s with port := ops.drop (operandCount w), agenda := more }, ?_, rfl, rfl,
    rfl, sameButResponses_deliver s _ _ _⟩
  rw [step_offer more hf hm]
  simp only [act, issueCommand, hport, hd]
  rfl

/-! ### The field checks (rule R102) -/

/-- Rule R102 items 1 to 3, by field number. -/
theorem fieldReadable_eq_false_iff (c : Config) (f : RecField) (i : BitVec 8) :
    fieldReadable c f i = false ↔ f.num = 15 ∨ (f.num ≠ 8 ∧ i ≠ 0) ∨ (f.num = 8 ∧ c.inlineBytes ≤ i.toNat) := by
  cases f <;> simp [fieldReadable, RecField.num]

theorem fieldWritable_eq_false_iff (f : RecField) : fieldWritable f = false ↔ 9 ≤ f.num.toNat := by
  cases f <;> decide

/-- Rule R102 items 1 to 5, by field number. -/
theorem fieldWriteLegal_eq_false_iff (c : Config) (f : RecField) (i : BitVec 8) (v : Word) :
    fieldWriteLegal c f i v = false ↔
      f.num = 15 ∨ (f.num ≠ 8 ∧ i ≠ 0) ∨ (f.num = 8 ∧ c.inlineBytes ≤ i.toNat) ∨ 9 ≤ f.num.toNat ∨
        2 ^ fieldWidth c f ≤ v.toNat := by
  rw [fieldWriteLegal, Bool.and_eq_false_iff, Bool.and_eq_false_iff, fieldReadable_eq_false_iff, fieldWritable_eq_false_iff,
    decide_eq_false_iff_not, Nat.not_lt]
  tauto

/-- Command i only answers ILLEGAL in state s. -/
def OnlyIllegal (i : Instr) (s : State) : Prop :=
  ∃ t, exec i s = .next t ∧ Answered s t .illegal [] ∧ SameButResponses s t

theorem onlyIllegal_of_respondIllegal {i : Instr} {s : State} (h : exec i s = respondIllegal s) : OnlyIllegal i s :=
  ⟨_, h, rfl, sameButResponses_deliver s _ _ _⟩

theorem not_answered_illegal_deliver_ok (s u : State) (d : List Word) (hu : u.responses = s.responses) :
    ¬ Answered s (deliver (contextOf s) .ok d u) .illegal [] := by
  simp [Answered, deliver, hu]

theorem onlyIllegal_rdrec_iff {s : State} {h : Handle} (hr : InRange s h) (f : RecField) (i : BitVec 8) :
    OnlyIllegal (.rdrec h f i) s ↔ fieldReadable s.cfg f i = false := by
  constructor
  · rintro ⟨t, hx, ha, -⟩
    obtain ⟨hn, -⟩ | ⟨-, -, rfl⟩ := execRdrec_next hx
    · exact Bool.eq_false_iff.mpr fun hf => hn ⟨hr, hf⟩
    · exact absurd ha (not_answered_illegal_deliver_ok s s _ rfl)
  · intro hf
    exact onlyIllegal_of_respondIllegal (if_pos (by simp [hf]))

theorem onlyIllegal_wrrec_iff {s : State} {h : Handle} (hr : InRange s h) (f : RecField) (i : BitVec 8) (v : Word) :
    OnlyIllegal (.wrrec h f i v) s ↔ fieldWriteLegal s.cfg f i v = false := by
  constructor
  · rintro ⟨t, hx, ha, -⟩
    obtain ⟨hn, -⟩ | ⟨-, -, r, -, rfl⟩ | ⟨-, -, -, rfl⟩ := execWrrec_next hx
    · exact Bool.eq_false_iff.mpr fun hf => hn ⟨hr, hf⟩
    · simp [Answered] at ha
    · exact absurd ha (not_answered_illegal_deliver_ok s _ _ (by simp))
  · intro hf
    exact onlyIllegal_of_respondIllegal (if_pos (by simp [hf]))

/-- Settles O22: RDREC and WRREC answer ILLEGAL where `fieldReadable` and `fieldWriteLegal` fail, else OK or nothing. -/
theorem fieldChecksAreIllegal : Obligations.FieldChecksAreIllegal := by
  intro s h f i v hr
  exact ⟨(fieldReadable_eq_false_iff ..).symm.trans (onlyIllegal_rdrec_iff hr f i).symm,
    (fieldWriteLegal_eq_false_iff ..).symm.trans (onlyIllegal_wrrec_iff hr f i v).symm⟩

end Sys2Proof.Machine
end

section
namespace Sys2Proof.Machine

/-! ### What SETUP, WRREC and RDREC answer (rules R120 to R124) -/

/-- CheckHostWritable passes a record that is allocated, if of the pool, and not queued (rule R124). -/
theorem hostWritableFault_eq_none {s : State} {h : Handle} (ha : isPool h = true → allocAt s h = true)
    (hq : (recAt s h).queued = false) : hostWritableFault s h = none := by
  unfold hostWritableFault
  rw [if_neg (by simpa using ha), if_neg (by simp [hq])]

theorem hostWritableFault_of_free {s : State} {h : Handle} (hp : isPool h = true) (ha : allocAt s h = false) :
    hostWritableFault s h = some .notAllocated :=
  if_pos (by simp [hp, ha])

theorem hostWritableFault_of_queued {s : State} {h : Handle} (ha : isPool h = true → allocAt s h = true)
    (hq : (recAt s h).queued = true) : hostWritableFault s h = some .queuedRecord := by
  unfold hostWritableFault
  rw [if_neg (by simpa using ha), if_pos hq]

/-- The state after the host wrote r as the record that h names, and got its answer OK. -/
def afterRecordWrite (s : State) (h : Handle) (r : Record) : State := deliver (contextOf s) .ok [] (setRec s h r)

theorem exec_setup_writes {s : State} {h : Handle} (hr : InRange s h) (hw : hostWritableFault s h = none)
    (a : BitVec 7) (d : Dir) (stop : Bool) (c : BitVec 8) :
    exec (.setup h a d stop c) s = .next (afterRecordWrite s h (setupRecord (recAt s h) a d stop c)) := by
  simp only [exec, execSetup, hw]
  exact if_neg (by simp [hr])

theorem exec_setup_faults {s : State} {h : Handle} {r : FaultReason} (hr : InRange s h)
    (hw : hostWritableFault s h = some r) (a : BitVec 7) (d : Dir) (stop : Bool) (c : BitVec 8) :
    exec (.setup h a d stop c) s = .next { s with fault := some r } := by
  simp only [exec, execSetup, hw]
  exact if_neg (by simp [hr])

theorem exec_wrrec_writes {s : State} {h : Handle} {f : RecField} {i : BitVec 8} {v : Word} (hr : InRange s h)
    (hl : fieldWriteLegal s.cfg f i v = true) (hw : hostWritableFault s h = none) :
    exec (.wrrec h f i v) s = .next (afterRecordWrite s h (writeField (recAt s h) f i v)) := by
  simp only [exec, execWrrec, hw]
  exact if_neg (by simp [hr, hl])

theorem exec_wrrec_faults {s : State} {h : Handle} {f : RecField} {i : BitVec 8} {v : Word} {r : FaultReason}
    (hr : InRange s h) (hl : fieldWriteLegal s.cfg f i v = true) (hw : hostWritableFault s h = some r) :
    exec (.wrrec h f i v) s = .next { s with fault := some r } := by
  simp only [exec, execWrrec, hw]
  exact if_neg (by simp [hr, hl])

theorem exec_rdrec_reads {s : State} {h : Handle} {f : RecField} {i : BitVec 8} (hr : InRange s h)
    (hf : fieldReadable s.cfg f i = true) :
    exec (.rdrec h f i) s = .next (deliver (contextOf s) .ok [readField s h f i] s) :=
  if_neg (by simp [hr, hf])

/-! ### What a write of a record leaves unchanged -/

theorem answered_afterRecordWrite (s : State) (h : Handle) (r : Record) :
    Answered s (afterRecordWrite s h r) .ok [] := by
  simp [Answered, afterRecordWrite]

theorem recAt_afterRecordWrite_same {s : State} {h : Handle} (hs : Sized s) (hr : InRange s h) (r : Record) :
    recAt (afterRecordWrite s h r) h = r :=
  recAt_setRec_same s h r (hs.hasRecord hr)

theorem recAt_afterRecordWrite_other {s : State} {h k : Handle} (hk : k ≠ h) (r : Record) :
    recAt (afterRecordWrite s h r) k = recAt s k :=
  recAt_setRec_other s h k r hk

theorem sameAlloc_afterRecordWrite (s : State) (h : Handle) (r : Record) : SameAlloc s (afterRecordWrite s h r) :=
  setRec_alloc s h r

theorem sameButRecords_afterRecordWrite (s : State) (h : Handle) (r : Record) :
    SameButRecords s (afterRecordWrite s h r) := by
  refine ⟨?engine, ?queue, ?clock, ?tables, ?handler, ?dmem, ?outside⟩
  case dmem => exact memRead_congr (setRec_cfg s h r) (setRec_dmem s h r)
  all_goals constructor <;> simp [afterRecordWrite]

/-- Settles O19: SETUP is the write of `setupRecord`. -/
theorem setupFillsTheRecord : Obligations.SetupFillsTheRecord := by
  intro s h a d stop c hs hr ha hq
  refine ⟨_, exec_setup_writes hr (hostWritableFault_eq_none ha hq) a d stop c, answered_afterRecordWrite .., ?_⟩
  rw [recAt_afterRecordWrite_same hs hr]
  exact ⟨rfl, rfl, rfl, rfl, rfl, rfl, rfl, rfl, rfl, rfl, rfl, rfl, hq, rfl,
    fun _ _ hk => recAt_afterRecordWrite_other hk _, sameAlloc_afterRecordWrite ..,
    sameButRecords_afterRecordWrite ..⟩

/-! ### Fields as numbers (rules R101, R121, R122) -/

theorem fieldNumber_congr {s t : State} {h : Handle} (hr : recAt t h = recAt s h) (ha : SameAlloc s t) (i : Nat)
    (f : RecField) : fieldNumber t h i f = fieldNumber s h i f := by
  rw [SameAlloc] at ha
  cases f <;> simp only [fieldNumber, hr, ha]

theorem bitWord_toNat (b : Bool) : (bitWord b).toNat = b.toNat := by cases b <;> rfl

/-- ALLOC of a pool handle, read at the handle's number less 128 (rule R100). -/
theorem pool_allocAt_iff (s : State) (h : Handle) :
    (isPool h && allocAt s h) = true ↔ 128 ≤ h.toNat ∧ s.alloc[h.toNat - 128]? = some true := by
  have hlt := h.isLt
  rw [Bool.and_eq_true, isPool_eq, decide_eq_true_iff, and_congr_right_iff]
  intro hp
  have hidx : h.toNat % 128 = h.toNat - 128 := by omega
  rw [allocAt, handleIndex_eq, hidx, List.getD_eq_getElem?_getD]
  cases s.alloc[h.toNat - 128]? <;> simp

/-- Rule R122: `readField` is the field's value, zero-extended to a word. -/
theorem readField_toNat (s : State) (h : Handle) (f : RecField) (i : BitVec 8) :
    (readField s h f i).toNat = fieldNumber s h i.toNat f := by
  cases f
  case dir => simp only [readField, fieldNumber]; cases (recAt s h).dir <;> rfl
  case bufSel => simp only [readField, fieldNumber]; cases (recAt s h).bufSel <;> rfl
  case inlineByte =>
    simp only [readField, fieldNumber, List.getD_eq_getElem?_getD]
    cases (recAt s h).inl[i.toNat]? with
    | none => rfl
    | some b => exact BitVec.toNat_setWidth_of_le (by decide)
  case alloc =>
    simp only [readField, fieldNumber, bitWord_toNat, ← pool_allocAt_iff]
    cases isPool h && allocAt s h <;> rfl
  case sendStop | chain | valid | queued => exact bitWord_toNat _
  case addr7 | byteCount | callback | status | hwCode => exact BitVec.toNat_setWidth_of_le (by decide)
  case extAddr | context | reserved => rfl

theorem fieldWriteLegal_iff {c : Config} {f : RecField} {i : BitVec 8} {v : Word} :
    fieldWriteLegal c f i v = true ↔
      fieldReadable c f i = true ∧ fieldWritable f = true ∧ v.toNat < 2 ^ fieldWidth c f := by
  simp [fieldWriteLegal, and_assoc]

/-- Rule R102 item 2: only INLINE has more than one index. -/
theorem index_unique_of_readable {c : Config} {f : RecField} {i j : BitVec 8} (hf : f ≠ .inlineByte)
    (hi : fieldReadable c f i = true) (hj : fieldReadable c f j = true) : i = j := by
  cases f <;> simp_all [fieldReadable]

theorem word_of_bit {v : Word} (hv : v.toNat < 2) : v = 0#32 ∨ v = 1#32 := by bv_omega

/-- The field that a legal WRREC wrote has the value (rule R121). -/
theorem fieldNumber_written {c : Config} {t : State} {h : Handle} {r : Record} {f : RecField} {i : BitVec 8} {v : Word}
    (hr : RecordSized c r) (hl : fieldWriteLegal c f i v = true) (ht : recAt t h = writeField r f i v) :
    fieldNumber t h i.toNat f = v.toNat := by
  obtain ⟨hread, hwrite, hv⟩ := fieldWriteLegal_iff.mp hl
  cases f
  case dir => obtain rfl | rfl := word_of_bit hv <;> simp [fieldNumber, ht, writeField, Dir.ofBit]
  case sendStop => obtain rfl | rfl := word_of_bit hv <;> simp [fieldNumber, ht, writeField]
  case bufSel => obtain rfl | rfl := word_of_bit hv <;> simp [fieldNumber, ht, writeField, bufSelOfBit]
  case inlineByte =>
    have hi : i.toNat < r.inl.length := hr.inl ▸ of_decide_eq_true hread
    simpa [fieldNumber, ht, writeField, hi, fieldWidth, BitVec.extractLsb'_toNat] using hv
  case addr7 | byteCount | callback =>
    simpa [fieldNumber, ht, writeField, fieldWidth, BitVec.extractLsb'_toNat] using hv
  case extAddr | context => simp [fieldNumber, ht, writeField]
  all_goals cases hwrite

/-- Every field but the one that WRREC names has its value from before (rule R121): `writeField` updates one
projection, and each other field reads another one or ALLOC. -/
theorem fieldNumber_unwritten_field {s t : State} {h : Handle} {f g : RecField} {i : BitVec 8} {v : Word} (hg : g ≠ f)
    (ht : recAt t h = writeField (recAt s h) f i v) (ha : SameAlloc s t) (j : Nat) :
    fieldNumber t h j g = fieldNumber s h j g := by
  rw [SameAlloc] at ha
  cases f <;> cases g <;> simp [fieldNumber, ht, ha, writeField] at hg ⊢

/-- So has every INLINE byte but the one at the index that WRREC names (rule R121). -/
theorem fieldNumber_unwritten_byte {s t : State} {h : Handle} {i j : BitVec 8} {v : Word} (hj : j ≠ i)
    (ht : recAt t h = writeField (recAt s h) .inlineByte i v) :
    fieldNumber t h j.toNat .inlineByte = fieldNumber s h j.toNat .inlineByte := by
  have hne : i.toNat ≠ j.toNat := fun e => hj (BitVec.eq_of_toNat_eq e.symm)
  simp only [fieldNumber, ht, writeField, List.getElem?_set_ne hne]

/-- Settles O20: by the record, the field, and for INLINE the index that differs from what WRREC names. -/
theorem wrrecWritesExactlyOneField : Obligations.WrrecWritesExactlyOneField := by
  intro s h f i v hs hr hl ha hq
  have hsame := recAt_afterRecordWrite_same hs hr (writeField (recAt s h) f i v)
  have halloc := sameAlloc_afterRecordWrite s h (writeField (recAt s h) f i v)
  refine ⟨_, exec_wrrec_writes hr hl (hostWritableFault_eq_none ha hq), answered_afterRecordWrite ..,
    fieldNumber_written (hs.record hr) hl hsame, ?_, halloc, sameButRecords_afterRecordWrite ..⟩
  intro k g j _ hread hother
  by_cases hk : k = h
  · subst hk
    by_cases hg : g = f
    · subst hg
      have hj : j ≠ i := fun e => hother ⟨rfl, rfl, e⟩
      by_cases hb : g = .inlineByte
      · subst hb
        exact fieldNumber_unwritten_byte hj hsame
      · exact absurd (index_unique_of_readable hb hread (fieldWriteLegal_iff.mp hl).1) hj
    · exact fieldNumber_unwritten_field hg hsame halloc _
  · exact fieldNumber_congr (recAt_afterRecordWrite_other hk _) halloc _ g

/-- Settles O21: RDREC answers `readField`, whose value is the field's. -/
theorem rdrecReturnsTheField : Obligations.RdrecReturnsTheField := by
  intro s h f i hr hf
  exact ⟨_, _, exec_rdrec_reads hr hf, rfl, readField_toNat s h f i, sameButResponses_deliver s _ _ _⟩

/-! ### Refused and faulting accesses (rules R123, R124) -/

theorem handleInRange_eq_false_iff (c : Config) (h : Handle) : handleInRange c h = false ↔ HandleOutOfRange c h := by
  have hlt := h.isLt
  rw [handleInRange, handleIndex_eq, isPool_eq, HandleOutOfRange]
  by_cases hp : 128 ≤ h.toNat <;> simp [hp] <;> omega

/-- The handle check comes before every other check of the commands (rules R123, R304). -/
theorem exec_of_handle_out_of_range {s : State} {i : Instr} {h : Handle} (ht : TakesHandle h i)
    (ho : handleInRange s.cfg h = false) : exec i s = respondIllegal s := by
  cases i
  case submit b hs =>
    have hall : hs.all (handleInRange s.cfg) = false := List.all_eq_false.mpr ⟨h, ht, by simp [ho]⟩
    exact if_pos (by simp [hall])
  case free | setup | wrrec | rdrec =>
    cases ht
    exact if_pos (by simp [ho])
  all_goals cases ht

/-- Settles O17: by the command that takes the handle. -/
theorem outOfRangeHandleIsIllegal : Obligations.OutOfRangeHandleIsIllegal := by
  intro s i h ht ho
  exact onlyIllegal_of_respondIllegal (exec_of_handle_out_of_range ht ((handleInRange_eq_false_iff s.cfg h).mpr ho))

/-- Settles O18: CheckHostWritable gives the fault, and either command raises it. -/
theorem unwritableRecordFaults : Obligations.UnwritableRecordFaults := by
  intro s i h hr hi
  have hfault : ∀ r, hostWritableFault s h = some r → exec i s = .next { s with fault := some r } := by
    intro r hw
    obtain ⟨a, d, stop, c, rfl⟩ | ⟨f, k, v, hl, rfl⟩ := hi
    · exact exec_setup_faults hr hw a d stop c
    · exact exec_wrrec_faults hr hl hw
  exact ⟨fun hp ha => hfault _ (hostWritableFault_of_free hp ha),
    fun ha hq => hfault _ (hostWritableFault_of_queued ha hq)⟩

end Sys2Proof.Machine
end
section
namespace Sys2Proof.Machine

/-! ### RESERVE and FREE (rules R140, R141) -/

/-- A change of the record file and the pool bitmap, and an answer, leave the rest. -/
theorem sameButRecords_deliver {s t : State} (h : sansRecords t = sansRecords s) (x : Context) (c : ResultCode)
    (d : List Word) : SameButRecords s (deliver x c d t) := by
  rw [eq_of_sansRecords h]
  refine ⟨?engine, ?queue, ?clock, ?tables, ?handler, fun _ => rfl, ?outside⟩ <;> constructor <;> rfl

theorem exec_reserve_refuses {s : State} {n : BitVec 8} (hn : poolFree s < n.toNat) :
    exec (.reserve n) s = .next (deliver (contextOf s) .noSpace [] s) := if_pos hn

theorem exec_reserve_allocates {s : State} {n : BitVec 8} (hn : n.toNat ≤ poolFree s) :
    exec (.reserve n) s = .next (deliver (contextOf s) .ok
      (((freeRecords s).take n.toNat).map fun i => (poolHandle i).setWidth 32)
      (((freeRecords s).take n.toNat).foldl allocate s)) := if_neg (Nat.not_lt.mpr hn)

/-- The free records as the entries 0 of the bitmap (rule R27). -/
theorem mem_freeRecords_iff {s : State} (hs : Sized s) {i : Nat} : i ∈ freeRecords s ↔ s.alloc[i]? = some false := by
  rw [mem_freeRecords, ← hs.alloc, List.getD_eq_getElem?_getD]
  by_cases hi : i < s.alloc.length <;> simp [hi]

/-- The first elements of an ascending list are its lowest. -/
theorem mem_take_of_lt {l : List Nat} (hl : l.Pairwise (· < ·)) {n i j : Nat} (hi : i ∈ l.take n) (hj : j ∈ l)
    (hlt : j < i) : j ∈ l.take n := by
  rw [← List.take_append_drop n l] at hl hj
  refine (List.mem_append.mp hj).resolve_right fun hd => ?_
  have := (List.pairwise_append.mp hl).2.2 i hi j hd
  omega

/-- A pool handle as the word of a response (rules R98, R100). -/
theorem poolHandle_word {i : Nat} (hi : i < 128) : (poolHandle i).setWidth 32 = BitVec.ofNat 32 (0x80 + i) := by
  apply BitVec.eq_of_toNat_eq
  simp only [poolHandle, BitVec.toNat_setWidth, BitVec.toNat_ofNat]
  omega

theorem mem_map_poolHandle_iff {is : List Nat} (his : ∀ i ∈ is, i < 128) (h : Handle) :
    h ∈ is.map poolHandle ↔ isPool h = true ∧ handleIndex h ∈ is := by
  rw [List.mem_map]
  constructor
  · rintro ⟨i, hi, rfl⟩
    exact ⟨isPool_poolHandle (his i hi), by rwa [handleIndex_poolHandle (his i hi)]⟩
  · exact fun ⟨hp, hi⟩ => ⟨_, hi, (poolHandle_of_isPool hp).symm⟩

/-- A record of the pool's capacity, by its handle (rules R5, R100). -/
theorem Sized.hasRecord_poolHandle {s : State} (hs : Sized s) (hc : s.cfg.Legal) {i : Nat} (hi : i < s.cfg.poolCap) :
    HasRecord s (poolHandle i) := by
  have h128 : i < 128 := Nat.lt_of_lt_of_le hi hc.pool.2
  simpa [HasRecord, isPool_poolHandle h128, handleIndex_poolHandle h128, hs.pool] using hi

/-- Settles O23: the records handed out are the first of the ascending list of free ones. -/
theorem reserveTakesTheLowestFreeRecords : Obligations.ReserveTakesTheLowestFreeRecords := by
  intro s n hc hs
  refine ⟨fun hn => ⟨_, exec_reserve_refuses hn, rfl, sameButResponses_deliver s _ _ _⟩, fun hn => ?_⟩
  have hfree : ∀ i ∈ (freeRecords s).take n.toNat, i < s.cfg.poolCap ∧ s.alloc[i]? = some false := fun i hi =>
    have hm := List.mem_of_mem_take hi
    ⟨(mem_freeRecords.mp hm).1, (mem_freeRecords_iff hs).mp hm⟩
  have h128 : ∀ i ∈ (freeRecords s).take n.toNat, i < 128 := fun i hi =>
    Nat.lt_of_lt_of_le (hfree i hi).1 hc.pool.2
  refine ⟨_, (freeRecords s).take n.toNat, exec_reserve_allocates hn, List.length_take_of_le hn,
    (freeRecords_ascending s).sublist (List.take_sublist _ _), hfree, ?lowest, ?answer, ?alloc, ?records,
    sameButRecords_deliver (allocateAll_keeps sansRecords sansRecords_allocate _ s) _ _ _⟩
  case lowest =>
    exact fun i hi j hlt hj => mem_take_of_lt (freeRecords_ascending s) hi ((mem_freeRecords_iff hs).mpr hj) hlt
  case answer =>
    rw [Answered, deliver_responses, allocateAll_keeps (·.responses) (fun s i => by simp) _ s,
      List.map_congr_left fun i hi => poolHandle_word (h128 i hi)]
  case alloc =>
    exact fun i _ => alloc_allocateAll _ s i fun j hj => ⟨h128 j hj, hs.alloc ▸ (hfree j hj).1⟩
  case records =>
    intro h _
    simp only [← mem_map_poolHandle_iff h128 h]
    exact recAt_allocateAll _ s h fun i hi => hs.hasRecord_poolHandle hc (hfree i hi).1

theorem exec_free_keeps {s : State} {h : Handle} (hr : InRange s h) (hk : isPool h = false ∨ allocAt s h = false) :
    exec (.free h) s = .next (deliver (contextOf s) .ok [] s) := by
  obtain hk | hk := hk <;> simp [exec, execFree, respond, hr, hk]

theorem exec_free_faults {s : State} {h : Handle} (hr : InRange s h) (hp : isPool h = true) (ha : allocAt s h = true)
    (hq : (recAt s h).queued = true) : exec (.free h) s = .next { s with fault := some .queuedRecord } := by
  simp [exec, execFree, raiseFault, hr, hp, ha, hq]

theorem exec_free_frees {s : State} {h : Handle} (hr : InRange s h) (hp : isPool h = true) (ha : allocAt s h = true)
    (hq : (recAt s h).queued = false) :
    exec (.free h) s = .next (deliver (contextOf s) .ok [] (setAlloc s h false)) := by
  simp [exec, execFree, respond, hr, hp, ha, hq]

/-- A cleared ALLOC bit reads 0 (beyond the bitmap every bit does). -/
theorem allocAt_setAlloc_false (s : State) (h : Handle) : allocAt (setAlloc s h false) h = false := by
  simp only [allocAt, setAlloc_alloc, List.getD_eq_getElem?_getD, List.getElem?_set_self']
  cases s.alloc[handleIndex h]? <;> rfl

/-- Settles O24: FREE is three answers by ALLOC and QUEUED, and only the last of them writes, one ALLOC bit. -/
theorem freeReturnsOnlyPoolRecords : Obligations.FreeReturnsOnlyPoolRecords := by
  intro s h _ hr
  refine ⟨fun hk => ⟨_, exec_free_keeps hr hk, rfl, sameButResponses_deliver s _ _ _⟩, exec_free_faults hr,
    fun hp ha hq => ?_⟩
  refine ⟨_, exec_free_frees hr hp ha hq, rfl, allocAt_setAlloc_false s h, fun k hpk hk => ?_, rfl, rfl,
    sameButRecords_deliver (sansRecords_setAlloc s h false) _ _ _⟩
  exact allocAt_setAlloc_other s h k false fun e => hk (handle_ext (hpk.trans hp.symm) e)

end Sys2Proof.Machine
end

section
namespace Sys2Proof.Machine

/-! ### Who owns what, through the engine's arms (rules R142, R143, R180 to R194) -/

/-- The state with nothing but what says who owns which record: CUR, the queue and the pool bitmap. -/
def holdings (s : State) : State :=
  { State.resetWith s.cfg with cur := s.cur, qslot := s.qslot, qRd := s.qRd, qCount := s.qCount, alloc := s.alloc }

@[simp] theorem holdings_setRec (s : State) (h : Handle) (r : Record) : holdings (setRec s h r) = holdings s := by
  unfold setRec
  split <;> rfl

@[simp] theorem holdings_setOutcome (h : Handle) (w : BitVec 16) (c : Byte) (s : State) :
    holdings (setOutcome h w c s) = holdings s := holdings_setRec s h _

@[simp] theorem holdings_busCmd (c : BusCmd) (s : State) : holdings (busCmd c s) = holdings s := rfl

@[simp] theorem holdings_notify (p : Ntf) (s : State) : holdings (notify p s) = holdings s := rfl

@[simp] theorem holdings_stopIfAsked (h : Handle) (s : State) : holdings (stopIfAsked h s) = holdings s := by
  unfold stopIfAsked
  split <;> rfl

theorem holdings_of_bufWrite {h : Handle} {i : Nat} {v : Byte} {s t : State} (hw : bufWrite s h i v = .next t) :
    holdings t = holdings s := by
  obtain ⟨-, -, rfl⟩ | ⟨-, -, rfl⟩ := bufWrite_next hw
  · exact holdings_setRec s h _
  · rfl

/-- All that an arm for record h does to who owns what: nothing, or it finishes the record and enters the IDLE arm. -/
def KeepsOrFinishes (h : Handle) (s t : State) : Prop :=
  holdings t = holdings s ∨
    ∃ u, holdings u = holdings s ∧ (t = idleArm (finishSuccess h u) ∨ t = idleArm (finishError h u))

theorem KeepsOrFinishes.of_holdings {h : Handle} {s s' t : State} (hs : holdings s' = holdings s)
    (hk : KeepsOrFinishes h s' t) : KeepsOrFinishes h s t := by
  obtain ht | ⟨u, hu, ht⟩ := hk
  · exact .inl (ht.trans hs)
  · exact .inr ⟨u, hu.trans hs, ht⟩

theorem keepsOrFinishes_stopArm (h : Handle) (s : State) : KeepsOrFinishes h s (stopArm h s) := by
  unfold stopArm
  split
  · exact .inl (by simp)
  · exact .inr ⟨_, by simp, .inl rfl⟩

theorem keepsOrFinishes_errorArm (h : Handle) (p : Phase) (c : Byte) (s : State) :
    KeepsOrFinishes h s (errorArm h p c s) := by
  unfold errorArm
  split
  · exact .inl (by simp)
  · exact .inr ⟨_, by simp, .inr rfl⟩

theorem keepsOrFinishes_of_failCheck {h : Handle} {p : Phase} {c : Byte} {s t : State}
    (hx : failCheck h p c s = .next t) : KeepsOrFinishes h s t := by
  cases hx
  exact (keepsOrFinishes_errorArm h p c _).of_holdings rfl

theorem keepsOrFinishes_of_dataSendArm {h : Handle} {s t : State} (hx : dataSendArm h s = .next t) :
    KeepsOrFinishes h s t := by
  unfold dataSendArm at hx
  split at hx
  · split at hx
    · obtain ⟨b, rfl⟩ := withBufRead_next hx
      exact .inl rfl
    · cases hx
      exact .inl rfl
  · cases hx
    exact (keepsOrFinishes_stopArm h _).of_holdings rfl

theorem keepsOrFinishes_of_byteDone {h : Handle} {s t : State} (hx : byteDone h s = .next t) :
    KeepsOrFinishes h s t :=
  (keepsOrFinishes_of_dataSendArm hx).of_holdings rfl

theorem keepsOrFinishes_of_dataCheckArm {h : Handle} {e : BusEvent} {s t : State} (hx : dataCheckArm h e s = .next t) :
    KeepsOrFinishes h s t := by
  unfold dataCheckArm at hx
  split at hx
  · unfold writeCheckArm at hx
    split at hx
    · exact keepsOrFinishes_of_byteDone hx
    · exact keepsOrFinishes_of_failCheck hx
  · unfold readCheckArm at hx
    split at hx
    · obtain ⟨u, hu, hx⟩ := andThen_eq_next hx
      exact (keepsOrFinishes_of_byteDone hx).of_holdings (holdings_of_bufWrite hu)
    · exact keepsOrFinishes_of_failCheck hx

/-- A bus event is for the current record, and one of the three waiting arms takes it (rules R38 item 8, R193). -/
theorem Inv.keepsOrFinishes_of_busEventStep {s t : State} (hi : Inv s) (ho : s.busOut ≠ none) {e : BusEvent}
    (hx : busEventStep e s = .next t) : ∃ h, s.cur = some h ∧ KeepsOrFinishes h s t := by
  obtain ⟨h, hc, hst⟩ := hi.waits ho
  refine ⟨h, hc, .of_holdings (s' := { s with busOut := none }) rfl ?_⟩
  obtain ⟨hst, -⟩ | ⟨hst, -⟩ | ⟨hst, -⟩ := hst
  · rw [busEventStep_start hst hc] at hx
    unfold startArm at hx
    split at hx
    · cases hx
      exact .inl rfl
    · exact keepsOrFinishes_of_failCheck hx
  · rw [busEventStep_addressAck hst hc] at hx
    unfold addressAckArm at hx
    split at hx
    · exact (keepsOrFinishes_of_dataSendArm hx).of_holdings rfl
    · exact keepsOrFinishes_of_failCheck hx
  · rw [busEventStep_dataCheck hst hc] at hx
    exact keepsOrFinishes_of_dataCheckArm hx

/-- RETURN from a completion handler finishes the current record (rule R194). -/
theorem Inv.keepsOrFinishes_of_engineResume {s t : State} (hi : Inv s) {h : Handle} {cb w : BitVec 16} {ctx : BitVec 32}
    {c : Byte} (hn : s.ntf = .txn h cb ctx w c) (hx : engineResume s = .next t) :
    s.cur = some h ∧ KeepsOrFinishes h s t := by
  obtain ⟨hc, hst⟩ := hi.txnHeld h cb ctx w c hn
  rw [engineResume_eq hc hst] at hx
  cases hx
  refine ⟨hc, .inr ⟨leaveHandler s, rfl, ?_⟩⟩
  split
  · exact .inl rfl
  · exact .inr rfl

end Sys2Proof.Machine
end

section
namespace Sys2Proof.Machine

/-! ### No record leaks (rule R143) -/

/-- The block owns record k, or k is no allocated pool record. -/
def Accounted (k : Handle) (s : State) : Prop := k ∈ owned s ∨ (isPool k = true → allocAt s k = false)

/-- What `Accounted` reads stands in the holdings. -/
theorem Accounted.of_holdings {k : Handle} {s t : State} (h : holdings t = holdings s) (hk : Accounted k s) :
    Accounted k t := by
  change Accounted k (holdings t)
  rw [h]
  exact hk

/-- The block lets go of its first record and frees it (rule R142). -/
theorem Accounted.of_release {k h : Handle} {s t : State} (ho : owned s = h :: owned t)
    (ha : t.alloc = (release s h).alloc) (hk : Accounted k s) : Accounted k t := by
  rw [Accounted, allocAt_congr ha]
  by_cases e : k = h
  · subst e
    exact .inr fun hp => by simp only [release, hp, if_true, allocAt_setAlloc_false]
  · rw [Accounted, ho, List.mem_cons, or_iff_right e] at hk
    exact hk.imp_right fun hf hp => (allocAt_release_other s h k e hp).trans (hf hp)

/-- The engine has let go of its current record and not started the next, and record k is accounted for. -/
structure BetweenRecords (k : Handle) (s : State) : Prop where
  cur : s.cur = none
  qRd : s.qRd < s.cfg.queueCap
  accounted : Accounted k s

theorem BetweenRecords.of_popRelease {k : Handle} {s : State} (hk : BetweenRecords k s) (hpos : 0 < s.qCount) :
    BetweenRecords k (release (qPop s) (qOldest s)) := by
  refine ⟨by simp [hk.cur], by simpa using Nat.mod_lt _ (Nat.zero_lt_of_lt hk.qRd), ?_⟩
  have hlive : liveEntries (release (qPop s) (qOldest s)) = liveEntries (qPop s) :=
    liveEntries_congr (by simp) (by simp) (by simp) (by simp)
  refine Accounted.of_release (s := s) (h := qOldest s) ?_ ?_ hk.accounted
  · simpa [owned, hk.cur, hlive] using liveEntries_qPop s hpos hk.qRd
  · unfold release
    split <;> simp

/-- The discard loop frees what it pops (rule R192). -/
theorem BetweenRecords.of_discardChain {k : Handle} (n : Nat) : ∀ {c : Bool} {s : State}, BetweenRecords k s →
    BetweenRecords k (discardChain n c s) := by
  induction n with
  | zero => exact id
  | succ n ih =>
    intro c s hk
    unfold discardChain
    split
    · rename_i hc
      simp only [Bool.and_eq_true, decide_eq_true_eq] at hc
      exact ih (hk.of_popRelease hc.2)
    · exact hk

theorem BetweenRecords.of_letGo {k h : Handle} {s : State} (hc : s.cur = some h) (hr : s.qRd < s.cfg.queueCap)
    (hk : Accounted k s) : BetweenRecords k { release s h with cur := none } := by
  have hlive : liveEntries { release s h with cur := none } = liveEntries s :=
    liveEntries_congr (by simp) (by simp) (by simp) (by simp)
  refine ⟨rfl, by simpa using hr, Accounted.of_release (s := s) (h := h) ?_ rfl hk⟩
  simp only [owned, hlive, hc]
  rfl

theorem BetweenRecords.keep_st {k : Handle} {s : State} (hk : BetweenRecords k s) (st : EngineState) :
    BetweenRecords k { s with st := st } :=
  ⟨hk.cur, hk.qRd, hk.accounted.of_holdings rfl⟩

theorem BetweenRecords.accounted_idleArm {k : Handle} {s : State} (hk : BetweenRecords k s) :
    Accounted k (idleArm s) := by
  have ho : owned (idleArm s) = owned s := by
    rw [owned_idleArm hk.cur hk.qRd]
    simp [owned, hk.cur]
  rw [Accounted, ho, allocAt_congr (idleArm_alloc s)]
  exact hk.accounted

/-- A run of the engine frees the pool records that it lets go of (rules R142, R191, R192). -/
theorem Accounted.of_keepsOrFinishes {k h : Handle} {s t : State} (hc : s.cur = some h) (hr : s.qRd < s.cfg.queueCap)
    (ht : KeepsOrFinishes h s t) (hk : Accounted k s) : Accounted k t := by
  obtain ht | ⟨u, hu, ht⟩ := ht
  · exact hk.of_holdings ht
  have hru : (holdings u).qRd < (holdings u).cfg.queueCap := by
    rw [hu]
    exact hr
  have hku : BetweenRecords k { release u h with cur := none } :=
    .of_letGo ((congrArg State.cur hu).trans hc) hru (hk.of_holdings hu)
  obtain rfl | rfl := ht
  · exact (hku.keep_st .idle).accounted_idleArm
  · exact ((hku.of_discardChain u.qCount).keep_st .idle).accounted_idleArm

/-! ### Commands and ticks that own as before -/

@[simp] theorem owned_deliverDue (due : List DueEntry) (s : State) : owned (deliverDue due s) = owned s := by
  obtain ⟨-, he⟩ | ⟨x, rest, picks, draws, -, he⟩ := deliverDue_spec due s <;> rw [he] <;> rfl

@[simp] theorem owned_setTable (s : State) (tb : Table) (T : CbTable) : owned (setTable s tb T) = owned s := by
  cases tb <;> rfl

theorem owned_dispatch (tb : Table) (s : State) : owned (dispatch tb s) = owned s := by
  unfold dispatch
  split <;> simp

theorem owned_deliver (x : Context) (c : ResultCode) (d : List Word) (s : State) :
    owned (deliver x c d s) = owned s := rfl

theorem owned_of_sansRecords {s t : State} (h : sansRecords t = sansRecords s) : owned t = owned s := by
  rw [eq_of_sansRecords h]
  rfl

/-- Only SUBMIT and RETURN change who owns what. -/
theorem owned_of_exec {i : Instr} {s t : State} (hsubmit : ∀ b hs, i ≠ .submit b hs) (hret : i ≠ .ret)
    (hx : exec i s = .next t) : owned t = owned s := by
  cases i with
  | submit b hs => exact absurd rfl (hsubmit b hs)
  | ret => exact absurd rfl hret
  | clkinit e => cases hx; rfl
  | nowms => cases hx; rfl
  | nowus => cases hx; rfl
  | status => cases hx; rfl
  | reserve n =>
    obtain ⟨-, rfl⟩ | ⟨-, rfl⟩ := execReserve_next hx
    · rfl
    · exact (owned_deliver ..).trans (owned_of_sansRecords (allocateAll_keeps sansRecords sansRecords_allocate _ s))
  | free h =>
    obtain ⟨-, rfl⟩ | ⟨-, -, rfl⟩ | ⟨-, -, -, -, rfl⟩ | ⟨-, -, -, -, rfl⟩ := execFree_next hx <;> rfl
  | setup h a d stop c =>
    obtain ⟨-, rfl⟩ | ⟨-, r, -, rfl⟩ | ⟨-, -, rfl⟩ := execSetup_next hx
    · rfl
    · rfl
    · exact (owned_deliver ..).trans (owned_of_sansRecords (sansRecords_setRec s h _))
  | wrrec h f k v =>
    obtain ⟨-, rfl⟩ | ⟨-, -, r, -, rfl⟩ | ⟨-, -, -, rfl⟩ := execWrrec_next hx
    · rfl
    · rfl
    · exact (owned_deliver ..).trans (owned_of_sansRecords (sansRecords_setRec s h _))
  | rdrec h f k =>
    obtain ⟨-, rfl⟩ | ⟨-, -, rfl⟩ := execRdrec_next hx <;> rfl
  | cbreg tb v cb =>
    obtain ⟨-, rfl⟩ | ⟨-, -, rfl⟩ | ⟨-, -, -, rfl⟩ | ⟨-, -, -, rfl⟩ := execCbreg_next hx
    · rfl
    · rfl
    · rfl
    · exact (owned_deliver ..).trans (owned_setTable s tb _)
  | cbunreg tb cb =>
    obtain ⟨-, rfl⟩ | ⟨-, -, rfl⟩ | ⟨-, -, -, rfl⟩ | ⟨-, -, k, -, rfl⟩ := execCbunreg_next hx
    · rfl
    · rfl
    · rfl
    · exact (owned_deliver ..).trans (owned_setTable s tb _)

/-! ### The steps that change who owns what -/

/-- SUBMIT lets go of nothing: a busy engine is not run, and an idle one owns nothing before (rules R38 item 4, R162). -/
theorem Inv.accounted_of_execSubmit {s t : State} (hi : Inv s) {b : Bool} {hs : List Handle}
    (hx : execSubmit b hs s = .next t) {k : Handle} (hk : k ∈ owned s) : Accounted k t := by
  obtain ⟨-, rfl⟩ | ⟨-, r, -, rfl⟩ | ⟨-, -, -, rfl⟩ | ⟨-, -, hcap, u, hu, hf⟩ := execSubmit_next hx
  · exact .inl hk
  · exact .inl hk
  · exact .inl hk
  have hb : s.busy = true := by
    by_contra hb
    have hc := (hi.at_rest (by simpa using hb)).1
    simp [owned, hc, liveEntries_of_qCount_zero (hi.idle hc).2] at hk
  have hku : k ∈ owned u := by
    simp only [kick, enqueueAll_busy, hb, if_true, Host.Outcome.next.injEq] at hu
    rw [← hu, hi.ledger.owned_enqueueAll hcap]
    exact List.mem_append_left hs hk
  obtain ⟨-, -, rfl⟩ | ⟨-, rfl⟩ := finishSubmit_next hf
  · exact .inl (by unfold holdContext; split <;> exact hku)
  · exact .inl hku

theorem Inv.accounted_of_execRet {s t : State} (hi : Inv s) (hx : execRet s = .next t) {k : Handle}
    (hk : k ∈ owned s) : Accounted k t := by
  obtain ⟨-, rfl⟩ | ⟨h, _, _, _, _, u, hn, hr, rfl⟩ | ⟨_, _, _, _, -, rfl⟩ := execRet_next hx
  · exact .inl hk
  · obtain ⟨hc, hu⟩ := hi.keepsOrFinishes_of_engineResume hn hr
    exact (Accounted.of_keepsOrFinishes hc hi.queue.2 hu (.inl hk)).of_holdings rfl
  · exact .inl ((owned_deliverDue s.tickDue s).symm ▸ hk)

theorem Inv.accounted_of_exec {s t : State} (hi : Inv s) {i : Instr} (hx : exec i s = .next t) {k : Handle}
    (hk : k ∈ owned s) : Accounted k t := by
  by_cases hsubmit : ∃ b hs, i = .submit b hs
  · obtain ⟨b, hs, rfl⟩ := hsubmit
    exact hi.accounted_of_execSubmit hx hk
  by_cases hret : i = .ret
  · subst hret
    exact hi.accounted_of_execRet hx hk
  · exact .inl ((owned_of_exec (fun b hs e => hsubmit ⟨b, hs, e⟩) hret hx).symm ▸ hk)

/-- What the block owns before an action it owns after it, or the action freed it. -/
theorem Inv.accounted_of_act {s t : State} (hi : Inv s) {a : Action} (he : enabled s a = true)
    (hx : act a s = .next t) {k : Handle} (hk : k ∈ owned s) : Accounted k t := by
  cases a with
  | command =>
    obtain ⟨i, rest, -, hx⟩ | ⟨e, rest, -, rfl⟩ := issueCommand_next hx
    · have hi' : Inv { s with port := rest } := hi.keep_outside ..
      exact hi'.accounted_of_exec hx hk
    · exact .inl hk
  | busEvent code data =>
    simp only [enabled, Bool.and_eq_true, Option.isSome_iff_ne_none] at he
    obtain ⟨h, hc, ht⟩ := hi.keepsOrFinishes_of_busEventStep he.1 hx
    exact Accounted.of_keepsOrFinishes hc hi.queue.2 ht (.inl hk)
  | fineTick =>
    cases hx
    exact .inl ((owned_dispatch .fast _).symm ▸ hk)
  | coarseTick =>
    cases hx
    exact .inl ((owned_dispatch .slow _).symm ▸ hk)
  | liftBackground =>
    cases hx
    exact .inl hk
  | liftHandler =>
    cases hx
    exact .inl hk
  | hostWrite address value =>
    obtain ⟨-, rfl⟩ := memWrite_next hx
    exact .inl hk

/-- Settles O25: the invariants hold after the step, which tie QUEUED to ownership, and every record that the block
owned is accounted for. -/
theorem dequeuedPoolRecordsAreFree : Obligations.DequeuedPoolRecordsAreFree := by
  intro s t hi hx
  have hit := everyStepKeepsTheInvariants s t hi hx
  refine ⟨fun h hr hp hq => hit.ownedAllocated h ((hit.ownedQueued h hr).mp hq) hp, fun h ho hno => ⟨?_, ?_⟩⟩
  · have hr : InRange t h := by
      rw [InRange, (clockAndTablesHaveTheirWriters s t hx).1]
      exact hi.ownedInRange h ho
    simpa [hno] using hit.ownedQueued h hr
  · obtain ⟨-, ⟨-, rfl⟩ | ⟨a, more, -, he, ha⟩⟩ := step_next hx
    · exact absurd ho hno
    · have hi' : Inv { s with agenda := more } := hi.keep_outside ..
      exact (hi'.accounted_of_act he ha ho).resolve_left hno

end Sys2Proof.Machine
end

section
namespace Sys2Proof.Machine

/-! ### CHAIN, through the engine and the commands (rules R120, R162, R164) -/

/-- The CHAIN bits of the record file. -/
def chains (s : State) (h : Handle) : Bool := (recAt s h).chain

/-- A write of a record leaves it alone, or (at a handle without a record) changes nothing. -/
theorem recAt_setRec_same_or (s : State) (h : Handle) (r : Record) :
    recAt (setRec s h r) h = r ∨ recAt (setRec s h r) h = recAt s h := by
  by_cases hr : HasRecord s h
  · exact .inl (recAt_setRec_same s h r hr)
  · refine .inr ?_
    unfold HasRecord at hr
    unfold setRec
    split at hr <;> rename_i hp <;> simp [hp, List.set_eq_of_length_le (Nat.le_of_not_lt hr)]

theorem chains_setRec {s : State} {h : Handle} {r : Record} (hr : r.chain = (recAt s h).chain) :
    chains (setRec s h r) = chains s := by
  funext k
  by_cases hk : k = h
  · subst hk
    obtain he | he := recAt_setRec_same_or s k r <;> simp [chains, he, hr]
  · rw [chains, recAt_setRec_other s h k r hk, chains]

@[simp] theorem chains_release (s : State) (h : Handle) : chains (release s h) = chains s := by
  unfold release
  split
  · exact chains_setRec rfl
  · exact chains_setRec rfl

@[simp] theorem chains_setOutcome (h : Handle) (w : BitVec 16) (c : Byte) (s : State) :
    chains (setOutcome h w c s) = chains s := chains_setRec rfl

@[simp] theorem chains_busCmd (c : BusCmd) (s : State) : chains (busCmd c s) = chains s := rfl

@[simp] theorem chains_notify (p : Ntf) (s : State) : chains (notify p s) = chains s := rfl

@[simp] theorem chains_deliver (x : Context) (c : ResultCode) (d : List Word) (s : State) :
    chains (deliver x c d s) = chains s := rfl

@[simp] theorem chains_stopIfAsked (h : Handle) (s : State) : chains (stopIfAsked h s) = chains s := by
  unfold stopIfAsked
  split <;> rfl

@[simp] theorem chains_idleArm (s : State) : chains (idleArm s) = chains s :=
  funext fun k => congrArg (·.chain) (recAt_idleArm s k)

@[simp] theorem chains_finishSuccess (h : Handle) (s : State) : chains (finishSuccess h s) = chains s :=
  chains_release s h

@[simp] theorem chains_finishError (h : Handle) (s : State) : chains (finishError h s) = chains s :=
  (discardChain_keeps chains (fun _ => rfl) chains_release _ _ _).trans (chains_release s h)

@[simp] theorem chains_deliverDue (due : List DueEntry) (s : State) : chains (deliverDue due s) = chains s := by
  obtain ⟨-, he⟩ | ⟨x, rest, picks, draws, -, he⟩ := deliverDue_spec due s <;> rw [he] <;> rfl

@[simp] theorem chains_setTable (s : State) (tb : Table) (T : CbTable) : chains (setTable s tb T) = chains s := by
  cases tb <;> rfl

theorem chains_dispatch (tb : Table) (s : State) : chains (dispatch tb s) = chains s := by
  unfold dispatch
  split <;> simp

/-! #### The engine's arms write no CHAIN bit -/

theorem chains_stopArm (h : Handle) (s : State) : chains (stopArm h s) = chains s := by
  unfold stopArm
  split <;> simp

theorem chains_errorArm (h : Handle) (p : Phase) (c : Byte) (s : State) : chains (errorArm h p c s) = chains s := by
  unfold errorArm
  split <;> simp

theorem chains_of_failCheck {h : Handle} {p : Phase} {c : Byte} {s t : State} (hx : failCheck h p c s = .next t) :
    chains t = chains s := by
  cases hx
  exact chains_errorArm h p c _

theorem chains_of_dataSendArm {h : Handle} {s t : State} (hx : dataSendArm h s = .next t) : chains t = chains s := by
  unfold dataSendArm at hx
  split at hx
  · split at hx
    · obtain ⟨b, rfl⟩ := withBufRead_next hx
      rfl
    · cases hx
      rfl
  · cases hx
    exact chains_stopArm h _

theorem chains_of_byteDone {h : Handle} {s t : State} (hx : byteDone h s = .next t) : chains t = chains s :=
  chains_of_dataSendArm (s := { s with idx := s.idx + 1, st := .dataSend }) hx

theorem chains_of_bufWrite {h : Handle} {i : Nat} {v : Byte} {s t : State} (hw : bufWrite s h i v = .next t) :
    chains t = chains s := by
  obtain ⟨-, -, rfl⟩ | ⟨-, -, rfl⟩ := bufWrite_next hw
  · exact chains_setRec rfl
  · rfl

theorem chains_of_dataCheckArm {h : Handle} {e : BusEvent} {s t : State} (hx : dataCheckArm h e s = .next t) :
    chains t = chains s := by
  unfold dataCheckArm at hx
  split at hx
  · unfold writeCheckArm at hx
    split at hx
    · exact chains_of_byteDone hx
    · exact chains_of_failCheck hx
  · unfold readCheckArm at hx
    split at hx
    · obtain ⟨u, hu, hx⟩ := andThen_eq_next hx
      exact (chains_of_byteDone hx).trans (chains_of_bufWrite hu)
    · exact chains_of_failCheck hx

theorem chains_of_engineRun {ev : Option BusEvent} {s t : State} (hx : engineRun ev s = .next t) :
    chains t = chains s := by
  unfold engineRun at hx
  split at hx
  · cases hx
    exact chains_idleArm s
  · unfold startArm at hx
    split at hx
    · cases hx
      rfl
    · exact chains_of_failCheck hx
  · cases hx
    rfl
  · unfold addressAckArm at hx
    split at hx
    · exact chains_of_dataSendArm hx
    · exact chains_of_failCheck hx
  · exact chains_of_dataCheckArm hx
  · exact chains_of_dataSendArm hx
  · cases hx
    exact chains_stopArm _ s
  · cases hx

theorem chains_of_engineResume {s t : State} (hx : engineResume s = .next t) : chains t = chains s := by
  unfold engineResume at hx
  split at hx
  · cases hx
  · split at hx
    · exact (chains_of_engineRun hx).trans (chains_finishSuccess _ _)
    · exact (chains_of_engineRun hx).trans (chains_finishError _ _)

/-! #### The commands -/

/-- Only SETUP and SUBMIT write a CHAIN bit, and the engine under RETURN writes none. -/
theorem chains_of_exec {i : Instr} {s t : State} (hsubmit : ∀ b hs, i ≠ .submit b hs)
    (hsetup : ∀ h a d stop c, i ≠ .setup h a d stop c) (hx : exec i s = .next t) : chains t = chains s := by
  cases i with
  | submit b hs => exact absurd rfl (hsubmit b hs)
  | setup h a d stop c => exact absurd rfl (hsetup h a d stop c)
  | clkinit e => cases hx; rfl
  | nowms => cases hx; rfl
  | nowus => cases hx; rfl
  | status => cases hx; rfl
  | reserve n =>
    obtain ⟨-, rfl⟩ | ⟨-, rfl⟩ := execReserve_next hx
    · rfl
    · exact allocateAll_keeps chains (fun _ _ => chains_setRec rfl) _ s
  | free h =>
    obtain ⟨-, rfl⟩ | ⟨-, -, rfl⟩ | ⟨-, -, -, -, rfl⟩ | ⟨-, -, -, -, rfl⟩ := execFree_next hx <;> rfl
  | wrrec h f k v =>
    obtain ⟨-, rfl⟩ | ⟨-, -, r, -, rfl⟩ | ⟨-, -, -, rfl⟩ := execWrrec_next hx
    · rfl
    · rfl
    · exact chains_setRec (by cases f <;> rfl)
  | rdrec h f k =>
    obtain ⟨-, rfl⟩ | ⟨-, -, rfl⟩ := execRdrec_next hx <;> rfl
  | cbreg tb v cb =>
    obtain ⟨-, rfl⟩ | ⟨-, -, rfl⟩ | ⟨-, -, -, rfl⟩ | ⟨-, -, -, rfl⟩ := execCbreg_next hx
    · rfl
    · rfl
    · rfl
    · exact chains_setTable s tb _
  | cbunreg tb cb =>
    obtain ⟨-, rfl⟩ | ⟨-, -, rfl⟩ | ⟨-, -, -, rfl⟩ | ⟨-, -, k, -, rfl⟩ := execCbunreg_next hx
    · rfl
    · rfl
    · rfl
    · exact chains_setTable s tb _
  | ret =>
    obtain ⟨-, rfl⟩ | ⟨_, _, _, _, _, u, -, hr, rfl⟩ | ⟨_, _, _, _, -, rfl⟩ := execRet_next hx
    · rfl
    · exact (chains_deliver _ _ _ u).trans (chains_of_engineResume hr)
    · exact chains_deliverDue s.tickDue s

/-- SETUP is refused a record that the block owns (rules R120, R124). -/
theorem Inv.chains_owned_of_execSetup {s t : State} (hi : Inv s) {h : Handle} {a : BitVec 7} {d : Dir} {stop : Bool}
    {c : BitVec 8} (hx : execSetup h a d stop c s = .next t) : ∀ k ∈ owned s, chains t k = chains s k := by
  intro k hk
  obtain ⟨-, rfl⟩ | ⟨-, r, -, rfl⟩ | ⟨hr, hw, rfl⟩ := execSetup_next hx
  · rfl
  · rfl
  · obtain ⟨hno, -⟩ := hi.not_owned_of_writable hr hw
    exact congrArg (·.chain) (recAt_setRec_other s h k _ fun e => hno (e ▸ hk))

/-- Every command but SUBMIT leaves CHAIN of the records that the block owns. -/
theorem Inv.chains_owned_of_exec {s t : State} (hi : Inv s) {i : Instr} (hsubmit : ∀ b hs, i ≠ .submit b hs)
    (hx : exec i s = .next t) : ∀ k ∈ owned s, chains t k = chains s k := by
  by_cases hsetup : ∃ h a d stop c, i = .setup h a d stop c
  · obtain ⟨h, a, d, stop, c, rfl⟩ := hsetup
    exact hi.chains_owned_of_execSetup hx
  · intro k _
    rw [chains_of_exec hsubmit (fun h a d stop c e => hsetup ⟨h, a, d, stop, c, e⟩) hx]

end Sys2Proof.Machine
end

section
namespace Sys2Proof.Machine

/-! ### Records leave from the front (rules R161, R164, R191, R192) -/

/-- The discard loop pops from the front. -/
theorem liveEntries_discardChain_suffix (n : Nat) : ∀ {c : Bool} {s : State}, s.qRd < s.cfg.queueCap →
    liveEntries (discardChain n c s) <:+ liveEntries s ∧
      (discardChain n c s).qRd < (discardChain n c s).cfg.queueCap := by
  induction n with
  | zero => exact fun hr => ⟨List.suffix_refl _, hr⟩
  | succ n ih =>
    intro c s hr
    unfold discardChain
    split
    · rename_i hc
      simp only [Bool.and_eq_true, decide_eq_true_eq] at hc
      have hrd : (release (qPop s) (qOldest s)).qRd < (release (qPop s) (qOldest s)).cfg.queueCap := by
        simpa using Nat.mod_lt _ (Nat.zero_lt_of_lt hr)
      have hlive : liveEntries (release (qPop s) (qOldest s)) = liveEntries (qPop s) :=
        liveEntries_congr (by simp) (by simp) (by simp) (by simp)
      obtain ⟨hsuf, hq⟩ := ih (c := (recAt (qPop s) (qOldest s)).chain) hrd
      rw [hlive] at hsuf
      refine ⟨hsuf.trans ?_, hq⟩
      rw [liveEntries_qPop s hc.2 hr]
      exact List.suffix_cons _ _
    · exact ⟨List.suffix_refl _, hr⟩

/-- The IDLE arm takes the oldest queued record as the current one, and lets go of none (rule R180). -/
theorem owned_idleArm_same {s : State} (hc : s.cur = none) (hr : s.qRd < s.cfg.queueCap) :
    owned (idleArm s) = owned s := by
  rw [owned_idleArm hc hr]
  simp [owned, hc]

theorem owned_eq_cons {s : State} {h : Handle} (hc : s.cur = some h) : owned s = h :: liveEntries s := by
  simp [owned, hc]

theorem owned_finishSuccess (h : Handle) (s : State) : owned (finishSuccess h s) = liveEntries s :=
  liveEntries_congr (by simp [finishSuccess]) (by simp [finishSuccess]) (by simp [finishSuccess])
    (by simp [finishSuccess])

/-- FinishError lets go of the failing record, then of the rest of its chain (rule R192). -/
theorem owned_finishError_suffix (h : Handle) {s : State} (hr : s.qRd < s.cfg.queueCap) :
    owned (finishError h s) <:+ liveEntries s ∧ (finishError h s).qRd < (finishError h s).cfg.queueCap := by
  have hlive : liveEntries { release s h with cur := none } = liveEntries s :=
    liveEntries_congr (by simp) (by simp) (by simp) (by simp)
  obtain ⟨hsuf, hq⟩ := liveEntries_discardChain_suffix s.qCount (c := (recAt s h).chain)
    (s := { release s h with cur := none }) (by simpa using hr)
  refine ⟨?_, hq⟩
  rw [hlive] at hsuf
  have ho : owned (finishError h s) =
      liveEntries (discardChain s.qCount (recAt s h).chain { release s h with cur := none }) := by
    simp only [owned, finishError, discardChain_cur, Option.toList_none, List.nil_append]
    rfl
  exact ho ▸ hsuf

/-- What is owned stands in the holdings. -/
theorem owned_of_holdings {s t : State} (h : holdings t = holdings s) : owned t = owned s :=
  (congrArg owned h : owned (holdings t) = owned (holdings s))

theorem liveEntries_of_holdings {s t : State} (h : holdings t = holdings s) : liveEntries t = liveEntries s :=
  (congrArg liveEntries h : liveEntries (holdings t) = liveEntries (holdings s))

/-- A run of the engine for the current record lets go of oldest records only. -/
theorem owned_suffix_of_keepsOrFinishes {h : Handle} {s t : State} (hc : s.cur = some h) (hr : s.qRd < s.cfg.queueCap)
    (ht : KeepsOrFinishes h s t) : owned t <:+ owned s := by
  obtain ht | ⟨u, hu, ht⟩ := ht
  · rw [owned_of_holdings ht]
  have hru : u.qRd < u.cfg.queueCap := by
    have hq : u.qRd = s.qRd := congrArg (·.qRd) hu
    have hcfg : u.cfg = s.cfg := congrArg (·.cfg) hu
    rw [hq, hcfg]
    exact hr
  rw [owned_eq_cons hc, ← liveEntries_of_holdings hu]
  refine List.IsSuffix.trans ?_ (List.suffix_cons _ _)
  obtain rfl | rfl := ht
  · rw [owned_idleArm_same rfl (by simpa [finishSuccess] using hru), owned_finishSuccess]
  · obtain ⟨hsuf, hq⟩ := owned_finishError_suffix h hru
    rwa [owned_idleArm_same (by simp [finishError]) hq]

/-- What a step that submits nothing may do to the owned records: oldest ones leave, the others keep CHAIN. -/
structure LetsGo (s t : State) : Prop where
  suffix : owned t <:+ owned s
  chains : ∀ h ∈ owned s, chains t h = chains s h

theorem LetsGo.of_same {s t : State} (ho : owned t = owned s) (hc : Machine.chains t = Machine.chains s) : LetsGo s t :=
  ⟨ho ▸ List.suffix_refl _, fun _ _ => by rw [hc]⟩

theorem Inv.letsGo_of_execRet {s t : State} (hi : Inv s) (hx : execRet s = .next t) : LetsGo s t := by
  refine ⟨?_, hi.chains_owned_of_exec (i := .ret) nofun hx⟩
  obtain ⟨-, rfl⟩ | ⟨h, _, _, _, _, u, hn, hr, rfl⟩ | ⟨_, _, _, _, -, rfl⟩ := execRet_next hx
  · exact List.suffix_refl _
  · obtain ⟨hc, hu⟩ := hi.keepsOrFinishes_of_engineResume hn hr
    rw [owned_deliver]
    exact owned_suffix_of_keepsOrFinishes hc hi.queue.2 hu
  · rw [owned_deliver, tickReturn, owned_deliverDue]

theorem Inv.letsGo_of_exec {s t : State} (hi : Inv s) {i : Instr} (hsubmit : ∀ b hs, i ≠ .submit b hs)
    (hx : exec i s = .next t) : LetsGo s t := by
  by_cases hret : i = .ret
  · subst hret
    exact hi.letsGo_of_execRet hx
  · refine ⟨?_, hi.chains_owned_of_exec hsubmit hx⟩
    rw [owned_of_exec hsubmit hret hx]

/-- What an agent other than the host does to the owned records. -/
theorem Inv.letsGo_of_act {s t : State} (hi : Inv s) {a : Action} (ha : a ≠ .command) (he : enabled s a = true)
    (hx : act a s = .next t) : LetsGo s t := by
  cases a with
  | command => exact absurd rfl ha
  | busEvent code data =>
    simp only [enabled, Bool.and_eq_true, Option.isSome_iff_ne_none] at he
    obtain ⟨h, hc, ht⟩ := hi.keepsOrFinishes_of_busEventStep he.1 hx
    refine ⟨owned_suffix_of_keepsOrFinishes hc hi.queue.2 ht, fun k _ => ?_⟩
    rw [chains_of_engineRun hx]
    rfl
  | fineTick =>
    cases hx
    exact .of_same (owned_dispatch .fast _) (chains_dispatch .fast _)
  | coarseTick =>
    cases hx
    exact .of_same (owned_dispatch .slow _) (chains_dispatch .slow _)
  | liftBackground =>
    cases hx
    exact .of_same rfl rfl
  | liftHandler =>
    cases hx
    exact .of_same rfl rfl
  | hostWrite address value =>
    obtain ⟨-, rfl⟩ := memWrite_next hx
    exact .of_same rfl rfl

end Sys2Proof.Machine
end

section
namespace Sys2Proof.Machine

/-! ### The host duties of SUBMIT (rules R162, R304) -/

theorem submitFault_of_free {s : State} {h : Handle} (hp : isPool h = true) (ha : allocAt s h = false) :
    submitFault s h = some .notAllocated :=
  if_pos (by simp [hp, ha])

section
variable {s : State} {h : Handle} (ha : isPool h = true → allocAt s h = true)
include ha

theorem submitFault_of_queued (hq : (recAt s h).queued = true) : submitFault s h = some .queuedRecord := by
  unfold submitFault
  rw [if_neg (by simpa using ha), if_pos hq]

theorem submitFault_of_not_valid (hq : (recAt s h).queued = false) (hv : (recAt s h).valid = false) :
    submitFault s h = some .notSetUp := by
  unfold submitFault
  rw [if_neg (by simpa using ha), if_neg (by simp [hq]), if_pos (by simp [hv])]

/-- The last duty is the buffer's range (rules R61, R162). -/
theorem submitFault_of_valid (hq : (recAt s h).queued = false) (hv : (recAt s h).valid = true) :
    (BufferFits s.cfg (recAt s h) → submitFault s h = none) ∧
      (¬ BufferFits s.cfg (recAt s h) → submitFault s h = some .bufferRange) := by
  unfold submitFault BufferFits
  rw [if_neg (by simpa using ha), if_neg (by simp [hq]), if_neg (by simp [hv])]
  cases (recAt s h).bufSel with
  | inlineBuffer => exact ⟨fun hf => if_neg (Nat.not_lt.mpr hf), fun hf => if_pos (Nat.not_le.mp hf)⟩
  | externalBuffer => exact ⟨fun hf => if_neg (Nat.not_lt.mpr hf), fun hf => if_pos (Nat.not_le.mp hf)⟩

end

theorem SubmitReady.fault_none {s : State} {h : Handle} (hr : SubmitReady s h) : submitFault s h = none :=
  (submitFault_of_valid hr.allocated hr.free hr.valid).1 hr.fits

theorem submitFaults_eq_none {s : State} {hs : List Handle} (hnd : hs.Nodup) (hready : ∀ h ∈ hs, SubmitReady s h) :
    submitFaults s hs = none := by
  unfold submitFaults
  rw [if_neg (by simpa using hnd), List.findSome?_eq_none_iff]
  exact fun h hh => (hready h hh).fault_none

theorem submitFaults_of_duplicate {s : State} {hs : List Handle} (hnd : ¬ hs.Nodup) :
    submitFaults s hs = some .duplicateHandle :=
  if_pos (by simpa using hnd)

/-- The first handle that is not ready gives the fault (rule R304). -/
theorem submitFaults_of_first {s : State} {before after : List Handle} {h : Handle} {r : FaultReason}
    (hnd : (before ++ h :: after).Nodup) (hb : ∀ k ∈ before, SubmitReady s k) (hf : submitFault s h = some r) :
    submitFaults s (before ++ h :: after) = some r := by
  have hnone : before.findSome? (submitFault s) = none :=
    List.findSome?_eq_none_iff.mpr fun k hk => (hb k hk).fault_none
  unfold submitFaults
  rw [if_neg (by simpa using hnd), List.findSome?_append, hnone, Option.none_or, List.findSome?_cons, hf]

/-! ### What SUBMIT answers -/

section
variable {s : State} {b : Bool} {hs : List Handle} (hin : ∀ h ∈ hs, InRange s h)
include hin

theorem exec_submit_faults {r : FaultReason} (hf : submitFaults s hs = some r) :
    exec (.submit b hs) s = .next { s with fault := some r } := by
  simp only [exec, execSubmit, hf]
  exact if_neg (by simpa [InRange] using hin)

theorem exec_submit_refuses (hf : submitFaults s hs = none) (hcap : s.cfg.queueCap - s.qCount < hs.length) :
    exec (.submit b hs) s = .next (deliver (contextOf s) .noSpace [] s) := by
  simp only [exec, execSubmit, hf, if_pos hcap]
  exact if_neg (by simpa [InRange] using hin)

theorem exec_submit_kicks (hf : submitFaults s hs = none) (hcap : hs.length ≤ s.cfg.queueCap - s.qCount) :
    exec (.submit b hs) s = andThen (kick (enqueueAll hs s)) (finishSubmit b) := by
  simp only [exec, execSubmit, hf, if_neg (Nat.not_lt.mpr hcap)]
  exact if_neg (by simpa [InRange] using hin)

end

/-- Settles O28: the order of `submitFaults` is the duplicate check, then the handles, each by `submitFault`. -/
theorem submitFaultsInOrder : Obligations.SubmitFaultsInOrder := by
  intro s b hs hin
  refine ⟨fun hnd => exec_submit_faults hin (submitFaults_of_duplicate hnd), ?_⟩
  rintro hnd before h after rfl hb
  have hfirst : ∀ r, submitFault s h = some r →
      exec (.submit b (before ++ h :: after)) s = .next { s with fault := some r } := fun r hf =>
    exec_submit_faults hin (submitFaults_of_first hnd hb hf)
  exact ⟨fun hp ha => hfirst _ (submitFault_of_free hp ha), fun ha hq => hfirst _ (submitFault_of_queued ha hq),
    fun ha hq hv => hfirst _ (submitFault_of_not_valid ha hq hv),
    fun ha hq hv hf => hfirst _ ((submitFault_of_valid ha hq hv).2 hf)⟩

/-! ### An accepted SUBMIT (rule R162) -/

/-- The state after the push and the kick of an accepted SUBMIT, before it ends. -/
def kicked (hs : List Handle) (s : State) : State :=
  if s.busy then enqueueAll hs s else idleArm (enqueueAll hs s)

theorem kicked_busy {s : State} (hb : s.busy = true) (hs : List Handle) : kicked hs s = enqueueAll hs s := if_pos hb

theorem kicked_idle {s : State} (hb : s.busy = false) (hs : List Handle) : kicked hs s = idleArm (enqueueAll hs s) :=
  if_neg (by simp [hb])

theorem Inv.kick_enqueueAll {s : State} (hi : Inv s) (hs : List Handle) :
    kick (enqueueAll hs s) = .next (kicked hs s) := by
  cases hb : s.busy with
  | true =>
    rw [kicked_busy hb]
    exact if_pos (by simp [hb])
  | false =>
    rw [kicked_idle hb, kick_idle (by simpa using (hi.at_rest hb).2.1)]
    simp [hb]

/-- The end of SUBMIT: it holds, or it answers OK. -/
def ended (b : Bool) (s : State) : State := if b && s.busy then holdContext s else deliver (contextOf s) .ok [] s

theorem finishSubmit_eq (b : Bool) (s : State) : finishSubmit b s = .next (ended b s) := by
  unfold finishSubmit ended
  split <;> rfl

theorem Inv.exec_submit_accepted {s : State} (hi : Inv s) (b : Bool) {hs : List Handle} (hin : ∀ h ∈ hs, InRange s h)
    (hf : submitFaults s hs = none) (hcap : hs.length ≤ s.cfg.queueCap - s.qCount) :
    exec (.submit b hs) s = .next (ended b (kicked hs s)) := by
  rw [exec_submit_kicks hin hf hcap, hi.kick_enqueueAll, andThen_next, finishSubmit_eq]

/-- The end of SUBMIT writes a hold or the responses, nothing else. -/
theorem ended_eq (b : Bool) (s : State) :
    ended b s = { s with bgHold := (ended b s).bgHold, hHold := (ended b s).hHold,
                         responses := (ended b s).responses } := by
  unfold ended holdContext
  split
  · split <;> rfl
  · rfl

theorem recAt_kicked (hs : List Handle) (s : State) (k : Handle) : recAt (kicked hs s) k = recAt (enqueueAll hs s) k := by
  unfold kicked
  split
  · rfl
  · exact recAt_idleArm _ k

theorem owned_ended (b : Bool) (s : State) : owned (ended b s) = owned s := by
  rw [ended_eq]
  rfl

theorem recAt_ended (b : Bool) (s : State) (k : Handle) : recAt (ended b s) k = recAt s k := by
  rw [ended_eq]
  rfl

/-- The submitted handles are the newest owned records, in submission order. -/
theorem Inv.owned_kicked {s : State} (hi : Inv s) {hs : List Handle} (hcap : hs.length ≤ s.cfg.queueCap - s.qCount) :
    owned (kicked hs s) = owned s ++ hs := by
  rw [← hi.ledger.owned_enqueueAll hcap]
  cases hb : s.busy with
  | true => rw [kicked_busy hb]
  | false => rw [kicked_idle hb, owned_idleArm_same (by simpa using (hi.at_rest hb).1) (by simpa using hi.queue.2)]

/-- Settles O27: capacity alone decides between NO_SPACE, which only answers, and the push of all handles. -/
theorem queueAtomicity : Obligations.QueueAtomicity := by
  intro s b hs hi hin hnd hready
  have hf := submitFaults_eq_none hnd hready
  refine ⟨fun hcap => ?_, fun hcap => ⟨_, hi.exec_submit_accepted b hin hf hcap, ?_⟩⟩
  · have hsame := sameButResponses_deliver s (contextOf s) .noSpace []
    exact ⟨_, exec_submit_refuses hin hf hcap, rfl, hsame.queue, hsame.records, hsame⟩
  · rw [owned_ended, hi.owned_kicked hcap]

end Sys2Proof.Machine
end

section
namespace Sys2Proof.Machine

/-! ### What an accepted SUBMIT leaves unchanged, and what it starts (rules R162, R180) -/

theorem sansEngine_kicked (hs : List Handle) (s : State) : sansEngine (kicked hs s) = sansEngine s := by
  unfold kicked
  split <;> simp

theorem kicked_ntf (hs : List Handle) (s : State) : (kicked hs s).ntf = s.ntf := by
  unfold kicked
  split <;> simp

theorem kicked_alloc (hs : List Handle) (s : State) : (kicked hs s).alloc = s.alloc := by
  unfold kicked
  split <;> simp

theorem sameAlloc_submitted (b : Bool) (hs : List Handle) (s : State) : SameAlloc s (ended b (kicked hs s)) := by
  rw [ended_eq]
  exact kicked_alloc hs s

theorem frame_submitted (b : Bool) (hs : List Handle) (s : State) :
    (ended b (kicked hs s)).ntf = s.ntf ∧ (ended b (kicked hs s)).tickDue = s.tickDue ∧
      SameClock s (ended b (kicked hs s)) ∧ SameTables s (ended b (kicked hs s)) ∧
      SameDmem s (ended b (kicked hs s)) ∧ SameOutside s (ended b (kicked hs s)) := by
  have hu := sansEngine_kicked hs s
  have hcfg := congrArg (·.cfg) hu
  rw [ended_eq]
  exact ⟨kicked_ntf hs s, congrArg (·.tickDue) hu,
    ⟨congrArg (·.fine) hu, congrArg (·.coarseMs) hu, congrArg (·.lastMs) hu, congrArg (·.lastUs) hu⟩,
    ⟨congrArg (·.fast) hu, congrArg (·.slow) hu⟩, memRead_congr hcfg (congrArg (·.dmem) hu),
    ⟨hcfg, congrArg (·.fault) hu, congrArg (·.port) hu, congrArg (·.agenda) hu, congrArg (·.picks) hu,
      congrArg (·.draws) hu⟩⟩

/-- The engine is left alone where it is busy, or where nothing is submitted to it. -/
theorem Inv.sameEngine_kicked {s : State} (hi : Inv s) {hs : List Handle} (h : s.busy = true ∨ hs = []) :
    SameEngine s (kicked hs s) := by
  cases hb : s.busy with
  | true =>
    rw [kicked_busy hb]
    constructor <;> simp
  | false =>
    obtain rfl : hs = [] := h.resolve_left (by simp [hb])
    have hq := (hi.idle (hi.at_rest hb).1).2
    rw [kicked_idle hb, enqueueAll, idleArm_empty hq]
    exact ⟨rfl, hb.symm, rfl, rfl, rfl, rfl⟩

/-- An idle engine owns nothing (rule R38 item 4). -/
theorem Inv.owned_nil {s : State} (hi : Inv s) (hb : s.busy = false) : owned s = [] := by
  have hc := (hi.at_rest hb).1
  simp [owned, hc, liveEntries_of_qCount_zero (hi.idle hc).2]

/-- An idle engine starts the first submitted record; the others stay queued (rules R162, R180). -/
theorem Inv.kicked_starts {s : State} (hi : Inv s) (hb : s.busy = false) {h : Handle} {more : List Handle}
    (hcap : (h :: more).length ≤ s.cfg.queueCap - s.qCount) :
    (kicked (h :: more) s).cur = some h ∧ liveEntries (kicked (h :: more) s) = more ∧ (kicked (h :: more) s).idx = 0 ∧
      (kicked (h :: more) s).busy = true ∧ (kicked (h :: more) s).st = .start ∧
      (kicked (h :: more) s).busOut = some .start ∧ (kicked (h :: more) s).busLog = s.busLog ++ [.start] := by
  have ho := hi.owned_kicked hcap
  rw [hi.owned_nil hb, List.nil_append] at ho
  have hq : (enqueueAll (h :: more) s).qCount ≠ 0 := by
    obtain ⟨-, hn, -⟩ := liveEntries_enqueueAll (h :: more) s hi.sized.qslot (by have := hi.queue.1; omega) hi.queue.2
    simp [hn]
  have hk : kicked (h :: more) s = { busCmd .start { qPop (enqueueAll (h :: more) s) with
      cur := some (qOldest (enqueueAll (h :: more) s)), idx := 0, busy := true } with st := .start } := by
    rw [kicked_idle hb, idleArm_pops hq]
  have hcur : (kicked (h :: more) s).cur = some (qOldest (enqueueAll (h :: more) s)) := by rw [hk]; rfl
  obtain ⟨hh, hlive⟩ := List.cons.inj ((owned_eq_cons hcur).symm.trans ho)
  refine ⟨hcur.trans (congrArg some hh), hlive, ?_⟩
  rw [hk]
  exact ⟨rfl, rfl, rfl, rfl, by simp⟩

/-! ### How an accepted SUBMIT ends -/

theorem contextOf_background {s : State} (hn : s.ntf = .none) : contextOf s = .background := by simp [contextOf, hn]

theorem contextOf_handler {s : State} (hn : s.ntf ≠ .none) : contextOf s = .handler := by
  cases h : s.ntf with
  | none => exact absurd h hn
  | txn _ _ _ _ _ => simp [contextOf, h]
  | tick _ _ _ _ => simp [contextOf, h]

theorem contextOf_congr {s t : State} (h : t.ntf = s.ntf) : contextOf t = contextOf s := by simp only [contextOf, h]

theorem ended_busy (b : Bool) (s : State) : (ended b s).busy = s.busy := by rw [ended_eq]

/-- A blocking SUBMIT that must wait holds the context that issued it, and answers nothing. -/
theorem ended_holds {b : Bool} {s : State} (h : b = true ∧ s.busy = true) :
    (ended b s).responses = s.responses ∧
      (s.ntf = .none → (ended b s).bgHold = true ∧ (ended b s).hHold = s.hHold) ∧
      (s.ntf ≠ .none → (ended b s).hHold = true ∧ (ended b s).bgHold = s.bgHold) := by
  have he : ended b s = holdContext s := if_pos (by simpa using h)
  rw [he]
  refine ⟨holdContext_responses s, fun hn => ?_, fun hn => ?_⟩
  · simp [holdContext, contextOf_background hn]
  · simp [holdContext, contextOf_handler hn]

theorem ended_answers {b : Bool} {s : State} (h : ¬ (b = true ∧ s.busy = true)) :
    ended b s = deliver (contextOf s) .ok [] s := if_neg (by simpa using h)

/-- Settles O26: the push, the kick and the end of SUBMIT, each by what it writes. -/
theorem acceptedSubmitQueuesTheChain : Obligations.AcceptedSubmitQueuesTheChain := by
  intro s b hs hi hin hnd hready hcap
  have hu := sansEngine_kicked hs s
  have hntf := kicked_ntf hs s
  have hrec : ∀ k, recAt (ended b (kicked hs s)) k = recAt (enqueueAll hs s) k := fun k =>
    (recAt_ended b _ k).trans (recAt_kicked hs s k)
  refine ⟨_, hi.exec_submit_accepted b hin (submitFaults_eq_none hnd hready) hcap, ?owned, ?submitted, ?others,
    sameAlloc_submitted b hs s, ?engine, ?starts, ?holds, ?answers, frame_submitted b hs s⟩
  case owned => rw [owned_ended, hi.owned_kicked hcap]
  case submitted =>
    intro k h hk
    rw [hrec, recAt_enqueueAll hs s hnd (fun h hh => hi.sized.hasRecord (hin h hh)) k h hk]
  case others =>
    intro h _ hno
    rw [hrec, recAt_enqueueAll_other hs s h hno]
  case engine =>
    intro h
    obtain ⟨hst, hbusy, hcur, hidx, hout, hlog⟩ := hi.sameEngine_kicked h
    rw [ended_eq]
    exact ⟨hst, hbusy, hcur, hidx, hout, hlog⟩
  case starts =>
    rintro hb h more rfl
    have hstarts := hi.kicked_starts hb hcap
    rw [ended_eq]
    exact hstarts
  case holds =>
    rw [ended_busy]
    intro h
    obtain ⟨hresp, hbg, hh⟩ := ended_holds h
    rw [hntf] at hbg hh
    have hbgs : (kicked hs s).bgHold = s.bgHold := congrArg (·.bgHold) hu
    have hhs : (kicked hs s).hHold = s.hHold := congrArg (·.hHold) hu
    exact ⟨hresp.trans (congrArg (·.responses) hu), hhs ▸ hbg, hbgs ▸ hh⟩
  case answers =>
    rw [ended_busy]
    intro h
    rw [ended_answers h, contextOf_congr hntf]
    refine ⟨?_, congrArg (·.bgHold) hu, congrArg (·.hHold) hu⟩
    rw [Answered, deliver_responses]
    exact congrArg (·.responses ++ _) hu

/-! ### Ownership is first in, first out (rule R164) -/

/-- Owned records leave from the front, `new` come at the back, chained but for the last, and no CHAIN bit of a record
that stays owned changes. -/
def InOrder (s t : State) (new : List Handle) : Prop :=
  ∃ k, owned t = (owned s).drop k ++ new ∧
    (∀ j h, new[j]? = some h → (recAt t h).chain = decide (j + 1 < new.length)) ∧
    ∀ h ∈ (owned s).drop k, (recAt t h).chain = (recAt s h).chain

theorem LetsGo.inOrder {s t : State} (h : LetsGo s t) : InOrder s t [] := by
  refine ⟨(owned s).length - (owned t).length, ?_, by simp, fun k hk => h.chains k (List.mem_of_mem_drop hk)⟩
  rw [List.append_nil]
  exact List.suffix_iff_eq_drop.mp h.suffix

/-- A SUBMIT that is not accepted submits nothing, an accepted one its whole list (rules R162, R165). -/
theorem Inv.inOrder_of_execSubmit {s t : State} (hi : Inv s) {b : Bool} {hs : List Handle}
    (hx : execSubmit b hs s = .next t) : InOrder s t [] ∨ InOrder s t hs := by
  obtain ⟨-, rfl⟩ | ⟨-, r, -, rfl⟩ | ⟨-, -, -, rfl⟩ | ⟨hin, hf, hcap, -⟩ := execSubmit_next hx
  · exact .inl (LetsGo.of_same rfl rfl).inOrder
  · exact .inl (LetsGo.of_same rfl rfl).inOrder
  · exact .inl (LetsGo.of_same rfl rfl).inOrder
  obtain ⟨hnd, hready⟩ := submitReady_of_faults_none hf
  cases hx.symm.trans (hi.exec_submit_accepted b hin hf hcap)
  refine .inr ⟨0, by rw [owned_ended, hi.owned_kicked hcap, List.drop_zero], fun j h hj => ?_, fun h hh => ?_⟩
  · rw [recAt_ended, recAt_kicked, recAt_enqueueAll hs s hnd (fun h hh => hi.sized.hasRecord (hin h hh)) j h hj]
  · have hno : h ∉ hs := fun hm => not_owned_of_submitReady hi.ledger (hin h hm) (hready h hm) hh
    rw [recAt_ended, recAt_kicked, recAt_enqueueAll_other hs s h hno]

/-- All that an action does to the order of the owned records; only a SUBMIT adds any. -/
theorem Inv.inOrder_of_act {s t : State} (hi : Inv s) {a : Action} (he : enabled s a = true) (hx : act a s = .next t) :
    InOrder s t [] ∨ ∃ b new rest, a = .command ∧ decode s.port = .instr (.submit b new) rest ∧ InOrder s t new := by
  by_cases ha : a = .command
  · subst ha
    obtain ⟨i, rest, hd, hx⟩ | ⟨e, rest, -, rfl⟩ := issueCommand_next hx
    · have hi' : Inv { s with port := rest } := hi.keep_outside ..
      by_cases hsubmit : ∃ b hs, i = .submit b hs
      · obtain ⟨b, hs, rfl⟩ := hsubmit
        exact (hi'.inOrder_of_execSubmit hx).imp_right fun h => ⟨b, hs, rest, rfl, hd, h⟩
      · exact .inl (hi'.letsGo_of_exec (fun b hs e => hsubmit ⟨b, hs, e⟩) hx).inOrder
    · exact .inl (LetsGo.of_same rfl rfl).inOrder
  · exact .inl (hi.letsGo_of_act ha he hx).inOrder

/-- Settles O29: by the action taken; between two waits the engine only lets go of oldest records, and an accepted
SUBMIT pushes its list behind the others. -/
theorem ownershipIsFirstInFirstOut : Obligations.OwnershipIsFirstInFirstOut := by
  intro s t hi hx
  suffices h : ∃ new, (new = [] ∨ ∃ b, Issues s (.submit b new)) ∧ InOrder s t new by
    obtain ⟨new, hissued, k, ho, hnew, hold⟩ := h
    exact ⟨k, new, ho, hissued, hnew, hold⟩
  obtain ⟨-, ⟨-, rfl⟩ | ⟨a, more, hag, he, ha⟩⟩ := step_next hx
  · exact ⟨[], .inl rfl, (LetsGo.of_same rfl rfl).inOrder⟩
  · have hi' : Inv { s with agenda := more } := hi.keep_outside ..
    obtain h | ⟨b, new, rest, rfl, hd, h⟩ := hi'.inOrder_of_act he ha
    · exact ⟨[], .inl rfl, h⟩
    · exact ⟨new, .inr ⟨b, ⟨more, hag⟩, rest, hd⟩, h⟩

end Sys2Proof.Machine
end

section
namespace Sys2Proof.Machine

/-! ### An action that is taken is never refused as not enabled (rules R303 to R309, R311) -/

/-- The step goes on or stops with a fault. -/
def Unrefused (o : Result) : Prop := ∀ r, o ≠ .refused r

theorem unrefused_andThen {o : Result} {f : State → Result} (ho : Unrefused o) (hf : ∀ s, Unrefused (f s)) :
    Unrefused (andThen o f) := by
  cases o with
  | next s => exact hf s
  | fault r => exact nofun
  | refused r => exact absurd rfl (ho r)

theorem unrefused_memWrite (s : State) (a : Nat) (v : Byte) : Unrefused (memWrite s a v) := by
  unfold memWrite
  split <;> exact nofun

theorem unrefused_bufWrite (s : State) (h : Handle) (i : Nat) (v : Byte) : Unrefused (bufWrite s h i v) := by
  unfold bufWrite
  split
  · split <;> exact nofun
  · exact unrefused_memWrite _ _ _

theorem unrefused_withBufRead (s : State) (r : Record) (i : Nat) (f : Byte → State) :
    Unrefused (withBufRead s r i f) := by
  unfold withBufRead
  split <;> split <;> exact nofun

theorem unrefused_dataSendArm (h : Handle) (s : State) : Unrefused (dataSendArm h s) := by
  unfold dataSendArm
  split
  · split
    · exact unrefused_withBufRead _ _ _ _
    · exact nofun
  · exact nofun

theorem unrefused_dataCheckArm (h : Handle) (e : BusEvent) (s : State) : Unrefused (dataCheckArm h e s) := by
  unfold dataCheckArm
  split
  · unfold writeCheckArm
    split
    · exact unrefused_dataSendArm _ _
    · exact nofun
  · unfold readCheckArm
    split
    · exact unrefused_andThen (unrefused_bufWrite _ _ _ _) fun _ => unrefused_dataSendArm _ _
    · exact nofun

theorem unrefused_engineRun (ev : Option BusEvent) (s : State) : Unrefused (engineRun ev s) := by
  unfold engineRun
  split
  · exact nofun
  · unfold startArm
    split <;> exact nofun
  · exact nofun
  · unfold addressAckArm
    split
    · exact unrefused_dataSendArm _ _
    · exact nofun
  · exact unrefused_dataCheckArm _ _ _
  · exact unrefused_dataSendArm _ _
  · exact nofun
  · exact nofun

theorem unrefused_execSubmit (b : Bool) (hs : List Handle) (s : State) : Unrefused (execSubmit b hs s) := by
  unfold execSubmit
  split
  · exact nofun
  · split
    · exact nofun
    · split
      · exact nofun
      · refine unrefused_andThen ?_ fun u => by rw [finishSubmit_eq]; exact nofun
        unfold kick
        split
        · exact nofun
        · exact unrefused_engineRun _ _

theorem unrefused_execRet (s : State) : Unrefused (execRet s) := by
  unfold execRet
  split
  · exact nofun
  · refine unrefused_andThen ?_ fun _ => nofun
    unfold engineResume
    split
    · exact nofun
    · split <;> exact unrefused_engineRun _ _
  · exact nofun

/-- No command is refused, in any state. -/
theorem unrefused_exec (i : Instr) (s : State) : Unrefused (exec i s) := by
  by_cases hsubmit : ∃ b hs, i = .submit b hs
  · obtain ⟨b, hs, rfl⟩ := hsubmit
    exact unrefused_execSubmit b hs s
  · by_cases hret : i = .ret
    · subst hret
      exact unrefused_execRet s
    · obtain ⟨t, ht⟩ := exec_answers i s (fun b hs e => hsubmit ⟨b, hs, e⟩) hret
      rw [ht]
      exact nofun

theorem act_ne_notEnabled (a b : Action) (s : State) : act a s ≠ .refused (.notEnabled b) := by
  cases a with
  | command =>
    rw [act, issueCommand]
    split
    · exact unrefused_exec _ _ _
    · exact nofun
    · exact nofun
  | busEvent code data => exact unrefused_engineRun _ _ _
  | hostWrite address value => exact unrefused_memWrite _ _ _ _
  | fineTick | coarseTick | liftBackground | liftHandler => exact nofun

/-- Settles O11: an action that may be taken runs `act`, which answers no such refusal. -/
theorem actionsAreTakenExactlyWhenEnabled : Obligations.ActionsAreTakenExactlyWhenEnabled := by
  intro s a more
  refine ⟨fun r hr => by simp [step, offer, hr], fun hf => ⟨fun hx hm => ?_, fun hm => ?_⟩⟩
  · rw [step_offer more hf hm] at hx
    exact act_ne_notEnabled _ _ _ hx
  · have he : enabled s a = false := by simpa [← enabled_iff_mayTake] using hm
    exact step_eq_refused (s := offer a more s) hf rfl he

/-- Settles O16: both lifts are enabled once BUSY = 0, and act so. -/
theorem liftedHoldDeliversOk : Obligations.LiftedHoldDeliversOk := by
  intro s more hf hb
  exact ⟨fun hh hn => step_offer (a := .liftBackground) more hf ⟨hh, hb, hn⟩,
    fun hh => step_offer (a := .liftHandler) more hf ⟨hh, hb⟩⟩

end Sys2Proof.Machine
end

section
namespace Sys2Proof.Machine

/-! ### What a run of the engine leaves unchanged (rules R180 to R194) -/

/-- The engine's work may store to DMEM; beside it stands what no engine step touches. -/
theorem sameBesidesEngine_of_sansEngine {s t : State} {more : List Action} {m : Memory} {rs : List Response}
    (h : sansEngine t = sansEngine { s with agenda := more, dmem := m, responses := rs }) : SameBesidesEngine s t := by
  rw [eq_of_sansEngine h]
  exact ⟨⟨rfl, rfl, rfl, rfl⟩, ⟨rfl, rfl⟩, rfl, rfl, rfl, rfl, rfl, rfl, rfl, rfl⟩

/-- The frame of a bus event: what no engine step touches, no response, and the event is off the agenda. -/
theorem eventFrame_of_sansEngine {s t : State} {more : List Action} {m : Memory}
    (h : sansEngine t = sansEngine { s with agenda := more, dmem := m }) :
    SameBesidesEngine s t ∧ t.responses = s.responses ∧ t.agenda = more :=
  ⟨sameBesidesEngine_of_sansEngine (rs := s.responses) h, congrArg (·.responses) h, congrArg (·.agenda) h⟩

theorem sameDmem_of_sansEngine {s t : State} {more : List Action}
    (h : sansEngine t = sansEngine { s with agenda := more }) : SameDmem s t :=
  memRead_congr (congrArg (·.cfg) h) (congrArg (·.dmem) h)

/-! ### A bus event enters the arm of the state that waits (rules R193, R305) -/

/-- The block with its next event taken and that event's bus command no longer outstanding. -/
def taken (more : List Action) (s : State) : State := { s with agenda := more, busOut := none }

theorem Awaiting.step_eq {s : State} {h : Handle} {st : EngineState} (ha : Awaiting s h st) (code data : Byte)
    (more : List Action) :
    step (offer (.busEvent code data) more s) = busEventStep ⟨code, data⟩ { s with agenda := more } :=
  step_offer more ha.fault ⟨ha.busOut, ha.ntf⟩

theorem Awaiting.step_start {s : State} {h : Handle} (ha : Awaiting s h .start) (code data : Byte)
    (more : List Action) :
    step (offer (.busEvent code data) more s) = startArm h ⟨code, data⟩ (taken more s) :=
  (ha.step_eq code data more).trans (busEventStep_start (s := { s with agenda := more }) ha.st ha.cur)

theorem Awaiting.step_addressAck {s : State} {h : Handle} (ha : Awaiting s h .addressAck) (code data : Byte)
    (more : List Action) :
    step (offer (.busEvent code data) more s) = addressAckArm h ⟨code, data⟩ (taken more s) :=
  (ha.step_eq code data more).trans (busEventStep_addressAck (s := { s with agenda := more }) ha.st ha.cur)

theorem Awaiting.step_dataCheck {s : State} {h : Handle} (ha : Awaiting s h .dataCheck) (code data : Byte)
    (more : List Action) :
    step (offer (.busEvent code data) more s) = dataCheckArm h ⟨code, data⟩ (taken more s) :=
  (ha.step_eq code data more).trans (busEventStep_dataCheck (s := { s with agenda := more }) ha.st ha.cur)

theorem Awaiting.of_st {s : State} {h : Handle} {st st' : EngineState} (ha : Awaiting s h st) (hst : s.st = st') :
    Awaiting s h st' :=
  ⟨ha.fault, ha.ntf, ha.busOut, ha.cur, hst⟩

theorem Inv.running_taken {s : State} (hi : Inv s) {h : Handle} {st : EngineState} (ha : Awaiting s h st)
    (more : List Action) : Running h (taken more s) := by
  have hi' : Inv { s with agenda := more } := hi.keep_outside ..
  exact hi'.running_of_event ha.cur ha.ntf

/-! ### The address byte (rules R95, R103, R182) -/

theorem addressByte_toNat (r : Record) : (addressByte r).toNat = 2 * r.addr7.toNat + r.dir.bit.toNat := by
  rw [addressByte, BitVec.toNat_append, Nat.shiftLeft_eq, Nat.mul_comm, ← Nat.two_pow_add_eq_or_of_lt r.dir.bit.isLt]

/-- An accepted start code is answered by the ADDRESS arm in the same step. -/
theorem Awaiting.step_accepted {s : State} {h : Handle} (ha : Awaiting s h .start) {code : Byte} (data : Byte)
    (more : List Action) (hcode : code = s.cfg.codeStart ∨ code = s.cfg.codeRepStart) :
    step (offer (.busEvent code data) more s) = .next (addressArm h { taken more s with st := .address }) :=
  (ha.step_start code data more).trans (if_pos hcode)

/-- Settles O30: the START arm accepts the code, and the ADDRESS arm issues `addressByte`. -/
theorem startCodeIssuesTheAddress : Obligations.StartCodeIssuesTheAddress := by
  intro s h code data more ha hcode
  refine ⟨_, addressByte (recAt s h), ha.step_accepted data more hcode, ?_, rfl, rfl, rfl, rfl, rfl, rfl, rfl,
    ⟨rfl, rfl, rfl⟩, ⟨rfl, rfl, rfl⟩, fun _ => rfl, eventFrame_of_sansEngine (m := s.dmem) rfl⟩
  rw [addressByte_toNat]
  cases (recAt s h).dir <;> rfl

end Sys2Proof.Machine
end

section
namespace Sys2Proof.Machine

/-! ### The active buffer (rule R61) -/

/-- What the active buffer of a record holds depends on its selection, its two buffers and DMEM. -/
theorem bufferByte_congr {s t : State} {h : Handle} (hsel : (recAt t h).bufSel = (recAt s h).bufSel)
    (hinl : (recAt t h).inl = (recAt s h).inl) (hext : (recAt t h).extAddr = (recAt s h).extAddr)
    (hmem : SameDmem s t) (i : Nat) : bufferByte t h i = bufferByte s h i := by
  simp only [bufferByte, hsel, hinl, hext, hmem _]

/-- BufRead reads the active buffer. -/
theorem withBufRead_reads {s t : State} {h : Handle} {i : Nat} {f : Byte → State}
    (hx : withBufRead s (recAt s h) i f = .next t) : ∃ b, bufferByte s h i = some b ∧ t = f b := by
  unfold withBufRead at hx
  unfold bufferByte
  split at hx <;> split at hx
  · rename_i hsel _ b hb
    exact ⟨b, by simpa only [hsel] using hb, (Host.Outcome.next.inj hx).symm⟩
  · cases hx
  · rename_i hsel _ b hb
    exact ⟨b, by simpa only [hsel] using hb, (Host.Outcome.next.inj hx).symm⟩
  · cases hx

theorem bufferByte_setRec_inl {s : State} {h : Handle} (hr : HasRecord s h)
    (hsel : (recAt s h).bufSel = .inlineBuffer) (l : List Byte) (i : Nat) :
    bufferByte (setRec s h { recAt s h with inl := l }) h i = l[i]? := by
  rw [bufferByte, recAt_setRec_same s h _ hr]
  simp only [hsel]

/-- BufWrite stores one byte of the active buffer of record h, in the record or in DMEM, and nothing else. -/
structure StoresAt (s t : State) (h : Handle) (i : Nat) (v : Byte) : Prop where
  stored : bufferByte t h i = some v
  otherBytes : ∀ j, j ≠ i → bufferByte t h j = bufferByte s h j
  record : recAt t h = { recAt s h with inl := (recAt t h).inl }
  otherRecords : ∀ k, k ≠ h → recAt t k = recAt s k
  inlineBuffer : (recAt s h).bufSel = .inlineBuffer → SameDmem s t
  externalBuffer : (recAt s h).bufSel = .externalBuffer →
    t.pool = s.pool ∧ t.caller = s.caller ∧ ∀ a, a ≠ (recAt s h).extAddr.toNat + i → memRead t a = memRead s a
  frame : t = { s with pool := t.pool, caller := t.caller, dmem := t.dmem }

theorem storesAt_of_bufWrite {s t : State} {h : Handle} {i : Nat} {v : Byte} (hr : HasRecord s h)
    (hm : Memory.wf s.dmem = true) (hw : bufWrite s h i v = .next t) : StoresAt s t h i v := by
  obtain ⟨hsel, hlt, rfl⟩ | ⟨hsel, hlt, rfl⟩ := bufWrite_next hw
  · have hold : ∀ j, bufferByte s h j = (recAt s h).inl[j]? := fun j => by simp only [bufferByte, hsel]
    refine ⟨?_, fun j hj => ?_, by rw [recAt_setRec_same s h _ hr], fun k => recAt_setRec_other s h k _,
      fun _ => memRead_congr (setRec_cfg ..) (setRec_dmem ..), fun hext => ?_, ?_⟩
    · rw [bufferByte_setRec_inl hr hsel, List.getElem?_set_self hlt]
    · rw [bufferByte_setRec_inl hr hsel, List.getElem?_set_ne hj.symm, hold]
    · rw [hsel] at hext
      cases hext
    · unfold setRec
      split <;> rfl
  · have hread := memRead_memStore hm hlt v
    have hrec : ∀ k, recAt { s with dmem := memStore s.dmem ((recAt s h).extAddr.toNat + i) v } k = recAt s k :=
      fun _ => rfl
    refine ⟨?_, fun j hj => ?_, rfl, fun _ _ => rfl, fun hinl => ?_, fun _ => ⟨rfl, rfl, fun a ha => ?_⟩, rfl⟩
    · simp only [bufferByte, hrec, hsel, hread, if_true]
    · have hne : (recAt s h).extAddr.toNat + j ≠ (recAt s h).extAddr.toNat + i := fun e => hj (Nat.add_left_cancel e)
      simp only [bufferByte, hrec, hsel, hread, if_neg hne]
    · rw [hsel] at hinl
      cases hinl
    · rw [hread, if_neg ha]

theorem StoresAt.sansEngine_eq {s t : State} {h : Handle} {i : Nat} {v : Byte} (hs : StoresAt s t h i v) :
    sansEngine t = sansEngine { s with dmem := t.dmem } := by
  rw [hs.frame]
  rfl

/-! ### The DATA_SEND arm requests the byte at IDX (rule R184) -/

/-- The bus command that requests the byte at IDX of record h. -/
def IsRequest (s : State) (h : Handle) (c : BusCmd) : Prop :=
  match (recAt s h).dir with
  | .write => ∃ b, bufferByte s h s.idx.toNat = some b ∧ c = .tx b
  | .read => c = .rx (decide (s.idx.toNat + 1 < (recAt s h).byteCount.toNat))

theorem Running.dataSendArm_requests {h : Handle} {s : State} (hr : Running h s)
    (hlt : s.idx.toNat < (recAt s h).byteCount.toNat) :
    ∃ c, IsRequest s h c ∧ dataSendArm h s = .next { busCmd c s with st := .dataCheck } := by
  unfold IsRequest
  cases hd : (recAt s h).dir with
  | write =>
    obtain ⟨b, hb, harm⟩ := dataSendArm_write hlt hd hr.bufferFits (hr.ledger.sized.inl h hr.inRange)
    obtain ⟨b', hb', he⟩ := withBufRead_reads hb
    exact ⟨_, ⟨b', hb', rfl⟩, harm.trans (congrArg _ he)⟩
  | read => exact ⟨_, rfl, dataSendArm_read hlt hd⟩

/-- The request that the engine issues from u is the one that the record asked for in s. -/
theorem IsRequest.requestsByte {s u : State} {h : Handle} {c : BusCmd} {i : Nat} (hc : IsRequest u h c)
    (hidx : u.idx.toNat = i) (hlog : u.busLog = s.busLog) (hdir : (recAt u h).dir = (recAt s h).dir)
    (hcount : (recAt u h).byteCount = (recAt s h).byteCount)
    (hbytes : (recAt s h).dir = .write → bufferByte u h i = bufferByte s h i) :
    RequestsByte s { busCmd c u with st := .dataCheck } h i := by
  unfold IsRequest at hc
  rw [hdir, hidx, hcount] at hc
  refine ⟨rfl, hidx, ?_⟩
  cases hd : (recAt s h).dir with
  | write =>
    rw [hd] at hc
    obtain ⟨b, hb, rfl⟩ := hc
    exact ⟨b, hbytes hd ▸ hb, congrArg (· ++ _) hlog, rfl⟩
  | read =>
    rw [hd] at hc
    subst hc
    exact ⟨congrArg (· ++ _) hlog, rfl⟩

/-! ### Checked bytes (rules R183, R185, R186) -/

/-- The event acknowledges the address, or a written byte, and i bytes are then done. -/
def Acknowledges (s : State) (h : Handle) (code : Byte) (i : Nat) : Prop :=
  (s.st = .addressAck ∧ code = addressAckCode s.cfg (recAt s h).dir ∧ i = 0) ∨
    (s.st = .dataCheck ∧ (recAt s h).dir = .write ∧ code = s.cfg.codeTxAck ∧ i = s.idx.toNat + 1)

/-- While a byte is in progress IDX is below BYTE_COUNT, so counting it does not wrap (rule R24). -/
theorem Inv.idx_lt {s : State} (hi : Inv s) {h : Handle} (ha : Awaiting s h .dataCheck) :
    s.idx.toNat < (recAt s h).byteCount.toNat := by
  have hat := hi.running h ha.cur
  rwa [EngineAt, ha.st] at hat

theorem toNat_idx_add_one {s : State} {n : BitVec 8} (h : s.idx.toNat < n.toNat) :
    (s.idx + 1).toNat = s.idx.toNat + 1 := by
  have hn := n.isLt
  have h1 : (1#8).toNat = 1 := rfl
  show (s.idx + 1#8).toNat = s.idx.toNat + 1
  rw [BitVec.toNat_add, h1]
  omega

/-- The acknowledged step goes to DATA_SEND with IDX at the bytes done. -/
theorem Inv.step_acknowledged {s : State} (hi : Inv s) {h : Handle} (ha : Awaiting s h s.st) {code : Byte} {i : Nat}
    (hk : Acknowledges s h code i) (data : Byte) (more : List Action) :
    ∃ j : BitVec 8, j.toNat = i ∧
      step (offer (.busEvent code data) more s) = dataSendArm h { taken more s with st := .dataSend, idx := j } := by
  obtain ⟨hst, hcode, rfl⟩ | ⟨hst, hd, hcode, rfl⟩ := hk
  · have hat := hi.running h ha.cur
    rw [EngineAt, hst] at hat
    exact ⟨s.idx, by rw [hat]; rfl, ((ha.of_st hst).step_addressAck code data more).trans (if_pos hcode)⟩
  · have hd' : (recAt (taken more s) h).dir = .write := hd
    refine ⟨s.idx + 1, toNat_idx_add_one (hi.idx_lt (ha.of_st hst)), ?_⟩
    rw [(ha.of_st hst).step_dataCheck, dataCheckArm, hd']
    exact if_pos hcode

/-- An acknowledge before the last byte requests the next one. -/
theorem Inv.step_acknowledged_requests {s : State} (hi : Inv s) {h : Handle} (ha : Awaiting s h s.st) {code : Byte}
    {i : Nat} (hk : Acknowledges s h code i) (hlt : i < (recAt s h).byteCount.toNat) (data : Byte)
    (more : List Action) :
    ∃ (j : BitVec 8) (c : BusCmd), j.toNat = i ∧ IsRequest { taken more s with st := .dataSend, idx := j } h c ∧
      step (offer (.busEvent code data) more s) =
        .next { busCmd c { taken more s with st := .dataSend, idx := j } with st := .dataCheck } := by
  obtain ⟨j, hj, hstep⟩ := hi.step_acknowledged ha hk data more
  have hr : Running h { taken more s with st := .dataSend, idx := j } := (hi.running_taken ha more).keep_registers ..
  obtain ⟨c, hc, harm⟩ := hr.dataSendArm_requests (lt_of_eq_of_lt hj hlt)
  exact ⟨j, c, hj, hc, hstep.trans harm⟩

/-- Settles O31: the acknowledged step is the DATA_SEND arm, which requests the byte at the new IDX. -/
theorem acknowledgeRequestsTheNextByte : Obligations.AcknowledgeRequestsTheNextByte := by
  intro s h code data i more hi ha hk hlt
  obtain ⟨j, c, hj, hc, hstep⟩ := hi.step_acknowledged_requests ha hk hlt data more
  exact ⟨_, hstep, hc.requestsByte hj rfl rfl rfl fun _ => rfl, rfl, rfl, rfl, ⟨rfl, rfl, rfl⟩, ⟨rfl, rfl, rfl⟩,
    fun _ => rfl, eventFrame_of_sansEngine (m := s.dmem) rfl⟩

/-- A received byte whose code passes is stored, and the step goes to DATA_SEND with IDX counting it. -/
theorem Inv.step_received {s : State} (hi : Inv s) {h : Handle} (ha : Awaiting s h .dataCheck)
    (hd : (recAt s h).dir = .read) {code : Byte} (hcode : code = readCode s h) (data : Byte) (more : List Action) :
    ∃ u, StoresAt (taken more s) u h s.idx.toNat data ∧ Running h u ∧
      step (offer (.busEvent code data) more s) = dataSendArm h { u with idx := s.idx + 1, st := .dataSend } := by
  have hr := hi.running_taken ha more
  have hd' : (recAt (taken more s) h).dir = .read := hd
  obtain ⟨u, hu⟩ := bufWrite_ok (v := data) hr.bufferFits (hr.ledger.sized.inl h hr.inRange) (hi.idx_lt ha)
  have hs : StoresAt (taken more s) u h s.idx.toNat data := storesAt_of_bufWrite hr.hasRecord hi.memory.1 hu
  have hidx : u.idx = s.idx := congrArg (·.idx) hs.frame
  refine ⟨u, hs, hr.keep_bufWrite hu, ?_⟩
  have hpass : readCheckArm h ⟨code, data⟩ (taken more s) =
      andThen (bufWrite (taken more s) h s.idx.toNat data) (byteDone h) := if_pos hcode
  rw [ha.step_dataCheck, dataCheckArm, hd', ← hidx]
  exact hpass.trans (congrArg (andThen · (byteDone h)) hu)

/-- A received byte before the last one is stored, and the next one is requested. -/
theorem Inv.step_received_requests {s : State} (hi : Inv s) {h : Handle} (ha : Awaiting s h .dataCheck)
    (hd : (recAt s h).dir = .read) (hlt : s.idx.toNat + 1 < (recAt s h).byteCount.toNat) (data : Byte)
    (more : List Action) :
    ∃ (u : State) (c : BusCmd), StoresAt (taken more s) u h s.idx.toNat data ∧
      IsRequest { u with idx := s.idx + 1, st := .dataSend } h c ∧
      step (offer (.busEvent s.cfg.codeRxAck data) more s) =
        .next { busCmd c { u with idx := s.idx + 1, st := .dataSend } with st := .dataCheck } := by
  have hcode : s.cfg.codeRxAck = readCode s h := (if_pos (decide_eq_true hlt)).symm
  obtain ⟨u, hs, hru, hstep⟩ := hi.step_received ha hd hcode data more
  have hidx : (s.idx + 1).toNat = s.idx.toNat + 1 := toNat_idx_add_one (hi.idx_lt ha)
  have hcount : (recAt u h).byteCount = (recAt s h).byteCount := congrArg (·.byteCount) hs.record
  have hr : Running h { u with idx := s.idx + 1, st := .dataSend } := hru.keep_registers ..
  obtain ⟨c, hc, harm⟩ := hr.dataSendArm_requests (by rw [hidx]; exact hcount ▸ hlt)
  exact ⟨u, c, hs, hc, hstep.trans harm⟩

/-- Settles O32: BufWrite at IDX, then the DATA_SEND arm as for an acknowledge. -/
theorem receivedByteIsStored : Obligations.ReceivedByteIsStored := by
  intro s h data more hi ha hd hlt
  obtain ⟨u, c, hs, hc, hstep⟩ := hi.step_received_requests ha hd hlt data more
  have hidx : (s.idx + 1).toNat = s.idx.toNat + 1 := toNat_idx_add_one (hi.idx_lt ha)
  have halloc : u.alloc = s.alloc := congrArg (·.alloc) hs.frame
  refine ⟨_, hstep, hs.stored, hs.otherBytes, fun hin => ⟨hs.inlineBuffer hin, ?_, hs.record⟩, fun hext => ?_,
    hc.requestsByte hidx (congrArg (·.busLog) hs.frame) (congrArg (·.dir) hs.record) (congrArg (·.byteCount) hs.record)
      (by simp [hd]),
    congrArg (·.cur) hs.frame, congrArg (·.busy) hs.frame, congrArg (·.ntf) hs.frame,
    ⟨congrArg (·.qslot) hs.frame, congrArg (·.qRd) hs.frame, congrArg (·.qCount) hs.frame⟩,
    halloc, eventFrame_of_sansEngine (m := u.dmem) hs.sansEngine_eq⟩
  · exact fun k _ hk => hs.otherRecords k hk
  · obtain ⟨hpool, hcaller, hmem⟩ := hs.externalBuffer hext
    exact ⟨⟨hpool, hcaller, halloc⟩, hmem⟩

end Sys2Proof.Machine
end

section
namespace Sys2Proof.Machine

/-! ### A transaction that completes with success (rules R183 to R188) -/

/-- The engine enters the STOP arm for record h: IDX has counted every byte and the last byte of a read is stored. -/
structure EntersStop (s w : State) (h : Handle) (data : Byte) (more : List Action) : Prop where
  running : Running h w
  st : w.st = .stop
  idx : w.idx = (recAt s h).byteCount
  lastByte : LastByteOnly s w h data
  record : recAt w h = { recAt s h with inl := (recAt w h).inl }
  otherRecords : ∀ k, k ≠ h → recAt w k = recAt s k
  frame : w = { s with agenda := more, busOut := none, st := .stop, idx := w.idx, pool := w.pool, caller := w.caller,
                       dmem := w.dmem }

/-- Nothing is stored where the event is not for a byte of a read. -/
theorem lastByteOnly_of_not_read {s t : State} {h : Handle} {data : Byte}
    (hno : ¬ (s.st = .dataCheck ∧ (recAt s h).dir = .read)) (hinl : (recAt t h).inl = (recAt s h).inl)
    (hbytes : ∀ j, bufferByte t h j = bufferByte s h j) (hmem : SameDmem s t) : LastByteOnly s t h data :=
  ⟨fun hst hd => absurd ⟨hst, hd⟩ hno, fun j _ => hbytes j, fun _ => hinl, fun a _ => hmem a⟩

theorem StoresAt.lastByteOnly {s u : State} {h : Handle} {data : Byte} {more : List Action}
    (hst : s.st = .dataCheck) (hd : (recAt s h).dir = .read) (hs : StoresAt (taken more s) u h s.idx.toNat data) :
    LastByteOnly s u h data := by
  refine ⟨fun _ _ => hs.stored, fun j hj => hs.otherBytes j fun e => hj ⟨hst, hd, e⟩, fun hext => ?_, fun a ha => ?_⟩
  · obtain ⟨hpool, hcaller, -⟩ := hs.externalBuffer hext
    have hcfg : u.cfg = (taken more s).cfg := congrArg (·.cfg) hs.frame
    exact congrArg (·.inl) (recAt_congr hpool hcaller hcfg h)
  · cases hsel : (recAt s h).bufSel with
    | inlineBuffer => exact hs.inlineBuffer hsel a
    | externalBuffer => exact (hs.externalBuffer hsel).2.2 a fun e => ha ⟨hst, hd, hsel, e⟩

/-- What LastByteOnly says is seen through later changes that leave the buffer alone. -/
theorem LastByteOnly.congr {s w t : State} {h : Handle} {data : Byte} (hl : LastByteOnly s w h data)
    (hinl : (recAt t h).inl = (recAt w h).inl) (hbytes : ∀ j, bufferByte t h j = bufferByte w h j)
    (hmem : SameDmem w t) : LastByteOnly s t h data := by
  obtain ⟨hlast, hothers, hext, hread⟩ := hl
  exact ⟨fun hst hd => (hbytes _).trans (hlast hst hd), fun j hj => (hbytes j).trans (hothers j hj),
    fun hsel => hinl.trans (hext hsel), fun a ha => (hmem a).trans (hread a ha)⟩

/-- The DATA_SEND arm enters STOP where IDX has counted every byte. -/
theorem entersStop_of_acknowledged {s : State} (hi : Inv s) {h : Handle} (ha : Awaiting s h s.st) {j : BitVec 8}
    (hj : j = (recAt s h).byteCount) (hno : ¬ (s.st = .dataCheck ∧ (recAt s h).dir = .read)) (data : Byte)
    (more : List Action) : ∃ w, EntersStop s w h data more ∧
      dataSendArm h { taken more s with st := .dataSend, idx := j } = .next (stopArm h w) := by
  refine ⟨{ taken more s with st := .stop, idx := j }, ⟨(hi.running_taken ha more).keep_registers .stop j _, rfl, hj,
    lastByteOnly_of_not_read hno rfl (fun _ => rfl) fun _ => rfl, rfl, fun _ _ => rfl, rfl⟩, ?_⟩
  exact dataSendArm_done (s := { taken more s with st := .dataSend, idx := j }) (hj ▸ Nat.lt_irrefl _)

theorem entersStop_of_received {s u : State} {h : Handle} (ha : Awaiting s h .dataCheck) (hd : (recAt s h).dir = .read)
    {data : Byte} {more : List Action} (hs : StoresAt (taken more s) u h s.idx.toNat data) (hr : Running h u)
    (hj : s.idx + 1 = (recAt s h).byteCount) : ∃ w, EntersStop s w h data more ∧
      dataSendArm h { u with idx := s.idx + 1, st := .dataSend } = .next (stopArm h w) := by
  refine ⟨{ u with idx := s.idx + 1, st := .stop }, ⟨hr.keep_registers .stop _ _, rfl, hj,
    (hs.lastByteOnly ha.st hd).congr rfl (fun _ => rfl) fun _ => rfl, hs.record, hs.otherRecords, ?_⟩, ?_⟩
  · rw [hs.frame]
    rfl
  · refine dataSendArm_done (s := { u with idx := s.idx + 1, st := .dataSend }) ?_
    have hcount : (recAt u h).byteCount = (recAt s h).byteCount := congrArg (·.byteCount) hs.record
    show ¬ (s.idx + 1).toNat < (recAt u h).byteCount.toNat
    rw [hcount, hj]
    exact Nat.lt_irrefl _

theorem Inv.step_final {s : State} (hi : Inv s) {h : Handle} (ha : Awaiting s h s.st) {code : Byte}
    (hf : FinalEvent s h code) (data : Byte) (more : List Action) :
    ∃ w, EntersStop s w h data more ∧ step (offer (.busEvent code data) more s) = .next (stopArm h w) := by
  have hack {i : Nat} (hk : Acknowledges s h code i) (hn : i = (recAt s h).byteCount.toNat)
      (hno : ¬ (s.st = .dataCheck ∧ (recAt s h).dir = .read)) : ∃ w, EntersStop s w h data more ∧
      step (offer (.busEvent code data) more s) = .next (stopArm h w) := by
    obtain ⟨j, hj, hstep⟩ := hi.step_acknowledged ha hk data more
    obtain ⟨w, hw, harm⟩ := entersStop_of_acknowledged hi ha (BitVec.eq_of_toNat_eq (hj.trans hn)) hno data more
    exact ⟨w, hw, hstep.trans harm⟩
  obtain ⟨hst, hn, hcode⟩ | ⟨hst, hn, hcode⟩ := hf
  · exact hack (.inl ⟨hst, hcode, rfl⟩) (by rw [hn]; rfl) (by simp [hst])
  · cases hd : (recAt s h).dir with
    | write =>
      rw [hd] at hcode
      exact hack (.inr ⟨hst, hd, hcode, rfl⟩) hn.symm (by simp [hd])
    | read =>
      rw [hd] at hcode
      have hlast : ¬ s.idx.toNat + 1 < (recAt s h).byteCount.toNat := by omega
      have hidx := toNat_idx_add_one (hi.idx_lt (ha.of_st hst))
      obtain ⟨u, hs, hr, hstep⟩ := hi.step_received (ha.of_st hst) hd
        (hcode.trans (if_neg (by simpa [moreBytesFollow] using hlast)).symm) data more
      obtain ⟨w, hw, harm⟩ := entersStop_of_received (ha.of_st hst) hd hs hr (BitVec.eq_of_toNat_eq (hidx.trans hn.symm))
      exact ⟨w, hw, hstep.trans harm⟩

/-! ### The outcome of a success is recorded (rule R187) -/

/-- The STOP arm's state with the outcome recorded and STOP issued if the record asks for it. -/
def succeeded (h : Handle) (w : State) : State := setOutcome h 0 0 (stopIfAsked h w)

theorem recAt_succeeded_same {h : Handle} {w : State} (hr : HasRecord w h) :
    recAt (succeeded h w) h = { recAt w h with status := 0, hwCode := 0 } := by
  rw [succeeded, recAt_setOutcome_same _ _ _ _ ((hasRecord_congr (by simp) (by simp) h).mpr hr), recAt_stopIfAsked]

theorem recAt_succeeded_other {h k : Handle} (hk : k ≠ h) (w : State) : recAt (succeeded h w) k = recAt w k :=
  (recAt_setOutcome_other _ _ _ _ _ hk).trans (recAt_stopIfAsked ..)

/-- Beside the record, only BUSLOG changes. -/
theorem succeeded_frame (h : Handle) (w : State) : succeeded h w =
    { w with busLog := w.busLog ++ (if (recAt w h).sendStop then [.stop] else []), pool := (succeeded h w).pool,
             caller := (succeeded h w).caller } := by
  unfold succeeded setOutcome setRec stopIfAsked
  split <;> split <;> simp_all [busCmd, outstandingAfter]

theorem Running.keep_succeeded {h : Handle} {w : State} (hr : Running h w) : Running h (succeeded h w) :=
  (hr.keep_stopIfAsked h).keep_setOutcome 0 0

theorem EntersStop.stopArm_notifies {s w : State} {h : Handle} {data : Byte} {more : List Action}
    (hw : EntersStop s w h data more) (hc : (recAt s h).chain = false) (hcb : (recAt s h).callback ≠ 0) :
    stopArm h w = notify (completionNtf (succeeded h w) h) (succeeded h w) :=
  stopArm_notify (by rw [hw.record]; exact hc) (by rw [hw.record]; exact hcb)

theorem EntersStop.stopArm_releases {s w : State} {h : Handle} {data : Byte} {more : List Action}
    (hw : EntersStop s w h data more) (hc : (recAt s h).chain = true ∨ (recAt s h).callback = 0) :
    stopArm h w = idleArm (finishSuccess h (succeeded h w)) :=
  stopArm_silent (by rw [hw.record]; exact hc)

theorem EntersStop.record_succeeded {s w : State} {h : Handle} {data : Byte} {more : List Action}
    (hw : EntersStop s w h data more) :
    recAt (succeeded h w) h = { recAt s h with status := 0, hwCode := 0, inl := (recAt (succeeded h w) h).inl } := by
  rw [recAt_succeeded_same hw.running.hasRecord, hw.record]

theorem EntersStop.frame_succeeded {s w : State} {h : Handle} {data : Byte} {more : List Action}
    (hw : EntersStop s w h data more) : succeeded h w =
    { s with agenda := more, busOut := none, st := .stop, idx := (recAt s h).byteCount,
             busLog := s.busLog ++ (if (recAt s h).sendStop then [.stop] else []), pool := (succeeded h w).pool,
             caller := (succeeded h w).caller, dmem := w.dmem } := by
  have hstop : (recAt w h).sendStop = (recAt s h).sendStop := congrArg (·.sendStop) hw.record
  rw [succeeded_frame, hstop, ← hw.idx, hw.frame]

/-- What the completing event stored is not touched by the recording of the outcome, nor by the release. -/
theorem EntersStop.lastByteOnly_congr {s w t : State} {h : Handle} {data : Byte} {more : List Action}
    (hw : EntersStop s w h data more) (hsel : (recAt t h).bufSel = (recAt (succeeded h w) h).bufSel)
    (hinl : (recAt t h).inl = (recAt (succeeded h w) h).inl)
    (hext : (recAt t h).extAddr = (recAt (succeeded h w) h).extAddr) (hmem : SameDmem w t) :
    LastByteOnly s t h data := by
  rw [recAt_succeeded_same hw.running.hasRecord] at hsel hinl hext
  exact hw.lastByte.congr hinl (bufferByte_congr hsel hinl hext hmem) hmem

/-- Settles O33: the event enters the STOP arm, which notifies with the recorded outcome. -/
theorem successNotifiesTheCallback : Obligations.SuccessNotifiesTheCallback := by
  intro s h code data more hi ha hf hc hcb
  obtain ⟨w, hw, hstep⟩ := hi.step_final ha hf data more
  have hrec := hw.record_succeeded
  have hx := hw.frame_succeeded
  have hbusy := hw.running.keep_succeeded.busy
  have hdmem : (succeeded h w).dmem = w.dmem := congrArg (·.dmem) hx
  have hcfg : (succeeded h w).cfg = w.cfg := congrArg (·.cfg) (succeeded_frame h w)
  have halloc : (succeeded h w).alloc = s.alloc := congrArg (·.alloc) hx
  refine ⟨_, hstep.trans (congrArg _ (hw.stopArm_notifies hc hcb)), ?ntf, hrec,
    hw.lastByteOnly_congr rfl rfl rfl (memRead_congr hcfg hdmem), congrArg (·.st) hx,
    (congrArg (·.cur) hx).trans ha.cur, hbusy, congrArg (·.idx) hx, congrArg (·.busOut) hx, congrArg (·.busLog) hx,
    ⟨congrArg (·.qslot) hx, congrArg (·.qRd) hx, congrArg (·.qCount) hx⟩, halloc, ?others,
    eventFrame_of_sansEngine (m := w.dmem) ?frame⟩
  case ntf => rw [notify_ntf, completionNtf, hrec]
  case others => exact fun k _ hk => (recAt_succeeded_other hk w).trans (hw.otherRecords k hk)
  case frame =>
    show sansEngine (succeeded h w) = _
    rw [hx]
    rfl

end Sys2Proof.Machine
end

section
namespace Sys2Proof.Machine

/-! ### The engine lets go of records and goes on (rules R142, R180, R191, R192) -/

/-- From u the engine let go of the records `gone`, in one step, and went on with the records `rest`. -/
structure Discards (u t : State) (gone rest : List Handle) : Prop where
  record : ∀ k, recAt t k = if k ∈ gone then { recAt u k with queued := false } else recAt u k
  alloc : ∀ k, isPool k = true → allocAt t k = if k ∈ gone then false else allocAt u k
  goesOn : GoesOnWith t rest u.idx u.busLog
  ntf : t.ntf = u.ntf
  frame : sansEngine t = sansEngine u

theorem Discards.record_gone {u t : State} {gone rest : List Handle} (hd : Discards u t gone rest) {k : Handle}
    (hk : k ∈ gone) : recAt t k = { recAt u k with queued := false } := by
  rw [hd.record, if_pos hk]

theorem Discards.released {u t : State} {gone rest : List Handle} (hd : Discards u t gone rest) {k : Handle}
    (hk : k ∈ gone) : Released t k :=
  ⟨by rw [hd.record_gone hk], fun hp => by rw [hd.alloc k hp, if_pos hk]⟩

theorem Discards.untouchedBut {s u t : State} {gone rest : List Handle} (hd : Discards u t gone rest)
    (hrec : ∀ k, k ∉ gone → recAt u k = recAt s k) (halloc : u.alloc = s.alloc) : UntouchedBut s t gone := fun k _ hk =>
  ⟨by rw [hd.record, if_neg hk, hrec k hk], fun hp => by rw [hd.alloc k hp, if_neg hk, allocAt_congr halloc]⟩

theorem allocAt_release (s : State) (h : Handle) {k : Handle} (hp : isPool k = true) :
    allocAt (release s h) k = if k = h then false else allocAt s k := by
  split
  · rename_i e
    subst e
    simp only [release, hp, if_true, allocAt_setAlloc_false]
  · rename_i e
    exact allocAt_release_other s h k e hp

/-- The discard loop frees the pool records that it pops and no others (rules R142, R192). -/
theorem allocAt_discardChain (n : Nat) : ∀ {c : Bool} {s : State} {chain : List Handle}, s.qRd < s.cfg.queueCap →
    liveEntries s = chain ++ liveEntries (discardChain n c s) → ∀ {k : Handle}, isPool k = true →
    allocAt (discardChain n c s) k = if k ∈ chain then false else allocAt s k := by
  induction n with
  | zero =>
    intro c s chain _ hl k _
    obtain rfl : chain = [] := List.self_eq_append_left.mp hl
    rfl
  | succ n ih =>
    intro c s chain hr hl k hp
    unfold discardChain at hl ⊢
    split at hl
    · rename_i hc
      simp only [Bool.and_eq_true, decide_eq_true_eq] at hc
      have hrd : (release (qPop s) (qOldest s)).qRd < (release (qPop s) (qOldest s)).cfg.queueCap := by
        simpa using Nat.mod_lt _ (Nat.zero_lt_of_lt hr)
      have hlive : liveEntries (release (qPop s) (qOldest s)) = liveEntries (qPop s) :=
        liveEntries_congr (by simp) (by simp) (by simp) (by simp)
      obtain ⟨hsuf, -⟩ := liveEntries_discardChain_suffix n (c := (recAt (qPop s) (qOldest s)).chain) hrd
      rw [hlive] at hsuf
      rw [liveEntries_qPop s hc.2 hr] at hl
      cases chain with
      | nil =>
        have := hsuf.length_le
        rw [List.nil_append] at hl
        simp [← hl] at this
      | cons q chain =>
        obtain ⟨rfl, htail⟩ := List.cons.inj hl
        rw [if_pos (by simpa using hc), ih hrd (hlive.trans htail) hp, allocAt_release _ _ hp,
          allocAt_congr (qPop_alloc s)]
        by_cases e : k = qOldest s <;> simp [e]
    · rename_i hc
      obtain rfl : chain = [] := List.self_eq_append_left.mp hl
      rw [if_neg hc]
      rfl

/-- The IDLE arm of an engine with no current record goes on with what is queued (rule R180). -/
theorem goesOnWith_idleArm {s : State} (hc : s.cur = none) (ho : s.busOut = none) (hst : s.st = .idle)
    (hr : s.qRd < s.cfg.queueCap) : GoesOnWith (idleArm s) (liveEntries s) s.idx s.busLog := by
  refine ⟨owned_idleArm hc hr, ?_⟩
  by_cases hq : s.qCount = 0
  · rw [liveEntries_of_qCount_zero hq, idleArm_empty hq]
    exact ⟨hst, rfl, hc, rfl, ho, rfl⟩
  · rw [liveEntries_qPop s (Nat.pos_of_ne_zero hq) hr, idleArm_pops hq]
    exact ⟨rfl, rfl, rfl, rfl, rfl, rfl⟩

/-- The block with its ownership of the current record h ended. -/
def letGo (h : Handle) (u : State) : State := { release u h with cur := none }

theorem liveEntries_letGo (h : Handle) (u : State) : liveEntries (letGo h u) = liveEntries u :=
  liveEntries_congr (by simp [letGo]) (by simp [letGo]) (by simp [letGo]) (by simp [letGo])

theorem recAt_letGo {h : Handle} {u : State} (hr : HasRecord u h) (k : Handle) :
    recAt (letGo h u) k = if k = h then { recAt u k with queued := false } else recAt u k :=
  recAt_release u h k hr

theorem allocAt_letGo (h : Handle) (u : State) {k : Handle} (hp : isPool k = true) :
    allocAt (letGo h u) k = if k = h then false else allocAt u k :=
  allocAt_release u h hp

/-- All that the engine does between the end of its record h and its next wait: the discard loop takes the rest of h's
chain out (none of it after a success), and the IDLE arm goes on. -/
theorem discards_of_discardChain {h : Handle} {u : State} (hl : Ledger u) (hc : u.cur = some h) (ho : u.busOut = none)
    (c : Bool) : ∃ chain rest, liveEntries u = chain ++ rest ∧ DiscardSplit u c chain rest ∧
      Discards u (idleArm { discardChain u.qCount c (letGo h u) with st := .idle }) (h :: chain) rest := by
  have hown : owned u = h :: liveEntries u := owned_eq_cons hc
  have hhas : ∀ k ∈ owned u, HasRecord u k := fun k hk => hl.sized.hasRecord (hl.inRange k hk)
  have hrec := recAt_letGo (hhas h (by simp [hown]))
  have hr : (letGo h u).qRd < (letGo h u).cfg.queueCap := by simpa [letGo] using hl.queue.2
  have hnd := hl.once
  rw [hown, List.nodup_cons, ← liveEntries_letGo h u] at hnd
  obtain ⟨chain, rest, hlive, hrest, hsplit, hrecs, hrd⟩ :=
    discardChain_spec u.qCount c (letGo h u) (by simp [letGo]) hr
      (fun k hk => (hasRecord_congr (by simp [letGo]) (by simp [letGo]) k).mpr
        (hhas k (by rw [hown, ← liveEntries_letGo h u]; exact List.mem_cons_of_mem _ hk))) hnd.2
  have hnot : h ∉ chain := fun hm => hnd.1 (hlive ▸ List.mem_append_left _ hm)
  refine ⟨chain, rest, (liveEntries_letGo h u).symm.trans hlive, hsplit.congr fun k => ?_,
    ⟨fun k => ?_, fun k hp => ?_, ?_, by simp [letGo], ?_⟩⟩
  · rw [hrec]
    split <;> rfl
  · rw [recAt_idleArm]
    refine (hrecs k).trans ?_
    rw [hrec]
    by_cases e : k = h <;> simp [e, hnot]
  · rw [allocAt_congr (idleArm_alloc _)]
    refine (allocAt_discardChain u.qCount hr (hrest.symm ▸ hlive) hp).trans ?_
    rw [allocAt_letGo h u hp]
    by_cases e : k = h <;> simp [e]
  · have hg := goesOnWith_idleArm (s := { discardChain u.qCount c (letGo h u) with st := .idle }) (by simp [letGo])
      (by simp [letGo, ho]) rfl (by simpa using hrd)
    have hlive' : liveEntries { discardChain u.qCount c (letGo h u) with st := .idle } = rest := hrest
    rw [hlive'] at hg
    simpa [letGo] using hg
  · rw [sansEngine_idleArm]
    exact (sansEngine_discardChain _ _ _).trans (sansEngine_release u h)

theorem discardChain_false (n : Nat) (s : State) : discardChain n false s = s := by
  cases n <;> rfl

/-- FinishSuccess lets go of the current record alone (rule R191). -/
theorem discards_finishSuccess {h : Handle} {u : State} (hl : Ledger u) (hc : u.cur = some h) (ho : u.busOut = none) :
    Discards u (idleArm (finishSuccess h u)) [h] (liveEntries u) := by
  obtain ⟨chain, rest, hlive, hsplit, hd⟩ := discards_of_discardChain hl hc ho false
  obtain rfl : chain = [] := by simpa only [DiscardSplit] using hsplit
  rw [discardChain_false] at hd
  rw [hlive]
  exact hd

theorem ChainRest.congr {s u : State} (hch : chains u = chains s) : ∀ {ks : List Handle} {h : Handle},
    ChainRest u h ks → ChainRest s h ks
  | [], h, hc => (congrFun hch h).symm.trans hc
  | _ :: _, h, ⟨hc, hrest⟩ => ⟨(congrFun hch h).symm.trans hc, hrest.congr hch⟩

/-- The entries that the loop popped are the rest of h's chain: the last owned record ends its chain, so the loop does
not stop for want of entries in the middle of one (rule R38 item 5). -/
theorem chainRest_of_discardSplit {u : State} : ∀ {chain rest : List Handle} {h : Handle},
    DiscardSplit u (recAt u h).chain chain rest →
    (∀ k, (h :: (chain ++ rest)).getLast? = some k → (recAt u k).chain = false) → ChainRest u h chain
  | [], rest, h, hs, hlast => by
    cases hc : (recAt u h).chain with
    | false => exact hc
    | true =>
      rw [hc] at hs
      obtain rfl : rest = [] := hs
      exact absurd (hlast h rfl) (by simp [hc])
  | k :: chain, rest, h, hs, hlast => by
    cases hc : (recAt u h).chain with
    | false =>
      rw [hc] at hs
      cases hs
    | true =>
      rw [hc] at hs
      exact ⟨hc, chainRest_of_discardSplit hs hlast⟩

/-- FinishError lets go of the failing record and of exactly the rest of its chain (rules R192, R195). -/
theorem discards_finishError {h : Handle} {u : State} (hl : Ledger u) (hc : u.cur = some h) (ho : u.busOut = none) :
    ∃ chain rest, liveEntries u = chain ++ rest ∧ ChainRest u h chain ∧
      Discards u (idleArm (finishError h u)) (h :: chain) rest := by
  obtain ⟨chain, rest, hlive, hsplit, hd⟩ := discards_of_discardChain hl hc ho (recAt u h).chain
  refine ⟨chain, rest, hlive, chainRest_of_discardSplit hsplit fun k hk => hl.chainEnds k ?_, hd⟩
  rw [owned_eq_cons hc, hlive]
  exact hk

/-! ### RETURN from a completion notification (rules R194, R281) -/

/-- The engine's state under RETURN from a TXN notification of record h. -/
theorem Inv.held {s : State} (hi : Inv s) {h : Handle} {cb w : BitVec 16} {ctx : BitVec 32} {c : Byte}
    (hn : s.ntf = .txn h cb ctx w c) : Ledger (leaveHandler s) ∧ s.cur = some h ∧ s.busOut = none := by
  obtain ⟨hc, hst⟩ := hi.txnHeld h cb ctx w c hn
  refine ⟨hi.ledger.keep_registers s.st s.busy s.idx s.busOut .none s.busLog s.dmem, hc, ?_⟩
  have := hi.busOut
  rcases hst with hst | hst <;> simpa [hst, WaitsFor] using this

theorem exec_ret_txn {s t : State} {h : Handle} {cb w : BitVec 16} {ctx : BitVec 32} {c : Byte}
    (hn : s.ntf = .txn h cb ctx w c) (hx : engineResume s = .next t) :
    exec .ret s = .next (deliver .handler .ok [] t) := by
  simp only [exec, execRet, hn, hx]
  rfl

/-- What RETURN leaves unchanged. -/
theorem Discards.returnFrame {s t : State} {gone rest : List Handle} (hd : Discards (leaveHandler s) t gone rest)
    {h : Handle} {cb w : BitVec 16} {ctx : BitVec 32} {c : Byte} (hn : s.ntf = .txn h cb ctx w c) :
    Answered s (deliver .handler .ok [] t) .ok [] ∧ SameDmem s (deliver .handler .ok [] t) ∧
      SameBesidesEngine s (deliver .handler .ok [] t) ∧ (deliver .handler .ok [] t).agenda = s.agenda := by
  have hf : sansEngine t = sansEngine s := hd.frame
  refine ⟨?_, memRead_congr (congrArg (·.cfg) hf) (congrArg (·.dmem) hf), ?_, congrArg (·.agenda) hf⟩
  · have hr : t.responses = s.responses := congrArg (·.responses) hf
    simp [Answered, contextOf, hn, hr]
  · have hfd : sansEngine (deliver .handler .ok [] t) = sansEngine (deliver .handler .ok [] s) :=
      congrArg (deliver .handler .ok []) hf
    exact sameBesidesEngine_of_sansEngine (more := s.agenda) (m := s.dmem)
      (rs := (deliver .handler .ok [] s).responses) hfd

/-- Settles O37: RETURN from STOP runs FinishSuccess and the IDLE arm. -/
theorem returnFromSuccessReleases : Obligations.ReturnFromSuccessReleases := by
  intro s h cb ctx w c hi hn hst
  obtain ⟨hl, hc, ho⟩ := hi.held hn
  have hd := discards_finishSuccess hl hc ho
  have hx : engineResume s = .next (idleArm (finishSuccess h (leaveHandler s))) := by
    rw [engineResume_eq hc (.inl hst), if_pos hst]
  obtain ⟨hans, hmem, hrest, hag⟩ := hd.returnFrame hn
  exact ⟨_, exec_ret_txn hn hx, hans, hd.ntf, hd.record_gone List.mem_cons_self, hd.released List.mem_cons_self,
    hd.untouchedBut (fun _ _ => rfl) rfl, hd.goesOn, hmem, hrest, hag⟩

/-- Settles O38: RETURN from ERROR runs FinishError and the IDLE arm. -/
theorem returnFromFailureDiscardsTheChain : Obligations.ReturnFromFailureDiscardsTheChain := by
  intro s h cb ctx w c hi hn hst
  obtain ⟨hl, hc, ho⟩ := hi.held hn
  obtain ⟨chain, rest, hlive, hchain, hd⟩ := discards_finishError hl hc ho
  have hch : chains (leaveHandler s) = chains s := rfl
  have hx : engineResume s = .next (idleArm (finishError h (leaveHandler s))) := by
    rw [engineResume_eq hc (.inr hst), if_neg (by simp [hst])]
  obtain ⟨hans, hmem, hrest, hag⟩ := hd.returnFrame hn
  exact ⟨_, chain, rest, exec_ret_txn hn hx, hans, hd.ntf, hlive, hchain.congr hch,
    fun k hk => ⟨hd.record_gone hk, hd.released hk⟩, hd.untouchedBut (fun _ _ => rfl) rfl, hd.goesOn, hmem, hrest,
    hag⟩

end Sys2Proof.Machine
end

section
namespace Sys2Proof.Machine

/-! ### A success without a notification (rules R187, R191) -/

/-- Settles O34: the event enters the STOP arm, which releases the record with its outcome and goes on. -/
theorem silentSuccessReleasesAndGoesOn : Obligations.SilentSuccessReleasesAndGoesOn := by
  intro s h code data more hi ha hf hc
  obtain ⟨w, hw, hstep⟩ := hi.step_final ha hf data more
  have hx := hw.frame_succeeded
  have hrx := hw.running.keep_succeeded
  have hd := discards_finishSuccess hrx.ledger hrx.cur hrx.busOut
  have hrec := hd.record_gone List.mem_cons_self
  have hframe : sansEngine (idleArm (finishSuccess h (succeeded h w))) =
      sansEngine { s with agenda := more, dmem := w.dmem } := by
    rw [hd.frame, hx]
    rfl
  refine ⟨_, hstep.trans (congrArg _ (hw.stopArm_releases hc)), hd.ntf.trans hrx.ntf, ?record, ?lastByte,
    hd.released List.mem_cons_self, ?others, ?goesOn, eventFrame_of_sansEngine hframe⟩
  case record => rw [hrec, hw.record_succeeded]
  case lastByte =>
    have hcfg : w.cfg = s.cfg := congrArg (·.cfg) hw.frame
    exact hw.lastByteOnly_congr (congrArg (·.bufSel) hrec) (congrArg (·.inl) hrec) (congrArg (·.extAddr) hrec)
      (memRead_congr ((congrArg (·.cfg) hframe).trans hcfg.symm) (congrArg (·.dmem) hframe))
  case others =>
    refine hd.untouchedBut (fun k hk => ?_) (congrArg (·.alloc) hx)
    have hne : k ≠ h := fun e => hk (by simp [e])
    rw [recAt_succeeded_other hne, hw.otherRecords k hne]
  case goesOn =>
    have hlive : liveEntries (succeeded h w) = liveEntries s := by
      rw [hx]
      rfl
    have hidx : (succeeded h w).idx = (recAt s h).byteCount := congrArg (·.idx) hx
    have hlog : (succeeded h w).busLog = s.busLog ++ (if (recAt s h).sendStop then [.stop] else []) :=
      congrArg (·.busLog) hx
    exact hlive ▸ hidx ▸ hlog ▸ hd.goesOn

/-! ### A failed check (rules R181, R183, R185, R186, R189) -/

/-- The engine enters the ERROR arm: nothing is stored. -/
def atError (more : List Action) (s : State) : State := { taken more s with st := .error }

/-- The ERROR arm's state with the outcome recorded and STOP issued. -/
def failed (h : Handle) (p : Phase) (code : Byte) (u : State) : State :=
  busCmd .stop (setOutcome h (failureStatus p u.idx) code u)

theorem failureStatus_toNat (s : State) (p : Phase) : (failureStatus p s.idx).toNat = failureNumber s p := by
  cases p with
  | start => rfl
  | address => rfl
  | data =>
    rw [failureStatus, BitVec.toNat_append, Nat.shiftLeft_eq, Nat.mul_comm,
      ← Nat.two_pow_add_eq_or_of_lt Phase.data.num.isLt, Nat.mul_comm]
    rfl

/-- A code that fails the check of the state that waits enters the ERROR arm, with nothing stored. -/
theorem Awaiting.step_failing {s : State} {h : Handle} (ha : Awaiting s h s.st) {code : Byte} {p : Phase}
    (hf : FailingEvent s h code p) (data : Byte) (more : List Action) :
    step (offer (.busEvent code data) more s) = .next (errorArm h p code (atError more s)) := by
  cases p with
  | start =>
    obtain ⟨hst, h1, h2⟩ := hf
    exact ((ha.of_st hst).step_start code data more).trans (if_neg (not_or.mpr ⟨h1, h2⟩))
  | address =>
    obtain ⟨hst, hcode⟩ := hf
    have hne : code ≠ addressAckCode s.cfg (recAt s h).dir := by
      cases hd : (recAt s h).dir <;> rw [hd] at hcode <;> exact hcode
    exact ((ha.of_st hst).step_addressAck code data more).trans (if_neg hne)
  | data =>
    obtain ⟨hst, hcode⟩ := hf
    rw [(ha.of_st hst).step_dataCheck, dataCheckArm]
    cases hd : (recAt (taken more s) h).dir with
    | write =>
      have hd' : (recAt s h).dir = .write := hd
      rw [hd'] at hcode
      exact if_neg hcode
    | read =>
      have hd' : (recAt s h).dir = .read := hd
      rw [hd'] at hcode
      have hne : code ≠ readCode s h := by
        unfold readCode moreBytesFollow
        split <;> rename_i hm
        · exact hcode.1 (of_decide_eq_true hm)
        · exact hcode.2 (by simpa using hm)
      exact if_neg hne

theorem recAt_failed_same {h : Handle} {u : State} (hr : HasRecord u h) (p : Phase) (code : Byte) :
    recAt (failed h p code u) h = { recAt u h with status := failureStatus p u.idx, hwCode := code } := by
  rw [failed, recAt_busCmd, recAt_setOutcome_same _ _ _ _ hr]

theorem recAt_failed_other {h k : Handle} (hk : k ≠ h) (p : Phase) (code : Byte) (u : State) :
    recAt (failed h p code u) k = recAt u k := by
  rw [failed, recAt_busCmd, recAt_setOutcome_other _ _ _ _ _ hk]

theorem failed_frame (h : Handle) (p : Phase) (code : Byte) (u : State) : failed h p code u =
    { u with busLog := u.busLog ++ [.stop], pool := (failed h p code u).pool,
             caller := (failed h p code u).caller } := by
  unfold failed setOutcome setRec
  split <;> rfl

theorem Running.keep_failed {h : Handle} {u : State} (hr : Running h u) (p : Phase) (code : Byte) :
    Running h (failed h p code u) :=
  (hr.keep_setOutcome _ _).keep_busStop

theorem errorArm_notifies {h : Handle} {s : State} (hcb : (recAt s h).callback ≠ 0) (p : Phase) (code : Byte)
    (more : List Action) : errorArm h p code (atError more s) =
      notify (completionNtf (failed h p code (atError more s)) h) (failed h p code (atError more s)) :=
  errorArm_notify (s := atError more s) hcb

theorem errorArm_discards {h : Handle} {s : State} (hcb : (recAt s h).callback = 0) (p : Phase) (code : Byte)
    (more : List Action) : errorArm h p code (atError more s) =
      idleArm (finishError h (failed h p code (atError more s))) :=
  errorArm_silent (s := atError more s) hcb

theorem Inv.running_atError {s : State} (hi : Inv s) {h : Handle} {st : EngineState} (ha : Awaiting s h st)
    (more : List Action) : Running h (atError more s) :=
  (hi.running_taken ha more).keep_registers ..

theorem sansEngine_failed (h : Handle) (p : Phase) (code : Byte) (more : List Action) (s : State) :
    sansEngine (failed h p code (atError more s)) = sansEngine { s with agenda := more } := by
  rw [failed_frame]
  rfl

theorem record_failed {s : State} {h : Handle} {more : List Action} (hr : Running h (atError more s)) (p : Phase)
    (code : Byte) : recAt (failed h p code (atError more s)) h =
      { recAt s h with status := (recAt (failed h p code (atError more s)) h).status, hwCode := code } ∧
    (recAt (failed h p code (atError more s)) h).status.toNat = failureNumber s p := by
  rw [recAt_failed_same hr.hasRecord]
  exact ⟨rfl, failureStatus_toNat s p⟩

/-- Settles O35: the event enters the ERROR arm, which notifies with the recorded outcome. -/
theorem failedCheckNotifiesTheCallback : Obligations.FailedCheckNotifiesTheCallback := by
  intro s h code data p more hi ha hf hcb
  have hr := hi.running_atError ha more
  have hstep := (ha.step_failing hf data more).trans (congrArg _ (errorArm_notifies hcb p code more))
  obtain ⟨hrec, hstatus⟩ := record_failed hr p code
  have hx := failed_frame h p code (atError more s)
  have hframe := sansEngine_failed h p code more s
  have halloc : (failed h p code (atError more s)).alloc = s.alloc := congrArg (·.alloc) hx
  refine ⟨_, hstep, hstatus, congrArg (·.hwCode) hrec, ?ntf, hrec, congrArg (·.busLog) hx, congrArg (·.busOut) hx,
    congrArg (·.st) hx, (congrArg (·.cur) hx).trans ha.cur, (hr.keep_failed p code).busy, congrArg (·.idx) hx,
    ⟨congrArg (·.qslot) hx, congrArg (·.qRd) hx, congrArg (·.qCount) hx⟩, halloc,
    fun k _ hk => recAt_failed_other hk p code _, sameDmem_of_sansEngine hframe,
    eventFrame_of_sansEngine (m := s.dmem) hframe⟩
  rw [notify_ntf, completionNtf, hrec]
  rfl

/-- Settles O36: the event enters the ERROR arm, which releases the record with its outcome and the rest of its chain,
and goes on. -/
theorem silentFailureDiscardsTheChain : Obligations.SilentFailureDiscardsTheChain := by
  intro s h code data p more hi ha hf hcb
  have hr := hi.running_atError ha more
  have hstep := (ha.step_failing hf data more).trans (congrArg _ (errorArm_discards hcb p code more))
  have hrx := hr.keep_failed p code
  obtain ⟨hrec, hstatus⟩ := record_failed hr p code
  have hx := failed_frame h p code (atError more s)
  have hframe := sansEngine_failed h p code more s
  obtain ⟨chain, rest, hlive, hchain, hd⟩ := discards_finishError hrx.ledger hrx.cur hrx.busOut
  have hlive' : liveEntries (failed h p code (atError more s)) = liveEntries s := by
    rw [hx]
    rfl
  have hgone := hd.record_gone List.mem_cons_self
  have hnot : h ∉ chain := fun hm => by
    have hnd := hrx.ledger.once
    rw [owned_eq_cons hrx.cur, hlive] at hnd
    exact (List.nodup_cons.mp hnd).1 (List.mem_append_left _ hm)
  refine ⟨_, chain, rest, hstep, hlive'.symm.trans hlive, hchain.congr ?chains, hd.ntf.trans hrx.ntf, ?status, ?record,
    hd.released List.mem_cons_self, fun k hk => ⟨?member, hd.released (List.mem_cons_of_mem _ hk)⟩, ?others, ?goesOn,
    sameDmem_of_sansEngine (hd.frame.trans hframe), eventFrame_of_sansEngine (m := s.dmem) (hd.frame.trans hframe)⟩
  case chains =>
    rw [failed, chains_busCmd, chains_setOutcome]
    rfl
  case status => rw [hgone]; exact hstatus
  case record => rw [hgone, hrec]
  case member =>
    have hne : k ≠ h := fun e => hnot (e ▸ hk)
    rw [hd.record_gone (List.mem_cons_of_mem _ hk), recAt_failed_other hne]
    rfl
  case others =>
    refine hd.untouchedBut (fun k hk => ?_) (congrArg (·.alloc) hx)
    exact recAt_failed_other (fun e => hk (by simp [e])) p code _
  case goesOn =>
    have hidx : (failed h p code (atError more s)).idx = s.idx := congrArg (·.idx) hx
    have hlog : (failed h p code (atError more s)).busLog = s.busLog ++ [.stop] := congrArg (·.busLog) hx
    exact hidx ▸ hlog ▸ hd.goesOn

end Sys2Proof.Machine
end

section
namespace Sys2Proof.Machine

/-! ### Runs over the expected events (rule R198) -/

theorem coreRun_succ (M : Host.Core) {s t : M.State} (hx : M.step s = .next t) (k : Nat) :
    M.run (k + 1) s = M.run k t := by
  rw [Host.Core.run, hx]

theorem run_succ {s t : State} (hx : step s = .next t) (k : Nat) : core.run (k + 1) s = core.run k t :=
  coreRun_succ core hx k

theorem run_succ_of_agenda {s t : State} {a : Action} {more : List Action} (ha : s.agenda = a :: more)
    (hx : step (offer a more s) = .next t) (k : Nat) : core.run (k + 1) s = core.run k t := by
  rw [offer, ← ha] at hx
  exact run_succ hx k

theorem Inv.keep_offer {s : State} (hi : Inv s) (a : Action) (more : List Action) : Inv (offer a more s) :=
  hi.keep_outside ..

/-- One expected event on: the engine issued c and waits in st, with the record as it was but for its inline bytes. -/
structure Advances (s t : State) (h : Handle) (st : EngineState) (c : BusCmd) (more : List Action) : Prop where
  inv : Inv t
  awaiting : Awaiting t h st
  cfg : t.cfg = s.cfg
  log : t.busLog = s.busLog ++ [c]
  record : recAt t h = { recAt s h with inl := (recAt t h).inl }
  agenda : t.agenda = more

/-- The transaction of record h ended in t with success, after the bus commands `sent`. -/
structure Succeeds (s t : State) (h : Handle) (sent : List BusCmd) (more : List Action) : Prop where
  log : ∃ next, (next = [] ∨ next = [.start]) ∧
    t.busLog = s.busLog ++ (sent ++ (if (recAt s h).sendStop then [.stop] else []) ++ next)
  status : (recAt t h).status = 0
  hwCode : (recAt t h).hwCode = 0
  agenda : t.agenda = more

theorem Advances.succeeds {s u t : State} {h : Handle} {st : EngineState} {c : BusCmd} {acts more : List Action}
    {sent : List BusCmd} (ha : Advances s u h st c acts) (hs : Succeeds u t h sent more) :
    Succeeds s t h (c :: sent) more := by
  obtain ⟨next, hnext, hlog⟩ := hs.log
  have hstop : (recAt u h).sendStop = (recAt s h).sendStop := congrArg (·.sendStop) ha.record
  refine ⟨⟨next, hnext, ?_⟩, hs.status, hs.hwCode, hs.agenda⟩
  rw [hlog, ha.log, hstop]
  simp

/-- After a request the engine waits for its answer. -/
theorem IsRequest.awaiting {u : State} {h : Handle} {c : BusCmd} (hc : IsRequest u h c) (hf : u.fault = none)
    (hn : u.ntf = .none) (hcur : u.cur = some h) : Awaiting { busCmd c u with st := .dataCheck } h .dataCheck := by
  refine ⟨hf, hn, ?_, hcur, rfl⟩
  unfold IsRequest at hc
  split at hc
  · obtain ⟨b, -, rfl⟩ := hc
    exact nofun
  · subst hc
    exact nofun

theorem Inv.advances_start {s : State} (hi : Inv s) {h : Handle} (ha : Awaiting s h .start) {code : Byte} (data : Byte)
    (more : List Action) (hcode : code = s.cfg.codeStart ∨ code = s.cfg.codeRepStart) :
    ∃ t, step (offer (.busEvent code data) more s) = .next t ∧
      Advances s t h .addressAck (.addr (addressByte (recAt s h))) more ∧ recAt t h = recAt s h ∧ SameDmem s t := by
  have hstep := ha.step_accepted data more hcode
  exact ⟨_, hstep, ⟨everyStepKeepsTheInvariants _ _ (hi.keep_offer _ _) hstep, ⟨ha.fault, ha.ntf, nofun, ha.cur, rfl⟩,
    rfl, rfl, rfl, rfl⟩, rfl, fun _ => rfl⟩

theorem Inv.advances_acknowledged {s : State} (hi : Inv s) {h : Handle} (ha : Awaiting s h s.st) {code : Byte} {i : Nat}
    (hk : Acknowledges s h code i) (hlt : i < (recAt s h).byteCount.toNat) (data : Byte) (more : List Action) :
    ∃ t c, step (offer (.busEvent code data) more s) = .next t ∧ Advances s t h .dataCheck c more ∧ IsRequest t h c ∧
      t.idx.toNat = i ∧ recAt t h = recAt s h ∧ SameDmem s t := by
  obtain ⟨j, c, hj, hc, hstep⟩ := hi.step_acknowledged_requests ha hk hlt data more
  exact ⟨_, c, hstep, ⟨everyStepKeepsTheInvariants _ _ (hi.keep_offer _ _) hstep, hc.awaiting ha.fault ha.ntf ha.cur,
    rfl, rfl, rfl, rfl⟩, hc, hj, rfl, fun _ => rfl⟩

theorem Inv.advances_received {s : State} (hi : Inv s) {h : Handle} (ha : Awaiting s h .dataCheck)
    (hd : (recAt s h).dir = .read) (hlt : s.idx.toNat + 1 < (recAt s h).byteCount.toNat) (data : Byte)
    (more : List Action) :
    ∃ t c, step (offer (.busEvent s.cfg.codeRxAck data) more s) = .next t ∧ Advances s t h .dataCheck c more ∧
      IsRequest t h c ∧ t.idx.toNat = s.idx.toNat + 1 ∧ bufferByte t h s.idx.toNat = some data ∧
      ∀ j, j ≠ s.idx.toNat → bufferByte t h j = bufferByte s h j := by
  obtain ⟨u, c, hs, hc, hstep⟩ := hi.step_received_requests ha hd hlt data more
  have hf := hs.frame
  have hlog : u.busLog = s.busLog := congrArg (·.busLog) hf
  refine ⟨_, c, hstep, ⟨everyStepKeepsTheInvariants _ _ (hi.keep_offer _ _) hstep, hc.awaiting ?_ ?_ ?_,
    congrArg (·.cfg) hf, congrArg (· ++ [c]) hlog, hs.record, congrArg (·.agenda) hf⟩, hc,
    toNat_idx_add_one (hi.idx_lt ha), hs.stored, hs.otherBytes⟩
  · exact (congrArg (·.fault) hf).trans ha.fault
  · exact (congrArg (·.ntf) hf).trans ha.ntf
  · exact (congrArg (·.cur) hf).trans ha.cur

/-- The completing event, notified or silent. -/
theorem Inv.step_succeeds {s : State} (hi : Inv s) {h : Handle} (ha : Awaiting s h s.st) {code : Byte}
    (hf : FinalEvent s h code) (data : Byte) (more : List Action) :
    ∃ t, step (offer (.busEvent code data) more s) = .next t ∧ Succeeds s t h [] more ∧ LastByteOnly s t h data := by
  by_cases hc : (recAt s h).chain = false ∧ (recAt s h).callback ≠ 0
  · obtain ⟨t, hstep, -, hrec, hlast, -, -, -, -, -, hlog, -, -, -, -, -, hag⟩ :=
      successNotifiesTheCallback s h code data more hi ha hf hc.1 hc.2
    have hlog' : t.busLog = s.busLog ++ ([] ++ (if (recAt s h).sendStop then [.stop] else []) ++ []) := by
      simpa using hlog
    exact ⟨t, hstep, ⟨⟨[], .inl rfl, hlog'⟩, congrArg (·.status) hrec, congrArg (·.hwCode) hrec, hag⟩, hlast⟩
  · obtain ⟨t, hstep, -, hrec, hlast, -, -, ⟨-, hgo⟩, -, -, hag⟩ :=
      silentSuccessReleasesAndGoesOn s h code data more hi ha hf (by simpa [Decidable.or_iff_not_imp_left] using hc)
    refine ⟨t, hstep, ⟨?_, congrArg (·.status) hrec, congrArg (·.hwCode) hrec, hag⟩, hlast⟩
    cases hl : liveEntries s with
    | nil =>
      rw [hl] at hgo
      obtain ⟨-, -, -, -, -, hlog⟩ := hgo
      exact ⟨[], .inl rfl, by simpa using hlog⟩
    | cons k ks =>
      rw [hl] at hgo
      obtain ⟨-, -, -, -, -, hlog⟩ := hgo
      exact ⟨[.start], .inr rfl, by simpa using hlog⟩

/-! ### A write (rule R198, row 1) -/

theorem Acknowledges.final {s : State} {h : Handle} {code : Byte} {i : Nat} (hk : Acknowledges s h code i)
    (hi : i = (recAt s h).byteCount.toNat) : FinalEvent s h code := by
  obtain ⟨hst, hcode, rfl⟩ | ⟨hst, hd, hcode, rfl⟩ := hk
  · exact .inl ⟨hst, BitVec.eq_of_toNat_eq hi.symm, hcode⟩
  · refine .inr ⟨hst, hi.symm, ?_⟩
    rw [hd]
    exact hcode

/-- From the acknowledge after which i bytes are done, the n bytes that are left go out in order. -/
theorem Inv.run_write (data : Byte) (more : List Action) {h : Handle} (n : Nat) : ∀ {s : State} {code : Byte} {i : Nat},
    Inv s → Awaiting s h s.st → (recAt s h).dir = .write → Acknowledges s h code i →
    i + n = (recAt s h).byteCount.toNat →
    s.agenda = .busEvent code data :: (List.replicate n (.busEvent s.cfg.codeTxAck data) ++ more) →
    ∃ (t : State) (bytes : List Byte), core.run (n + 1) s = .next t ∧ bytes.length = n ∧
      (∀ j, j < n → bytes[j]? = bufferByte s h (i + j)) ∧
      Succeeds s t h (bytes.map BusCmd.tx) more := by
  induction n with
  | zero =>
    intro s code i hi ha _ hk hn hag
    obtain ⟨t, hstep, hs, -⟩ := hi.step_succeeds ha (hk.final hn) data more
    exact ⟨t, [], run_succ_of_agenda hag hstep 0, rfl, nofun, hs⟩
  | succ n ih =>
    intro s code i hi ha hd hk hn hag
    obtain ⟨u, c, hstep, hadv, hc, hidx, hrec, hmem⟩ := hi.advances_acknowledged ha hk (by omega) data
      (List.replicate (n + 1) (.busEvent s.cfg.codeTxAck data) ++ more)
    have hbytes : ∀ j, bufferByte u h j = bufferByte s h j :=
      bufferByte_congr (by rw [hrec]) (by rw [hrec]) (by rw [hrec]) hmem
    have hdu : (recAt u h).dir = .write := by rw [hrec, hd]
    obtain ⟨b, hb, rfl⟩ : ∃ b, bufferByte u h u.idx.toNat = some b ∧ c = .tx b := by
      simpa only [IsRequest, hdu] using hc
    obtain ⟨t, bytes, hrun, hlen, hget, hs⟩ := ih (code := u.cfg.codeTxAck) (i := i + 1) hadv.inv
      (hadv.awaiting.of_st rfl) hdu (.inr ⟨hadv.awaiting.st, hdu, rfl, by rw [hidx]⟩) (by rw [hrec]; omega)
      (by rw [hadv.cfg]; exact hadv.agenda)
    refine ⟨t, b :: bytes, (run_succ_of_agenda hag hstep _).trans hrun, by simp [hlen], fun j hj => ?_,
      hadv.succeeds hs⟩
    cases j with
    | zero => rw [← hidx, Nat.add_zero, ← hbytes, hb]; rfl
    | succ j =>
      rw [List.getElem?_cons_succ, hget j (by omega), hbytes]
      congr 1
      omega

theorem addressByte_write {r : Record} (hd : r.dir = .write) :
    addressByte r = BitVec.ofNat 8 (2 * r.addr7.toNat) := by
  have hb : (addressByte r).toNat = 2 * r.addr7.toNat := by rw [addressByte_toNat, hd]; rfl
  rw [← hb, BitVec.ofNat_toNat, BitVec.setWidth_eq]

theorem addressByte_read {r : Record} (hd : r.dir = .read) :
    addressByte r = BitVec.ofNat 8 (2 * r.addr7.toNat + 1) := by
  have hb : (addressByte r).toNat = 2 * r.addr7.toNat + 1 := by rw [addressByte_toNat, hd]; rfl
  rw [← hb, BitVec.ofNat_toNat, BitVec.setWidth_eq]

/-- Settles O39: the start code, then the acknowledges of `Inv.run_write`. -/
theorem successfulWriteBusSequence : Obligations.SuccessfulWriteBusSequence := by
  intro s h start data more hi ha hstart hd
  obtain ⟨u, hstep, hadv, hrec, hmem⟩ := hi.advances_start ha data
    (.busEvent s.cfg.codeSlawAck data ::
      (List.replicate (recAt s h).byteCount.toNat (.busEvent s.cfg.codeTxAck data) ++ more)) hstart
  have hdu : (recAt u h).dir = .write := by rw [hrec, hd]
  obtain ⟨t, bytes, hrun, hlen, hget, hs⟩ := hadv.inv.run_write data more (recAt s h).byteCount.toNat (i := 0)
    (hadv.awaiting.of_st rfl) hdu (.inl ⟨hadv.awaiting.st, rfl, rfl⟩) (by rw [hrec, Nat.zero_add])
    (by rw [hdu, hadv.cfg]; exact hadv.agenda)
  obtain ⟨⟨next, hnext, hlog⟩, hstatus, hcode, hag⟩ := hadv.succeeds hs
  refine ⟨t, bytes, next, (run_succ hstep _).trans hrun, hlen, fun i hlt => ?_, ?_, hnext, hstatus, hcode, hag⟩
  · rw [hget i (hlen ▸ hlt), Nat.zero_add]
    exact bufferByte_congr (by rw [hrec]) (by rw [hrec]) (by rw [hrec]) hmem i
  · rw [hlog, addressByte_write hd]
    rfl

/-! ### A read (rules R186, R198, row 2) -/

theorem readRequests_succ (n : Nat) : readRequests (n + 1) = .rx (decide (0 < n)) :: readRequests n := by
  cases n <;> rfl

/-- A request of a read is the first of the requests for the bytes that are left. -/
theorem IsRequest.readRequests_cons {u : State} {h : Handle} {c : BusCmd} {n : Nat} (hc : IsRequest u h c)
    (hd : (recAt u h).dir = .read) (hn : u.idx.toNat + (n + 1) = (recAt u h).byteCount.toNat) :
    c :: readRequests n = readRequests (n + 1) := by
  have hc' : c = .rx (decide (u.idx.toNat + 1 < (recAt u h).byteCount.toNat)) := by simpa only [IsRequest, hd] using hc
  rw [readRequests_succ, hc', ← hn]
  congr 2
  simp

/-- From the request of the first byte of `b :: bytes`, each byte is stored in its place and the others are
requested. -/
theorem Inv.run_read (more : List Action) {h : Handle} (bytes : List Byte) : ∀ {s : State} {b : Byte},
    Inv s → Awaiting s h .dataCheck → (recAt s h).dir = .read →
    s.idx.toNat + (bytes.length + 1) = (recAt s h).byteCount.toNat →
    s.agenda = readAnswers s.cfg (b :: bytes) ++ more →
    ∃ t : State, core.run (bytes.length + 1) s = .next t ∧
      (∀ j, j < s.idx.toNat → bufferByte t h j = bufferByte s h j) ∧
      (∀ j, j < bytes.length + 1 → bufferByte t h (s.idx.toNat + j) = (b :: bytes)[j]?) ∧
      Succeeds s t h (readRequests bytes.length) more := by
  induction bytes with
  | nil =>
    intro s b hi ha hd hn hag
    have hst := ha.st
    have hf : FinalEvent s h s.cfg.codeRxNack := .inr ⟨hst, hn.symm, by rw [hd]⟩
    obtain ⟨t, hstep, hs, hlast, hothers, -, -⟩ := hi.step_succeeds (ha.of_st rfl) hf b more
    refine ⟨t, run_succ_of_agenda hag hstep 0, fun j hj => hothers j fun e => by omega, fun j hj => ?_, hs⟩
    obtain rfl : j = 0 := by simpa using hj
    exact hlast hst hd
  | cons b' bytes ih =>
    intro s b hi ha hd hn hag
    rw [List.length_cons] at hn
    obtain ⟨u, c, hstep, hadv, hc, hidx, hstored, hothers⟩ := hi.advances_received ha hd (by omega) b
      (readAnswers s.cfg (b' :: bytes) ++ more)
    have hdu : (recAt u h).dir = .read := (congrArg (·.dir) hadv.record).trans hd
    have hcount : (recAt u h).byteCount = (recAt s h).byteCount := congrArg (·.byteCount) hadv.record
    have hnu : u.idx.toNat + (bytes.length + 1) = (recAt u h).byteCount.toNat := by rw [hidx, hcount]; omega
    obtain ⟨t, hrun, hbefore, hget, hs⟩ := ih (b := b') hadv.inv hadv.awaiting hdu hnu
      (by rw [hadv.cfg, hadv.agenda])
    refine ⟨t, (run_succ_of_agenda hag hstep _).trans hrun, fun j hj => ?_, fun j hj => ?_, ?_⟩
    · rw [hbefore j (by omega), hothers j (by omega)]
    · cases j with
      | zero => rw [Nat.add_zero, hbefore _ (by omega), hstored]; rfl
      | succ j =>
        rw [List.getElem?_cons_succ, ← hget j (by simpa using hj), hidx]
        congr 1
        omega
    · rw [List.length_cons, ← hc.readRequests_cons hdu hnu]
      exact hadv.succeeds hs

/-- Settles O40: the start code, the acknowledge that requests byte 0, then the bytes of `Inv.run_read`. -/
theorem successfulReadBusSequence : Obligations.SuccessfulReadBusSequence := by
  intro s h start data bytes more hi ha hstart hd hne hlen
  obtain ⟨b, bytes, rfl⟩ := List.exists_cons_of_ne_nil hne
  obtain ⟨u, hstep, hadv, hrec, -⟩ := hi.advances_start ha data
    (.busEvent s.cfg.codeSlarAck data :: (readAnswers s.cfg (b :: bytes) ++ more)) hstart
  have hdu : (recAt u h).dir = .read := by rw [hrec, hd]
  have hlenu : bytes.length + 1 = (recAt u h).byteCount.toNat := by rw [hrec, ← hlen, List.length_cons]
  obtain ⟨v, c, hstep', hadv', hc, hidx, hrec', -⟩ := hadv.inv.advances_acknowledged (i := 0)
    (code := s.cfg.codeSlarAck) (hadv.awaiting.of_st rfl) (.inl ⟨hadv.awaiting.st, by rw [hdu, hadv.cfg]; rfl, rfl⟩)
    (by omega) data (readAnswers s.cfg (b :: bytes) ++ more)
  have hdv : (recAt v h).dir = .read := by rw [hrec', hdu]
  have hnv : v.idx.toNat + (bytes.length + 1) = (recAt v h).byteCount.toNat := by rw [hidx, hrec', hlenu, Nat.zero_add]
  obtain ⟨t, hrun, -, hget, hs⟩ := hadv'.inv.run_read more bytes (b := b) hadv'.awaiting hdv hnv
    (by rw [hadv'.cfg, hadv.cfg, hadv'.agenda])
  have hsent := hadv'.succeeds hs
  rw [hc.readRequests_cons hdv hnv] at hsent
  obtain ⟨⟨next, hnext, hlog⟩, hstatus, hcode, hag⟩ := hadv.succeeds hsent
  refine ⟨t, next, (run_succ hstep _).trans ((run_succ_of_agenda hadv.agenda hstep' _).trans hrun), fun i hi => ?_, ?_,
    hnext, hstatus, hcode, hag⟩
  · rw [← hget i hi, hidx, Nat.zero_add]
  · rw [hlog, addressByte_read hd]
    rfl

end Sys2Proof.Machine
end

section
namespace Sys2Proof.Machine

/-! ### The clock's readings (rules R231 to R235) -/

theorem msRaw_toNat (s : State) :
    (msRaw s).toNat = (s.coarseMs.toNat + s.fine.toNat * s.cfg.msMul / 2 ^ s.cfg.msShift) % 2 ^ 32 := by
  rw [msRaw, BitVec.toNat_ofNat, Nat.shiftRight_eq_div_pow]

theorem usRaw_toNat (s : State) :
    (usRaw s).toNat = (s.coarseMs.toNat * 1000 + s.fine.toNat * s.cfg.usMul / 2 ^ s.cfg.usShift) % 2 ^ 64 := by
  rw [usRaw, BitVec.toNat_ofNat, Nat.shiftRight_eq_div_pow]

theorem ratchet_unsigned_toNat {W : Nat} (raw last : BitVec W) :
    (ratchet .unsigned raw last).toNat = max raw.toNat last.toNat := by
  simp only [ratchet, behind, decide_eq_true_eq]
  split <;> omega

theorem ratchet_halfRange_toNat {W : Nat} (raw last : BitVec W) :
    (ratchet .halfRange raw last).toNat =
      if 2 ^ (W - 1) < (raw.toNat + 2 ^ W - last.toNat) % 2 ^ W then last.toNat else raw.toNat := by
  have hsub : (raw - last).toNat = (raw.toNat + 2 ^ W - last.toNat) % 2 ^ W := by
    have hlast := last.isLt
    rw [BitVec.toNat_sub]
    congr 1
    omega
  simp only [ratchet, behind, hsub, decide_eq_true_eq, apply_ite BitVec.toNat]

theorem behind_self {W : Nat} (order : RatchetCompare) (x : BitVec W) : behind order x x = false := by
  cases order <;> simp [behind]

/-- The ratchet's result is not behind the last value, in either order (rule R239). -/
theorem behind_ratchet {W : Nat} (order : RatchetCompare) (raw last : BitVec W) :
    behind order (ratchet order raw last) last = false := by
  unfold ratchet
  split
  · exact behind_self order last
  · exact Bool.eq_false_iff.mpr ‹_›

/-- The two words that NOWUS answers are the halves of its value (rule R98). -/
theorem toNat_halves (x : BitVec 64) : (x.extractLsb' 0 32).toNat + 2 ^ 32 * (x.extractLsb' 32 32).toNat = x.toNat := by
  have hx := x.isLt
  simp only [BitVec.extractLsb'_toNat, Nat.shiftRight_eq_div_pow]
  omega

theorem exec_nowms (s : State) :
    exec .nowms s = .next (deliver (contextOf s) .ok [msNow s] { s with lastMs := msNow s }) := rfl

theorem exec_nowus (s : State) :
    exec .nowus s = .next (deliver (contextOf s) .ok [(usNow s).extractLsb' 0 32, (usNow s).extractLsb' 32 32]
      { s with lastUs := usNow s }) := rfl

theorem lastMs_of_nowms {s t : State} (hx : exec .nowms s = .next t) : t.lastMs = msNow s := by
  cases hx
  rfl

theorem lastUs_of_nowus {s t : State} (hx : exec .nowus s = .next t) : t.lastUs = usNow s := by
  cases hx
  rfl

/-- Settles O42: the value is `msNow`, the ratchet of `msRaw` over LAST_MS. -/
theorem nowmsReturnsTheRatchetedTime : Obligations.NowmsReturnsTheRatchetedTime := by
  intro s
  refine ⟨_, msNow s, exec_nowms s, rfl, rfl, fun raw hraw => ?_, rfl, rfl, rfl, ⟨rfl, rfl, rfl, rfl, rfl, rfl⟩,
    ⟨rfl, rfl, rfl⟩, ⟨rfl, rfl, rfl⟩, ⟨rfl, rfl⟩, ⟨rfl, rfl, rfl, rfl⟩, fun _ => rfl, ⟨rfl, rfl, rfl, rfl, rfl, rfl⟩⟩
  rw [hraw, ← msRaw_toNat]
  constructor <;> intro hr <;> rw [msNow, hr]
  · exact ratchet_unsigned_toNat _ _
  · exact ratchet_halfRange_toNat _ _

/-- Settles O43: the words are the halves of `usNow`, the ratchet of `usRaw` over LAST_US. -/
theorem nowusReturnsTheRatchetedTime : Obligations.NowusReturnsTheRatchetedTime := by
  intro s
  refine ⟨_, _, _, exec_nowus s, rfl, (toNat_halves _).symm, fun raw hraw => ?_, rfl, rfl, rfl,
    ⟨rfl, rfl, rfl, rfl, rfl, rfl⟩, ⟨rfl, rfl, rfl⟩, ⟨rfl, rfl, rfl⟩, ⟨rfl, rfl⟩, ⟨rfl, rfl, rfl, rfl⟩, fun _ => rfl,
    ⟨rfl, rfl, rfl, rfl, rfl, rfl⟩⟩
  rw [hraw, ← usRaw_toNat, lastUs_of_nowus (exec_nowus s)]
  constructor <;> intro hr <;> rw [usNow, hr]
  · exact ratchet_unsigned_toNat _ _
  · exact ratchet_halfRange_toNat _ _

/-! ### The clock never goes back (rule R239) -/

/-- From s to t the parameters are kept and no ratchet went back, in unsigned order. -/
structure NotBefore (s t : State) : Prop where
  cfg : t.cfg = s.cfg
  lastMs : s.lastMs.toNat ≤ t.lastMs.toNat
  lastUs : s.lastUs.toNat ≤ t.lastUs.toNat

theorem NotBefore.refl (s : State) : NotBefore s s := ⟨rfl, le_rfl, le_rfl⟩

theorem NotBefore.trans {s t u : State} (h : NotBefore s t) (h' : NotBefore t u) : NotBefore s u :=
  ⟨h'.cfg.trans h.cfg, h.lastMs.trans h'.lastMs, h.lastUs.trans h'.lastUs⟩

theorem lastMs_le_msNow {s : State} (hr : s.cfg.ratchet = .unsigned) : s.lastMs.toNat ≤ (msNow s).toNat := by
  rw [msNow, hr, ratchet_unsigned_toNat]
  exact le_max_right _ _

theorem lastUs_le_usNow {s : State} (hr : s.cfg.ratchet = .unsigned) : s.lastUs.toNat ≤ (usNow s).toNat := by
  rw [usNow, hr, ratchet_unsigned_toNat]
  exact le_max_right _ _

/-- Only NOWMS and NOWUS write the ratchets, and each writes the larger value (rule R239). -/
theorem notBefore_of_exec {s t : State} {i : Instr} (hr : s.cfg.ratchet = .unsigned) (hx : exec i s = .next t) :
    NotBefore s t := by
  have hw := writersOfExec hx
  refine ⟨hw.cfg, ?_, ?_⟩
  · by_cases he : t.lastMs = s.lastMs
    · rw [he]
    · obtain rfl := hw.lastMs he
      exact lastMs_of_nowms hx ▸ lastMs_le_msNow hr
  · by_cases he : t.lastUs = s.lastUs
    · rw [he]
    · obtain rfl := hw.lastUs he
      exact lastUs_of_nowus hx ▸ lastUs_le_usNow hr

/-- The step that issues command i runs it. -/
theorem exec_of_issues {s t : State} {i : Instr} (hi : Issues s i) (hx : step s = .next t) :
    ∃ more rest, exec i { s with agenda := more, port := rest } = .next t := by
  obtain ⟨⟨more, hag⟩, rest, hd⟩ := hi
  obtain ⟨-, ⟨hnil, -⟩ | ⟨a, more', hag', -, ha⟩⟩ := step_next hx
  · simp [hag] at hnil
  · obtain ⟨rfl, rfl⟩ := List.cons.inj (hag.symm.trans hag')
    simp only [act, issueCommand, hd] at ha
    exact ⟨more, rest, ha⟩

theorem notBefore_of_step {s t : State} (hr : s.cfg.ratchet = .unsigned) (hx : step s = .next t) : NotBefore s t := by
  obtain ⟨hcfg, hms, hus, -⟩ := clockAndTablesHaveTheirWriters s t hx
  have hissued {i : Instr} (hi : Issues s i) : NotBefore s t := by
    obtain ⟨more, rest, hx'⟩ := exec_of_issues hi hx
    obtain ⟨hcfg, hms, hus⟩ := notBefore_of_exec (s := { s with agenda := more, port := rest }) hr hx'
    exact ⟨hcfg, hms, hus⟩
  by_cases hm : t.lastMs = s.lastMs
  · by_cases hu : t.lastUs = s.lastUs
    · exact ⟨hcfg, hm ▸ le_rfl, hu ▸ le_rfl⟩
    · exact hissued (hus hu)
  · exact hissued (hms hm)

theorem notBefore_of_run {n : Nat} : ∀ {s t : State}, s.cfg.ratchet = .unsigned → core.run n s = .next t →
    NotBefore s t := by
  induction n with
  | zero =>
    intro s t _ hx
    cases hx
    exact .refl s
  | succ n ih =>
    intro s t hr hx
    simp only [Host.Core.run] at hx
    split at hx
    · rename_i u hu
      have hs : NotBefore s u := notBefore_of_step hr hu
      exact hs.trans (ih (hs.cfg ▸ hr) hx)
    · cases hx
    · cases hx

/-- A run from one reading's state to the state after the next. -/
theorem notBefore_between {s t u v : State} {n : Nat} {i j : Instr} (hr : s.cfg.ratchet = .unsigned)
    (ht : exec i s = .next t) (hu : core.run n t = .next u) (hv : exec j u = .next v) : NotBefore t v := by
  have hrt : t.cfg.ratchet = .unsigned := (writersOfExec ht).cfg ▸ hr
  have htu := notBefore_of_run hrt hu
  exact htu.trans (notBefore_of_exec (htu.cfg ▸ hrt) hv)

theorem answered_nowms {s t : State} {a : Word} (hx : exec .nowms s = .next t) (ha : Answered s t .ok [a]) :
    a = t.lastMs := by
  cases hx
  simpa [Answered, eq_comm] using ha

theorem answered_nowus {s t : State} {lo hi : Word} (hx : exec .nowus s = .next t) (ha : Answered s t .ok [lo, hi]) :
    lo.toNat + 2 ^ 32 * hi.toNat = t.lastUs.toNat := by
  cases hx
  obtain ⟨rfl, rfl⟩ : (usNow s).extractLsb' 0 32 = lo ∧ (usNow s).extractLsb' 32 32 = hi := by
    simpa [Answered] using ha
  exact toNat_halves _

/-- Settles O44: what a reading answers is its ratchet afterwards, and no run takes a ratchet back. -/
theorem clockIsMonotonic : Obligations.ClockIsMonotonic := by
  refine ⟨fun s t u v n a b hr ht ha hu hv hb => ?_, fun s t u v n a₀ a₁ b₀ b₁ hr ht ha hu hv hb => ?_,
    fun s t => ⟨fun hx => ⟨?_, ?_⟩, fun hx => ?_⟩⟩
  · rw [answered_nowms ht ha, answered_nowms hv hb]
    exact (notBefore_between hr ht hu hv).lastMs
  · rw [answered_nowus ht ha, answered_nowus hv hb]
    exact (notBefore_between hr ht hu hv).lastUs
  · cases hx
    rfl
  · rw [lastMs_of_nowms hx]
    exact behind_ratchet _ _ _
  · rw [lastUs_of_nowus hx]
    exact behind_ratchet _ _ _

/-! ### CLKINIT (rule R230) -/

/-- CLKINIT keeps a table's length whatever its COUNT, with no invariant to lean on. -/
theorem restartCounters_entries_length (T : CbTable) : (restartCounters T).entries.length = T.entries.length := by
  simp only [restartCounters, liveCbs, List.length_append, List.length_map, List.length_take, List.length_drop]
  omega

/-- Entry i of a table after CLKINIT, whether it is live or not. -/
theorem restartCounters_getElem? (T : CbTable) (i : Nat) :
    (restartCounters T).entries[i]? = T.entries[i]?.map fun e => if i < T.count then { e with ctr := 0 } else e := by
  by_cases hl : i < T.entries.length
  · simp only [restartCounters, liveCbs]
    by_cases hi : i < T.count
    · rw [List.getElem?_append_left (by simp [hi, hl])]
      simp [hi]
    · have hlen : (T.entries.take T.count).length = T.count := List.length_take_of_le (by omega)
      rw [List.getElem?_append_right (by simp only [List.length_map]; omega), List.length_map, hlen,
        List.getElem?_drop, Nat.add_sub_cancel' (Nat.le_of_not_lt hi)]
      simp [hi]
  · rw [List.getElem?_eq_none (by rw [restartCounters_entries_length]; omega), List.getElem?_eq_none (by omega)]
    rfl

theorem tableOf_of_clkinit {s t : State} {e : Word} (hx : exec (.clkinit e) s = .next t) (tb : Table) :
    tableOf t tb = restartCounters (tableOf s tb) := by
  cases hx
  cases tb <;> rfl

/-- Settles O41: either table is restarted, and the rest is as `execClkinit` writes it. -/
theorem clkinitRestartsTheClock : Obligations.ClkinitRestartsTheClock := by
  intro s e
  refine ⟨_, rfl, rfl, rfl, BitVec.toNat_ofNat .., rfl, rfl, fun tb => ?_, ⟨rfl, rfl, rfl, rfl, rfl, rfl⟩,
    ⟨rfl, rfl, rfl⟩, ⟨rfl, rfl, rfl⟩, ⟨rfl, rfl, rfl, rfl⟩, fun _ => rfl, ⟨rfl, rfl, rfl, rfl, rfl, rfl⟩⟩
  rw [tableOf_of_clkinit (s := s) (e := e) rfl tb]
  refine ⟨rfl, restartCounters_entries_length _, fun i x hx => ?_⟩
  rw [restartCounters_getElem?, hx, Option.map_some]

end Sys2Proof.Machine
end

section
namespace Sys2Proof.Machine

/-! ### A tick's dispatch (rules R236, R237, R252) -/

theorem mem_dueOf {s : State} {tb : Table} {x : DueEntry} : x ∈ dueOf tb (tableOf s tb) ↔ DueIn s tb x := by
  simp only [dueOf, mem_dueFrom, DueIn, entryDue, decide_eq_true_eq, Nat.zero_add]

/-- No triple is due twice: the indices below 256 differ in their 8 bits. -/
theorem nodup_dueFrom (tb : Table) (es : List CbEntry) : ∀ i, i + es.length ≤ 256 → (dueFrom tb i es).Nodup := by
  induction es with
  | nil => exact fun _ _ => .nil
  | cons e es ih =>
    intro i hi
    rw [List.length_cons] at hi
    have htail : (dueFrom tb (i + 1) es).Nodup := ih (i + 1) (by omega)
    unfold dueFrom
    split
    · refine List.nodup_cons.mpr ⟨fun hmem => ?_, htail⟩
      obtain ⟨k, e', hk, -, hx⟩ := mem_dueFrom.mp hmem
      obtain ⟨hk, -⟩ := List.getElem?_eq_some_iff.mp hk
      have hidx : i % 256 = (i + 1 + k) % 256 := by
        simpa using congrArg (fun x => x.index.toNat) hx
      omega
    · exact htail

theorem Inv.nodup_dueOf {s : State} (hi : Inv s) (tb : Table) : (dueOf tb (tableOf s tb)).Nodup := by
  have hcap := (hi.tableInOrder tb).count.trans (tableCap_le_255 hi.legal tb)
  have hlen := liveCbs_length _ (hi.tableCount_le tb)
  exact nodup_dueFrom tb _ 0 (by omega)

theorem entryTick_eq (e : CbEntry) :
    entryTick e = { e with ctr := if e.div.toNat ≤ e.ctr.toNat then 0 else e.ctr + 1 } := by
  simp only [entryTick, entryDue, decide_eq_true_eq]
  split <;> rfl

/-- All that a dispatch does: it moves the counters, and notifies one of the due triples where there is one. -/
theorem dispatch_spec (tb : Table) (s : State) :
    (dueOf tb (tableOf s tb) = [] ∧ dispatch tb s = setTable s tb (tableTick (tableOf s tb))) ∨
    ∃ x rest picks draws, (x :: rest).Perm (dueOf tb (tableOf s tb)) ∧
      dispatch tb s = { setTable s tb (tableTick (tableOf s tb)) with
        ntf := tickNtf x, tickDue := rest, picks := picks, draws := draws } := by
  unfold dispatch
  split
  · exact .inl ⟨List.isEmpty_iff.mp ‹_›, rfl⟩
  · rename_i hne
    obtain ⟨hnil, -⟩ | hsome := deliverDue_spec (dueOf tb (tableOf s tb)) (setTable s tb (tableTick (tableOf s tb)))
    · exact absurd (List.isEmpty_iff.mpr hnil) hne
    · exact .inr hsome

theorem tableOf_dispatch (tb : Table) (s : State) : tableOf (dispatch tb s) tb = tableTick (tableOf s tb) := by
  rw [tableOf_of_backdrop (backdrop_dispatch tb s), tableOf_setTable_same]

theorem tableOf_dispatch_other (s : State) {tb other : Table} (hne : other ≠ tb) :
    tableOf (dispatch tb s) other = tableOf s other := by
  rw [tableOf_of_backdrop (backdrop_dispatch tb s), tableOf_setTable_other s tb other _ hne]

theorem agenda_dispatch (tb : Table) (s : State) : (dispatch tb s).agenda = s.agenda := by
  obtain ⟨-, he⟩ | ⟨x, rest, picks, draws, -, he⟩ := dispatch_spec tb s <;> rw [he] <;> exact setTable_agenda s tb _

/-- Rule R252 in a state that meets the invariants: each due triple is notified or waits, once. -/
theorem Inv.dispatched {s : State} (hi : Inv s) (tb : Table) (hn : s.ntf = .none) : Dispatched s (dispatch tb s) tb := by
  refine ⟨by rw [tableOf_dispatch]; rfl, fun i e he => ?_, ?_⟩
  · rw [tableOf_dispatch, liveCbs_tableTick _ (hi.tableCount_le tb), List.getElem?_map, he, Option.map_some,
      entryTick_eq]
  · obtain ⟨hnil, he⟩ | ⟨x, rest, picks, draws, hperm, he⟩ := dispatch_spec tb s <;> rw [he]
    · refine .inl ⟨fun x hx => ?_, (setTable_ntf s tb _).trans hn, setTable_tickDue s tb _⟩
      rw [← mem_dueOf, hnil] at hx
      exact List.not_mem_nil hx
    · have hdue (y : DueEntry) : DueIn s tb y ↔ y = x ∨ y ∈ rest := by
        rw [← mem_dueOf, ← hperm.mem_iff, List.mem_cons]
      have hx : x ∉ rest := (List.nodup_cons.mp (hperm.nodup_iff.mpr (hi.nodup_dueOf tb))).1
      refine .inr ⟨x, (hdue x).mpr (.inl rfl), rfl, fun y => ?_⟩
      rw [hdue]
      constructor
      · exact fun hy => ⟨.inr hy, fun e => hx (e ▸ hy)⟩
      · exact fun ⟨hy, hne⟩ => hy.resolve_left hne

/-- FINE and COARSE_MS written, then a table dispatched. -/
def ticked (tb : Table) (fine coarseMs : BitVec 32) (more : List Action) (s : State) : State :=
  dispatch tb { s with agenda := more, fine := fine, coarseMs := coarseMs }

theorem step_fineTick {s : State} (more : List Action) (hf : s.fault = none) (hn : s.ntf = .none) :
    step (offer .fineTick more s) = .next (ticked .fast (s.fine + 1) s.coarseMs more s) :=
  step_offer more hf hn

theorem step_coarseTick {s : State} (more : List Action) (hf : s.fault = none) (hn : s.ntf = .none)
    (hc : s.cfg.hasCoarse = true) :
    step (offer .coarseTick more s) = .next (ticked .slow 0 (s.coarseMs + 1000) more s) :=
  step_offer more hf ⟨hc, hn⟩

theorem ticked_clock (tb : Table) (fine coarseMs : BitVec 32) (more : List Action) (s : State) :
    (ticked tb fine coarseMs more s).fine = fine ∧ (ticked tb fine coarseMs more s).coarseMs = coarseMs := by
  obtain ⟨-, hfine, hcoarse, -⟩ :=
    (sameButTable_dispatch tb { s with agenda := more, fine := fine, coarseMs := coarseMs }).same
  exact ⟨hfine, hcoarse⟩

theorem tableOf_ticked_other (s : State) {tb other : Table} (hne : other ≠ tb) (fine coarseMs : BitVec 32)
    (more : List Action) : tableOf (ticked tb fine coarseMs more s) other = tableOf s other := by
  rw [ticked, tableOf_dispatch_other _ hne]
  cases other <;> rfl

theorem sameBesidesTick_ticked (tb : Table) (fine coarseMs : BitVec 32) (more : List Action) (s : State) :
    SameBesidesTick s (ticked tb fine coarseMs more s) := by
  unfold ticked
  obtain ⟨-, he⟩ | ⟨x, rest, picks, draws, -, he⟩ :=
    dispatch_spec tb { s with agenda := more, fine := fine, coarseMs := coarseMs } <;> rw [he] <;> cases tb <;>
    exact ⟨⟨rfl, rfl, rfl, rfl, rfl, rfl⟩, ⟨rfl, rfl, rfl⟩, ⟨rfl, rfl, rfl⟩, rfl, rfl, rfl, rfl, fun _ => rfl,
      rfl, rfl, rfl, rfl⟩

theorem Inv.dispatched_ticked {s : State} (hi : Inv s) (hn : s.ntf = .none) (tb : Table) (fine coarseMs : BitVec 32)
    (more : List Action) : Dispatched s (ticked tb fine coarseMs more s) tb := by
  have hi' : Inv { s with agenda := more, fine := fine, coarseMs := coarseMs } := hi.keep_outside ..
  have hd := hi'.dispatched tb hn
  cases tb <;> exact hd

/-- Settles O46: FINE + 1 is written, then the fast table is dispatched. -/
theorem fineTickDispatchesFast : Obligations.FineTickDispatchesFast := by
  intro s more hi hf hn
  obtain ⟨hfine, hcoarse⟩ := ticked_clock .fast (s.fine + 1) s.coarseMs more s
  refine ⟨_, step_fineTick more hf hn, ?_, hcoarse, hi.dispatched_ticked hn .fast _ _ _,
    tableOf_ticked_other (tb := .fast) (other := .slow) s nofun _ _ _, sameBesidesTick_ticked .fast _ _ _ s,
    agenda_dispatch .fast _⟩
  rw [hfine]
  exact BitVec.toNat_add ..

/-- Settles O47: FINE = 0 and COARSE_MS + 1000 are written, then the slow table is dispatched. -/
theorem coarseTickDispatchesSlow : Obligations.CoarseTickDispatchesSlow := by
  intro s more hi hf hn hc
  obtain ⟨hfine, hcoarse⟩ := ticked_clock .slow 0 (s.coarseMs + 1000) more s
  refine ⟨_, step_coarseTick more hf hn hc, hfine, ?_, hi.dispatched_ticked hn .slow _ _ _,
    tableOf_ticked_other (tb := .slow) (other := .fast) s nofun _ _ _, sameBesidesTick_ticked .slow _ _ _ s,
    agenda_dispatch .slow _⟩
  rw [hcoarse]
  exact BitVec.toNat_add ..

end Sys2Proof.Machine
end

section
namespace Sys2Proof.Machine

/-! ### CBREG and CBUNREG (rules R250, R251) -/

theorem exec_cbreg_illegal (s : State) (tb : Table) (v : BitVec 16) : exec (.cbreg tb v 0) s = respondIllegal s := by
  rw [exec, execCbreg, if_pos rfl]

theorem exec_cbunreg_illegal (s : State) (tb : Table) : exec (.cbunreg tb 0) s = respondIllegal s := by
  rw [exec, execCbunreg, if_pos rfl]

theorem exec_cbreg_faults {s : State} {cb : BitVec 16} (hcb : cb ≠ 0) (hn : inTickHandler s = true) (tb : Table)
    (v : BitVec 16) : exec (.cbreg tb v cb) s = .next { s with fault := some .tableInDispatch } := by
  rw [exec, execCbreg, if_neg hcb, if_pos hn, raiseFault]

theorem exec_cbunreg_faults {s : State} {cb : BitVec 16} (hcb : cb ≠ 0) (hn : inTickHandler s = true) (tb : Table) :
    exec (.cbunreg tb cb) s = .next { s with fault := some .tableInDispatch } := by
  rw [exec, execCbunreg, if_neg hcb, if_pos hn, raiseFault]

theorem exec_cbreg_full {s : State} {tb : Table} {cb : BitVec 16} (hcb : cb ≠ 0) (hn : inTickHandler s = false)
    (hfull : (tableOf s tb).count = tableCap s.cfg tb) (v : BitVec 16) :
    exec (.cbreg tb v cb) s = .next (deliver (contextOf s) .full [] s) := by
  rw [exec, execCbreg, if_neg hcb, if_neg (Bool.eq_false_iff.mp hn), if_pos hfull, respond]

/-- The state after a callback table was written, and the command answered OK. -/
def afterTableWrite (s : State) (tb : Table) (T : CbTable) (data : List Word) : State :=
  deliver (contextOf s) .ok data (setTable s tb T)

theorem exec_cbreg_appends {s : State} {tb : Table} {cb : BitVec 16} (hcb : cb ≠ 0) (hn : inTickHandler s = false)
    (hroom : (tableOf s tb).count < tableCap s.cfg tb) (v : BitVec 16) :
    exec (.cbreg tb v cb) s =
      .next (afterTableWrite s tb (tableAppend (tableOf s tb) cb v) [BitVec.ofNat 32 (tableOf s tb).count]) := by
  rw [exec, execCbreg, if_neg hcb, if_neg (Bool.eq_false_iff.mp hn), if_neg hroom.ne, respond, afterTableWrite]

theorem exec_cbunreg_keeps {s : State} {tb : Table} {cb : BitVec 16} (hcb : cb ≠ 0) (hn : inTickHandler s = false)
    (hf : findCb (tableOf s tb) cb = none) : exec (.cbunreg tb cb) s = .next (deliver (contextOf s) .ok [] s) := by
  rw [exec, execCbunreg, if_neg hcb, if_neg (Bool.eq_false_iff.mp hn), hf]
  rfl

theorem exec_cbunreg_removes {s : State} {tb : Table} {cb : BitVec 16} (hcb : cb ≠ 0) (hn : inTickHandler s = false)
    {k : Nat} (hf : findCb (tableOf s tb) cb = some k) :
    exec (.cbunreg tb cb) s = .next (afterTableWrite s tb (tableRemove (tableOf s tb) k) []) := by
  rw [exec, execCbunreg, if_neg hcb, if_neg (Bool.eq_false_iff.mp hn), hf]
  rfl

theorem answered_afterTableWrite (s : State) (tb : Table) (T : CbTable) (data : List Word) :
    Answered s (afterTableWrite s tb T data) .ok data := by
  simp [Answered, afterTableWrite]

theorem tableOf_afterTableWrite_same (s : State) (tb : Table) (T : CbTable) (data : List Word) :
    tableOf (afterTableWrite s tb T data) tb = T :=
  (tableOf_of_backdrop (backdrop_deliver ..) tb).trans (tableOf_setTable_same s tb T)

theorem tableOf_afterTableWrite_other (s : State) (tb : Table) (T : CbTable) (data : List Word) (other : Table)
    (hne : other ≠ tb) : tableOf (afterTableWrite s tb T data) other = tableOf s other :=
  (tableOf_of_backdrop (backdrop_deliver ..) other).trans (tableOf_setTable_other s tb other T hne)

theorem sameButTables_afterTableWrite (s : State) (tb : Table) (T : CbTable) (data : List Word) :
    SameButTables s (afterTableWrite s tb T data) := by
  cases tb <;> exact ⟨⟨rfl, rfl, rfl, rfl, rfl, rfl⟩, ⟨rfl, rfl, rfl⟩, ⟨rfl, rfl, rfl⟩, ⟨rfl, rfl, rfl, rfl⟩,
    ⟨rfl, rfl, rfl, rfl⟩, fun _ => rfl, ⟨rfl, rfl, rfl, rfl, rfl, rfl⟩⟩

/-- Settles O48: the table is written once, by `tableAppend`, and the word answered is the old COUNT. -/
theorem cbregAppendsAnEntry : Obligations.CbregAppendsAnEntry := by
  intro s tb v cb hcb hn hroom hlen hcap
  have hid : (BitVec.ofNat 32 (tableOf s tb).count).toNat = (tableOf s tb).count :=
    BitVec.toNat_ofNat .. |>.trans (Nat.mod_eq_of_lt (by omega))
  refine ⟨_, _, exec_cbreg_appends hcb hn hroom v, answered_afterTableWrite .., hid, ?_, ?_,
    tableOf_afterTableWrite_other _ _ _ _, sameButTables_afterTableWrite ..⟩ <;> rw [tableOf_afterTableWrite_same]
  · rfl
  · exact liveCbs_tableAppend _ cb v (hlen ▸ hroom)

theorem findCb_eq_none {T : CbTable} {cb : BitVec 16} (h : ∀ e ∈ liveCbs T, e.cb ≠ cb) : findCb T cb = none :=
  List.findIdx?_eq_none_iff.mpr fun e he => beq_false_of_ne (h e he)

/-- CBUNREG finds the first entry with the identifier (rule R251). -/
theorem findCb_eq_length {T : CbTable} {cb : BitVec 16} {before after : List CbEntry} {e : CbEntry}
    (hl : liveCbs T = before ++ e :: after) (he : e.cb = cb) (hb : ∀ x ∈ before, x.cb ≠ cb) :
    findCb T cb = some before.length := by
  have hnone : before.findIdx? (fun e => e.cb == cb) = none :=
    List.findIdx?_eq_none_iff.mpr fun x hx => beq_false_of_ne (hb x hx)
  simp [findCb, hl, List.findIdx?_append, hnone, List.findIdx?_cons, he]

/-- Settles O49: the lowest match is at the index `before.length`, and `tableRemove` takes it out. -/
theorem cbunregRemovesTheLowestMatch : Obligations.CbunregRemovesTheLowestMatch := by
  intro s tb cb hcb hn hle
  refine ⟨fun hno => ⟨_, exec_cbunreg_keeps hcb hn (findCb_eq_none hno), rfl, sameButResponses_deliver s _ _ _⟩,
    fun before after e hl he hb => ?_⟩
  have hf := findCb_eq_length hl he hb
  have hk := lt_count_of_findCb hle hf
  refine ⟨_, exec_cbunreg_removes hcb hn hf, answered_afterTableWrite .., ?_, ?_, ?_,
    tableOf_afterTableWrite_other _ _ _ _, sameButTables_afterTableWrite ..⟩ <;> rw [tableOf_afterTableWrite_same]
  · rw [liveCbs_tableRemove _ _ hle hk, hl]
    simp
  · rfl
  · exact tableRemove_length _ _ hle hk

/-- Settles O50: the checks of either command in their order. -/
theorem schedulerCommandsRefuseInOrder : Obligations.SchedulerCommandsRefuseInOrder := by
  intro s tb v cb
  refine ⟨?_, fun hcb hn => ⟨exec_cbreg_faults hcb hn tb v, exec_cbunreg_faults hcb hn tb⟩,
    fun hcb hn hfull => ⟨_, exec_cbreg_full hcb hn hfull v, rfl, sameButResponses_deliver s _ _ _⟩⟩
  rintro rfl
  exact ⟨onlyIllegal_of_respondIllegal (exec_cbreg_illegal s tb v),
    onlyIllegal_of_respondIllegal (exec_cbunreg_illegal s tb)⟩

end Sys2Proof.Machine
end

section
namespace Sys2Proof.Machine

/-! ### RETURN from a tick handler (rules R254, R281) -/

theorem exec_ret_background {s : State} (hn : s.ntf = .none) : exec .ret s = respondIllegal s := by
  rw [exec, execRet, hn]

theorem exec_ret_tick {s : State} {tb : Table} {index : BitVec 8} {cb : BitVec 16} {arg : BitVec 8}
    (hn : s.ntf = .tick tb index cb arg) : exec .ret s = .next (deliver (contextOf s) .ok [] (tickReturn s)) := by
  rw [exec, execRet, contextOf, hn]
  rfl

/-- TickReturn() writes NTF and TICK_DUE, and draws (rule R254). -/
theorem tickReturn_eq (s : State) : ∃ ntf due picks draws,
    tickReturn s = { s with ntf := ntf, tickDue := due, picks := picks, draws := draws } ∧
    (s.tickDue = [] → ntf = .none ∧ due = []) ∧
    (s.tickDue ≠ [] → ∃ x, (x :: due).Perm s.tickDue ∧ ntf = tickNtf x) := by
  obtain ⟨hnil, he⟩ | ⟨x, rest, picks, draws, hperm, he⟩ := deliverDue_spec s.tickDue s
  · exact ⟨.none, [], s.picks, s.draws, he, fun _ => ⟨rfl, rfl⟩, absurd hnil⟩
  · exact ⟨tickNtf x, rest, picks, draws, he, fun hnil => by simp [hnil] at hperm, fun _ => ⟨x, hperm, rfl⟩⟩

/-- Settles O51: RETURN with no notification is refused, and from a TICK runs TickReturn(). -/
theorem returnFromTickDeliversTheRest : Obligations.ReturnFromTickDeliversTheRest := by
  refine ⟨fun s hn => onlyIllegal_of_respondIllegal (exec_ret_background hn), fun s tb index cb arg hn => ?_⟩
  obtain ⟨ntf, due, picks, draws, he, hend, hnext⟩ := tickReturn_eq s
  refine ⟨_, exec_ret_tick hn, ?_⟩
  rw [he]
  exact ⟨rfl, hend, hnext, ⟨rfl, rfl, rfl, rfl, rfl, rfl⟩, ⟨rfl, rfl, rfl⟩, ⟨rfl, rfl, rfl⟩, ⟨rfl, rfl, rfl, rfl⟩,
    ⟨rfl, rfl⟩, fun _ => rfl, rfl, rfl, rfl, rfl, rfl, rfl⟩

end Sys2Proof.Machine
end

section
namespace Sys2Proof.Machine

/-! ### Dividers (rule R255) -/

/-- A counter modulo DIV + 1 fits CTR. -/
theorem toNat_ofNat_mod_div (d : BitVec 16) (k : Nat) :
    (BitVec.ofNat 16 (k % (d.toNat + 1))).toNat = k % (d.toNat + 1) := by
  have hlt : k % (d.toNat + 1) < d.toNat + 1 := Nat.mod_lt _ (Nat.succ_pos _)
  rw [BitVec.toNat_ofNat]
  exact Nat.mod_eq_of_lt (hlt.trans_le d.isLt)

/-- A counter of k modulo d + 1 is at d just before a multiple of d + 1. -/
theorem le_mod_iff_dvd_succ (d k : Nat) : d ≤ k % (d + 1) ↔ d + 1 ∣ k + 1 := by
  rw [Nat.dvd_iff_mod_eq_zero, Nat.succ_mod_succ_eq_zero_iff]
  exact ⟨fun h => le_antisymm (Nat.le_of_lt_succ (Nat.mod_lt _ (Nat.succ_pos _))) h, fun h => h.ge⟩

/-- A counter of k modulo d + 1 is one of k + 1 after a tick. -/
theorem entryTick_ofNat_mod (cb d : BitVec 16) (k : Nat) :
    entryTick ⟨cb, BitVec.ofNat 16 (k % (d.toNat + 1)), d⟩ = ⟨cb, BitVec.ofNat 16 ((k + 1) % (d.toNat + 1)), d⟩ := by
  rw [entryTick_eq]
  simp only [toNat_ofNat_mod_div, CbEntry.mk.injEq, true_and, and_true]
  split
  · rename_i hd
    rw [Nat.mod_eq_zero_of_dvd ((le_mod_iff_dvd_succ _ _).mp hd)]
    rfl
  · rename_i hd
    have hs : (k + 1) % (d.toNat + 1) = k % (d.toNat + 1) + 1 := by
      rw [← Nat.mod_add_mod]
      exact Nat.mod_eq_of_lt (Nat.succ_lt_succ (Nat.lt_of_not_le hd))
    rw [hs, BitVec.ofNat_add]
    rfl

/-- An entry that starts at 0 counts the ticks modulo DIV + 1. -/
theorem iterate_entryTick {e : CbEntry} (h0 : e.ctr = 0) (k : Nat) :
    entryTick^[k] e = { e with ctr := BitVec.ofNat 16 (k % (e.div.toNat + 1)) } := by
  induction k with
  | zero =>
    cases e
    cases h0
    rw [Function.iterate_zero_apply, Nat.zero_mod]
    rfl
  | succ k ih => rw [Function.iterate_succ_apply', ih, entryTick_ofNat_mod]

/-- The entry is due on tick k + 1 where d + 1 divides k + 1 (rule R255). -/
theorem entryDue_iterate_iff {e : CbEntry} (h0 : e.ctr = 0) (k : Nat) :
    entryDue (entryTick^[k] e) = true ↔ e.div.toNat + 1 ∣ k + 1 := by
  rw [iterate_entryTick h0, entryDue, decide_eq_true_eq, toNat_ofNat_mod_div, le_mod_iff_dvd_succ]

theorem tableOf_tickOf (tb : Table) (s : State) : tableOf (tickOf tb s) tb = tableTick (tableOf s tb) := by
  cases tb <;> exact tableOf_dispatch _ _

theorem tableOf_ticksOf (tb : Table) (s : State) (k : Nat) :
    tableOf (ticksOf tb k s) tb = tableTick^[k] (tableOf s tb) := by
  induction k with
  | zero => rfl
  | succ k ih =>
    rw [Function.iterate_succ_apply', ← ih, ← tableOf_tickOf]
    exact tableOf_of_backdrop rfl tb

/-- k ticks move every live counter k times. -/
theorem iterate_tableTick {T : CbTable} (hle : T.count ≤ T.entries.length) (k : Nat) :
    (tableTick^[k] T).count ≤ (tableTick^[k] T).entries.length ∧
      liveCbs (tableTick^[k] T) = (liveCbs T).map entryTick^[k] := by
  induction k with
  | zero => exact ⟨hle, (List.map_id _).symm⟩
  | succ k ih =>
    obtain ⟨hk, hlive⟩ := ih
    rw [Function.iterate_succ_apply', Function.iterate_succ', ← List.map_map, ← hlive]
    exact ⟨(tableTick_length _ hk).symm ▸ hk, liveCbs_tableTick _ hk⟩

/-- No notification is pending before the first tick, nor between two. -/
theorem ticksOf_idle (tb : Table) {s : State} (hn : s.ntf = .none) (hd : s.tickDue = []) (k : Nat) :
    (ticksOf tb k s).ntf = .none ∧ (ticksOf tb k s).tickDue = [] := by
  cases k with
  | zero => exact ⟨hn, hd⟩
  | succ k => exact ⟨rfl, rfl⟩

/-- A dispatch with no notification pending fires the due triples and no others (rule R252). -/
theorem fires_dispatch_iff (tb : Table) {s : State} (hn : s.ntf = .none) (hd : s.tickDue = []) (x : DueEntry) :
    Fires (dispatch tb s) x ↔ x ∈ dueOf tb (tableOf s tb) := by
  obtain ⟨hnil, he⟩ | ⟨y, rest, picks, draws, hperm, he⟩ := dispatch_spec tb s <;> rw [he]
  · simp [Fires, hnil, hn, hd]
  · have hntf : tickNtf y = .tick x.table x.index x.callback 0 ↔ x = y := by
      cases x
      cases y
      simp [tickNtf, eq_comm]
    rw [← hperm.mem_iff, List.mem_cons, ← hntf]
    rfl

theorem fires_tickOf_iff (tb : Table) {s : State} (hn : s.ntf = .none) (hd : s.tickDue = []) (x : DueEntry) :
    Fires (tickOf tb s) x ↔ x ∈ dueOf tb (tableOf s tb) := by
  cases tb
  · exact fires_dispatch_iff .fast (s := { s with fine := s.fine + 1 }) hn hd x
  · exact fires_dispatch_iff .slow (s := { s with fine := 0, coarseMs := s.coarseMs + 1000 }) hn hd x

/-- The triple of live entry i is due where the entry is: the indices below 256 differ in their 8 bits. -/
theorem mem_dueOf_iff {tb : Table} {T : CbTable} {i : Nat} {e : CbEntry} (hlen : (liveCbs T).length ≤ 256)
    (he : (liveCbs T)[i]? = some e) : ⟨tb, BitVec.ofNat 8 i, e.cb⟩ ∈ dueOf tb T ↔ entryDue e = true := by
  rw [dueOf, mem_dueFrom]
  constructor
  · rintro ⟨j, e', hj, hdue, hx⟩
    obtain ⟨hjlt, -⟩ := List.getElem?_eq_some_iff.mp hj
    obtain ⟨hilt, -⟩ := List.getElem?_eq_some_iff.mp he
    have hidx : i % 256 = j % 256 := by simpa using congrArg (fun x => x.index.toNat) hx
    obtain rfl : i = j := by omega
    obtain rfl : e = e' := Option.some.inj (he.symm.trans hj)
    exact hdue
  · exact fun hdue => ⟨i, e, he, hdue, by rw [Nat.zero_add]⟩

/-- Settles O52: after k ticks entry i is `entryTick` applied k times, and it fires where that entry is due. -/
theorem callbacksDivideDown : Obligations.CallbacksDivideDown := by
  intro s tb i e k hin hlen hcap hn hd he h0
  have hle : (tableOf s tb).count ≤ (tableOf s tb).entries.length := hlen ▸ hin.count
  have hlive : liveCbs (tableOf (ticksOf tb k s) tb) = (liveCbs (tableOf s tb)).map entryTick^[k] := by
    rw [tableOf_ticksOf]
    exact (iterate_tableTick hle k).2
  have hentry : (liveCbs (tableOf (ticksOf tb k s) tb))[i]? = some (entryTick^[k] e) := by
    rw [hlive, List.getElem?_map, he, Option.map_some]
  have hcb : (entryTick^[k] e).cb = e.cb := by rw [iterate_entryTick h0]
  have hshort : (liveCbs (tableOf (ticksOf tb k s) tb)).length ≤ 256 := by
    rw [hlive, List.length_map, liveCbs_length _ hle]
    exact (hin.count.trans hcap).trans (by decide)
  obtain ⟨hntf, hdue⟩ := ticksOf_idle tb hn hd k
  constructor
  · rw [hentry, iterate_entryTick h0]
  · rw [fires_tickOf_iff tb hntf hdue, ← hcb, mem_dueOf_iff hshort hentry, entryDue_iterate_iff h0]

end Sys2Proof.Machine
end

section
namespace Sys2Proof.Machine

/-! ### LaterThan (rule R270) -/

/-- The circular distance that LaterThan compares, in plain arithmetic. -/
theorem sub_toNat_circular (a b : BitVec 32) : (a - b).toNat = (a.toNat + 2 ^ 32 - b.toNat) % 2 ^ 32 := by
  bv_omega

theorem laterThan_iff (b a : BitVec 32) : laterThan b a = true ↔ 2 ^ 31 < (a - b).toNat := decide_eq_true_iff

theorem laterThan_eq_false_iff (b a : BitVec 32) : laterThan b a = false ↔ (a - b).toNat ≤ 2 ^ 31 := by
  rw [laterThan, decide_eq_false_iff_not, Nat.not_lt]

/-- The two distances between different values add up to the whole circle. -/
theorem sub_toNat_add_sub_toNat {a b : BitVec 32} (h : a ≠ b) : (a - b).toNat + (b - a).toNat = 2 ^ 32 := by
  bv_omega

/-- Settles O57: the two distances between different values add up to 2^32, so both are 2^31 or exactly one is more. -/
theorem laterThanIsCircular : Obligations.LaterThanIsCircular := by
  intro a b
  refine ⟨?_, ?_, fun hhalf => ?_, fun hne hhalf => ?_⟩
  · rw [laterThan_iff, sub_toNat_circular]
  · simp [laterThan_eq_false_iff]
  · have hne : a ≠ b := by
      rintro rfl
      simp at hhalf
    have hsum := sub_toNat_add_sub_toNat hne
    rw [laterThan_eq_false_iff, laterThan_eq_false_iff]
    omega
  · have hsum := sub_toNat_add_sub_toNat hne
    rw [laterThan_iff, laterThan_eq_false_iff]
    omega

/-! ### The catch-up (rules R271, R272) -/

/-- With a candidate found, more candidates change nothing. -/
theorem catchUpWithin_mono {n m : Nat} {period now next b : BitVec 32} (h : catchUpWithin n period now next = some b)
    (hle : n ≤ m) : catchUpWithin m period now next = some b := by
  induction n generalizing m next with
  | zero => cases h
  | succ n ih =>
    obtain ⟨m, rfl⟩ := Nat.exists_eq_add_of_lt hle
    rw [catchUpWithin] at h ⊢
    split at h
    · rename_i hl
      rw [if_pos hl, h]
    · rename_i hl
      rw [if_neg hl]
      exact ih h (Nat.le_add_right n m)

/-- An iteration brings next nearer to now by the period, or beyond it (rule R272). -/
theorem sub_toNat_step {period now next : BitVec 32} (hl : laterThan next now = false) (hlt : period.toNat < 2 ^ 31) :
    (period.toNat ≤ (now - next).toNat → (now - (next + period)).toNat = (now - next).toNat - period.toNat) ∧
    ((now - next).toNat < period.toNat → laterThan (next + period) now = true) := by
  rw [laterThan_eq_false_iff] at hl
  rw [laterThan_iff, ← BitVec.sub_sub, sub_toNat_circular (now - next)]
  omega

/-- Rule R272: m whole periods from next to now take at most m + 2 candidates. -/
theorem catchUpWithin_ends {m : Nat} {period now next : BitVec 32} (hpos : 1 ≤ period.toNat)
    (hlt : period.toNat < 2 ^ 31) (hm : (now - next).toNat / period.toNat = m) :
    ∃ b, catchUpWithin (m + 2) period now next = some b := by
  induction m generalizing next with
  | zero =>
    by_cases hl : laterThan next now = true
    · exact ⟨next, by rw [catchUpWithin, if_pos hl]⟩
    · have hshort := (Nat.div_eq_zero_iff_lt hpos).mp hm
      have hl' := (sub_toNat_step (Bool.eq_false_iff.mpr hl) hlt).2 hshort
      exact ⟨next + period, by rw [catchUpWithin, if_neg hl, catchUpWithin, if_pos hl']⟩
  | succ m ih =>
    by_cases hl : laterThan next now = true
    · exact ⟨next, by rw [catchUpWithin, if_pos hl]⟩
    · have hfar : period.toNat ≤ (now - next).toNat := by
        by_contra hshort
        rw [Nat.div_eq_of_lt (Nat.lt_of_not_le hshort)] at hm
        cases hm
      have hstep : (now - (next + period)).toNat / period.toNat = m := by
        rw [(sub_toNat_step (Bool.eq_false_iff.mpr hl) hlt).1 hfar]
        exact Nat.succ.inj ((Nat.div_eq_sub_div hpos hfar).symm.trans hm)
      obtain ⟨b, hb⟩ := ih hstep
      exact ⟨b, by rw [catchUpWithin, if_neg hl, hb]⟩

/-- The catch-up ends within the bound of rule R272 on the first candidate that is later than now. -/
theorem catchUp_first {period : BitVec 32} (hpos : 1 ≤ period.toNat) (hlt : period.toNat < 2 ^ 31)
    (now next : BitVec 32) :
    ∃ k, k ≤ (now - next).toNat / period.toNat + 1 ∧
      catchUp period now next = some (next + BitVec.ofNat 32 k * period) ∧
      laterThan (next + BitVec.ofNat 32 k * period) now = true ∧
      ∀ j, j < k → laterThan (next + BitVec.ofNat 32 j * period) now = false := by
  by_cases hl : laterThan next now = true
  · exact ⟨0, Nat.zero_le _, by simp [catchUp, catchUpWithin, hl], by simpa using hl, nofun⟩
  · obtain ⟨b, hb⟩ := catchUpWithin_ends hpos hlt (now := now) (next := next) rfl
    obtain ⟨k, hk, rfl, hlater, hfirst⟩ := catchUpWithin_eq_some hb
    have hdist : (now - next).toNat ≤ 2 ^ 31 := (laterThan_eq_false_iff _ _).mp (Bool.eq_false_iff.mpr hl)
    have hdiv := Nat.div_le_self (now - next).toNat period.toNat
    exact ⟨k, Nat.le_of_lt_succ hk, catchUpWithin_mono hb (by omega), hlater, hfirst⟩

/-- Settles O58, by induction on the whole periods from next to now. -/
theorem catchUpTerminates : Obligations.CatchUpTerminates := by
  intro period now next hpos hlt
  obtain ⟨k, hk, hb, hlater, -⟩ := catchUp_first hpos hlt now next
  exact ⟨k, hk, hb, hlater⟩

end Sys2Proof.Machine
end

section
namespace Sys2Proof.Machine

/-! ### WaitPeriod over its NOWMS values (rules R271, R275) -/

theorem waitOver_cons (w : Wait) (now : BitVec 32) (nows : List (BitVec 32)) :
    waitOver w (now :: nows) = waitOver (waitAdvance w now) nows := rfl

theorem waitOver_append (w : Wait) (l m : List (BitVec 32)) : waitOver w (l ++ m) = waitOver (waitOver w l) m :=
  List.foldl_append

/-- A call that has returned is over. -/
theorem waitOver_returned (period cursor now : BitVec 32) (nows : List (BitVec 32)) :
    waitOver ⟨period, cursor, .returned now⟩ nows = ⟨period, cursor, .returned now⟩ :=
  List.foldl_fixed' (fun _ => rfl) nows

theorem waitAdvance_polling_later {b now : BitVec 32} (period cursor : BitVec 32) (h : laterThan b now = true) :
    waitAdvance ⟨period, cursor, .polling b⟩ now = ⟨period, cursor, .polling b⟩ := if_pos h

theorem waitAdvance_polling_reached {b now : BitVec 32} (period cursor : BitVec 32) (h : laterThan b now = false) :
    waitAdvance ⟨period, cursor, .polling b⟩ now = ⟨period, b, .returned now⟩ := if_neg (Bool.eq_false_iff.mp h)

theorem waitOver_polling_later {b : BitVec 32} (period cursor : BitVec 32) {polls : List (BitVec 32)}
    (h : ∀ p ∈ polls, laterThan b p = true) :
    waitOver ⟨period, cursor, .polling b⟩ polls = ⟨period, cursor, .polling b⟩ := by
  induction polls with
  | nil => rfl
  | cons p polls ih =>
    obtain ⟨hp, hpolls⟩ := List.forall_mem_cons.mp h
    rw [waitOver_cons, waitAdvance_polling_later _ _ hp, ih hpolls]

theorem waitOver_polling_reached {b now : BitVec 32} (period cursor : BitVec 32) {before : List (BitVec 32)}
    (after : List (BitVec 32)) (hbefore : ∀ p ∈ before, laterThan b p = true) (hnow : laterThan b now = false) :
    waitOver ⟨period, cursor, .polling b⟩ (before ++ now :: after) = ⟨period, b, .returned now⟩ := by
  rw [waitOver_append, waitOver_polling_later _ _ hbefore, waitOver_cons, waitAdvance_polling_reached _ _ hnow,
    waitOver_returned]

/-- A call that polled for b and has returned stands at b, which is not later than the time returned. -/
theorem waitOver_polling_end {period cursor b now : BitVec 32} {polls : List (BitVec 32)}
    (h : (waitOver ⟨period, cursor, .polling b⟩ polls).phase = .returned now) :
    (waitOver ⟨period, cursor, .polling b⟩ polls).cursor = b ∧ laterThan b now = false := by
  induction polls with
  | nil => cases h
  | cons p polls ih =>
    rw [waitOver_cons] at h ⊢
    cases hp : laterThan b p with
    | true =>
      rw [waitAdvance_polling_later _ _ hp] at h ⊢
      exact ih h
    | false =>
      rw [waitAdvance_polling_reached _ _ hp, waitOver_returned] at h ⊢
      cases h
      exact ⟨rfl, hp⟩

theorem waitAdvance_entry_zero (cursor now : BitVec 32) :
    waitAdvance ⟨0, cursor, .entry⟩ now = ⟨0, cursor, .returned now⟩ := rfl

/-- From its entry the call polls for the boundary that the catch-up found. -/
theorem waitAdvance_entry_polling {period cursor now b : BitVec 32} (hpos : 1 ≤ period.toNat)
    (hb : catchUp period now (startCursor cursor now + period) = some b) :
    waitAdvance ⟨period, cursor, .entry⟩ now = ⟨period, startCursor cursor now, .polling b⟩ := by
  have hne : period ≠ 0 := by
    rintro rfl
    cases hpos
  simp only [waitAdvance, waitEntry, if_neg hne, hb]

/-- The candidates are the boundaries of the schedule from the first one on. -/
theorem boundary_succ (c period : BitVec 32) (i : Nat) :
    c + period + BitVec.ofNat 32 i * period = c + BitVec.ofNat 32 (i + 1) * period := by
  rw [BitVec.add_assoc, BitVec.ofNat_add, BitVec.add_mul, BitVec.add_comm (BitVec.ofNat 32 i * period)]
  simp

/-- Settles O59: b is the catch-up's boundary, and the call polls for it from its first NOWMS on. -/
theorem waitReturnsAtItsBoundary : Obligations.WaitReturnsAtItsBoundary := by
  refine ⟨fun cursor first polls => ?_, fun period cursor first hpos hlt => ?_⟩
  · rw [waitOver_cons, waitAdvance_entry_zero, waitOver_returned]
  · obtain ⟨k, hk, hb, hlater, hfirst⟩ := catchUp_first hpos hlt first (startCursor cursor first + period)
    simp only [waitOver_cons, waitAdvance_entry_polling hpos hb]
    refine ⟨k + 1, _, Nat.succ_pos k, Nat.succ_le_succ hk, boundary_succ _ _ k, hlater, fun j hj hjk => ?_,
      fun polls => waitOver_polling_later _ _, fun before now after => waitOver_polling_reached _ _ after,
      fun polls now => waitOver_polling_end⟩
    obtain ⟨i, rfl⟩ := Nat.exists_eq_succ_of_ne_zero (Nat.ne_of_gt hj)
    rw [← boundary_succ]
    exact hfirst i (Nat.lt_of_succ_lt_succ hjk)

end Sys2Proof.Machine
end

section
namespace Sys2Proof.Machine

/-! ### The call and the block together (rule R274) -/

theorem inCall_eq_true_iff (w : Wait) : inCall w = true ↔ ∀ now, w.phase ≠ .returned now := by
  cases hw : w.phase <;> simp [inCall, hw]

theorem pollsNext_eq_true_iff (w : Wait) : pollsNext w = true ↔ w.phase = .entry ∨ ∃ next, w.phase = .polling next := by
  cases hw : w.phase <;> simp [pollsNext, hw]

theorem isBackgroundAct_eq_true_iff (s : State) (a : Action) :
    isBackgroundAct s a = true ↔ s.ntf = .none ∧ (a = .command ∨ ∃ address value, a = .hostWrite address value) := by
  have hctx : contextOf s = .background ↔ s.ntf = .none := by
    refine ⟨fun h => ?_, contextOf_background⟩
    by_contra hn
    cases h.symm.trans (contextOf_handler hn)
  cases a <;> simp [isBackgroundAct, hctx]

/-- With FAULT set the step is the block's, whatever the call (rule R303). -/
theorem waitStep_of_fault {w : Wait} {s : State} {r : FaultReason} (hf : s.fault = some r) :
    waitStep ⟨w, s⟩ = besideWait w (step s) := by
  simp only [waitStep, hf]

/-- What one step does with an offered action in a call. -/
theorem waitStep_offer (w : Wait) {s : State} (a : Action) (more : List Action) (hf : s.fault = none) :
    waitStep ⟨w, offer a more s⟩ =
      if inCall w && isBackgroundAct s a then
        if decide (a = .command) && pollsNext w then waitPoll ⟨w, offer a more s⟩ else .refused (.notEnabled a)
      else besideWait w (step (offer a more s)) := by
  have hact : isBackgroundAct (offer a more s) a = isBackgroundAct s a := by cases a <;> rfl
  have hfo : (offer a more s).fault = none := hf
  have hag : (offer a more s).agenda = a :: more := rfl
  simp only [waitStep, hfo, hag, hact]

/-- Once the call has returned, and for whatever is no act of the background context, the step is the block's. -/
theorem waitStep_beside {w : Wait} {s : State} {a : Action} (more : List Action)
    (h : inCall w = false ∨ isBackgroundAct s a = false) :
    waitStep ⟨w, offer a more s⟩ = besideWait w (step (offer a more s)) := by
  cases hf : s.fault with
  | some r => exact waitStep_of_fault (s := offer a more s) hf
  | none =>
    rw [waitStep_offer w a more hf, if_neg]
    obtain h | h := h <;> simp [h]

/-- An act of the background context in the call is refused, unless it is the call's NOWMS. -/
theorem waitStep_refused {w : Wait} {s : State} {a : Action} (more : List Action) (hf : s.fault = none)
    (hc : inCall w = true) (hb : isBackgroundAct s a = true) (hno : ¬ (a = .command ∧ pollsNext w = true)) :
    waitStep ⟨w, offer a more s⟩ = .refused (.notEnabled a) := by
  rw [waitStep_offer w a more hf, if_pos (by simp [hc, hb]), if_neg (by simpa using hno)]

/-- The call's NOWMS, which the block may refuse. -/
theorem waitStep_poll {w : Wait} {s : State} (more : List Action) (hf : s.fault = none) (hn : s.ntf = .none)
    (hp : pollsNext w = true) : waitStep ⟨w, offer .command more s⟩ = waitPoll ⟨w, offer .command more s⟩ := by
  have hb := (isBackgroundAct_eq_true_iff s .command).mpr ⟨hn, .inl rfl⟩
  rw [waitStep_offer w _ more hf, if_pos (by simp [inCall_of_pollsNext hp, hb]), if_pos (by simp [hp])]

/-- The NOWMS of a held background context is refused (rule R309). -/
theorem waitPoll_held (w : Wait) {s : State} (more : List Action) (hf : s.fault = none)
    (he : enabled s .command = false) :
    waitPoll ⟨w, offer .command more s⟩ = .refused (.notEnabled .command) :=
  congrArg (besideWait _)
    (step_eq_refused (s := { offer .command more s with port := encode .nowms ++ s.port }) hf rfl he)

/-- Settles O60: `waitStep_beside` where the call is left alone, and elsewhere the two answers of `waitStep_offer` to
an act of a background context in the call. -/
theorem waitBlocksOnlyTheBackground : Obligations.WaitBlocksOnlyTheBackground := by
  intro w s a more
  refine ⟨fun r hf => ?quiescent, fun h x => ?beside, fun hf hn hh hw ha => ?poll, fun hf hn hw ha => ?refused⟩
  case quiescent =>
    rw [waitStep_of_fault (s := offer a more s) hf, (actionsAreTakenExactlyWhenEnabled s a more).1 r hf, besideWait]
  case beside =>
    have halone : inCall w = false ∨ isBackgroundAct s a = false := by
      rw [← Bool.not_eq_true, ← Bool.not_eq_true, inCall_eq_true_iff, isBackgroundAct_eq_true_iff]
      obtain ⟨now, hret⟩ | hn | ⟨hc, hwrite⟩ := h
      · exact .inl fun hcall => hcall now hret
      · exact .inr fun ⟨hnone, _⟩ => hn hnone
      · exact .inr fun ⟨_, ha⟩ => ha.elim hc fun ⟨address, value, ha⟩ => hwrite address value ha
    rw [waitStep_beside more halone, besideWait_eq_next]
  case poll =>
    subst ha
    have he : enabled s .command = true := (enabled_iff_mayTake s .command).mpr (.inl ⟨hn, hh⟩)
    have hp := (pollsNext_eq_true_iff w).mpr hw
    refine ⟨_, msNow s, ?_, ?_, exec_nowms _⟩
    · rw [waitStep_poll more hf hn hp]
      exact waitPoll_eq w s more hf he
    · rfl
  case refused =>
    have hc := (inCall_eq_true_iff w).mpr hw
    obtain ⟨rfl, hheld⟩ | ⟨address, value, rfl⟩ := ha
    · have hb := (isBackgroundAct_eq_true_iff s .command).mpr ⟨hn, .inl rfl⟩
      cases hp : pollsNext w with
      | false => exact waitStep_refused more hf hc hb (by simp [hp])
      | true =>
        obtain hh | hend := hheld
        · have he : enabled s .command = false := by simp [enabled, hostMayAct, contextOf_background hn, hh]
          rw [waitStep_poll more hf hn hp, waitPoll_held w more hf he]
        · simp [pollsNext, hend] at hp
    · have hb := (isBackgroundAct_eq_true_iff s (.hostWrite address value)).mpr ⟨hn, .inr ⟨_, _, rfl⟩⟩
      exact waitStep_refused more hf hc hb (by simp)

end Sys2Proof.Machine
end
section
namespace Sys2Proof.Machine

/-! ### STATUS (rule R280) -/

theorem exec_status (s : State) :
    exec .status s = .next (deliver (contextOf s) .ok [statusWord s] s) := rfl

/-- The layout of rule R280, each field of the word at its place. -/
theorem statusWord_fields (s : State) :
    (statusWord s).extractLsb' 0 3 = s.st.code ∧ (statusWord s).getLsbD 3 = s.busy ∧
      (statusWord s).extractLsb' 4 2 = ntfKind s.ntf ∧ (statusWord s).getLsbD 6 = s.busOut.isSome ∧
      (statusWord s).getLsbD 7 = false ∧ (statusWord s).extractLsb' 8 8 = BitVec.ofNat 8 s.qCount ∧
      (statusWord s).extractLsb' 16 8 = BitVec.ofNat 8 (poolFree s) ∧ (statusWord s).extractLsb' 24 8 = 0 := by
  refine ⟨?_, getLsbD_of_field ?_, ?_, getLsbD_of_field ?_, getLsbD_of_field ?_, ?_, ?_, ?_⟩ <;>
    simp (disch := omega) only [statusWord, BitVec.extractLsb'_append_eq_of_le,
      BitVec.extractLsb'_append_eq_of_add_le] <;>
    exact BitVec.extractLsb'_eq_self

theorem poolFree_eq_countP (s : State) :
    poolFree s = (List.range s.cfg.poolCap).countP fun i => s.alloc.getD i false == false := by
  simp [poolFree, freeRecords, List.countP_eq_length_filter]

theorem poolFree_le_poolCap (s : State) : poolFree s ≤ s.cfg.poolCap :=
  (List.length_filter_le _ _).trans_eq List.length_range

/-- Settles O53: `statusWord_fields`, whose two counts fit their fields. -/
theorem statusWordFields : Obligations.StatusWordFields := by
  intro s hq hp
  obtain ⟨hst, hbusy, hntf, hout, h7, hcount, hfree, hhigh⟩ := statusWord_fields s
  have hle := poolFree_le_poolCap s
  refine ⟨_, statusWord s, exec_status s, rfl, ?st, hbusy, ?ntf, hout, h7, ?queue, ?pool, hhigh,
    sameButResponses_deliver s _ _ _⟩
  case st => rw [hst]; cases s.st <;> rfl
  case ntf => rw [hntf]; cases s.ntf <;> rfl
  case queue => rw [hcount, BitVec.toNat_ofNat, Nat.mod_eq_of_lt (by omega)]
  case pool => rw [hfree, BitVec.toNat_ofNat, Nat.mod_eq_of_lt (by omega), poolFree_eq_countP]

end Sys2Proof.Machine
end
section
namespace Sys2Proof.Machine

/-! ### What a command can come to (rules R300, R302, R303) -/

/-- The effects of command i, before it answers or holds: they set no fault and answer nothing, and in a state that
meets the invariants only RETURN touches NTF. -/
structure EffectsOf (i : Instr) (s u : State) : Prop where
  fault : u.fault = s.fault
  responses : u.responses = s.responses
  ntf : Inv s → i ≠ .ret → u.ntf = s.ntf

/-- All that command i can come to. Where the invariants fail, the kick of SUBMIT may enter another arm than IDLE and
notify, so what is said of NTF and of the answer's context assumes them. -/
inductive CommandOutcome (i : Instr) (s t : State) : Prop
  /-- It answers, and does nothing else. -/
  | refuses (code : ResultCode) (hcode : CodeAllowed i code) (ht : t = deliver (contextOf s) code [] s)
  /-- It faults, and does nothing else. -/
  | faults (r : FaultReason) (hr : FaultAllowed i r) (ht : t = { s with fault := some r })
  /-- It has its effects and answers OK. -/
  | answers (x : Context) (data : List Word) (u : State) (he : EffectsOf i s u) (hx : Inv s → x = contextOf s)
      (ht : t = deliver x .ok data u)
  /-- A blocking SUBMIT waits for its records. -/
  | holds (hs : List Handle) (u : State) (hi : i = .submit true hs) (he : EffectsOf i s u) (hb : u.busy = true)
      (ht : t = holdContext u)

theorem codeAllowed_ok (i : Instr) : CodeAllowed i .ok := by
  cases i <;> simp [CodeAllowed]

/-- A command that leaves the engine alone answers in the context it was issued in. -/
theorem CommandOutcome.answersHere {i : Instr} {s u : State} (he : EffectsOf i s u) (data : List Word) :
    CommandOutcome i s (deliver (contextOf s) .ok data u) :=
  .answers _ data u he (fun _ => rfl) rfl

theorem effectsOf_of_sansRecords {i : Instr} {s u : State} (h : sansRecords u = sansRecords s) : EffectsOf i s u :=
  ⟨congrArg (·.fault) h, congrArg (·.responses) h, fun _ _ => congrArg (·.ntf) h⟩

theorem effectsOf_setTable (i : Instr) (s : State) (tb : Table) (T : CbTable) : EffectsOf i s (setTable s tb T) :=
  ⟨setTable_fault s tb T, setTable_responses s tb T, fun _ _ => setTable_ntf s tb T⟩

/-! #### The faults of the host duties (rules R124, R162, R302) -/

theorem code_le_of_hostWritableFault {s : State} {h : Handle} {r : FaultReason} (hr : hostWritableFault s h = some r) :
    r.code ≤ 2 := by
  unfold hostWritableFault at hr
  split at hr
  · cases hr
    decide
  · split at hr <;> cases hr
    decide

theorem code_le_of_submitFault {s : State} {h : Handle} {r : FaultReason} (hr : submitFault s h = some r) :
    r.code ≤ 5 := by
  unfold submitFault at hr
  repeat' split at hr
  all_goals cases hr
  all_goals decide

theorem code_le_of_submitFaults {s : State} {hs : List Handle} {r : FaultReason} (hr : submitFaults s hs = some r) :
    r.code ≤ 5 := by
  unfold submitFaults at hr
  split at hr
  · cases hr
    decide
  · obtain ⟨h, -, hr⟩ := List.exists_of_findSome?_eq_some hr
    exact code_le_of_submitFault hr

/-! #### The commands that run the engine or the dispatch (rules R162, R194, R254) -/

theorem effectsOf_kick {b : Bool} {hs : List Handle} {s u : State} (hk : kick (enqueueAll hs s) = .next u) :
    EffectsOf (.submit b hs) s u := by
  have hu := (sansEngine_of_kick hk).trans (sansEngine_enqueueAll hs s)
  refine ⟨congrArg (·.fault) hu, congrArg (·.responses) hu, fun hi _ => ?_⟩
  cases (hi.kick_enqueueAll hs).symm.trans hk
  exact kicked_ntf hs s

theorem outcome_of_execSubmit {b : Bool} {hs : List Handle} {s t : State} (hx : execSubmit b hs s = .next t) :
    CommandOutcome (.submit b hs) s t := by
  obtain ⟨-, ht⟩ | ⟨-, r, hr, ht⟩ | ⟨-, -, -, ht⟩ | ⟨-, -, -, u, hk, hf⟩ := execSubmit_next hx
  · exact .refuses .illegal (.inr (.inr rfl)) ht
  · exact .faults r (code_le_of_submitFaults hr) ht
  · exact .refuses .noSpace (.inr (.inl rfl)) ht
  · have he : EffectsOf (.submit b hs) s u := effectsOf_kick hk
    obtain ⟨rfl, hb, ht⟩ | ⟨-, ht⟩ := finishSubmit_next hf
    · exact .holds hs u rfl he hb ht
    · exact .answers _ [] u he (fun hi => contextOf_congr (he.ntf hi nofun)) ht

theorem outcome_of_execRet {s t : State} (hx : execRet s = .next t) : CommandOutcome .ret s t := by
  obtain ⟨-, ht⟩ | ⟨_, _, _, _, _, u, hn, hr, ht⟩ | ⟨_, _, _, _, hn, ht⟩ := execRet_next hx
  · exact .refuses .illegal (.inr rfl) ht
  · have hu := sansEngine_of_engineResume hr
    exact .answers .handler [] u ⟨congrArg (·.fault) hu, congrArg (·.responses) hu, fun _ h => absurd rfl h⟩
      (fun _ => (contextOf_handler (by simp [hn])).symm) ht
  · obtain ⟨ntf, due, picks, draws, he, -⟩ := tickReturn_eq s
    exact .answers .handler [] (tickReturn s)
      ⟨congrArg (·.fault) he, congrArg (·.responses) he, fun _ h => absurd rfl h⟩
      (fun _ => (contextOf_handler (by simp [hn])).symm) ht

/-! #### All commands -/

theorem outcome_of_exec {i : Instr} {s t : State} (hx : exec i s = .next t) : CommandOutcome i s t := by
  cases i with
  | submit b hs => exact outcome_of_execSubmit hx
  | ret => exact outcome_of_execRet hx
  | clkinit _ | nowms | nowus | status =>
    cases hx
    refine .answersHere ?_ _
    exact ⟨rfl, rfl, fun _ _ => rfl⟩
  | reserve n =>
    obtain ⟨-, ht⟩ | ⟨-, rfl⟩ := execReserve_next hx
    · exact .refuses .noSpace (.inr rfl) ht
    · exact .answersHere (effectsOf_of_sansRecords (allocateAll_keeps sansRecords sansRecords_allocate _ s)) _
  | free h =>
    obtain ⟨-, ht⟩ | ⟨-, -, ht⟩ | ⟨-, -, -, -, ht⟩ | ⟨-, -, -, -, rfl⟩ := execFree_next hx
    · exact .refuses .illegal (.inr rfl) ht
    · exact .refuses .ok (.inl rfl) ht
    · exact .faults .queuedRecord rfl ht
    · exact .answersHere (effectsOf_of_sansRecords (sansRecords_setAlloc s h false)) _
  | setup h a d stop c =>
    obtain ⟨-, ht⟩ | ⟨-, r, hr, ht⟩ | ⟨-, -, rfl⟩ := execSetup_next hx
    · exact .refuses .illegal (.inr rfl) ht
    · exact .faults r (code_le_of_hostWritableFault hr) ht
    · exact .answersHere (effectsOf_of_sansRecords (sansRecords_setRec s h _)) _
  | wrrec h f k v =>
    obtain ⟨-, ht⟩ | ⟨-, -, r, hr, ht⟩ | ⟨-, -, -, rfl⟩ := execWrrec_next hx
    · exact .refuses .illegal (.inr rfl) ht
    · exact .faults r (code_le_of_hostWritableFault hr) ht
    · exact .answersHere (effectsOf_of_sansRecords (sansRecords_setRec s h _)) _
  | rdrec h f k =>
    obtain ⟨-, ht⟩ | ⟨-, -, rfl⟩ := execRdrec_next hx
    · exact .refuses .illegal (.inr rfl) ht
    · exact .answersHere ⟨rfl, rfl, fun _ _ => rfl⟩ _
  | cbreg tb v cb =>
    obtain ⟨-, ht⟩ | ⟨-, -, ht⟩ | ⟨-, -, -, ht⟩ | ⟨-, -, -, rfl⟩ := execCbreg_next hx
    · exact .refuses .illegal (.inr (.inr rfl)) ht
    · exact .faults .tableInDispatch rfl ht
    · exact .refuses .full (.inr (.inl rfl)) ht
    · exact .answersHere (effectsOf_setTable _ s tb _) _
  | cbunreg tb cb =>
    obtain ⟨-, ht⟩ | ⟨-, -, ht⟩ | ⟨-, -, -, ht⟩ | ⟨-, -, k, -, rfl⟩ := execCbunreg_next hx
    · exact .refuses .illegal (.inr rfl) ht
    · exact .faults .tableInDispatch rfl ht
    · exact .refuses .ok (.inl rfl) ht
    · exact .answersHere (effectsOf_setTable _ s tb _) _

/-! ### Faults and answers (rules R300, R303) -/

/-- Settles O12: of the outcomes of a command only a fault sets FAULT, and a step asks for FAULT first. -/
theorem faultingCommandOnlySetsFault : Obligations.FaultingCommandOnlySetsFault := by
  refine ⟨fun i s t hf hx hne => ?_, fun s r hr => by simp [step, hr]⟩
  cases outcome_of_exec hx with
  | refuses code _ ht => exact absurd (ht ▸ hf) hne
  | faults r hr ht => exact ⟨r, hr, ht⟩
  | answers x data u he _ ht => exact absurd (ht ▸ he.fault.trans hf) hne
  | holds hs u _ he _ ht => exact absurd (ht ▸ (holdContext_fault u).trans (he.fault.trans hf)) hne

theorem holdContext_held (s : State) : (holdContext s).bgHold = true ∨ (holdContext s).hHold = true := by
  unfold holdContext
  split
  · exact .inl rfl
  · exact .inr rfl

/-- Settles O13: an outcome of a command is one of the table's, answered in the issuing context. -/
theorem commandOutcomesAreTheTable : Obligations.CommandOutcomesAreTheTable := by
  intro i s t hi hx
  cases outcome_of_exec hx with
  | refuses code hcode ht =>
    subst ht
    exact .inl ⟨code, [], rfl, hcode, fun _ => ⟨rfl, sameButResponses_deliver s _ _ _⟩⟩
  | faults r hr ht => exact .inr ⟨ht ▸ rfl, .inl ⟨r, hr, ht⟩⟩
  | answers x data u he hctx ht =>
    refine .inl ⟨.ok, data, ?_, codeAllowed_ok i, absurd rfl⟩
    rw [Answered, ht, deliver_responses, he.responses, hctx hi]
  | holds hs u hsubmit he hb ht =>
    subst ht
    exact .inr ⟨(holdContext_responses u).trans he.responses,
      .inr ⟨⟨hs, hsubmit⟩, (holdContext_busy u).trans hb, holdContext_held u⟩⟩

/-! ### Who changes NTF (rule R313) -/

theorem Inv.ntf_of_exec {i : Instr} {s t : State} (hi : Inv s) (hret : i ≠ .ret) (hx : exec i s = .next t) :
    t.ntf = s.ntf := by
  cases outcome_of_exec hx with
  | refuses code _ ht => exact ht ▸ rfl
  | faults r _ ht => exact ht ▸ rfl
  | answers x data u he _ ht => exact ht ▸ he.ntf hi hret
  | holds hs u _ he _ ht => exact ht ▸ (holdContext_ntf u).trans (he.ntf hi hret)

/-- Of the commands only RETURN changes NTF, and only where a notification is pending (rules R281, R313). -/
theorem Inv.ret_of_ntf_ne {i : Instr} {s t : State} (hi : Inv s) (hx : exec i s = .next t) (hne : t.ntf ≠ s.ntf) :
    i = .ret ∧ s.ntf ≠ .none := by
  obtain rfl : i = .ret := by_contra fun hret => hne (hi.ntf_of_exec hret hx)
  refine ⟨rfl, fun hn => hne ?_⟩
  cases (exec_ret_background hn).symm.trans hx
  rfl

/-- Settles O14: a bus event and a tick are enabled only with no notification pending, and of the commands only RETURN
changes NTF. -/
theorem handlersNeverNest : Obligations.HandlersNeverNest := by
  intro s t hi hx hne
  obtain ⟨-, ⟨-, rfl⟩ | ⟨a, more, hag, he, ha⟩⟩ := step_next hx
  · exact absurd rfl hne
  have hm := (enabled_iff_mayTake s a).mp he
  have htakes : Takes s a := ⟨more, hag⟩
  cases a with
  | command =>
    obtain ⟨i, rest, hd, hx⟩ | ⟨e, rest, -, rfl⟩ := issueCommand_next ha
    · have hi' : Inv { s with agenda := more, port := rest } := hi.keep_outside ..
      obtain ⟨rfl, hn⟩ := hi'.ret_of_ntf_ne hx hne
      exact .inr ⟨hn, htakes, rest, hd⟩
    · exact absurd rfl hne
  | busEvent code data => exact .inl ⟨hm.2, .inl ⟨code, data, htakes⟩⟩
  | fineTick => exact .inl ⟨hm, .inr (.inl htakes)⟩
  | coarseTick => exact .inl ⟨hm.2, .inr (.inr htakes)⟩
  | liftBackground =>
    cases ha
    exact absurd rfl hne
  | liftHandler =>
    cases ha
    exact absurd rfl hne
  | hostWrite address value =>
    obtain ⟨-, rfl⟩ := memWrite_next ha
    exact absurd rfl hne

end Sys2Proof.Machine
end

section
namespace Sys2Proof.Machine

/-! ### The hold of a handler (rule R362) -/

theorem deliver_responses_ne (x : Context) (code : ResultCode) (data : List Word) (s : State) :
    (deliver x code data s).responses ≠ s.responses := by simp

theorem holdContext_hHold_of_handler {s : State} (hn : s.ntf ≠ .none) : (holdContext s).hHold = true := by
  simp [holdContext, contextOf_handler hn]

/-- The deadlock: the handler waits for BUSY = 0, and the events that would clear BUSY wait for the handler. -/
theorem stuck_of_handler_held {s : State} (hf : s.fault = none) (hn : s.ntf ≠ .none) (hb : s.busy = true)
    (hh : s.hHold = true) : Stuck s := by
  have hact : hostMayAct s = false := by simp [hostMayAct, contextOf_handler hn, hh]
  refine ⟨hf, fun a => ?_⟩
  cases a with
  | command | hostWrite => exact hact
  | busEvent | fineTick | coarseTick => simp [enabled, hn]
  | liftBackground | liftHandler => simp [enabled, hb]

/-- Settles O15: of the outcomes of a command only the hold neither faults nor answers, and it holds the handler with
BUSY = 1. -/
theorem blockingSubmitInHandlerIsStuck : Obligations.BlockingSubmitInHandlerIsStuck := by
  intro s t hs hi _ hn hx hft hresp
  cases outcome_of_exec hx with
  | refuses code _ ht => exact absurd (ht ▸ hresp) (deliver_responses_ne _ _ _ _)
  | faults r _ ht => exact absurd (ht ▸ hft) nofun
  | answers x data u he _ ht => exact absurd ((ht ▸ hresp).trans he.responses.symm) (deliver_responses_ne _ _ _ _)
  | holds _ u _ he hb ht =>
    subst ht
    have hnu : u.ntf ≠ .none := (he.ntf hi nofun).symm ▸ hn
    exact stuck_of_handler_held hft ((holdContext_ntf u).symm ▸ hnu) ((holdContext_busy u).trans hb)
      (holdContext_hHold_of_handler hnu)

/-! ### The reset table (rule R350) -/

theorem alloc_resetWith {c : Config} {i : Nat} (hi : i < c.poolCap) :
    (State.resetWith c).alloc[i]? = some false :=
  List.getElem?_replicate_of_lt hi

theorem eq_atReset_of_mem_resetWith {c : Config} {r : Record}
    (hr : r ∈ (State.resetWith c).pool ++ (State.resetWith c).caller) : r = Record.atReset c.inlineBytes :=
  (List.mem_append.mp hr).elim List.eq_of_mem_replicate List.eq_of_mem_replicate

/-- Settles O7: but for the bits of the pool and of the records, the table is `State.resetWith` field by field. -/
theorem resetStateIsTheTable : Obligations.ResetStateIsTheTable := by
  intro c
  refine ⟨rfl, rfl, rfl, rfl, rfl, rfl, rfl, rfl, ?alloc, ?records, rfl, rfl, rfl, rfl, rfl, rfl, rfl, rfl, rfl, rfl, rfl,
    rfl⟩
  case alloc => exact fun i hi => alloc_resetWith hi
  case records =>
    intro r hr
    rw [eq_atReset_of_mem_resetWith hr]
    exact ⟨rfl, rfl⟩

end Sys2Proof.Machine
end

section
namespace Sys2Proof

/-! ### The words of the spec's examples (rules R82 to R94) -/

theorem decode_encode {i : Instr} (hwf : i.wellFormed = true) : decode (encode i) = .instr i [] := by
  simpa using decodeEncodeRoundTrip i [] hwf

/-- Settles O5: each word list is what its command encodes to. -/
theorem specExampleWordsDecode : Obligations.SpecExampleWordsDecode := by
  exact ⟨decode_encode (i := .reserve 2) rfl, decode_encode (i := .free 0x81) rfl,
    decode_encode (i := .setup 0x80 0x64 .write false 1) rfl, decode_encode (i := .setup 0x81 0x64 .read true 2) rfl,
    decode_encode (i := .wrrec 0x81 .callback 0 0x22) rfl, decode_encode (i := .rdrec 0x80 .inlineByte 15) rfl,
    decode_encode (i := .submit true [0x80, 0x81]) rfl, decode_encode (i := .clkinit 10) rfl,
    decode_encode (i := .nowms) rfl, decode_encode (i := .nowus) rfl, decode_encode (i := .cbreg .slow 1 0x303) rfl,
    decode_encode (i := .cbunreg .fast 0x101) rfl, decode_encode (i := .status) rfl, decode_encode (i := .ret) rfl⟩

end Sys2Proof
end
